-- ==== Sys2Proof/Word.lean ====
section
/-! DEFINITION. The word types of the block (spec/00_scope.md R9, R11; spec/10_state.md R16, R18). -/

namespace Sys2Proof

/-- A 256-bit value: an operand register, a curve register, a coordinate (R9, R16, R20). -/
abbrev Word := BitVec 256

/-- One byte of a byte string or of `BUF` (R12, R23). -/
abbrev Byte := BitVec 8

/-- A 32-bit word on the host bus (R39). -/
abbrev BusWord := BitVec 32

/-- A byte address inside the host register window, `PADDR[11:0]` (R36, R39). -/
abbrev Offset := BitVec 12

/-- A 32-bit command word (R53). -/
abbrev CmdWord := BitVec 32

/-- The number of an operand register, `r0`..`r15` (R16). -/
abbrev Reg := Fin 16

/-- The number of a point register, `pt0`..`pt7` (R18). -/
abbrev PtReg := Fin 8

end Sys2Proof
end

