-- ==== Sys2Proof/Config.lean ====
section
/-! DEFINITION. What an implementation fixes (spec/00_scope.md R9), the reset values of the curve registers
(spec/10_state.md R21), and the open parameters of R9, which have no body. -/

namespace Sys2Proof.Config

/-- `MAX_ATTEMPTS`: nonce candidates per SIGN or NONCE (R9, R33). -/
def maxAttempts : Nat := 1000

/-- `BUF_BYTES` (R9, R23). -/
def bufBytes : Nat := 128

/-- `CURVE.p` after reset: `2^256 - 2^32 - 977` (R21). -/
def secpP : Word := 0xFFFFFFFFFFFFFFFFFFFFFFFFFFFFFFFFFFFFFFFFFFFFFFFFFFFFFFFEFFFFFC2F#256

/-- `CURVE.a` after reset (R21). -/
def secpA : Word := 0#256

/-- `CURVE.b` after reset (R21). -/
def secpB : Word := 7#256

/-- `CURVE.gx` after reset (R21). -/
def secpGx : Word := 0x79BE667EF9DCBBAC55A06295CE870B07029BFCDB2DCE28D959F2815B16F81798#256

/-- `CURVE.gy` after reset (R21). -/
def secpGy : Word := 0x483ADA7726A3C4655DA4FBFC0E1108A8FD17B448A68554199C47D08FFB10D4B8#256

/-- `CURVE.n` after reset (R21). -/
def secpN : Word := 0xFFFFFFFFFFFFFFFFFFFFFFFFFFFFFFFEBAAEDCE6AF48A03BBFD25E8CD0364141#256

/-- `ID`: name `0xEC25`, version 1.0 (R24). -/
def idValue : BusWord := 0xEC250100#32

/-- `HWCFG`: 16 operand registers, 8 point registers, 128 buffer bytes (R25). -/
def hwcfgValue : BusWord := 0x00800810#32

/-- `MAXATT` (R33). -/
def maxattValue : BusWord := 0x000003E8#32

/-- The OPEN parameter `HMAC` of R9: from a 32-byte key and a message to 32 bytes, key and result read as
big-endian integers. It is required to be HMAC-SHA256; nothing is assumed of it here (R121, entry 8). -/
opaque hmac : Word → List Byte → Word

/-- The OPEN parameter `BASE` of R9, in units of 4 KiB, so that every value is an aligned base (R37, entry 15). -/
opaque basePage : Nat

/-- The OPEN parameter `IRQ_LINE` of R9: the number of the platform's line (R118, entry 15). -/
opaque irqLine : Nat

end Sys2Proof.Config
end

