-- ==== Sys2Proof/Syntax.lean ====
section
/-! DEFINITION. The commands of the block: one constructor per row of spec/opcode_table.json
(spec/30_encoding.md R58). -/

namespace Sys2Proof

/-- The modulus a modular command selects with its `M` bit: `CURVE.p` for 0, `CURVE.n` for 1 (R56). -/
inductive ModSel where
  | p
  | n
  deriving DecidableEq, Repr

/-- A command. The operands stand in the order of the assembler syntax of R62. -/
inductive Instr where
  /-- NOP (R69). -/
  | nop
  /-- MOV `rd, ra` (R70). -/
  | mov (d a : Reg)
  /-- ADD.m `rd, ra, rb` (R71). -/
  | add (d a b : Reg) (m : ModSel)
  /-- SUB.m `rd, ra, rb` (R72). -/
  | sub (d a b : Reg) (m : ModSel)
  /-- MUL.m `rd, ra, rb` (R73). -/
  | mul (d a b : Reg) (m : ModSel)
  /-- MMUL.m `rd, ra, rb` (R74). -/
  | mmul (d a b : Reg) (m : ModSel)
  /-- RED.m `rd, ra` (R75). -/
  | red (d a : Reg) (m : ModSel)
  /-- REDW.m `rd, ra`: the group `ra, ra+1` (R76). -/
  | redw (d a : Reg) (m : ModSel)
  /-- POW.m `rd, ra, rb` (R77). -/
  | pow (d a b : Reg) (m : ModSel)
  /-- INV.m `rd, ra` (R78). -/
  | inv (d a : Reg) (m : ModSel)
  /-- DIV.m `rd, ra, rb` (R79). -/
  | div (d a b : Reg) (m : ModSel)
  /-- SQRT.m `rd, rc, ra` (R80). -/
  | sqrt (d c a : Reg) (m : ModSel)
  /-- RAND.m `rd` (R81). -/
  | rand (d : Reg) (m : ModSel)
  /-- PINF `ptd` (R89). -/
  | pinf (d : PtReg)
  /-- PGEN `ptd` (R90). -/
  | pgen (d : PtReg)
  /-- PSET `ptd, ra, rb` (R91). -/
  | pset (d : PtReg) (a b : Reg)
  /-- PMOV `ptd, pta` (R92). -/
  | pmov (d a : PtReg)
  /-- PGETX `rd, pta` (R93). -/
  | pgetx (d : Reg) (a : PtReg)
  /-- PGETY `rd, pta` (R94). -/
  | pgety (d : Reg) (a : PtReg)
  /-- PADD `ptd, pta, ptb` (R95). -/
  | padd (d a b : PtReg)
  /-- PMUL `ptd, pta, rb` (R96). -/
  | pmul (d a : PtReg) (b : Reg)
  /-- PMULADD `ptd, pta, ptb, rc`: the scalar group `rc, rc+1` (R97). -/
  | pmuladd (d a b : PtReg) (c : Reg)
  /-- PFROMX.even / PFROMX.odd `ptd, ra` (R98). -/
  | pfromx (d : PtReg) (a : Reg) (odd : Bool)
  /-- ENCODE.u / ENCODE.c `pta` (R99). -/
  | encode (a : PtReg) (compressed : Bool)
  /-- DECODE `ptd` (R100). -/
  | decode (d : PtReg)
  /-- SIGN.rnd / SIGN.det `rd, ra, rb` without a chain id: the result group `rd..rd+2` (R104). -/
  | sign (d a b : Reg) (det : Bool)
  /-- SIGN.rnd.cid / SIGN.det.cid `rd, ra, rb, rc`, chain id in `rc` (R104). -/
  | signCid (d a b c : Reg) (det : Bool)
  /-- VERIFY `rd, ra, rb`: the signature group `ra, ra+1` (R105). -/
  | verify (d a b : Reg)
  /-- RECOVER `ptd, ra, rb`: the signature group `ra..ra+2` (R106). -/
  | recover (d : PtReg) (a b : Reg)
  /-- NONCE `rd, ra, rb` (R103). -/
  | nonce (d a b : Reg)
  deriving DecidableEq, Repr

end Sys2Proof
end

