-- ==== Sys2Proof/Machine/State.lean ====
section
/-! DEFINITION. The state of the block as plain data (spec/10_state.md, spec/60_exceptions.md R121, R122,
spec/70_reset_and_hazards.md R131, R133), the two reason types of the interface, and the state after reset. -/

namespace Sys2Proof.Machine

/-- The content of a point register: the point at infinity, or an affine pair (R14, R18). The X and Y words of
`inf` are stored as 0 (R18), so they need no field. -/
inductive Point where
  | inf
  | affine (x y : Word)
  deriving DecidableEq, Repr

/-- The curve configuration registers (R20). -/
structure Curve where
  p : Word
  a : Word
  b : Word
  gx : Word
  gy : Word
  n : Word
  deriving DecidableEq, Repr

/-- The flags of `STATUS` (R27). `busy` is also the engine phase of R35. -/
structure Status where
  busy : Bool
  done : Bool
  err : Bool
  cmdDropped : Bool
  accViol : Bool
  deriving DecidableEq, Repr

/-- The result codes of R107. The last three are reserved names that no command produces. -/
inductive ResultCode where
  | ok
  | illegalCommand
  | badModulus
  | unsupportedModulus
  | aborted
  | retryLimit
  | pointAtInfinity
  | scalarOutOfRange
  | chainidRange
  | invalidRecoveryId
  | invalidPrivateKey
  | signatureOutOfRange
  | pointNotOnCurve
  | invalidEncoding
  | notAQuadraticResidue
  | noInverse
  | unrecoverableKey
  | invalidPublicKey
  | tweakOutOfRange
  | resultingKeyZero
  | inputTooLong
  deriving DecidableEq, Repr

/-- One host bus transfer (R39). `strb` is `PSTRB`. -/
inductive Transfer where
  | read (addr : Offset)
  | write (addr : Offset) (strb : BitVec 4) (data : BusWord)
  deriving DecidableEq, Repr

/-- What a transfer answers: `PRDATA` and `PSLVERR` (R39). -/
structure Response where
  data : BusWord
  err : Bool
  deriving DecidableEq, Repr

/-- The events from outside, each one atomic step (R48, R119), and the passing of time. -/
inductive Input where
  /-- A host bus transfer (R39). -/
  | bus (t : Transfer)
  /-- `hm_req_ready`: the HMAC unit takes the request presented (R121). -/
  | hmacReady
  /-- `hm_rsp_valid` with `hm_rsp_data` (R121). -/
  | hmacResponse (data : BitVec 256)
  /-- `rng_ack` with `rng_data` (R122). -/
  | rngAck (data : BitVec 512)
  /-- `PRESETn` takes this level (R131). -/
  | resetPin (level : Bool)
  /-- Time passes until the engine has made one internal step (R112, R142; entry 3). -/
  | turn
  deriving DecidableEq, Repr

/-- A request on the HMAC port: a 32-byte key, as its big-endian integer, and a message (R121). -/
structure HmacRequest where
  key : Word
  msg : List Byte
  deriving DecidableEq, Repr

/-- The HMAC port (R121). A request whose `live` is false outlived its command: its response is discarded
(R120, R121). -/
inductive HmacPort where
  | idle
  /-- `hm_req_valid` is 1. -/
  | presented (req : HmacRequest) (live : Bool)
  /-- The unit has taken the request and has not answered. -/
  | outstanding (req : HmacRequest) (live : Bool)
  /-- The response has arrived and the engine has not used it yet. -/
  | answered (data : BitVec 256)
  deriving DecidableEq, Repr

/-- The RNG port (R122), with the same reading of `live`. -/
inductive RngPort where
  | idle
  /-- A request is outstanding. That `rng_req` is held at 1 all this time is the model's choice (entry 23). -/
  | requested (live : Bool)
  | answered (data : BitVec 512)
  deriving DecidableEq, Repr

/-- The HMAC transaction of R102 the running command is at. -/
inductive DrbgStep where
  | initK0
  | initV0
  | initK1
  | initV1
  | rejectK
  | rejectV
  | next
  deriving DecidableEq, Repr

/-- Where the running command stands in its rule: at its beginning, at an HMAC transaction (R102), or at an RNG
transaction of SIGN (R104). -/
inductive Stage where
  | start
  | drbg (k : DrbgStep)
  | random
  deriving DecidableEq, Repr

/-- Byte memory as cells with strictly rising addresses, none of which holds what an unlisted address reads as
(entry 12). -/
abbrev Memory := List Host.Cell

/-- The state of the block. -/
structure State where
  /-- `r0`..`r15` (R16). -/
  regs : Vector Word 16
  /-- `pt0`..`pt7` (R18). -/
  points : Vector Point 8
  /-- The `CURVE` registers (R20). -/
  curve : Curve
  /-- `BUF` (R23), by byte index. -/
  buf : Memory
  /-- `BUF_LEN` (R30). -/
  bufLen : BitVec 8
  /-- `CTRL.IE` (R26). -/
  ie : Bool
  /-- `STATUS` (R27). -/
  status : Status
  /-- `ERRCODE` (R28). -/
  errcode : ResultCode
  /-- `CMD_LAST` (R29), the latched command word while BUSY (R35). -/
  cmdLast : CmdWord
  /-- `ATTEMPTS` (R31). -/
  attempts : BitVec 16
  /-- Where the running command stands (R35, R102, R104). -/
  stage : Stage
  /-- The DRBG's `K` (R35, R102), as its big-endian integer. -/
  drbgK : Word
  /-- The DRBG's `V` (R35, R102), as its big-endian integer. -/
  drbgV : Word
  /-- The attempt counter (R35, R104). -/
  attempt : Nat
  /-- The HMAC transaction in flight (R35, R121). -/
  hmacPort : HmacPort
  /-- The RNG transaction in flight (R35, R122). -/
  rngPort : RngPort
  /-- The level of `PRESETn` (R131). -/
  presetn : Bool
  /-- The answer of the last transfer (R39); the model's own field (entry 7). -/
  response : Option Response
  /-- The outside events to come, oldest first; the model's own field (entry 2). -/
  inputs : List Input
  deriving DecidableEq, Repr

/-- Why the machine could stop with a fault. Nothing stops it: an error ends one command and is reported
(R107, R114, R116), and a refused transfer is answered with `PSLVERR` (R38, R40, R47); see entry 20. -/
inductive Fault where
  deriving DecidableEq, Repr

/-- Why an instruction could have no meaning. -/
inductive Refusal where
  /-- The instruction of that mnemonic is not modelled. Only `exec` may raise it, for an instruction whose arm has
  no meaning yet (safe); no arm does. -/
  | notModelled (mnemonic : String)
  deriving DecidableEq, Repr

/-- What the next step is about: a state already reached, or a command whose turn it is. -/
inductive Turn where
  | settled (t : State)
  | run (i : Instr) (t : State)
  deriving DecidableEq, Repr

/-- The curve registers after reset (R21). -/
def Curve.reset : Curve :=
  { p := Config.secpP, a := Config.secpA, b := Config.secpB, gx := Config.secpGx, gy := Config.secpGy,
    n := Config.secpN }

/-- No flag set (R27). -/
def Status.reset : Status :=
  { busy := false, done := false, err := false, cmdDropped := false, accViol := false }

/-- The state after reset (R133). `drbgK`, `drbgV` and `attempt`, which R133 leaves unspecified and calls never
observable, are 0 (entry 5); no transfer has been answered and no event is to come (entries 2 and 7). -/
def State.reset : State :=
  { regs := Vector.replicate 16 0#256
    points := Vector.replicate 8 .inf
    curve := Curve.reset
    buf := []
    bufLen := 0#8
    ie := false
    status := Status.reset
    errcode := .ok
    cmdLast := 0#32
    attempts := 0#16
    stage := .start
    drbgK := 0#256
    drbgV := 0#256
    attempt := 0
    hmacPort := .idle
    rngPort := .idle
    presetn := true
    response := none
    inputs := [] }

end Sys2Proof.Machine
end

