-- ==== Sys2Proof/Machine/Arith.lean ====
section
/-! DEFINITION. The modular arithmetic units: reduction, exponentiation, extended Euclid, Fermat division, square root
(spec/41_modular.md R66-R80), the Montgomery product (R74), and the REDC and Barrett methods of R82 and R83, which have no
visible effect. -/

namespace Sys2Proof.Machine

/-- `reduce(m, x)`: the representative in `[0, m)`, also for negative `x` (R10, R66). -/
def reduce (m : Nat) (x : Int) : Nat := (x % (m : Int)).toNat

/-- Repeated squaring over the low `k` bits of `e`, most significant first (R77). -/
def powLoop (m b e : Nat) : Nat → Nat → Nat
  | 0, acc => acc
  | k + 1, acc => powLoop m b e k (if e.testBit k then acc * acc % m * b % m else acc * acc % m)

/-- `b^e mod m` for an exponent of 256 bits, with `b^0 = 1` (R77). -/
def powMod (m b e : Nat) : Nat := powLoop m b e 256 1

/-- The loop of R78 on `(r0, r1, s0, s1)`, with a bound on the number of iterations; it returns `(r0, s0)`. -/
def euclidLoop : Nat → Nat → Nat → Int → Int → Nat × Int
  | 0, r0, _, s0, _ => (r0, s0)
  | fuel + 1, r0, r1, s0, s1 =>
    if r1 = 0 then (r0, s0)
    else euclidLoop fuel r1 (r0 - r0 / r1 * r1) s1 (s0 - ((r0 / r1 : Nat) : Int) * s1)

/-- More iterations than the loop of R78 makes on 256-bit operands (R78: about `1.44·256 + 2`; entry 19). -/
def euclidBound : Nat := 520

/-- `inverse(a, m)` (R78). -/
def inverse (m a : Nat) : Except ResultCode Nat :=
  let r := euclidLoop euclidBound (a % m) m 1 0
  if r.1 = 1 then .ok (reduce m r.2) else .error .noInverse

/-- `divide(m, a, b)`: `a · b^(m-2) mod m`, and `NoInverse` when `b mod m = 0` (R79, R84). -/
def divide (m : Nat) (a b : Int) : Except ResultCode Nat :=
  if reduce m b = 0 then .error .noInverse
  else .ok (reduce m (a * (powMod m (reduce m b) (m - 2) : Nat)))

/-- `SQRT_F(m, v)`: the pair `(r, m - r)` in that order (R80, R88). -/
def squareRoots (m : Nat) (v : Int) : Except ResultCode (Nat × Nat) :=
  if m % 4 ≠ 3 then .error .unsupportedModulus
  else if powMod m (reduce m v) ((m - 1) / 2) % m ≠ 1 then .error .notAQuadraticResidue
  else .ok (powMod m (reduce m v) ((m + 1) / 4), m - powMod m (reduce m v) ((m + 1) / 4))

/-- `Rinv`: the integer in `[0, m)` with `2^256 · Rinv mod m = 1`; it exists because `m` is odd (R74). -/
def radixInverse (m : Nat) : Nat :=
  match inverse m (2 ^ 256) with
  | .ok x => x
  | .error _ => 0

/-- The Montgomery product `a · b · 2^-256 mod m` (R74). -/
def montgomery (m a b : Nat) : Nat := a * b * radixInverse m % m

/-! The methods of R82 and R83. -/

/-- The constants a unit may derive from the modulus in use (R35, R82, R83; entry 13). -/
structure ReductionConstants where
  /-- `m' = -m^-1 mod 2^256`. -/
  mPrime : Nat
  /-- `R² mod m = 2^512 mod m`. -/
  rSquared : Nat
  /-- `μ = floor(2^512 / m)`. -/
  mu : Nat
  deriving DecidableEq, Repr

/-- The constants for a modulus (R82, R83). -/
def reductionConstants (m : Nat) : ReductionConstants :=
  { mPrime := match inverse (2 ^ 256) m with
      | .ok x => reduce (2 ^ 256) (-(x : Int))
      | .error _ => 0
    rSquared := 2 ^ 512 % m
    mu := 2 ^ 512 / m }

/-- The value `t` of REDC before its final subtractions (R82). -/
def redcEstimate (m a b : Nat) : Nat :=
  (a * b + a * b * (reductionConstants m).mPrime % 2 ^ 256 * m) / 2 ^ 256

/-- REDC: `t`, less `m` while it is at least `m` (R82). -/
def redc (m a b : Nat) : Nat := redcEstimate m a b % m

/-- The value `r` of the Barrett method before its final subtractions (R83). -/
def barrettEstimate (m x : Nat) : Nat := x - x / 2 ^ 255 * (reductionConstants m).mu / 2 ^ 257 * m

/-- The Barrett method: `r`, less `m` while it is at least `m` (R83). -/
def barrett (m x : Nat) : Nat := barrettEstimate m x % m

end Sys2Proof.Machine
end

