-- ==== Sys2Proof/Machine/Bytes.lean ====
section
/-! DEFINITION. Byte strings, big-endian integers, byte lanes and the 32-bit words of a 256-bit value
(spec/00_scope.md R11, R12; spec/20_memory.md R43, R44; spec/60_exceptions.md R121, R122). -/

namespace Sys2Proof.Machine

/-- A natural number as a 256-bit register value. -/
def word (n : Nat) : Word := BitVec.ofNat 256 n

/-- The 32-byte big-endian encoding: byte `i` is `x[255-8i : 248-8i]` (R12). -/
def bytes32 (x : Word) : List Byte := (List.range 32).map fun i => x.extractLsb' (248 - 8 * i) 8

/-- The big-endian value of a byte string (R12). -/
def intOf (bytes : List Byte) : Nat := bytes.foldl (fun acc b => acc * 256 + b.toNat) 0

/-- The byte string of `count` bytes whose byte `i` is on bits `[8i+7:8i]` (R121, R122). -/
def laneBytes (count v : Nat) : List Byte := (List.range count).map fun i => BitVec.ofNat 8 (v / 2 ^ (8 * i))

/-- The value with byte `i` of the string on bits `[8i+7:8i]` and 0 above (R44, R121). -/
def lanes : List Byte → Nat
  | [] => 0
  | b :: rest => b.toNat + 256 * lanes rest

/-- Word `k` of a 256-bit value: `X[32k+31 : 32k]` (R43). -/
def wordAt (x : Word) (k : Fin 8) : BusWord := x.extractLsb' (32 * k.val) 32

/-- The 256-bit value with its word `k` replaced (R43). -/
def setWordAt (x : Word) (k : Fin 8) (v : BusWord) : Word :=
  (x &&& ~~~((0xFFFFFFFF#256) <<< (32 * k.val))) ||| ((v.setWidth 256) <<< (32 * k.val))

end Sys2Proof.Machine
end

