-- ==== Sys2Proof/Machine/Flags.lean ====
section
/-! DEFINITION. The status flags and codes: the numbers of the result codes (spec/60_exceptions.md R107), what issue and
completion do to `STATUS` (R110, R113), its word and its write-1-to-clear (spec/10_state.md R27), `CTRL` (R26), and the
interrupt (R118). No command has a condition code (R27, R68). -/

namespace Sys2Proof.Machine

/-- The number of a result code (R107). -/
def ResultCode.code : ResultCode → BitVec 8
  | .ok => 0x00#8
  | .illegalCommand => 0x01#8
  | .badModulus => 0x02#8
  | .unsupportedModulus => 0x03#8
  | .aborted => 0x04#8
  | .retryLimit => 0x05#8
  | .pointAtInfinity => 0x06#8
  | .scalarOutOfRange => 0x07#8
  | .chainidRange => 0x08#8
  | .invalidRecoveryId => 0x09#8
  | .invalidPrivateKey => 0x10#8
  | .signatureOutOfRange => 0x11#8
  | .pointNotOnCurve => 0x12#8
  | .invalidEncoding => 0x13#8
  | .notAQuadraticResidue => 0x14#8
  | .noInverse => 0x15#8
  | .unrecoverableKey => 0x16#8
  | .invalidPublicKey => 0x17#8
  | .tweakOutOfRange => 0x18#8
  | .resultingKeyZero => 0x19#8
  | .inputTooLong => 0x1A#8

/-- `STATUS` after an accepted write of `CMD` (R110). -/
def Status.issued (f : Status) : Status := { f with busy := true, done := false, err := false }

/-- `STATUS` after a completion with the code given (R113). -/
def Status.completed (f : Status) (code : ResultCode) : Status :=
  { f with busy := false, done := true, err := decide (code ≠ .ok) }

/-- `STATUS` after a write of `v`: writing 1 clears `DONE`, `ERR`, `CMD_DROPPED` and `ACC_VIOL` (R27). -/
def Status.cleared (f : Status) (v : BusWord) : Status :=
  { f with
    done := f.done && !v.getLsbD 1
    err := f.err && !v.getLsbD 2
    cmdDropped := f.cmdDropped && !v.getLsbD 3
    accViol := f.accViol && !v.getLsbD 4 }

/-- A flag as a number. -/
def bit (b : Bool) : Nat := if b then 1 else 0

/-- `STATUS` as the host reads it; bits [31:5] read 0 (R27). -/
def Status.word (f : Status) : BusWord :=
  BitVec.ofNat 32 (bit f.busy + 2 * bit f.done + 4 * bit f.err + 8 * bit f.cmdDropped + 16 * bit f.accViol)

/-- `CTRL` as the host reads it: `ABORT` and `SOFT_RESET` read 0 (R26). -/
def ctrlWord (ie : Bool) : BusWord := BitVec.ofNat 32 (bit ie)

/-- `PINF`: bit `i` is the INF bit of `pt<i>` (R32). -/
def pinfWord (points : Vector Point 8) : BusWord :=
  BitVec.ofNat 32 (((List.finRange 8).map fun i => 2 ^ i.val * bit (decide (points[i] = .inf))).sum)

/-- The interrupt output: `CTRL.IE AND STATUS.DONE`, and 0 while `PRESETn` is 0 (R118, R131). -/
def State.irq (s : State) : Bool := s.presetn && s.ie && s.status.done

/-- The platform's interrupt lines that the block drives high (R118, parameter `IRQ_LINE`). -/
def State.irqOnLine (s : State) (line : Nat) : Bool := line == Config.irqLine && s.irq

end Sys2Proof.Machine
end

