-- ==== Sys2Proof/Machine/Ops.lean ====
section
/-! DEFINITION. The named operations over memory, the command lifecycle and the ports: byte memory (spec/10_state.md R23),
issue (spec/60_exceptions.md R110), completion (R113), the error completion, which is all this block has of an
exception (R114, R116), its acknowledgement (R117), abort (R120), reset (spec/70_reset_and_hazards.md R131-R133), and the
two ports (R121, R122). -/

namespace Sys2Proof.Machine

/-! Byte memory. -/

/-- What a byte no cell lists reads as: every byte of `BUF` resets to 0 (R23). -/
def Memory.unlisted : Byte := 0#8

/-- The byte at an index. -/
def Memory.read : Memory → Nat → Byte
  | [], _ => Memory.unlisted
  | (a, b) :: rest, i => if a = i then b else Memory.read rest i

/-- Puts a cell in front unless it holds what an unlisted byte reads as. -/
def Memory.cons (i : Nat) (v : Byte) (m : Memory) : Memory := if v = Memory.unlisted then m else (i, v) :: m

/-- Writes one byte and keeps the canonical form. -/
def Memory.write : Memory → Nat → Byte → Memory
  | [], i, v => Memory.cons i v []
  | (a, b) :: rest, i, v =>
    if i < a then Memory.cons i v ((a, b) :: rest)
    else if i = a then Memory.cons i v rest
    else (a, b) :: Memory.write rest i v

/-- Writes a byte string from an index up. -/
def Memory.writeAll : Memory → Nat → List Byte → Memory
  | m, _, [] => m
  | m, i, b :: rest => Memory.writeAll (m.write i b) (i + 1) rest

/-- `BUF[i .. i+count-1]` (R12). -/
def Memory.slice (m : Memory) (i count : Nat) : List Byte := (List.range count).map fun j => m.read (i + j)

/-- The canonical form: addresses strictly rising and inside the buffer, no cell holding what an unlisted byte reads
as (entry 12). -/
def Memory.wf (m : Memory) : Bool :=
  decide (m.Pairwise fun x y => x.1 < y.1) && m.all fun c => decide (c.2 ≠ Memory.unlisted) && decide (c.1 < Config.bufBytes)

/-! Issue and completion. -/

/-- Issue of an accepted word (R110). The snapshot of R111 is the registers themselves (entry 4). -/
def State.issue (s : State) (w : CmdWord) : State :=
  { s with cmdLast := w, status := s.status.issued, errcode := .ok, stage := .start }

/-- The completion step (R113), given the value of `ATTEMPTS` for opcodes `0x30` and `0x33` (R31). The results are
staged by the caller on success; on an error the caller stages none. -/
def State.complete (s : State) (code : ResultCode) (attempts : Option Nat) : State :=
  { s with
    errcode := code
    status := s.status.completed code
    attempts := match attempts with
      | some n => BitVec.ofNat 16 n
      | none => s.attempts
    stage := .start }

/-- An error, reported and not taken: the command ends with the code, no result is written, no control is transferred
(R114, R116). It is the one operation behind every `raise` of the rules. -/
def State.fail (s : State) (code : ResultCode) (attempts : Option Nat) : State := s.complete code attempts

/-- The host's acknowledgement of a completion, a write of `STATUS` (R117, R27). There is no return-from-trap
command. -/
def State.acknowledge (s : State) (v : BusWord) : State := { s with status := s.status.cleared v }

/-- The end of a command that needs no port: its staged state, or its error (R113, R114). -/
def State.finish (s : State) (result : Except ResultCode State) : Host.Outcome State Fault Refusal :=
  match result with
  | .ok t => .next (t.complete .ok none)
  | .error e => .next (s.fail e none)

/-! The ports. -/

/-- After an abort a request already sent stays, and its response will be discarded; an unused response is dropped
(R120, R121; entry 9). -/
def HmacPort.orphan : HmacPort → HmacPort
  | .idle => .idle
  | .presented req _ => .presented req false
  | .outstanding req _ => .outstanding req false
  | .answered _ => .idle

/-- The same for the RNG port (R120, R122): the request stays outstanding. That `rng_req` stays 1 with it is the model's choice
(entry 23). -/
def RngPort.orphan : RngPort → RngPort
  | .idle => .idle
  | .requested _ => .requested false
  | .answered _ => .idle

/-- `hm_req_ready` while a request is presented: the handshake (R121). -/
def HmacPort.ready : HmacPort → HmacPort
  | .presented req live => .outstanding req live
  | other => other

/-- A response on the HMAC port: accepted if a request is outstanding, discarded if its command was aborted, ignored
otherwise (R121). -/
def HmacPort.respond (data : BitVec 256) : HmacPort → HmacPort
  | .outstanding _ true => .answered data
  | .outstanding _ false => .idle
  | other => other

/-- `rng_ack` (R122): the same for the RNG port. -/
def RngPort.ack (data : BitVec 512) : RngPort → RngPort
  | .requested true => .answered data
  | .requested false => .idle
  | other => other

/-! Abort and reset. -/

/-- Abort (R120): the completion step with `ABORTED`, `ATTEMPTS` unchanged, requests already sent left outstanding. -/
def State.abort (s : State) : State :=
  { s.fail .aborted none with hmacPort := s.hmacPort.orphan, rngPort := s.rngPort.orphan }

/-- The state of R133, the outside events to come kept (R131, R132; entry 2). -/
def State.restart (s : State) : State := { State.reset with inputs := s.inputs }

/-- `PRESETn` takes a level (R131): low puts the block in its reset state and holds it there. -/
def State.setResetPin (s : State) (level : Bool) : State :=
  if level then { s with presetn := true } else { s.restart with presetn := false }

end Sys2Proof.Machine
end

