-- ==== Sys2Proof/WellFormed.lean ====
section
/-! DEFINITION. The group and distinctness constraints of spec/30_encoding.md R59, condition 5. The other conditions
of R59 hold of every term by its type: registers are `r0`..`r15`, point registers `pt0`..`pt7`. -/

namespace Sys2Proof

/-- The constraint table of R59, condition 5: a register group never wraps past `r15` (R17), and SQRT writes two
different registers. -/
def Instr.wellFormed : Instr → Bool
  | .nop => true
  | .mov _ _ => true
  | .add _ _ _ _ => true
  | .sub _ _ _ _ => true
  | .mul _ _ _ _ => true
  | .mmul _ _ _ _ => true
  | .red _ _ _ => true
  | .redw _ a _ => decide (a.val ≤ 14)
  | .pow _ _ _ _ => true
  | .inv _ _ _ => true
  | .div _ _ _ _ => true
  | .sqrt d c _ _ => decide (d ≠ c)
  | .rand _ _ => true
  | .pinf _ => true
  | .pgen _ => true
  | .pset _ _ _ => true
  | .pmov _ _ => true
  | .pgetx _ _ => true
  | .pgety _ _ => true
  | .padd _ _ _ => true
  | .pmul _ _ _ => true
  | .pmuladd _ _ _ c => decide (c.val ≤ 14)
  | .pfromx _ _ _ => true
  | .encode _ _ => true
  | .decode _ => true
  | .sign d _ _ _ => decide (d.val ≤ 13)
  | .signCid d _ _ _ _ => decide (d.val ≤ 13)
  | .verify _ a _ => decide (a.val ≤ 14)
  | .recover _ a _ => decide (a.val ≤ 13)
  | .nonce _ _ _ => true

end Sys2Proof
end

