-- ==== Sys2Proof/Machine/Operands.lean ====
section
/-! DEFINITION. The operand forms: operand registers, register groups, point registers, the modulus select, the checks
on operands that end a command (spec/10_state.md R16-R18; spec/30_encoding.md R54, R56, R59; spec/60_exceptions.md R108). -/

namespace Sys2Proof.Machine

/-- `R[r]` (R16). -/
def State.reg (s : State) (r : Reg) : Word := s.regs.get r

/-- `R[r]` as the unsigned integer it stands for (R10, R66). -/
abbrev State.regNat (s : State) (r : Reg) : Nat := (s.reg r).toNat

/-- `R[r] <- v` (R16). -/
def State.setReg (s : State) (r : Reg) (v : Word) : State := { s with regs := s.regs.set r.val v r.isLt }

/-- The writes of a register group, in order (R17). -/
def State.setRegs (s : State) : List (Reg × Word) → State
  | [] => s
  | (r, v) :: rest => (s.setReg r v).setRegs rest

/-- Register `k` of the group that `r` names (R17, R54). A legal command's group never passes `r15` (R59). -/
def regUp (r : Reg) (k : Nat) : Reg := Fin.ofNat 16 (r.val + k)

/-- `PT[q]` (R18). -/
def State.point (s : State) (q : PtReg) : Point := s.points.get q

/-- `PT[q] <- Q` (R18). -/
def State.setPoint (s : State) (q : PtReg) (Q : Point) : State := { s with points := s.points.set q.val Q q.isLt }

/-- The X word of a point register: 0 for `INF` (R18). -/
def Point.x : Point → Word
  | .inf => 0#256
  | .affine x _ => x

/-- The Y word of a point register: 0 for `INF` (R18). -/
def Point.y : Point → Word
  | .inf => 0#256
  | .affine _ y => y

/-- `G = (CURVE.gx, CURVE.gy)` as stored (R101). -/
def Curve.g (c : Curve) : Point := .affine c.gx c.gy

/-- `m_sel` (R56). -/
def Curve.modulus (c : Curve) : ModSel → Nat
  | .p => c.p.toNat
  | .n => c.n.toNat

/-- A modulus is valid when it is odd and at least 3 (R108). -/
def modulusValid (m : Nat) : Bool := decide (m % 2 = 1) && decide (3 ≤ m)

/-- Ends a command with a code unless a condition holds (`raise`, R13). -/
def require (condition : Bool) (code : ResultCode) : Except ResultCode Unit :=
  if condition then .ok () else .error code

/-- The legality of a term's register groups (R59, condition 5). The decoder accepts no other term, so this check
never fails for a word (entry 16). -/
def requireLegal (i : Instr) : Except ResultCode Unit := require i.wellFormed .illegalCommand

/-- The modulus check of the commands that use one modulus (R108). -/
def State.requireModulus (s : State) (m : ModSel) : Except ResultCode Unit :=
  require (modulusValid (s.curve.modulus m)) .badModulus

/-- The modulus check of the commands that use both (R108). -/
def State.requireModuli (s : State) : Except ResultCode Unit :=
  require (modulusValid (s.curve.modulus .p) && modulusValid (s.curve.modulus .n)) .badModulus

end Sys2Proof.Machine
end

