-- ==== Sys2Proof/Machine/Group.lean ====
section
/-! DEFINITION. The procedures of the point units: `ONCURVE`, the point adder, the scalar multiplier, the point
decompressor, and the two serializations (spec/42_point_group.md R84-R88, R99, R100). -/

namespace Sys2Proof.Machine

/-- `CURVE.p` as an integer. -/
abbrev Curve.pNat (c : Curve) : Nat := c.p.toNat

/-- `CURVE.n` as an integer. -/
abbrev Curve.nNat (c : Curve) : Nat := c.n.toNat

/-- `x³ + a·x + b`, exact (R85, R88). -/
def Curve.rhs (c : Curve) (x : Nat) : Int := (x : Int) ^ 3 + (c.a.toNat : Int) * x + c.b.toNat

/-- `ONCURVE(x, y)` (R85). -/
def Curve.onCurve (c : Curve) (x y : Nat) : Bool :=
  decide (x < c.pNat) && decide (y < c.pNat) && decide (reduce c.pNat ((y : Int) ^ 2 - c.rhs x) = 0)

/-- The point `(x3, y3)` on the line of slope `l` through `(x1, y1)` and the other operand of abscissa `x2` (R86). -/
def chordPoint (p l : Nat) (x1 y1 x2 : Nat) : Point :=
  let x3 := reduce p ((l : Int) ^ 2 - x1 - x2)
  .affine (word x3) (word (reduce p ((l : Int) * ((x1 : Int) - x3) - y1)))

/-- `PADD_F`, the point adder, each check in the order of R86. -/
def paddF (c : Curve) : Point → Point → Except ResultCode Point
  | .inf, q => .ok q
  | .affine x y, .inf => .ok (.affine x y)
  | .affine x1 y1, .affine x2 y2 =>
    if x1 = x2 ∧ y1.toNat = reduce c.pNat ((c.pNat : Int) - y2.toNat) then .ok .inf
    else do
      let l ←
        if x1 = x2 ∧ y1 = y2 then
          divide c.pNat (3 * (x1.toNat : Int) ^ 2 + c.a.toNat) (2 * (y1.toNat : Int))
        else divide c.pNat ((y2.toNat : Int) - y1.toNat) ((x2.toNat : Int) - x1.toNat)
      pure (chordPoint c.pNat l x1.toNat y1.toNat x2.toNat)

/-- The low `k` bits of the double-and-add loop, most significant first (R87). -/
def pmulLoop (c : Curve) (q : Point) (scalar : Nat) : Nat → Point → Except ResultCode Point
  | 0, acc => .ok acc
  | k + 1, acc => do
    let doubled ← paddF c acc acc
    let next ← if scalar.testBit k then paddF c doubled q else .ok doubled
    pmulLoop c q scalar k next

/-- `PMUL_F`, the scalar multiplier over all 256 bits (R87). -/
def pmulF (c : Curve) (q : Point) (scalar : Nat) : Except ResultCode Point := pmulLoop c q scalar 256 .inf

/-- `FROMX_F`, the point decompressor (R88). -/
def fromxF (c : Curve) (x : Nat) (wantOdd : Bool) : Except ResultCode Point := do
  require (decide (x < c.pNat)) .pointNotOnCurve
  let roots ← squareRoots c.pNat (c.rhs x)
  let y := if roots.1 % 2 = bit wantOdd then roots.1 else roots.2
  pure (.affine (word x) (word y))

/-- The bytes ENCODE writes for an affine point (R99). -/
def encodePoint (x y : Word) (compressed : Bool) : List Byte :=
  if compressed then BitVec.ofNat 8 (2 + y.toNat % 2) :: bytes32 x
  else 0x04#8 :: (bytes32 x ++ bytes32 y)

/-- The point DECODE reads from a byte string, the first `BUF_LEN` bytes of `BUF` (R100). -/
def decodePoint (c : Curve) (buf : Memory) (len : Nat) : Except ResultCode Point :=
  if len = 33 ∧ (buf.read 0 = 0x02#8 ∨ buf.read 0 = 0x03#8) then
    fromxF c (intOf (buf.slice 1 32)) ((buf.read 0).toNat % 2 == 1)
  else if len = 65 ∧ buf.read 0 = 0x04#8 then do
    require (c.onCurve (intOf (buf.slice 1 32)) (intOf (buf.slice 33 32))) .pointNotOnCurve
    pure (.affine (word (intOf (buf.slice 1 32))) (word (intOf (buf.slice 33 32))))
  else .error .invalidEncoding

end Sys2Proof.Machine
end

