-- ==== Sys2Proof/Machine/Drbg.lean ====
section
/-! DEFINITION. The RFC 6979 nonce generator as the engine runs it, one turn at a time: the HMAC transactions of
spec/43_ecdsa.md R102, the candidate loop of R103 and R104, and the traffic on the two ports (spec/60_exceptions.md R121,
R122). At a turn the engine sends a request, waits, or uses the response that has arrived (entry 18). -/

namespace Sys2Proof.Machine

/-- What one candidate leads to: the command's staged register writes, a rejection (none), or an error. -/
abbrev Verdict := Except ResultCode (Option (List (Reg × Word)))

/-- The initial `V`: `0x01` 32 times (R102). -/
def drbgV0 : Word := 0x0101010101010101010101010101010101010101010101010101010101010101#256

/-- The request of each transaction of R102. -/
def drbgRequest (k v d e : Word) : DrbgStep → HmacRequest
  | .initK0 => { key := k, msg := bytes32 v ++ 0x00#8 :: (bytes32 d ++ bytes32 e) }
  | .initV0 => { key := k, msg := bytes32 v }
  | .initK1 => { key := k, msg := bytes32 v ++ 0x01#8 :: (bytes32 d ++ bytes32 e) }
  | .initV1 => { key := k, msg := bytes32 v }
  | .rejectK => { key := k, msg := bytes32 v ++ [0x00#8] }
  | .rejectV => { key := k, msg := bytes32 v }
  | .next => { key := k, msg := bytes32 v }

/-- The 32 bytes of an HMAC response, as their big-endian integer (R121). -/
def hmacWord (data : BitVec 256) : Word := word (intOf (laneBytes 32 data.toNat))

/-- The head of the candidate loop (R103, R104): the limit, then the next attempt. In deterministic mode every attempt
but the first begins with `DRBG_REJECT`; in random mode every attempt draws. -/
def State.nextCandidate (s : State) (det : Bool) : State :=
  if Config.maxAttempts ≤ s.attempt then s.fail .retryLimit (some s.attempt)
  else
    { s with
      attempt := s.attempt + 1
      stage := if det then (if s.attempt = 0 then .drbg .next else .drbg .rejectK) else .random }

/-- Acts on a candidate's verdict: accept, reject and retry, or end with an error (R103, R104). -/
def State.judge (s : State) (det : Bool) : Verdict → State
  | .error e => s.fail e (some s.attempt)
  | .ok none => s.nextCandidate det
  | .ok (some writes) => (s.setRegs writes).complete .ok (some s.attempt)

/-- `DRBG_INIT` begins: `K` and `V` are set and the first transaction is next (R102). -/
def State.beginDrbg (s : State) : State :=
  { s with attempt := 0, drbgK := 0#256, drbgV := drbgV0, stage := .drbg .initK0 }

/-- Random mode begins: no attempt made, then the loop (R104). -/
def State.beginRandom (s : State) : State := ({ s with attempt := 0 }).nextCandidate false

/-- What a response does to `K` and `V` and where the generator goes next (R102). `test` judges a candidate. -/
def State.absorb (s : State) (step : DrbgStep) (h : Word) (test : Nat → Verdict) : State :=
  match step with
  | .initK0 => { s with drbgK := h, stage := .drbg .initV0 }
  | .initV0 => { s with drbgV := h, stage := .drbg .initK1 }
  | .initK1 => { s with drbgK := h, stage := .drbg .initV1 }
  | .initV1 => ({ s with drbgV := h }).nextCandidate true
  | .rejectK => { s with drbgK := h, stage := .drbg .rejectV }
  | .rejectV => { s with drbgV := h, stage := .drbg .next }
  | .next => ({ s with drbgV := h }).judge true (test h.toNat)

/-- A turn at an HMAC transaction: send the request once the port is free, wait, or use the response (R121, R123). -/
def State.drbgTurn (s : State) (d e : Word) (step : DrbgStep) (test : Nat → Verdict) : State :=
  match s.hmacPort with
  | .idle => { s with hmacPort := .presented (drbgRequest s.drbgK s.drbgV d e step) true }
  | .presented _ _ => s
  | .outstanding _ _ => s
  | .answered data => ({ s with hmacPort := .idle }).absorb step (hmacWord data) test

/-- A turn at an RNG transaction of SIGN: the same on the RNG port (R122, R123). -/
def State.randomTurn (s : State) (test : BitVec 512 → Verdict) : State :=
  match s.rngPort with
  | .idle => { s with rngPort := .requested true }
  | .requested _ => s
  | .answered data => ({ s with rngPort := .idle }).judge false (test data)

end Sys2Proof.Machine
end

