-- ==== Sys2Proof/Machine/Modular.lean ====
section
/-! DEFINITION. The meanings of the register move, no-operation and modular arithmetic commands (spec/41_modular.md). -/

namespace Sys2Proof.Machine

/-- NOP (R69). -/
def execNop (s : State) : Host.Outcome State Fault Refusal := s.finish (.ok s)

/-- MOV (R70): the value as is. -/
def execMov (d a : Reg) (s : State) : Host.Outcome State Fault Refusal := s.finish (.ok (s.setReg d (s.reg a)))

/-- The shape of the modular commands with one result: the modulus check (R108), then `R[D] <- result`, where the
result is computed from `m_sel`. -/
def State.modular (s : State) (d : Reg) (m : ModSel) (result : Nat → Except ResultCode Nat) :
    Host.Outcome State Fault Refusal :=
  s.finish do
    s.requireModulus m
    let v ← result (s.curve.modulus m)
    pure (s.setReg d (word v))

/-- ADD (R71). -/
def execAdd (d a b : Reg) (m : ModSel) (s : State) : Host.Outcome State Fault Refusal :=
  s.modular d m fun q => .ok (reduce q ((s.regNat a : Int) + s.regNat b))

/-- SUB (R72): the non-negative representative. -/
def execSub (d a b : Reg) (m : ModSel) (s : State) : Host.Outcome State Fault Refusal :=
  s.modular d m fun q => .ok (reduce q ((s.regNat a : Int) - s.regNat b))

/-- MUL (R73): the exact product, then reduced. -/
def execMul (d a b : Reg) (m : ModSel) (s : State) : Host.Outcome State Fault Refusal :=
  s.modular d m fun q => .ok (reduce q ((s.regNat a : Int) * s.regNat b))

/-- MMUL (R74). -/
def execMmul (d a b : Reg) (m : ModSel) (s : State) : Host.Outcome State Fault Refusal :=
  s.modular d m fun q => .ok (montgomery q (s.regNat a) (s.regNat b))

/-- RED (R75). -/
def execRed (d a : Reg) (m : ModSel) (s : State) : Host.Outcome State Fault Refusal :=
  s.modular d m fun q => .ok (reduce q (s.regNat a))

/-- REDW (R76): the 512-bit value `{R[A+1], R[A]}`. -/
def execRedw (d a : Reg) (m : ModSel) (s : State) : Host.Outcome State Fault Refusal :=
  s.finish do
    requireLegal (.redw d a m)
    s.requireModulus m
    pure (s.setReg d (word (reduce (s.curve.modulus m) ((s.regNat (regUp a 1) : Int) * 2 ^ 256 + s.regNat a))))

/-- POW (R77). -/
def execPow (d a b : Reg) (m : ModSel) (s : State) : Host.Outcome State Fault Refusal :=
  s.modular d m fun q => .ok (powMod q (reduce q (s.regNat a)) (s.regNat b))

/-- INV (R78). -/
def execInv (d a : Reg) (m : ModSel) (s : State) : Host.Outcome State Fault Refusal :=
  s.modular d m fun q => inverse q (s.regNat a)

/-- DIV (R79). -/
def execDiv (d a b : Reg) (m : ModSel) (s : State) : Host.Outcome State Fault Refusal :=
  s.modular d m fun q => divide q (s.regNat a) (s.regNat b)

/-- SQRT (R80): the first root to `R[D]`, the second to `R[C]`. -/
def execSqrt (d c a : Reg) (m : ModSel) (s : State) : Host.Outcome State Fault Refusal :=
  s.finish do
    requireLegal (.sqrt d c a m)
    s.requireModulus m
    let roots ← squareRoots (s.curve.modulus m) (s.regNat a)
    pure (s.setRegs [(d, word roots.1), (c, word roots.2)])

/-- The 64 bytes of an RNG response as an integer: byte 0 is the most significant (R122). -/
def rngInt (data : BitVec 512) : Nat := intOf (laneBytes 64 data.toNat)

/-- RAND (R81): one draw on the RNG port. Without a response the command sends its request, or waits (R122, R123). -/
def execRand (d : Reg) (m : ModSel) (s : State) : Host.Outcome State Fault Refusal :=
  match s.requireModulus m with
  | .error e => .next (s.fail e none)
  | .ok _ =>
    match s.rngPort with
    | .idle => .next { s with rngPort := .requested true }
    | .requested _ => .next s
    | .answered data =>
      .next (({ s with rngPort := .idle }.setReg d (word (reduce (s.curve.modulus m) (rngInt data)))).complete .ok none)

end Sys2Proof.Machine
end

