-- ==== Sys2Proof/Machine/Ecdsa.lean ====
section
/-! DEFINITION. The meanings of the ECDSA commands (spec/43_ecdsa.md). -/

namespace Sys2Proof.Machine

/-- `0 < x < n`. -/
def inOpenRange (x n : Nat) : Bool := decide (0 < x) && decide (x < n)

/-! NONCE. -/

/-- A candidate of NONCE: accepted when it lies in `(0, n)` (R103). -/
def nonceTest (d : Reg) (n : Nat) (t : Nat) : Verdict :=
  .ok (if inOpenRange t n then some [(d, word t)] else none)

/-- NONCE (R103). The private key is not checked. In a stage no run of NONCE is in, the engine waits (entry 21). -/
def execNonce (d a b : Reg) (s : State) : Host.Outcome State Fault Refusal :=
  match s.requireModulus .n with
  | .error e => .next (s.fail e (some 0))
  | .ok _ =>
    match s.stage with
    | .start => .next s.beginDrbg
    | .drbg step => .next (s.drbgTurn (s.reg a) (s.reg b) step (nonceTest d s.curve.nNat))
    | .random => .next s

/-! SIGN. -/

/-- The recovery id of R104 with its offset: `27`, or `2·chainId + 35` with a chain id. -/
def recoveryOffset : Option Nat → Nat
  | none => 27
  | some chainId => 2 * chainId + 35

/-- Low-s normalization on `s` and the raw recovery bits (R104). -/
def lowS (n s v : Nat) : Nat × Nat := if n / 2 < s then (n - s, v ^^^ 1) else (s, v)

/-- One candidate `k` of SIGN, from `ComputeCandidate` on: `(r, s, v)`, a rejection, or an error (R104). -/
def signCandidate (c : Curve) (d e k : Nat) (chainId : Option Nat) : Except ResultCode (Option (Nat × Nat × Nat)) := do
  match ← pmulF c c.g k with
  | .inf => pure none
  | .affine x y =>
    let r := x.toNat % c.nNat
    if r = 0 then pure none
    else do
      let kinv ← inverse c.nNat k
      let s := kinv * (e + d * r) % c.nNat
      if s = 0 then pure none
      else do
        let low := lowS c.nNat s (y.toNat % 2 + if x.toNat ≠ r then 2 else 0)
        let v := low.2 + recoveryOffset chainId
        require (decide (v < 2 ^ 256)) .chainidRange
        pure (some (r, low.1, v))

/-- The register group SIGN writes (R104). -/
def signWrites (d : Reg) : Except ResultCode (Option (Nat × Nat × Nat)) → Verdict
  | .error e => .error e
  | .ok none => .ok none
  | .ok (some (r, s, v)) => .ok (some [(d, word r), (regUp d 1, word s), (regUp d 2, word v)])

/-- A deterministic candidate: rejected outside `(0, n)` (R104). -/
def signTestDet (c : Curve) (rd : Reg) (d e : Nat) (chainId : Option Nat) (k : Nat) : Verdict :=
  if inOpenRange k c.nNat then signWrites rd (signCandidate c d e k chainId) else .ok none

/-- A random candidate `int(RNG64()) mod n`: rejected when 0 (R104). -/
def signTestRnd (c : Curve) (rd : Reg) (d e : Nat) (chainId : Option Nat) (data : BitVec 512) : Verdict :=
  if rngInt data % c.nNat = 0 then .ok none else signWrites rd (signCandidate c d e (rngInt data % c.nNat) chainId)

/-- A turn of SIGN at its stage (R104). A stage of the other mode belongs to no run of the command: the engine waits
(entry 21). -/
def State.signTurn (s : State) (rd : Reg) (d e : Word) (chainId : Option Nat) (det : Bool) : State :=
  match s.stage with
  | .start =>
    if inOpenRange d.toNat s.curve.nNat then (if det then s.beginDrbg else s.beginRandom)
    else s.fail .invalidPrivateKey (some 0)
  | .drbg step => if det then s.drbgTurn d e step (signTestDet s.curve rd d.toNat e.toNat chainId) else s
  | .random => if det then s else s.randomTurn (signTestRnd s.curve rd d.toNat e.toNat chainId)

/-- SIGN without a chain id (R104). -/
def execSign (d a b : Reg) (det : Bool) (s : State) : Host.Outcome State Fault Refusal :=
  match (do requireLegal (.sign d a b det); s.requireModuli : Except ResultCode Unit) with
  | .error e => .next (s.fail e (some 0))
  | .ok _ => .next (s.signTurn d (s.reg a) (s.reg b) none det)

/-- SIGN with a chain id in `R[C]` (R104). -/
def execSignCid (d a b c : Reg) (det : Bool) (s : State) : Host.Outcome State Fault Refusal :=
  match (do requireLegal (.signCid d a b c det); s.requireModuli : Except ResultCode Unit) with
  | .error e => .next (s.fail e (some 0))
  | .ok _ => .next (s.signTurn d (s.reg a) (s.reg b) (some (s.regNat c)) det)

/-! VERIFY and RECOVER. -/

/-- Every error of the decode computation becomes `InvalidPublicKey` (R105). -/
def publicKey (c : Curve) (buf : Memory) (len : Nat) : Except ResultCode Point :=
  match decodePoint c buf len with
  | .ok q => .ok q
  | .error _ => .error .invalidPublicKey

/-- `1` if `x mod n = r`, and `0` otherwise or for `INF` (R105). -/
def verdictWord (n r : Nat) : Point → Word
  | .inf => 0#256
  | .affine x _ => if x.toNat % n = r then 1#256 else 0#256

/-- VERIFY (R105): the public key is `BUF[0 .. BUF_LEN-1]`. -/
def execVerify (d a b : Reg) (s : State) : Host.Outcome State Fault Refusal :=
  s.finish do
    let c := s.curve
    let n := c.nNat
    let r := s.regNat a
    let sig := s.regNat (regUp a 1)
    let e := s.regNat b
    requireLegal (.verify d a b)
    s.requireModuli
    require (inOpenRange r n && inOpenRange sig n) .signatureOutOfRange
    let qa ← publicKey c s.buf s.bufLen.toNat
    let w ← inverse n sig
    let q1 ← pmulF c c.g (e * w % n)
    let q2 ← pmulF c qa (r * w % n)
    let x ← paddF c q1 q2
    pure (s.setReg d (verdictWord n r x))

/-- RECOVER (R106), with the bound `r + n ≥ p` of spec/90_conflicts.md C1. -/
def execRecover (d : PtReg) (a b : Reg) (s : State) : Host.Outcome State Fault Refusal :=
  s.finish do
    let c := s.curve
    let n := c.nNat
    let r := s.regNat a
    let sig := s.regNat (regUp a 1)
    let v := s.regNat (regUp a 2)
    let e := s.regNat b
    requireLegal (.recover d a b)
    s.requireModuli
    require (inOpenRange r n && inOpenRange sig n) .signatureOutOfRange
    require (decide (27 ≤ v)) .invalidRecoveryId
    let isOdd := (v - 27).testBit 0
    let isSecond := (v - 27).testBit 1
    require (!(isSecond && decide (c.pNat ≤ r + n))) .unrecoverableKey
    let rpt ← fromxF c (if isSecond then r + n else r) isOdd
    let rinv ← inverse n r
    let q1 ← pmulF c rpt (sig * rinv % n)
    let q2 ← pmulF c c.g (reduce n (-((e * rinv : Nat) : Int)))
    let qa ← paddF c q1 q2
    require (decide (qa ≠ .inf)) .pointAtInfinity
    pure (s.setPoint d qa)

end Sys2Proof.Machine
end

