-- ==== Sys2Proof/Machine/PointGroup.lean ====
section
/-! DEFINITION. The meanings of the point group commands (spec/42_point_group.md). -/

namespace Sys2Proof.Machine

/-- PINF (R89). -/
def execPinf (d : PtReg) (s : State) : Host.Outcome State Fault Refusal := s.finish (.ok (s.setPoint d .inf))

/-- PGEN (R90). -/
def execPgen (d : PtReg) (s : State) : Host.Outcome State Fault Refusal :=
  s.finish do
    s.requireModulus .p
    require (s.curve.onCurve s.curve.gx.toNat s.curve.gy.toNat) .pointNotOnCurve
    pure (s.setPoint d s.curve.g)

/-- PSET (R91). -/
def execPset (d : PtReg) (a b : Reg) (s : State) : Host.Outcome State Fault Refusal :=
  s.finish do
    s.requireModulus .p
    require (s.curve.onCurve (s.regNat a) (s.regNat b)) .pointNotOnCurve
    pure (s.setPoint d (.affine (s.reg a) (s.reg b)))

/-- PMOV (R92). -/
def execPmov (d a : PtReg) (s : State) : Host.Outcome State Fault Refusal := s.finish (.ok (s.setPoint d (s.point a)))

/-- PGETX (R93). -/
def execPgetx (d : Reg) (a : PtReg) (s : State) : Host.Outcome State Fault Refusal :=
  s.finish (match s.point a with
    | .inf => .error .pointAtInfinity
    | .affine x _ => .ok (s.setReg d x))

/-- PGETY (R94). -/
def execPgety (d : Reg) (a : PtReg) (s : State) : Host.Outcome State Fault Refusal :=
  s.finish (match s.point a with
    | .inf => .error .pointAtInfinity
    | .affine _ y => .ok (s.setReg d y))

/-- PADD (R95). -/
def execPadd (d a b : PtReg) (s : State) : Host.Outcome State Fault Refusal :=
  s.finish do
    s.requireModulus .p
    let q ← paddF s.curve (s.point a) (s.point b)
    pure (s.setPoint d q)

/-- PMUL (R96): a scalar `k ≥ n` is rejected. -/
def execPmul (d a : PtReg) (b : Reg) (s : State) : Host.Outcome State Fault Refusal :=
  s.finish do
    s.requireModuli
    require (decide (s.regNat b < s.curve.nNat)) .scalarOutOfRange
    let q ← pmulF s.curve (s.point a) (s.regNat b)
    pure (s.setPoint d q)

/-- PMULADD (R97): the composition of two PMULs and one PADD, both scalars checked first. -/
def execPmuladd (d a b : PtReg) (c : Reg) (s : State) : Host.Outcome State Fault Refusal :=
  s.finish do
    requireLegal (.pmuladd d a b c)
    s.requireModuli
    require (decide (s.regNat c < s.curve.nNat)) .scalarOutOfRange
    require (decide (s.regNat (regUp c 1) < s.curve.nNat)) .scalarOutOfRange
    let q1 ← pmulF s.curve (s.point a) (s.regNat c)
    let q2 ← pmulF s.curve (s.point b) (s.regNat (regUp c 1))
    let q ← paddF s.curve q1 q2
    pure (s.setPoint d q)

/-- PFROMX (R98). -/
def execPfromx (d : PtReg) (a : Reg) (odd : Bool) (s : State) : Host.Outcome State Fault Refusal :=
  s.finish do
    s.requireModulus .p
    let q ← fromxF s.curve (s.regNat a) odd
    pure (s.setPoint d q)

/-- ENCODE (R99): the listed bytes of `BUF`, and `BUF_LEN`. -/
def execEncode (a : PtReg) (compressed : Bool) (s : State) : Host.Outcome State Fault Refusal :=
  s.finish (match s.point a with
    | .inf => .error .pointAtInfinity
    | .affine x y =>
      .ok { s with
        buf := s.buf.writeAll 0 (encodePoint x y compressed)
        bufLen := BitVec.ofNat 8 (encodePoint x y compressed).length })

/-- DECODE (R100). -/
def execDecode (d : PtReg) (s : State) : Host.Outcome State Fault Refusal :=
  s.finish do
    s.requireModulus .p
    let q ← decodePoint s.curve s.buf s.bufLen.toNat
    pure (s.setPoint d q)

end Sys2Proof.Machine
end

