-- ==== Sys2Proof/Machine/Dispatch.lean ====
section
/-! DEFINITION. The meaning of every command, one arm per constructor of `Instr`. -/

namespace Sys2Proof.Machine

def exec (i : Instr) (s : State) : Host.Outcome State Fault Refusal :=
  match i with
  | .nop => Sys2Proof.Machine.execNop s
  | .mov d a => Sys2Proof.Machine.execMov d a s
  | .add d a b m => Sys2Proof.Machine.execAdd d a b m s
  | .sub d a b m => Sys2Proof.Machine.execSub d a b m s
  | .mul d a b m => Sys2Proof.Machine.execMul d a b m s
  | .mmul d a b m => Sys2Proof.Machine.execMmul d a b m s
  | .red d a m => Sys2Proof.Machine.execRed d a m s
  | .redw d a m => Sys2Proof.Machine.execRedw d a m s
  | .pow d a b m => Sys2Proof.Machine.execPow d a b m s
  | .inv d a m => Sys2Proof.Machine.execInv d a m s
  | .div d a b m => Sys2Proof.Machine.execDiv d a b m s
  | .sqrt d c a m => Sys2Proof.Machine.execSqrt d c a m s
  | .rand d m => Sys2Proof.Machine.execRand d m s
  | .pinf d => Sys2Proof.Machine.execPinf d s
  | .pgen d => Sys2Proof.Machine.execPgen d s
  | .pset d a b => Sys2Proof.Machine.execPset d a b s
  | .pmov d a => Sys2Proof.Machine.execPmov d a s
  | .pgetx d a => Sys2Proof.Machine.execPgetx d a s
  | .pgety d a => Sys2Proof.Machine.execPgety d a s
  | .padd d a b => Sys2Proof.Machine.execPadd d a b s
  | .pmul d a b => Sys2Proof.Machine.execPmul d a b s
  | .pmuladd d a b c => Sys2Proof.Machine.execPmuladd d a b c s
  | .pfromx d a odd => Sys2Proof.Machine.execPfromx d a odd s
  | .encode a compressed => Sys2Proof.Machine.execEncode a compressed s
  | .decode d => Sys2Proof.Machine.execDecode d s
  | .sign d a b det => Sys2Proof.Machine.execSign d a b det s
  | .signCid d a b c det => Sys2Proof.Machine.execSignCid d a b c det s
  | .verify d a b => Sys2Proof.Machine.execVerify d a b s
  | .recover d a b => Sys2Proof.Machine.execRecover d a b s
  | .nonce d a b => Sys2Proof.Machine.execNonce d a b s

end Sys2Proof.Machine
end

