-- ==== Sys2Proof/Decode.lean ====
section
/-! DEFINITION. The command word: its fields, the decoder, the encoder and the assembler text
(spec/30_encoding.md R53-R63). -/

namespace Sys2Proof

/-- The fields of the one command format of R53, each as the unsigned value of its bits (R55). -/
structure Fields where
  op : Nat
  d : Nat
  a : Nat
  b : Nat
  c : Nat
  m : Nat
  f : Nat
  g : Nat
  rsv : Nat
  deriving DecidableEq, Repr

/-- The `width` bits of a word from bit `lo` up. -/
def bitsOf (w lo width : Nat) : Nat := w / 2 ^ lo % 2 ^ width

/-- Where R53 places each field. -/
def Fields.ofWord (w : CmdWord) : Fields :=
  { op := bitsOf w.toNat 0 8
    d := bitsOf w.toNat 8 4
    a := bitsOf w.toNat 12 4
    b := bitsOf w.toNat 16 4
    c := bitsOf w.toNat 20 4
    m := bitsOf w.toNat 24 1
    f := bitsOf w.toNat 25 1
    g := bitsOf w.toNat 26 1
    rsv := bitsOf w.toNat 27 5 }

/-- `OP | D<<8 | A<<12 | B<<16 | C<<20 | M<<24 | F<<25 | G<<26` (R65), with the reserved bits above. -/
def Fields.toWord (x : Fields) : CmdWord :=
  BitVec.ofNat 32 (x.op + x.d * 2 ^ 8 + x.a * 2 ^ 12 + x.b * 2 ^ 16 + x.c * 2 ^ 20 + x.m * 2 ^ 24 + x.f * 2 ^ 25
    + x.g * 2 ^ 26 + x.rsv * 2 ^ 27)

/-- The names of the fields a command may use (R59, condition 3). -/
inductive FieldName where
  | d
  | a
  | b
  | c
  | m
  | f
  | g
  deriving DecidableEq, Repr

/-- The value of a named field. -/
def Fields.get (x : Fields) : FieldName → Nat
  | .d => x.d
  | .a => x.a
  | .b => x.b
  | .c => x.c
  | .m => x.m
  | .f => x.f
  | .g => x.g

/-- Why a word is no legal command (R59, R60). -/
inductive DecodeError where
  /-- The opcode is unassigned (R59, condition 1). -/
  | unassignedOpcode
  /-- A reserved bit of [31:27] is set (condition 2). -/
  | reservedBits
  /-- A field the command does not use is not 0 (condition 3). -/
  | unusedField
  /-- A field that names a point register is above 7 (condition 4). -/
  | pointRegister
  /-- A group or distinctness constraint fails (condition 5). -/
  | registerGroup
  deriving DecidableEq, Repr

/-- A field that names an operand register (R54). -/
def regOf (n : Nat) : Reg := Fin.ofNat 16 n

/-- A field that names a point register (R54); `Fields.command` has refused values above 7. -/
def ptOf (n : Nat) : PtReg := Fin.ofNat 8 n

/-- The `M` field (R56). -/
def selOf (n : Nat) : ModSel := if n = 0 then .p else .n

/-- An `F` or `G` field (R57). -/
def flagOf (n : Nat) : Bool := n != 0

/-- Conditions 2 to 5 of R59 for the command `i` that uses the fields `used`, of which `points` name point
registers. -/
def Fields.command (x : Fields) (used points : List FieldName) (i : Instr) : Except DecodeError Instr :=
  if x.rsv ≠ 0 then .error .reservedBits
  else if [FieldName.d, .a, .b, .c, .m, .f, .g].any (fun n => !used.contains n && x.get n != 0) then .error .unusedField
  else if points.any (fun n => decide (7 < x.get n)) then .error .pointRegister
  else if i.wellFormed then .ok i
  else .error .registerGroup

/-- The opcode map of R58, with the fields each command uses. For SIGN the field `C` counts as used only when
`G = 1` (R59, condition 3). -/
def Fields.decode (x : Fields) : Except DecodeError Instr :=
  match x.op with
  | 0x00 => x.command [] [] .nop
  | 0x01 => x.command [.d, .a] [] (.mov (regOf x.d) (regOf x.a))
  | 0x10 => x.command [.d, .a, .b, .m] [] (.add (regOf x.d) (regOf x.a) (regOf x.b) (selOf x.m))
  | 0x11 => x.command [.d, .a, .b, .m] [] (.sub (regOf x.d) (regOf x.a) (regOf x.b) (selOf x.m))
  | 0x12 => x.command [.d, .a, .b, .m] [] (.mul (regOf x.d) (regOf x.a) (regOf x.b) (selOf x.m))
  | 0x13 => x.command [.d, .a, .b, .m] [] (.mmul (regOf x.d) (regOf x.a) (regOf x.b) (selOf x.m))
  | 0x14 => x.command [.d, .a, .m] [] (.red (regOf x.d) (regOf x.a) (selOf x.m))
  | 0x15 => x.command [.d, .a, .m] [] (.redw (regOf x.d) (regOf x.a) (selOf x.m))
  | 0x16 => x.command [.d, .a, .b, .m] [] (.pow (regOf x.d) (regOf x.a) (regOf x.b) (selOf x.m))
  | 0x17 => x.command [.d, .a, .m] [] (.inv (regOf x.d) (regOf x.a) (selOf x.m))
  | 0x18 => x.command [.d, .a, .b, .m] [] (.div (regOf x.d) (regOf x.a) (regOf x.b) (selOf x.m))
  | 0x19 => x.command [.d, .c, .a, .m] [] (.sqrt (regOf x.d) (regOf x.c) (regOf x.a) (selOf x.m))
  | 0x1A => x.command [.d, .m] [] (.rand (regOf x.d) (selOf x.m))
  | 0x20 => x.command [.d] [.d] (.pinf (ptOf x.d))
  | 0x21 => x.command [.d] [.d] (.pgen (ptOf x.d))
  | 0x22 => x.command [.d, .a, .b] [.d] (.pset (ptOf x.d) (regOf x.a) (regOf x.b))
  | 0x23 => x.command [.d, .a] [.d, .a] (.pmov (ptOf x.d) (ptOf x.a))
  | 0x24 => x.command [.d, .a] [.a] (.pgetx (regOf x.d) (ptOf x.a))
  | 0x25 => x.command [.d, .a] [.a] (.pgety (regOf x.d) (ptOf x.a))
  | 0x26 => x.command [.d, .a, .b] [.d, .a, .b] (.padd (ptOf x.d) (ptOf x.a) (ptOf x.b))
  | 0x27 => x.command [.d, .a, .b] [.d, .a] (.pmul (ptOf x.d) (ptOf x.a) (regOf x.b))
  | 0x28 => x.command [.d, .a, .b, .c] [.d, .a, .b] (.pmuladd (ptOf x.d) (ptOf x.a) (ptOf x.b) (regOf x.c))
  | 0x29 => x.command [.d, .a, .f] [.d] (.pfromx (ptOf x.d) (regOf x.a) (flagOf x.f))
  | 0x2A => x.command [.a, .f] [.a] (.encode (ptOf x.a) (flagOf x.f))
  | 0x2B => x.command [.d] [.d] (.decode (ptOf x.d))
  | 0x30 =>
    if x.g = 0 then x.command [.d, .a, .b, .f] [] (.sign (regOf x.d) (regOf x.a) (regOf x.b) (flagOf x.f))
    else x.command [.d, .a, .b, .c, .f, .g] []
      (.signCid (regOf x.d) (regOf x.a) (regOf x.b) (regOf x.c) (flagOf x.f))
  | 0x31 => x.command [.d, .a, .b] [] (.verify (regOf x.d) (regOf x.a) (regOf x.b))
  | 0x32 => x.command [.d, .a, .b] [.d] (.recover (ptOf x.d) (regOf x.a) (regOf x.b))
  | 0x33 => x.command [.d, .a, .b] [] (.nonce (regOf x.d) (regOf x.a) (regOf x.b))
  | _ => .error .unassignedOpcode

/-- The decoder: the command a 32-bit word stands for, or why it is illegal. Legality depends only on the word
(R59). -/
def decode (w : CmdWord) : Except DecodeError Instr := (Fields.ofWord w).decode

/-- The instruction the decoder reads from a word numbered as spec/opcode_table.json numbers its bits. -/
def decodeTableWord (nbits w : Nat) : Option Instr :=
  match decode (BitVec.ofNat 32 (w % 2 ^ nbits)) with
  | .ok i => some i
  | .error _ => none

/-- The `M` bit of a modulus select (R56). -/
def ModSel.bit : ModSel → Nat
  | .p => 0
  | .n => 1

/-- The bit of a flag (R57). -/
def flagBit (b : Bool) : Nat := if b then 1 else 0

/-- The format with the given opcode and register fields and no flag. -/
def Fields.plain (op d a b c : Nat) : Fields :=
  { op := op, d := d, a := a, b := b, c := c, m := 0, f := 0, g := 0, rsv := 0 }

/-- The fields of each command, from the table of R58 and the assembler table of R62. -/
def Instr.fields : Instr → Fields
  | .nop => .plain 0x00 0 0 0 0
  | .mov d a => .plain 0x01 d a 0 0
  | .add d a b m => { Fields.plain 0x10 d a b 0 with m := m.bit }
  | .sub d a b m => { Fields.plain 0x11 d a b 0 with m := m.bit }
  | .mul d a b m => { Fields.plain 0x12 d a b 0 with m := m.bit }
  | .mmul d a b m => { Fields.plain 0x13 d a b 0 with m := m.bit }
  | .red d a m => { Fields.plain 0x14 d a 0 0 with m := m.bit }
  | .redw d a m => { Fields.plain 0x15 d a 0 0 with m := m.bit }
  | .pow d a b m => { Fields.plain 0x16 d a b 0 with m := m.bit }
  | .inv d a m => { Fields.plain 0x17 d a 0 0 with m := m.bit }
  | .div d a b m => { Fields.plain 0x18 d a b 0 with m := m.bit }
  | .sqrt d c a m => { Fields.plain 0x19 d a 0 c with m := m.bit }
  | .rand d m => { Fields.plain 0x1A d 0 0 0 with m := m.bit }
  | .pinf d => .plain 0x20 d 0 0 0
  | .pgen d => .plain 0x21 d 0 0 0
  | .pset d a b => .plain 0x22 d a b 0
  | .pmov d a => .plain 0x23 d a 0 0
  | .pgetx d a => .plain 0x24 d a 0 0
  | .pgety d a => .plain 0x25 d a 0 0
  | .padd d a b => .plain 0x26 d a b 0
  | .pmul d a b => .plain 0x27 d a b 0
  | .pmuladd d a b c => .plain 0x28 d a b c
  | .pfromx d a odd => { Fields.plain 0x29 d a 0 0 with f := flagBit odd }
  | .encode a compressed => { Fields.plain 0x2A 0 a 0 0 with f := flagBit compressed }
  | .decode d => .plain 0x2B d 0 0 0
  | .sign d a b det => { Fields.plain 0x30 d a b 0 with f := flagBit det }
  | .signCid d a b c det => { Fields.plain 0x30 d a b c with f := flagBit det, g := 1 }
  | .verify d a b => .plain 0x31 d a b 0
  | .recover d a b => .plain 0x32 d a b 0
  | .nonce d a b => .plain 0x33 d a b 0

/-- The encoder: the 32-bit word of a command (R53, R58, R65). -/
def encode (i : Instr) : CmdWord := i.fields.toWord

/-- The opcode field of a word, whether or not the word is legal (R31 speaks of "opcode field"). -/
def opcodeField (w : CmdWord) : Nat := (Fields.ofWord w).op

/-! The assembler text of R62 and the pseudo-instructions of R63. -/

/-- `.p` or `.n`: there is no default (R62). -/
def ModSel.suffix : ModSel → String
  | .p => ".p"
  | .n => ".n"

/-- `r0`..`r15` (R62). -/
def regText (r : Reg) : String := "r" ++ Nat.repr r.val

/-- `pt0`..`pt7` (R62). -/
def ptText (q : PtReg) : String := "pt" ++ Nat.repr q.val

/-- A mnemonic and its operands, separated as R62 writes them. -/
def asmLine (mnemonic : String) (operands : List String) : String :=
  match operands with
  | [] => mnemonic
  | _ => mnemonic ++ " " ++ ", ".intercalate operands

/-- The assembler text of a command (R62). -/
def Instr.asm : Instr → String
  | .nop => asmLine "nop" []
  | .mov d a => asmLine "mov" [regText d, regText a]
  | .add d a b m => asmLine ("add" ++ m.suffix) [regText d, regText a, regText b]
  | .sub d a b m => asmLine ("sub" ++ m.suffix) [regText d, regText a, regText b]
  | .mul d a b m => asmLine ("mul" ++ m.suffix) [regText d, regText a, regText b]
  | .mmul d a b m => asmLine ("mmul" ++ m.suffix) [regText d, regText a, regText b]
  | .red d a m => asmLine ("red" ++ m.suffix) [regText d, regText a]
  | .redw d a m => asmLine ("redw" ++ m.suffix) [regText d, regText a]
  | .pow d a b m => asmLine ("pow" ++ m.suffix) [regText d, regText a, regText b]
  | .inv d a m => asmLine ("inv" ++ m.suffix) [regText d, regText a]
  | .div d a b m => asmLine ("div" ++ m.suffix) [regText d, regText a, regText b]
  | .sqrt d c a m => asmLine ("sqrt" ++ m.suffix) [regText d, regText c, regText a]
  | .rand d m => asmLine ("rand" ++ m.suffix) [regText d]
  | .pinf d => asmLine "pinf" [ptText d]
  | .pgen d => asmLine "pgen" [ptText d]
  | .pset d a b => asmLine "pset" [ptText d, regText a, regText b]
  | .pmov d a => asmLine "pmov" [ptText d, ptText a]
  | .pgetx d a => asmLine "pgetx" [regText d, ptText a]
  | .pgety d a => asmLine "pgety" [regText d, ptText a]
  | .padd d a b => asmLine "padd" [ptText d, ptText a, ptText b]
  | .pmul d a b => asmLine "pmul" [ptText d, ptText a, regText b]
  | .pmuladd d a b c => asmLine "pmuladd" [ptText d, ptText a, ptText b, regText c]
  | .pfromx d a odd => asmLine (if odd then "pfromx.odd" else "pfromx.even") [ptText d, regText a]
  | .encode a compressed => asmLine (if compressed then "encode.c" else "encode.u") [ptText a]
  | .decode d => asmLine "decode" [ptText d]
  | .sign d a b det => asmLine (if det then "sign.det" else "sign.rnd") [regText d, regText a, regText b]
  | .signCid d a b c det =>
    asmLine (if det then "sign.det.cid" else "sign.rnd.cid") [regText d, regText a, regText b, regText c]
  | .verify d a b => asmLine "verify" [regText d, regText a, regText b]
  | .recover d a b => asmLine "recover" [ptText d, regText a, regText b]
  | .nonce d a b => asmLine "nonce" [regText d, regText a, regText b]

/-- The pseudo-instruction `sqr.m rd, ra` (R63). -/
def pseudoSqr (d a : Reg) (m : ModSel) : Instr := .mul d a a m

/-- The pseudo-instruction `pdbl ptd, pta` (R63). -/
def pseudoPdbl (d a : PtReg) : Instr := .padd d a a

/-- The pseudo-instruction `neg.m rd, ra, rz`, `rz` a register the program has set to 0 (R63). -/
def pseudoNeg (d a z : Reg) (m : ModSel) : Instr := .sub d z a m

end Sys2Proof
end

