-- ==== Sys2Proof/Machine/Bus.lean ====
section
/-! DEFINITION. The host register window (spec/20_memory.md): its map, what each word reads, what a write of it does, and
which accesses are refused. A transfer is one atomic step and its answer is left in `response` (entry 7). -/

namespace Sys2Proof.Machine

/-- The six curve registers by their place in the map (R37). -/
inductive CurveField where
  | p
  | a
  | b
  | gx
  | gy
  | n
  deriving DecidableEq, Repr

/-- What an aligned offset of the window reaches (R37). `k` is the word within a 256-bit value. -/
inductive Place where
  | id
  | hwcfg
  | ctrl
  | status
  | errcode
  | cmd
  | bufLen
  | attempts
  | pinf
  | maxatt
  | reg (r : Reg) (k : Fin 8)
  | curve (f : CurveField) (k : Fin 8)
  | pointX (q : PtReg) (k : Fin 8)
  | pointY (q : PtReg) (k : Fin 8)
  | buf (k : Fin 32)
  | reserved
  deriving DecidableEq, Repr

/-- The curve register of each 32-byte block from `0x300` up (R37). -/
def curveFieldAt (n : Nat) : CurveField :=
  match n with
  | 0 => .p
  | 1 => .a
  | 2 => .b
  | 3 => .gx
  | 4 => .gy
  | _ => .n

/-- The control registers, by word index (R37). -/
def controlPlace (n : Nat) : Place :=
  match n with
  | 0 => .id
  | 1 => .hwcfg
  | 2 => .ctrl
  | 3 => .status
  | 4 => .errcode
  | 5 => .cmd
  | 6 => .bufLen
  | 7 => .attempts
  | 8 => .pinf
  | 9 => .maxatt
  | _ => .reserved

/-- The address map of R37, by byte offset. -/
def placeAt (n : Nat) : Place :=
  if n < 0x100 then controlPlace (n / 4)
  else if n < 0x300 then .reg (Fin.ofNat 16 ((n - 0x100) / 0x20)) (Fin.ofNat 8 (n % 0x20 / 4))
  else if n < 0x3C0 then .curve (curveFieldAt ((n - 0x300) / 0x20)) (Fin.ofNat 8 (n % 0x20 / 4))
  else if n < 0x400 then .reserved
  else if n < 0x600 then
    if n % 0x40 < 0x20 then .pointX (Fin.ofNat 8 ((n - 0x400) / 0x40)) (Fin.ofNat 8 (n % 0x20 / 4))
    else .pointY (Fin.ofNat 8 ((n - 0x400) / 0x40)) (Fin.ofNat 8 (n % 0x20 / 4))
  else if n < 0x680 then .buf (Fin.ofNat 32 ((n - 0x600) / 4))
  else .reserved

/-- The data region `0x100`–`0x67F`, the reserved hole included (R47). -/
def inDataRegion (n : Nat) : Bool := decide (0x100 ≤ n) && decide (n < 0x680)

/-- A curve register (R20). -/
def Curve.get (c : Curve) : CurveField → Word
  | .p => c.p
  | .a => c.a
  | .b => c.b
  | .gx => c.gx
  | .gy => c.gy
  | .n => c.n

/-- A host write of a curve register (R20). -/
def Curve.set (c : Curve) (f : CurveField) (v : Word) : Curve :=
  match f with
  | .p => { c with p := v }
  | .a => { c with a := v }
  | .b => { c with b := v }
  | .gx => { c with gx := v }
  | .gy => { c with gy := v }
  | .n => { c with n := v }

/-- The buffer word: `BUF[4k]` in bits [7:0] up to `BUF[4k+3]` in bits [31:24] (R44). -/
def bufWord (m : Memory) (k : Fin 32) : BusWord := BitVec.ofNat 32 (lanes (m.slice (4 * k.val) 4))

/-- What a word of the window reads when the read is allowed; a reserved offset reads 0 with an error (R38). -/
def State.readPlace (s : State) : Place → Response
  | .id => { data := Config.idValue, err := false }
  | .hwcfg => { data := Config.hwcfgValue, err := false }
  | .ctrl => { data := ctrlWord s.ie, err := false }
  | .status => { data := s.status.word, err := false }
  | .errcode => { data := s.errcode.code.setWidth 32, err := false }
  | .cmd => { data := s.cmdLast, err := false }
  | .bufLen => { data := s.bufLen.setWidth 32, err := false }
  | .attempts => { data := s.attempts.setWidth 32, err := false }
  | .pinf => { data := pinfWord s.points, err := false }
  | .maxatt => { data := Config.maxattValue, err := false }
  | .reg r k => { data := wordAt (s.reg r) k, err := false }
  | .curve f k => { data := wordAt (s.curve.get f) k, err := false }
  | .pointX q k => { data := wordAt (s.point q).x k, err := false }
  | .pointY q k => { data := wordAt (s.point q).y k, err := false }
  | .buf k => { data := bufWord s.buf k, err := false }
  | .reserved => { data := 0#32, err := true }

/-- The answer of a transfer that is refused: an error, and data 0, which R38, R40 and R47 give a read and entry 7 a write. -/
def refusal : Response := { data := 0#32, err := true }

/-- The answer of an accepted write; `PRDATA` of a write is 0 (entry 7). -/
def accepted : Response := { data := 0#32, err := false }

/-- Leaves the answer of a transfer. -/
def State.respond (s : State) (r : Response) : State := { s with response := some r }

/-- An access refused because the block is busy (R47). -/
def State.accessViolation (s : State) : State :=
  { s with status := { s.status with accViol := true } }.respond refusal

/-- A write of `CMD` while busy is dropped (R47). -/
def State.dropCommand (s : State) : State :=
  { s with status := { s.status with cmdDropped := true } }.respond refusal

/-- A write of `CTRL` (R26): reset wins over abort (R132), abort acts only while busy (R120), and bit 0 is `IE`. -/
def State.writeCtrl (s : State) (v : BusWord) : State :=
  if v.getLsbD 2 then s.restart
  else if v.getLsbD 1 && s.status.busy then { s with ie := v.getLsbD 0 }.abort
  else { s with ie := v.getLsbD 0 }

/-- An allowed write of a word of the window: its effect, or a refusal for a read-only or reserved word (R37, R38). -/
def State.writePlace (s : State) (v : BusWord) : Place → State
  | .ctrl => (s.writeCtrl v).respond accepted
  | .status => (s.acknowledge v).respond accepted
  | .cmd => (s.issue v).respond accepted
  | .bufLen => { s with bufLen := v.setWidth 8 }.respond accepted
  | .reg r k => (s.setReg r (setWordAt (s.reg r) k v)).respond accepted
  | .curve f k => { s with curve := s.curve.set f (setWordAt (s.curve.get f) k v) }.respond accepted
  | .buf k => { s with buf := s.buf.writeAll (4 * k.val) (laneBytes 4 v.toNat) }.respond accepted
  | .id => s.respond refusal
  | .hwcfg => s.respond refusal
  | .errcode => s.respond refusal
  | .attempts => s.respond refusal
  | .pinf => s.respond refusal
  | .maxatt => s.respond refusal
  | .pointX _ _ => s.respond refusal
  | .pointY _ _ => s.respond refusal
  | .reserved => s.respond refusal

/-- A read of the window: a misaligned one is refused without effect (R40, entry 6), one of the data region while busy is
refused and flagged (R47). -/
def State.serveRead (s : State) (addr : Offset) : State :=
  if addr.toNat % 4 ≠ 0 then s.respond refusal
  else if s.status.busy && inDataRegion addr.toNat then s.accessViolation
  else s.respond (s.readPlace (placeAt addr.toNat))

/-- A write of the window (R40, R47, R37). -/
def State.serveWrite (s : State) (addr : Offset) (strb : BitVec 4) (v : BusWord) : State :=
  if addr.toNat % 4 ≠ 0 ∨ strb ≠ 0b1111#4 then s.respond refusal
  else if s.status.busy && decide (placeAt addr.toNat = .cmd) then s.dropCommand
  else if s.status.busy && (inDataRegion addr.toNat || decide (placeAt addr.toNat = .bufLen)) then s.accessViolation
  else s.writePlace v (placeAt addr.toNat)

/-- One bus transfer; while `PRESETn` is 0 the block ignores it (R131, entry 11). -/
def State.serve (s : State) (t : Transfer) : State :=
  if s.presetn then
    match t with
    | .read addr => s.serveRead addr
    | .write addr strb v => s.serveWrite addr strb v
  else s

end Sys2Proof.Machine
end

