-- ==== Sys2Proof/Machine/Engine.lean ====
section
/-! DEFINITION. What one step is about: the next outside event, or a turn of the engine on the latched command
(spec/20_memory.md R48; spec/60_exceptions.md R110-R112, R119). -/

namespace Sys2Proof.Machine

/-- `ATTEMPTS` at the completion of an illegal word: 0 when its opcode field is SIGN or NONCE (R31, R113). -/
def illegalAttempts (w : CmdWord) : Option Nat := if opcodeField w = 0x30 ∨ opcodeField w = 0x33 then some 0 else none

/-- A turn of the engine: while busy it runs the command latched in `CMD_LAST`; an illegal word ends with
`ILLEGAL_COMMAND` (R59, R109). An idle block does nothing (R130). -/
def State.engineTurn (s : State) : Turn :=
  if s.presetn && s.status.busy then
    match decode s.cmdLast with
    | .ok i => .run i s
    | .error _ => .settled (s.fail .illegalCommand (illegalAttempts s.cmdLast))
  else .settled s

/-- An event on a pin or port; `turn` is the engine's (R121, R122, R131). While `PRESETn` is 0 the ports are idle and
a response is ignored (R131). -/
def State.receive (s : State) : Input → State
  | .bus t => s.serve t
  | .hmacReady => { s with hmacPort := s.hmacPort.ready }
  | .hmacResponse data => { s with hmacPort := s.hmacPort.respond data }
  | .rngAck data => { s with rngPort := s.rngPort.ack data }
  | .resetPin level => s.setResetPin level
  | .turn => s

/-- What the next step is about: the oldest outside event, or the engine when the event is its turn or no event is to
come (entries 1 to 3). -/
def State.nextTurn (s : State) : Turn :=
  match s.inputs with
  | [] => s.engineTurn
  | .turn :: rest => { s with inputs := rest }.engineTurn
  | .bus t :: rest => .settled ({ s with inputs := rest }.receive (.bus t))
  | .hmacReady :: rest => .settled ({ s with inputs := rest }.receive .hmacReady)
  | .hmacResponse data :: rest => .settled ({ s with inputs := rest }.receive (.hmacResponse data))
  | .rngAck data :: rest => .settled ({ s with inputs := rest }.receive (.rngAck data))
  | .resetPin level :: rest => .settled ({ s with inputs := rest }.receive (.resetPin level))

/-- The word `w` latched as an accepted write of `CMD` latches it, and the engine's turn next (entry 1). -/
def State.latch (s : State) (w : CmdWord) : State :=
  { s.issue w with presetn := true, inputs := .turn :: s.inputs }

end Sys2Proof.Machine
end

