-- ==== Sys2Proof/Machine/Step.lean ====
section
/-! DEFINITION. One step of the block (spec/20_memory.md R48): an outside event or a turn of the engine. -/

namespace Sys2Proof.Machine

/-- One atomic step (R48, R119). -/
def step (s : State) : Host.Outcome State Fault Refusal :=
  match s.nextTurn with
  | .settled t => .next t
  | .run i t => exec i t

/-- `s` with the command word `w` latched, as an accepted write of `CMD` latches it (R110), and the engine's turn next:
the very next step runs it. The block fetches nothing; the word that `CMD` took is the one it runs (R51, entry 1). -/
def State.withFetchWord (s : State) (nbits w : Nat) : State := s.latch (BitVec.ofNat 32 (w % 2 ^ nbits))

end Sys2Proof.Machine
end

