-- ==== Sys2Proof/Machine/HostNotation.lean ====
section
/-! DEFINITION. The host's side: the addresses of the platform (spec/20_memory.md R37, parameter `BASE`) and the host program
notation of spec/30_encoding.md R64, as lists of outside events. -/

namespace Sys2Proof.Machine

/-- `BASE`, 4 KiB aligned (R9, R37). -/
def baseAddress : Nat := Config.basePage * 4096

/-- The offset a host address reaches inside the window, if it lies there (R36, R37). -/
def windowOffset (address : Nat) : Option Offset :=
  if baseAddress ≤ address ∧ address < baseAddress + 4096 then some (BitVec.ofNat 12 (address - baseAddress)) else none

/-- `W off, v` (R64). -/
def hostWrite (off : Nat) (v : BusWord) : Input := .bus (.write (BitVec.ofNat 12 off) 0b1111#4 v)

/-- `R off` (R64). -/
def hostRead (off : Nat) : Input := .bus (.read (BitVec.ofNat 12 off))

/-- `W256 off, X`: eight writes, the least significant word first (R64). -/
def hostWrite256 (off : Nat) (x : Word) : List Input :=
  (List.finRange 8).map fun k => hostWrite (off + 4 * k.val) (wordAt x k)

/-- `R256 off`: eight reads (R64). -/
def hostRead256 (off : Nat) : List Input := (List.finRange 8).map fun k => hostRead (off + 4 * k.val)

/-- `ISSUE cmd` (R64). -/
def hostIssue (i : Instr) : Input := hostWrite 0x014 (encode i)

end Sys2Proof.Machine
end

