-- ==== Sys2Proof/Machine/Ports.lean ====
section
/-! DEFINITION. The output signals of the two ports as functions of the state (spec/60_exceptions.md R121, R122). -/

namespace Sys2Proof.Machine

/-- The request presented, if any. -/
def HmacPort.presentedRequest : HmacPort → Option HmacRequest
  | .presented req _ => some req
  | .idle => none
  | .outstanding _ _ => none
  | .answered _ => none

/-- `hm_req_valid`. -/
def State.hmReqValid (s : State) : Bool := s.hmacPort.presentedRequest.isSome

/-- `hm_req_key`: key byte `i` on bits `[8i+7:8i]`. -/
def HmacRequest.keyLanes (r : HmacRequest) : BitVec 256 := BitVec.ofNat 256 (lanes (bytes32 r.key))

/-- `hm_req_len`: `len(msg)`. -/
def HmacRequest.lenLanes (r : HmacRequest) : BitVec 7 := BitVec.ofNat 7 r.msg.length

/-- `hm_req_msg`: message byte `i` on bits `[8i+7:8i]`, the bits above 0. -/
def HmacRequest.msgLanes (r : HmacRequest) : BitVec 776 := BitVec.ofNat 776 (lanes r.msg)

/-- `rng_req` (R122). DESIGN CHOICE: a level, 1 while the request is outstanding, also after an abort; the spec names the
signal and does not say whether it is held until `rng_ack` or only announces the request (entry 23). -/
def State.rngReq (s : State) : Bool :=
  match s.rngPort with
  | .requested _ => true
  | .idle => false
  | .answered _ => false

/-- The response lanes of a unit that computes the function given on a request: response byte `i` on bits `[8i+7:8i]`
(R121). -/
def HmacRequest.answer (r : HmacRequest) (hmac : Word → List Byte → Word) : BitVec 256 :=
  BitVec.ofNat 256 (lanes (bytes32 (hmac r.key r.msg)))

/-- The response of the unit the block is specified with, which computes the parameter `HMAC` (R121, entry 8). -/
def lawfulResponse (r : HmacRequest) : BitVec 256 := r.answer Config.hmac

end Sys2Proof.Machine
end

