-- ==== Sys2Proof/Safety.lean ====
section
/-! DEFINITION. The terms the claims use: how a command completes and what it leaves alone (spec/60_exceptions.md R113,
R114), the tables of spec/30_encoding.md R58, R59 and spec/60_exceptions.md R108 written once more for the claims, and the
invariants of the block. -/

namespace Sys2Proof.Machine

/-! Completion and frames. -/

/-- `t` is a completed state: the status of a completion with the code given (R113). -/
structure Completed (code : ResultCode) (t : State) : Prop where
  errcode : t.errcode = code
  busy : t.status.busy = false
  done : t.status.done = true
  err : t.status.err = true ↔ code ≠ .ok

/-- Everything a command may leave alone is left alone, but the operand registers `ds` and the point registers `ps`:
the other registers, `CURVE`, `CTRL.IE`, `CMD_LAST`, the sticky flags of `STATUS`, the reset pin, the last answer on the bus
and the events to come. -/
structure Frame (ds : List Reg) (ps : List PtReg) (s t : State) : Prop where
  regs : ∀ r, r ∉ ds → t.reg r = s.reg r
  points : ∀ q, q ∉ ps → t.point q = s.point q
  curve : t.curve = s.curve
  ie : t.ie = s.ie
  cmdLast : t.cmdLast = s.cmdLast
  cmdDropped : t.status.cmdDropped = s.status.cmdDropped
  accViol : t.status.accViol = s.status.accViol
  presetn : t.presetn = s.presetn
  response : t.response = s.response
  inputs : t.inputs = s.inputs

/-- Every byte of `BUF` and `BUF_LEN` are unchanged. -/
structure BufferKept (s t : State) : Prop where
  bytes : ∀ j, t.buf.read j = s.buf.read j
  len : t.bufLen = s.bufLen

/-- The hidden state of the DRBG is unchanged. -/
structure DrbgKept (s t : State) : Prop where
  drbgK : t.drbgK = s.drbgK
  drbgV : t.drbgV = s.drbgV
  attempt : t.attempt = s.attempt

/-- Neither port has been touched. -/
structure PortsKept (s t : State) : Prop where
  hmacPort : t.hmacPort = s.hmacPort
  rngPort : t.rngPort = s.rngPort

/-- The state a command without port traffic completes in: the status of the code, the frame, `ATTEMPTS`, the DRBG and the
ports as before. -/
structure Ends (code : ResultCode) (ds : List Reg) (ps : List PtReg) (s t : State) : Prop where
  completed : Completed code t
  frame : Frame ds ps s t
  attempts : t.attempts = s.attempts
  drbg : DrbgKept s t
  ports : PortsKept s t

/-- The command completes with `OK`, writes at most the registers named, leaves `BUF` alone, and reaches a state with the
property given. -/
def CompletesOk (i : Instr) (s : State) (ds : List Reg) (ps : List PtReg) (result : State → Prop) : Prop :=
  ∃ t, exec i s = .next t ∧ Ends .ok ds ps s t ∧ BufferKept s t ∧ result t

/-- The command ends with an error code and writes no register, point register or byte of `BUF` (R114). -/
def FailsWith (i : Instr) (s : State) (code : ResultCode) : Prop :=
  code ≠ .ok ∧ ∃ t, exec i s = .next t ∧ Ends code [] [] s t ∧ BufferKept s t

/-- The response that arrived on the port of the mode has been used: that port is idle again, the other one untouched
(R121, R122). -/
structure ResponseUsed (det : Bool) (s t : State) : Prop where
  hmacPort : t.hmacPort = if det then .idle else s.hmacPort
  rngPort : t.rngPort = if det then s.rngPort else .idle

/-- The same for NONCE and SIGN, which also set `ATTEMPTS`, before their first transaction (R31, R113). -/
def FailsCounting (i : Instr) (s : State) (code : ResultCode) (count : Nat) : Prop :=
  code ≠ .ok ∧ ∃ t, exec i s = .next t ∧ Completed code t ∧ Frame [] [] s t ∧ BufferKept s t ∧ t.attempts.toNat = count ∧
    PortsKept s t

/-- The same at a candidate, whose response is used up (R103, R104, R121, R122). -/
def FailsAtCandidate (det : Bool) (i : Instr) (s : State) (code : ResultCode) (count : Nat) : Prop :=
  code ≠ .ok ∧ ∃ t, exec i s = .next t ∧ Completed code t ∧ Frame [] [] s t ∧ BufferKept s t ∧ t.attempts.toNat = count ∧
    ResponseUsed det s t

/-! Words and turns. -/

/-- The word `OP | D<<8 | A<<12 | B<<16 | C<<20 | M<<24 | F<<25 | G<<26` (R53, R65). -/
def commandWord (op d a b c m f g : Nat) : CmdWord :=
  BitVec.ofNat 32 op ||| BitVec.ofNat 32 d <<< 8 ||| BitVec.ofNat 32 a <<< 12 ||| BitVec.ofNat 32 b <<< 16 |||
    BitVec.ofNat 32 c <<< 20 ||| BitVec.ofNat 32 m <<< 24 ||| BitVec.ofNat 32 f <<< 25 ||| BitVec.ofNat 32 g <<< 26

/-- The word is the command's encoding, in both directions. -/
def EncodedBy (i : Instr) (w : CmdWord) : Prop := encode i = w ∧ decode w = .ok i

/-- A command runs and the next event is a turn of its engine; `rest` are the events after it. -/
structure State.EngineNext (s : State) (rest : List Input) : Prop where
  presetn : s.presetn = true
  busy : s.status.busy = true
  events : s.inputs = .turn :: rest ∨ s.inputs = [] ∧ rest = []

/-- The state in which the command ends that was latched in `s`, with the events `rest` to come: `ILLEGAL_COMMAND`, and
nothing but the status registers changed; `ATTEMPTS` is 0 for the opcode field of SIGN or NONCE (R59, R31). -/
structure EndsIllegal (rest : List Input) (s t : State) : Prop where
  completed : Completed .illegalCommand t
  frame : Frame [] [] { s with inputs := rest } t
  buffer : BufferKept s t
  drbg : DrbgKept s t
  ports : PortsKept s t
  attempts : t.attempts = if s.cmdLast.extractLsb' 0 8 = 0x30#8 ∨ s.cmdLast.extractLsb' 0 8 = 0x33#8 then 0#16 else s.attempts

/-- Every word with this opcode that is the word of no command ends with `ILLEGAL_COMMAND` (R59, R60). -/
def RefusesOtherWords (op : BitVec 8) : Prop :=
  ∀ (s : State) (rest : List Input), s.EngineNext rest → s.cmdLast.extractLsb' 0 8 = op →
    (∀ i, encode i = s.cmdLast → i.wellFormed = false) → ∃ t, step s = .next t ∧ EndsIllegal rest s t

/-! The tables of R58 and R59, by opcode. -/

/-- The assigned opcodes (R58). -/
def AssignedOpcode (op : Nat) : Prop :=
  op = 0x00 ∨ op = 0x01 ∨ (0x10 ≤ op ∧ op ≤ 0x1A) ∨ (0x20 ≤ op ∧ op ≤ 0x2B) ∨ (0x30 ≤ op ∧ op ≤ 0x33)

/-- The commands that use field `D` (R58). -/
def UsesD (op : Nat) : Prop :=
  op = 0x01 ∨ (0x10 ≤ op ∧ op ≤ 0x1A) ∨ (0x20 ≤ op ∧ op ≤ 0x29) ∨ op = 0x2B ∨ (0x30 ≤ op ∧ op ≤ 0x33)

/-- The commands that use field `A` (R58). -/
def UsesA (op : Nat) : Prop :=
  op = 0x01 ∨ (0x10 ≤ op ∧ op ≤ 0x19) ∨ (0x22 ≤ op ∧ op ≤ 0x2A) ∨ (0x30 ≤ op ∧ op ≤ 0x33)

/-- The commands that use field `B` (R58). -/
def UsesB (op : Nat) : Prop :=
  (0x10 ≤ op ∧ op ≤ 0x13) ∨ op = 0x16 ∨ op = 0x18 ∨ op = 0x22 ∨ (0x26 ≤ op ∧ op ≤ 0x28) ∨ (0x30 ≤ op ∧ op ≤ 0x33)

/-- The commands that use field `C`; SIGN only with `G = 1` (R58, R59). -/
def UsesC (op g : Nat) : Prop := op = 0x19 ∨ op = 0x28 ∨ (op = 0x30 ∧ g = 1)

/-- The commands that use the modulus select `M` (R56). -/
def UsesM (op : Nat) : Prop := 0x10 ≤ op ∧ op ≤ 0x1A

/-- The commands that use the flag `F` (R57). -/
def UsesF (op : Nat) : Prop := op = 0x29 ∨ op = 0x2A ∨ op = 0x30

/-- The commands whose field `D` names a point register (R58). -/
def PointD (op : Nat) : Prop := (0x20 ≤ op ∧ op ≤ 0x23) ∨ (0x26 ≤ op ∧ op ≤ 0x29) ∨ op = 0x2B ∨ op = 0x32

/-- The commands whose field `A` names a point register (R58). -/
def PointA (op : Nat) : Prop := (0x23 ≤ op ∧ op ≤ 0x28) ∨ op = 0x2A

/-- The commands whose field `B` names a point register (R58). -/
def PointB (op : Nat) : Prop := op = 0x26 ∨ op = 0x28

/-- A command word is legal exactly when these hold (R59, conditions 1 to 5). -/
structure LegalWord (w : CmdWord) : Prop where
  assigned : AssignedOpcode (w.extractLsb' 0 8).toNat
  reserved : w.extractLsb' 27 5 = 0
  unusedD : ¬UsesD (w.extractLsb' 0 8).toNat → w.extractLsb' 8 4 = 0
  unusedA : ¬UsesA (w.extractLsb' 0 8).toNat → w.extractLsb' 12 4 = 0
  unusedB : ¬UsesB (w.extractLsb' 0 8).toNat → w.extractLsb' 16 4 = 0
  unusedC : ¬UsesC (w.extractLsb' 0 8).toNat (w.extractLsb' 26 1).toNat → w.extractLsb' 20 4 = 0
  unusedM : ¬UsesM (w.extractLsb' 0 8).toNat → w.extractLsb' 24 1 = 0
  unusedF : ¬UsesF (w.extractLsb' 0 8).toNat → w.extractLsb' 25 1 = 0
  unusedG : (w.extractLsb' 0 8).toNat ≠ 0x30 → w.extractLsb' 26 1 = 0
  pointD : PointD (w.extractLsb' 0 8).toNat → (w.extractLsb' 8 4).toNat ≤ 7
  pointA : PointA (w.extractLsb' 0 8).toNat → (w.extractLsb' 12 4).toNat ≤ 7
  pointB : PointB (w.extractLsb' 0 8).toNat → (w.extractLsb' 16 4).toNat ≤ 7
  redw : w.extractLsb' 0 8 = 0x15#8 → (w.extractLsb' 12 4).toNat ≤ 14
  sqrt : w.extractLsb' 0 8 = 0x19#8 → w.extractLsb' 8 4 ≠ w.extractLsb' 20 4
  pmuladd : w.extractLsb' 0 8 = 0x28#8 → (w.extractLsb' 20 4).toNat ≤ 14
  sign : w.extractLsb' 0 8 = 0x30#8 → (w.extractLsb' 8 4).toNat ≤ 13
  verify : w.extractLsb' 0 8 = 0x31#8 → (w.extractLsb' 12 4).toNat ≤ 14
  recover : w.extractLsb' 0 8 = 0x32#8 → (w.extractLsb' 12 4).toNat ≤ 13

/-! The table of R108. -/

/-- The moduli a command checks (R108). -/
def checkedModuli : Instr → List ModSel
  | .nop => []
  | .mov _ _ => []
  | .add _ _ _ m => [m]
  | .sub _ _ _ m => [m]
  | .mul _ _ _ m => [m]
  | .mmul _ _ _ m => [m]
  | .red _ _ m => [m]
  | .redw _ _ m => [m]
  | .pow _ _ _ m => [m]
  | .inv _ _ m => [m]
  | .div _ _ _ m => [m]
  | .sqrt _ _ _ m => [m]
  | .rand _ m => [m]
  | .pinf _ => []
  | .pgen _ => [.p]
  | .pset _ _ _ => [.p]
  | .pmov _ _ => []
  | .pgetx _ _ => []
  | .pgety _ _ => []
  | .padd _ _ _ => [.p]
  | .pmul _ _ _ => [.p, .n]
  | .pmuladd _ _ _ _ => [.p, .n]
  | .pfromx _ _ _ => [.p]
  | .encode _ _ => []
  | .decode _ => [.p]
  | .sign _ _ _ _ => [.p, .n]
  | .signCid _ _ _ _ _ => [.p, .n]
  | .verify _ _ _ => [.p, .n]
  | .recover _ _ _ => [.p, .n]
  | .nonce _ _ _ => [.n]

/-- A modulus that is even or below 3 (R108). -/
def BadModulus (m : Nat) : Prop := m % 2 = 0 ∨ m < 3

/-- The commands whose opcode field is SIGN or NONCE (R31). -/
def countsAttempts : Instr → Bool
  | .sign _ _ _ _ => true
  | .signCid _ _ _ _ _ => true
  | .nonce _ _ _ => true
  | _ => false

/-- The commands that use a port (R121, R122). -/
def usesPort : Instr → Bool
  | .rand _ _ => true
  | i => countsAttempts i

/-- The operand registers a modular command writes, with the modulus of the command (R66, R67). -/
def modularResult : Instr → Option (List Reg × ModSel)
  | .add d _ _ m => some ([d], m)
  | .sub d _ _ m => some ([d], m)
  | .mul d _ _ m => some ([d], m)
  | .mmul d _ _ m => some ([d], m)
  | .red d _ m => some ([d], m)
  | .redw d _ m => some ([d], m)
  | .pow d _ _ m => some ([d], m)
  | .inv d _ m => some ([d], m)
  | .div d _ _ m => some ([d], m)
  | .sqrt d c _ m => some ([d, c], m)
  | .rand d m => some ([d], m)
  | _ => none

/-- The operand registers and the point registers a command may write (R69-R106). -/
def destinations : Instr → List Reg × List PtReg
  | .nop => ([], [])
  | .mov d _ => ([d], [])
  | .add d _ _ _ => ([d], [])
  | .sub d _ _ _ => ([d], [])
  | .mul d _ _ _ => ([d], [])
  | .mmul d _ _ _ => ([d], [])
  | .red d _ _ => ([d], [])
  | .redw d _ _ => ([d], [])
  | .pow d _ _ _ => ([d], [])
  | .inv d _ _ => ([d], [])
  | .div d _ _ _ => ([d], [])
  | .sqrt d c _ _ => ([d, c], [])
  | .rand d _ => ([d], [])
  | .pinf d => ([], [d])
  | .pgen d => ([], [d])
  | .pset d _ _ => ([], [d])
  | .pmov d _ => ([], [d])
  | .pgetx d _ => ([d], [])
  | .pgety d _ => ([d], [])
  | .padd d _ _ => ([], [d])
  | .pmul d _ _ => ([], [d])
  | .pmuladd d _ _ _ => ([], [d])
  | .pfromx d _ _ => ([], [d])
  | .encode _ _ => ([], [])
  | .decode d => ([], [d])
  | .sign d _ _ _ => ([d, regUp d 1, regUp d 2], [])
  | .signCid d _ _ _ _ => ([d, regUp d 1, regUp d 2], [])
  | .verify d _ _ => ([d], [])
  | .recover d _ _ => ([], [d])
  | .nonce d _ _ => ([d], [])

/-! Invariants. -/

/-- A request or an unused response of the running command is on the HMAC port. -/
def HmacPort.isLive : HmacPort → Bool
  | .idle => false
  | .presented _ live => live
  | .outstanding _ live => live
  | .answered _ => true

/-- A request or an unused response of the running command is on the RNG port. -/
def RngPort.isLive : RngPort → Bool
  | .idle => false
  | .requested live => live
  | .answered _ => true

/-- The latched command is NONCE, or SIGN in deterministic mode, with valid moduli: the only commands with HMAC traffic. -/
def State.RunsDrbg (s : State) : Prop :=
  s.status.busy = true ∧ modulusValid s.curve.nNat = true ∧
    ((∃ d a b, decode s.cmdLast = .ok (.nonce d a b)) ∨
      modulusValid s.curve.pNat = true ∧
        ((∃ d a b, decode s.cmdLast = .ok (.sign d a b true)) ∨
          ∃ d a b c, decode s.cmdLast = .ok (.signCid d a b c true)))

/-- The latched command is SIGN in random mode with valid moduli. -/
def State.RunsRandomSign (s : State) : Prop :=
  s.status.busy = true ∧ modulusValid s.curve.nNat = true ∧ modulusValid s.curve.pNat = true ∧
    ((∃ d a b, decode s.cmdLast = .ok (.sign d a b false)) ∨
      ∃ d a b c, decode s.cmdLast = .ok (.signCid d a b c false))

/-- The latched command is RAND with a valid modulus. -/
def State.RunsRand (s : State) : Prop :=
  s.status.busy = true ∧ ∃ d m, decode s.cmdLast = .ok (.rand d m) ∧ modulusValid (s.curve.modulus m) = true

/-- The result codes that no command produces (R107). -/
def ResultCode.reservedName : ResultCode → Bool
  | .tweakOutOfRange => true
  | .resultingKeyZero => true
  | .inputTooLong => true
  | _ => false

/-- The invariant of the block. -/
structure State.Inv (s : State) : Prop where
  /-- `BUF` is in canonical form. -/
  bufCanonical : s.buf.wf = true
  /-- The attempt counter and `ATTEMPTS` are at most `MAX_ATTEMPTS` (R31). -/
  attemptBound : s.attempt ≤ Config.maxAttempts
  attemptsBound : s.attempts.toNat ≤ Config.maxAttempts
  /-- From issue to completion `DONE`, `ERR` and `ERRCODE` are 0 (R110, R137). -/
  busyQuiet : s.status.busy = true → s.status.done = false ∧ s.status.err = false ∧ s.errcode = .ok
  /-- `ERR` is set only with a code other than `OK` (R27). -/
  errHasCode : s.status.err = true → s.errcode ≠ .ok
  /-- The reserved names are never produced (R107). -/
  codeProduced : s.errcode.reservedName = false
  /-- A command in the middle of the HMAC transactions is NONCE or deterministic SIGN (R121). -/
  drbgOwned : (∃ k, s.stage = .drbg k) → s.RunsDrbg
  /-- A command in the middle of its random draws is random SIGN (R122). -/
  randomOwned : s.stage = .random → s.RunsRandomSign
  /-- Live HMAC traffic belongs to a command at an HMAC transaction; an idle block has none. -/
  hmacOwned : s.hmacPort.isLive = true → ∃ k, s.stage = .drbg k
  /-- Live RNG traffic belongs to RAND or random SIGN (R122). -/
  rngOwned : s.rngPort.isLive = true → s.stage = .random ∨ s.RunsRand
  /-- A block held in reset is idle and shows no completion (R131). -/
  heldInReset : s.presetn = false → s.status.busy = false ∧ s.status.done = false

/-- Every point register holds `INF` or a point of the curve (R19). -/
def State.PointsOnCurve (s : State) : Prop :=
  ∀ q x y, s.point q = .affine x y → s.curve.onCurve x.toNat y.toNat = true

/-! The control registers (R24-R33) and the map (R37, R38). -/

/-- The numbers of the result codes, the table of R107. -/
def codeNumber : ResultCode → Nat
  | .ok => 0x00
  | .illegalCommand => 0x01
  | .badModulus => 0x02
  | .unsupportedModulus => 0x03
  | .aborted => 0x04
  | .retryLimit => 0x05
  | .pointAtInfinity => 0x06
  | .scalarOutOfRange => 0x07
  | .chainidRange => 0x08
  | .invalidRecoveryId => 0x09
  | .invalidPrivateKey => 0x10
  | .signatureOutOfRange => 0x11
  | .pointNotOnCurve => 0x12
  | .invalidEncoding => 0x13
  | .notAQuadraticResidue => 0x14
  | .noInverse => 0x15
  | .unrecoverableKey => 0x16
  | .invalidPublicKey => 0x17
  | .tweakOutOfRange => 0x18
  | .resultingKeyZero => 0x19
  | .inputTooLong => 0x1A

/-- The control registers by offset, with the value the host reads (R24-R33). -/
def controlRead (s : State) (off : Nat) : Option Nat :=
  match off with
  | 0x000 => some 0xEC250100
  | 0x004 => some 0x00800810
  | 0x008 => some (bit s.ie)
  | 0x00C => some (bit s.status.busy + 2 * bit s.status.done + 4 * bit s.status.err + 8 * bit s.status.cmdDropped
      + 16 * bit s.status.accViol)
  | 0x010 => some (codeNumber s.errcode)
  | 0x014 => some s.cmdLast.toNat
  | 0x018 => some s.bufLen.toNat
  | 0x01C => some s.attempts.toNat
  | 0x020 => some (∑ q : PtReg, if s.point q = .inf then 2 ^ q.val else 0)
  | 0x024 => some 0x000003E8
  | _ => none

/-- The reserved offsets of the map (R37). -/
def ReservedOffset (off : Nat) : Prop :=
  (0x028 ≤ off ∧ off < 0x100) ∨ (0x3C0 ≤ off ∧ off < 0x400) ∨ (0x680 ≤ off ∧ off < 0x1000)

/-- The read-only offsets: `ID`, `HWCFG`, `ERRCODE`, `ATTEMPTS`, `PINF`, `MAXATT`, and every `pt<i>` word (R38). -/
def ReadOnlyOffset (off : Nat) : Prop :=
  off = 0x000 ∨ off = 0x004 ∨ off = 0x010 ∨ off = 0x01C ∨ off = 0x020 ∨ off = 0x024 ∨ (0x400 ≤ off ∧ off < 0x600)

/-- The answer of a transfer that is refused: `PSLVERR = 1`, and data 0, which the rules give a read (R38, R40, R47) and the
model a write (entry 7). -/
def refusedAnswer : Option Response := some { data := 0#32, err := true }

/-- The answer of a write that is taken: `PSLVERR = 0`, and data 0 (entry 7). -/
def takenAnswer : Option Response := some { data := 0#32, err := false }

/-! Values the rules name. -/

/-- The big-endian value of `count` bytes, byte `i` given by `byte i` (R12). -/
def bigEndian (count : Nat) (byte : Nat → Byte) : Nat :=
  ∑ i ∈ Finset.range count, (byte i).toNat * 256 ^ (count - 1 - i)

/-- The integer of a 64-byte RNG response, byte `i` on bits `[8i+7:8i]` and byte 0 most significant (R122). -/
def rngValue (data : BitVec 512) : Nat := bigEndian 64 fun i => data.extractLsb' (8 * i) 8

/-- The integer of a 32-byte HMAC response, byte `i` on bits `[8i+7:8i]` (R102, R121). -/
def hmacValue (data : BitVec 256) : Nat := bigEndian 32 fun i => data.extractLsb' (8 * i) 8

/-- `x³ + a·x + b` over the integers (R85). -/
def curveRhs (c : Curve) (x : Nat) : Int := (x : Int) ^ 3 + (c.a.toNat : Int) * x + (c.b.toNat : Int)

/-- `ONCURVE(x, y)` (R85). -/
abbrev OnCurve (c : Curve) (x y : Nat) : Prop :=
  x < c.p.toNat ∧ y < c.p.toNat ∧ ((y : Int) ^ 2 - curveRhs c x) % (c.p.toNat : Int) = 0

/-- The error of the point decompressor, in the order of its checks: `x ≥ p`, then `p mod 4 ≠ 3`, then the Euler test on
`x³ + a·x + b` (R80, R88). -/
def decompressionError (c : Curve) (x : Nat) : Option ResultCode :=
  if c.p.toNat ≤ x then some .pointNotOnCurve
  else if c.p.toNat % 4 ≠ 3 then some .unsupportedModulus
  else if (curveRhs c x % (c.p.toNat : Int)) ^ ((c.p.toNat - 1) / 2) % (c.p.toNat : Int) ≠ 1 then some .notAQuadraticResidue
  else none

/-- `y` is the root the decompressor picks: one of `r` and `p - r` for `r = (x³ + a·x + b)^((p+1)/4) mod p`, with the parity
asked for (R80, R88). -/
def PickedRoot (c : Curve) (x : Nat) (odd : Bool) (y : Nat) : Prop :=
  ∃ r : Nat, (r : Int) = (curveRhs c x % (c.p.toNat : Int)) ^ ((c.p.toNat + 1) / 4) % (c.p.toNat : Int) ∧
    (y = r ∨ y = c.p.toNat - r) ∧ (y % 2 = 1 ↔ odd = true)

/-- The error of decoding the `len` bytes given by `byte` (R100). -/
def decodeError (c : Curve) (byte : Nat → Byte) (len : Nat) : Option ResultCode :=
  if len = 33 ∧ (byte 0 = 0x02#8 ∨ byte 0 = 0x03#8) then decompressionError c (bigEndian 32 fun i => byte (1 + i))
  else if len = 65 ∧ byte 0 = 0x04#8 then
    if OnCurve c (bigEndian 32 fun i => byte (1 + i)) (bigEndian 32 fun i => byte (33 + i)) then none
    else some .pointNotOnCurve
  else some .invalidEncoding

/-- The `len` bytes given by `byte` are an encoding of `Q`, in the compressed or the decompressed form (R100); that `Q` is on
the curve is the absence of a `decodeError`. -/
def DecodesTo (c : Curve) (byte : Nat → Byte) (len : Nat) (Q : Point) : Prop :=
  (len = 33 ∧ (byte 0 = 0x02#8 ∨ byte 0 = 0x03#8) ∧
      ∃ y, PickedRoot c (bigEndian 32 fun i => byte (1 + i)) (decide (byte 0 = 0x03#8)) y ∧
        Q = .affine (word (bigEndian 32 fun i => byte (1 + i))) (word y)) ∨
    (len = 65 ∧ byte 0 = 0x04#8 ∧
      Q = .affine (word (bigEndian 32 fun i => byte (1 + i))) (word (bigEndian 32 fun i => byte (33 + i))))

/-- The slope of the point adder: `u / v` as `u · (v mod p)^(p-2) mod p` (R79, R84, R86). -/
def fieldQuotient (p : Nat) (u v : Int) : Int := u * (v % (p : Int)) ^ (p - 2) % (p : Int)

/-- The scalar multiplier after its first `j` of 256 bits, most significant first (R87). -/
def ladder (c : Curve) (q : Point) (k : Nat) : Nat → Except ResultCode Point
  | 0 => .ok .inf
  | j + 1 => do
    let acc ← ladder c q k j
    let doubled ← paddF c acc acc
    if k / 2 ^ (255 - j) % 2 = 1 then paddF c doubled q else .ok doubled

/-- What SIGN computes from one accepted candidate `k` (R104): `(x, y) = k·G`, `r = x mod n`, `s = k⁻¹·(e + d·r) mod n`, low-s
normalization, and the recovery id with its offset. -/
def SignsWith (c : Curve) (d e k offset r s v : Nat) : Prop :=
  ∃ (x y : Word) (kinv s0 : Nat), pmulF c c.g k = .ok (.affine x y) ∧ r = x.toNat % c.n.toNat ∧ r ≠ 0 ∧
    kinv < c.n.toNat ∧ k * kinv % c.n.toNat = 1 ∧ s0 = kinv * (e + d * r) % c.n.toNat ∧ s0 ≠ 0 ∧
    s = (if c.n.toNat / 2 < s0 then c.n.toNat - s0 else s0) ∧
    v = ((y.toNat % 2 + if x.toNat ≠ r then 2 else 0) ^^^ (if c.n.toNat / 2 < s0 then 1 else 0)) + offset

/-- The candidates SIGN rejects and retries (R104): outside `(0, n)`, `k·G = INF`, `r = 0`, or `s = 0`. -/
def Rejected (c : Curve) (d e k : Nat) : Prop :=
  ¬(0 < k ∧ k < c.n.toNat) ∨ pmulF c c.g k = .ok .inf ∨
    ∃ x y : Word, pmulF c c.g k = .ok (.affine x y) ∧
      (x.toNat % c.n.toNat = 0 ∨
        ∃ kinv : Nat, kinv < c.n.toNat ∧ k * kinv % c.n.toNat = 1 ∧
          kinv * (e + d * (x.toNat % c.n.toNat)) % c.n.toNat = 0)

/-- The two forms of SIGN with their recovery-id offsets: `27` without a chain id, `2·R[C] + 35` with one (R57, R104). -/
def SignForm (i : Instr) (d a b : Reg) (det : Bool) (offset : State → Nat) : Prop :=
  (i = .sign d a b det ∧ offset = fun _ => 27) ∨
    ∃ c, i = .signCid d a b c det ∧ offset = fun s => 2 * (s.reg c).toNat + 35

/-- SIGN stands at a candidate whose response has arrived, and the candidate is `k` (R104). -/
def CandidateArrived (s : State) (det : Bool) (k : Nat) : Prop :=
  (det = true ∧ s.stage = .drbg .next ∧ ∃ data, s.hmacPort = .answered data ∧ k = hmacValue data) ∨
    (det = false ∧ s.stage = .random ∧ ∃ data, s.rngPort = .answered data ∧ k = rngValue data % s.curve.n.toNat)

/-! The group of the curve, from Mathlib. -/

/-- The curve of the configuration registers over the field of `p` elements (R3). -/
def fieldCurve (c : Curve) : WeierstrassCurve (ZMod c.p.toNat) :=
  { a₁ := 0, a₂ := 0, a₃ := 0, a₄ := c.a.toNat, a₆ := c.b.toNat }

/-- A point register's content stands for a point of the group: `INF` for the identity, an affine pair with coordinates below
`p` for the point with those coordinates (R14, R18). -/
def Represents (c : Curve) [Fact (Nat.Prime c.p.toNat)] (q : Point) (g : (fieldCurve c).toAffine.Point) : Prop :=
  match q with
  | .inf => g = 0
  | .affine x y =>
    x.toNat < c.p.toNat ∧ y.toNat < c.p.toNat ∧
      ∃ h : (fieldCurve c).toAffine.Nonsingular (x.toNat : ZMod c.p.toNat) (y.toNat : ZMod c.p.toNat),
        g = .some (x.toNat : ZMod c.p.toNat) (y.toNat : ZMod c.p.toNat) h

/-! The nonce generator as a function of what the HMAC unit computes: the parameter `HMAC` (R102), or any other function
(R103 speaks of a unit that is not HMAC-SHA256). -/

/-- The message `V ‖ b ‖ bytes32(d) ‖ bytes32(e)` of `DRBG_INIT` (R102). -/
def seedMessage (v : Word) (b : Byte) (d e : Word) : List Byte := bytes32 v ++ [b] ++ bytes32 d ++ bytes32 e

/-- The initial `V`: the byte `0x01` 32 times (R102). -/
def initialV : Word := word (intOf (List.replicate 32 0x01#8))

/-- The requests of `DRBG_INIT(d, e)` and of the first `DRBG_NEXT`, in order, with a unit that computes `hmac` (R102). -/
def firstRequests (hmac : Word → List Byte → Word) (d e : Word) : List HmacRequest :=
  let ask (k : Word) (msg : List Byte) : HmacRequest := { key := k, msg := msg }
  let k1 := hmac 0#256 (seedMessage initialV 0x00#8 d e)
  let v1 := hmac k1 (bytes32 initialV)
  let k2 := hmac k1 (seedMessage v1 0x01#8 d e)
  let v2 := hmac k2 (bytes32 v1)
  [ask 0#256 (seedMessage initialV 0x00#8 d e), ask k1 (bytes32 initialV), ask k1 (seedMessage v1 0x01#8 d e),
    ask k2 (bytes32 v1), ask k2 (bytes32 v2)]

/-- The first candidate `T`: the answer to the last of those requests (R102, R103). -/
def firstCandidate (hmac : Word → List Byte → Word) (d e : Word) : Word :=
  let k1 := hmac 0#256 (seedMessage initialV 0x00#8 d e)
  let v1 := hmac k1 (bytes32 initialV)
  let k2 := hmac k1 (seedMessage v1 0x01#8 d e)
  let v2 := hmac k2 (bytes32 v1)
  hmac k2 (bytes32 v2)

/-- The registers of `d` and `e` in the commands that run the HMAC-DRBG (R103, R104). -/
def drbgOperands : Instr → Option (Reg × Reg)
  | .nonce _ a b => some (a, b)
  | .sign _ a b true => some (a, b)
  | .signCid _ a b _ true => some (a, b)
  | _ => none

/-- One HMAC transaction with a unit that takes the request and answers it with what `hmac` computes, and the two turns of the
engine around it: send, handshake, response, use (R121). -/
def hmacTransaction (hmac : Word → List Byte → Word) (req : HmacRequest) : List Input :=
  [.turn, .hmacReady, .hmacResponse (req.answer hmac), .turn]

/-- From the issue of a command with the operands `d` and `e` on, the block presents the requests of R102 one by one: the turn
that sends request `j` is step `4j + 2` when each transaction takes its four events (entry 18). -/
def State.PresentsFirstRequests (s : State) (hmac : Word → List Byte → Word) (d e : Word) : Prop :=
  ∀ j, j < 5 → ∃ u : State, core.run (4 * j + 2) s = .next u ∧
    u.hmacPort.presentedRequest = (firstRequests hmac d e)[j]?

end Sys2Proof.Machine
end

