-- ==== Sys2Proof/Certificates/Slice0/Obligations.lean ====
section
/-! DEFINITION. The statements for the provers. The docstring of each says which rule of spec/ it formalises. -/

open Sys2Proof Sys2Proof.Machine

/-! Encoding (spec/30_encoding.md). -/

/-- Every well-formed command is decoded from its own word, with every operand (R53, R58). -/
def Obligations.DecodeEncodeRoundTrip : Prop :=
  ∀ i : Instr, i.wellFormed = true → decode (encode i) = .ok i ∧ decodeTableWord 32 (encode i).toNat = some i

/-- A word that decodes to a command is the word of that command, and of no other (R53, R60). -/
def Obligations.EncodeDecodeRoundTrip : Prop :=
  ∀ (w : CmdWord) (i : Instr), decode w = .ok i → i.wellFormed = true ∧ encode i = w

/-- R59: the legal words are those that meet conditions 1 to 5; every other word, once latched, ends with
`ILLEGAL_COMMAND` and changes nothing but the status registers. -/
def Obligations.LegalWordsRunAndNoOthersDo : Prop :=
  (∀ w : CmdWord, (∃ i, decode w = .ok i) ↔ LegalWord w) ∧
    ∀ (s : State) (rest : List Input), s.EngineNext rest → ¬LegalWord s.cmdLast →
      ∃ t, step s = .next t ∧ EndsIllegal rest s t

/-- R65: the table of encodings, and the seven illegal words. -/
def Obligations.EncodingExamplesHold : Prop :=
  EncodedBy .nop 0x00000000#32 ∧ EncodedBy (.add 0 0 1 .p) 0x00010010#32 ∧ EncodedBy (.inv 1 0 .n) 0x01000117#32 ∧
    EncodedBy (.mul 2 1 0 .n) 0x01001212#32 ∧ EncodedBy (.sqrt 3 4 1 .p) 0x00401319#32 ∧
    EncodedBy (.pgen 0) 0x00000021#32 ∧ EncodedBy (.pmul 1 0 0) 0x00000127#32 ∧
    EncodedBy (.pmuladd 3 0 1 6) 0x00610328#32 ∧ EncodedBy (.pfromx 0 0 false) 0x00000029#32 ∧
    EncodedBy (.encode 1 true) 0x0200102A#32 ∧ EncodedBy (.encode 2 false) 0x0000202A#32 ∧
    EncodedBy (.decode 2) 0x0000022B#32 ∧ EncodedBy (.sign 4 0 1 true) 0x02010430#32 ∧
    EncodedBy (.signCid 4 0 1 2 true) 0x06210430#32 ∧ EncodedBy (.verify 7 4 1) 0x00014731#32 ∧
    EncodedBy (.recover 2 4 1) 0x00014232#32 ∧
    ∀ w ∈ [0x00000002#32, 0x00012101#32, 0x08000000#32, 0x00000820#32, 0x00301319#32, 0x01000021#32, 0x00200430#32],
      ∀ i, decode w ≠ .ok i

/-- R63: each pseudo-instruction is its expansion and has the meaning the table gives it. -/
def Obligations.PseudoInstructionsMeanTheirExpansions : Prop :=
  (∀ (d a : Reg) (m : ModSel) (s : State), (pseudoSqr d a m).asm = (Instr.mul d a a m).asm ∧
      (¬BadModulus (s.curve.modulus m) →
        CompletesOk (pseudoSqr d a m) s [d] [] fun t => (t.reg d).toNat = (s.reg a).toNat ^ 2 % s.curve.modulus m)) ∧
    (∀ (d a : PtReg) (s : State), (pseudoPdbl d a).asm = (Instr.padd d a a).asm ∧
      ∀ x y : Word, s.point a = .affine x y → ¬BadModulus s.curve.p.toNat → (2 * (y.toNat : Int)) % s.curve.p.toNat ≠ 0 →
        y.toNat < s.curve.p.toNat →
        CompletesOk (pseudoPdbl d a) s [] [d] fun t => ∃ l x3 y3 : Nat, t.point d = .affine (word x3) (word y3) ∧
          (l : Int) = fieldQuotient s.curve.p.toNat (3 * (x.toNat : Int) ^ 2 + s.curve.a.toNat) (2 * (y.toNat : Int)) ∧
          (x3 : Int) = ((l : Int) ^ 2 - 2 * x.toNat) % s.curve.p.toNat ∧
          (y3 : Int) = ((l : Int) * ((x.toNat : Int) - x3) - y.toNat) % s.curve.p.toNat) ∧
    ∀ (d a z : Reg) (m : ModSel) (s : State), (pseudoNeg d a z m).asm = (Instr.sub d z a m).asm ∧
      (¬BadModulus (s.curve.modulus m) → s.reg z = 0#256 →
        CompletesOk (pseudoNeg d a z m) s [d] [] fun t => ((t.reg d).toNat : Int) = -(s.reg a).toNat % s.curve.modulus m)

/-! The command lifecycle (spec/60_exceptions.md). -/

/-- A turn of the engine runs the command latched in `CMD_LAST`, with the turn taken off the events to come; an idle
block does nothing; and `withFetchWord` latches the word whose command the next step runs (R110, R112, R130). -/
def Obligations.StepRunsTheLatchedCommand : Prop :=
  (∀ (s : State) (rest : List Input) (i : Instr), s.EngineNext rest → decode s.cmdLast = .ok i →
      step s = exec i { s with inputs := rest }) ∧
    (∀ s : State, s.status.busy = false → s.inputs = [] → step s = .next s) ∧
    ∀ (s : State) (nbits w : Nat) (i : Instr), decode (BitVec.ofNat 32 (w % 2 ^ nbits)) = .ok i →
      step (s.withFetchWord nbits w) = exec i { s.issue (BitVec.ofNat 32 (w % 2 ^ nbits)) with presetn := true }

/-- What an accepted write of `CMD` does in one step, that a write while busy is dropped, and that every accepted word, legal
or not, is ended by the engine's turn unless its command uses a port (R110). Data 0 in the answer of the write is the model's
choice (entry 7). -/
def Obligations.AcceptedWriteOfCmdIssues : Prop :=
  ∀ (s : State) (rest : List Input) (w : CmdWord), s.presetn = true → s.inputs = hostWrite 0x014 w :: rest →
    (s.status.busy = false → ∃ t, step s = .next t ∧
      t = { s with
        cmdLast := w
        status := { s.status with busy := true, done := false, err := false }
        errcode := .ok
        stage := .start
        response := takenAnswer
        inputs := rest } ∧
      t.irq = false ∧
      ∀ after, t.EngineNext after → ∃ u, step t = .next u ∧
        ((∃ code, Completed code u) ∨ ∃ i, decode w = .ok i ∧ usesPort i = true)) ∧
      (s.status.busy = true →
        step s = .next { s with status := { s.status with cmdDropped := true }, response := refusedAnswer, inputs := rest })

/-- R112: every command answers a next state, and one that needs no port completes. -/
def Obligations.PortlessCommandsAlwaysComplete : Prop :=
  ∀ (i : Instr) (s : State), (∃ t, exec i s = .next t) ∧
    (usesPort i = false → ∃ t code, exec i s = .next t ∧ Completed code t ∧ PortsKept s t ∧ DrbgKept s t)

/-- R114: a command that ends with an error has changed nothing but the status registers, and `ATTEMPTS` only with the
opcode field of SIGN or NONCE. -/
def Obligations.FailedCommandsWriteNothing : Prop :=
  ∀ (s t : State) (rest : List Input), s.EngineNext rest → step s = .next t → t.status.busy = false → t.errcode ≠ .ok →
    Completed t.errcode t ∧ Frame [] [] { s with inputs := rest } t ∧ BufferKept s t ∧
      (s.cmdLast.extractLsb' 0 8 ≠ 0x30#8 → s.cmdLast.extractLsb' 0 8 ≠ 0x33#8 → t.attempts = s.attempts)

/-- The frame of every command: its destinations alone are written, no command writes a `CURVE` register or `CTRL.IE`, only
ENCODE writes `BUF`, only SIGN and NONCE write `ATTEMPTS`, and only the port commands touch a port (R20, R113, R122). -/
def Obligations.CommandsWriteOnlyTheirDestinations : Prop :=
  ∀ (i : Instr) (s t : State), exec i s = .next t →
    Frame (destinations i).1 (destinations i).2 s t ∧ ((∀ a compressed, i ≠ .encode a compressed) → BufferKept s t) ∧
      (countsAttempts i = false → t.attempts = s.attempts ∧ DrbgKept s t) ∧ (usesPort i = false → PortsKept s t)

/-- R108: a command ends with `BAD_MODULUS`, before anything else, exactly when a modulus of its table row is even or
below 3. -/
def Obligations.BadModulusComesFirst : Prop :=
  ∀ (i : Instr) (s : State), i.wellFormed = true →
    ((∃ m ∈ checkedModuli i, BadModulus (s.curve.modulus m)) →
      if countsAttempts i then FailsCounting i s .badModulus 0 else FailsWith i s .badModulus) ∧
      ((∀ m ∈ checkedModuli i, ¬BadModulus (s.curve.modulus m)) → s.errcode = .ok →
        ∀ t, exec i s = .next t → t.errcode ≠ .badModulus)

/-- R67: every operand register a modular command writes holds a value below the modulus. -/
def Obligations.ModularResultsAreCanonical : Prop :=
  ∀ (i : Instr) (ds : List Reg) (m : ModSel) (s t : State), modularResult i = some (ds, m) → s.status.busy = true →
    exec i s = .next t → t.status.busy = false → t.errcode = .ok → ∀ d ∈ ds, (t.reg d).toNat < s.curve.modulus m

/-- A write of `CTRL` with bit 1 set and bit 2 clear ends the running command with `ABORTED` and writes nothing; a request
already sent stays outstanding, taken by its unit or not, and its response is discarded, whatever has been issued meanwhile; an
idle block only takes bit 0 (R120, R121, R122). That a request presented and not yet taken stays on `hm_req_valid` and that a
response arrived and not used is dropped is the model's choice (entry 9), and so are the level of `rng_req`, held after the abort
(entry 23), and data 0 in the answer of the write (entry 7). -/
def Obligations.AbortEndsTheRunningCommand : Prop :=
  (∀ (s : State) (rest : List Input), s.presetn = true →
    (∀ req, s.hmacPort = .presented req false → s.inputs = .hmacReady :: rest →
      step s = .next { s with hmacPort := .outstanding req false, inputs := rest }) ∧
    (∀ req data, s.hmacPort = .outstanding req false → s.inputs = .hmacResponse data :: rest →
      step s = .next { s with hmacPort := .idle, inputs := rest }) ∧
    ∀ data, s.rngPort = .requested false → s.inputs = .rngAck data :: rest →
      step s = .next { s with rngPort := .idle, inputs := rest }) ∧
  ∀ (s : State) (rest : List Input) (v : BusWord), s.presetn = true → s.inputs = hostWrite 0x008 v :: rest →
    v.getLsbD 1 = true → v.getLsbD 2 = false →
    (s.status.busy = false → step s = .next { s with ie := v.getLsbD 0, response := takenAnswer, inputs := rest }) ∧
      (s.status.busy = true → ∃ t, step s = .next t ∧ Completed .aborted t ∧
        Frame [] [] { s with ie := v.getLsbD 0, response := takenAnswer, inputs := rest } t ∧ BufferKept s t ∧
        t.attempts = s.attempts ∧ t.hmacPort.presentedRequest = s.hmacPort.presentedRequest ∧ t.rngReq = s.rngReq ∧
        t.hmacPort.isLive = false ∧ t.rngPort.isLive = false ∧
        (∀ req live, s.hmacPort = .presented req live → t.hmacPort = .presented req false) ∧
        (∀ req live, s.hmacPort = .outstanding req live → t.hmacPort = .outstanding req false) ∧
        (∀ live, s.rngPort = .requested live → t.rngPort = .requested false) ∧
        (s.hmacPort = .idle ∨ (∃ data, s.hmacPort = .answered data) → t.hmacPort = .idle) ∧
        (s.rngPort = .idle ∨ (∃ data, s.rngPort = .answered data) → t.rngPort = .idle) ∧
        ∀ (h : BitVec 256) (g : BitVec 512),
          (t.receive .hmacReady).receive (.hmacResponse h) = { t with hmacPort := .idle } ∧
            t.receive (.rngAck g) = { t with rngPort := .idle })

/-- R118: `irq` is `CTRL.IE AND STATUS.DONE`, on the line `IRQ_LINE` alone; every end of a command raises it when enabled;
writing 1 to `DONE`, an accepted `CMD` write, or reset clears it; `IE` masks it without clearing `DONE`. -/
def Obligations.InterruptFollowsEnableAndDone : Prop :=
  (∀ s : State, s.presetn = true → s.irq = (s.ie && s.status.done)) ∧
    (∀ (s : State) (line : Nat), s.irqOnLine line = true ↔ line = Config.irqLine ∧ s.irq = true) ∧
    (∀ (s t : State) (rest : List Input), s.EngineNext rest → step s = .next t → t.status.busy = false → t.irq = t.ie) ∧
    (∀ (s : State) (rest : List Input) (v : BusWord), s.presetn = true → s.inputs = hostWrite 0x00C v :: rest →
      v.getLsbD 1 = true → ∃ t, step s = .next t ∧ t.irq = false ∧ t.ie = s.ie) ∧
    (∀ (s : State) (rest : List Input) (w : CmdWord), s.presetn = true → s.status.busy = false →
      s.inputs = hostWrite 0x014 w :: rest → ∃ t, step s = .next t ∧ t.irq = false) ∧
    (∀ (s : State) (rest : List Input) (v : BusWord), s.presetn = true → s.inputs = hostWrite 0x008 v :: rest →
      v.getLsbD 1 = false → v.getLsbD 2 = false →
      ∃ t, step s = .next t ∧ t.status = s.status ∧ t.irq = (v.getLsbD 0 && s.status.done)) ∧
    (∀ (s : State) (rest : List Input) (v : BusWord), s.presetn = true → s.status.busy = true →
      s.inputs = hostWrite 0x008 v :: rest → v.getLsbD 1 = true → v.getLsbD 2 = false →
      ∃ t, step s = .next t ∧ t.irq = v.getLsbD 0) ∧
    State.reset.irq = false

/-! Reset (spec/70_reset_and_hazards.md). -/

/-- A write of `CTRL` with bit 2 set puts the block in its reset state, busy or idle, whatever bits 0 and 1 hold, and is
answered without an error (R132, R133). The model's choices in it are the values of the DRBG, the attempt counter and the
stage, which R133 leaves unspecified (entry 5), that the events to come are kept (entry 2), and data 0 in the answer of the
write (entry 7). -/
def Obligations.SoftResetRestoresTheResetState : Prop :=
  ∀ (s : State) (rest : List Input) (v : BusWord), s.presetn = true → s.inputs = hostWrite 0x008 v :: rest →
    v.getLsbD 2 = true → step s = .next { State.reset with response := takenAnswer, inputs := rest }

/-- R133: the table of reset values, the control registers as the host reads them. -/
def Obligations.ResetStateHasTheValuesOfR133 : Prop :=
  (∀ r : Reg, State.reset.reg r = 0#256) ∧
    (∀ q : PtReg, State.reset.point q = .inf ∧ (State.reset.point q).x = 0#256 ∧ (State.reset.point q).y = 0#256) ∧
    State.reset.curve.p = BitVec.ofNat 256 (2 ^ 256 - 2 ^ 32 - 977) ∧ State.reset.curve.a = 0#256 ∧
    State.reset.curve.b = 7#256 ∧
    State.reset.curve.gx = 0x79BE667EF9DCBBAC55A06295CE870B07029BFCDB2DCE28D959F2815B16F81798#256 ∧
    State.reset.curve.gy = 0x483ADA7726A3C4655DA4FBFC0E1108A8FD17B448A68554199C47D08FFB10D4B8#256 ∧
    State.reset.curve.n = 0xFFFFFFFFFFFFFFFFFFFFFFFFFFFFFFFEBAAEDCE6AF48A03BBFD25E8CD0364141#256 ∧
    (∀ j, State.reset.buf.read j = 0#8) ∧ State.reset.bufLen = 0#8 ∧
    controlRead State.reset 0x000 = some 0xEC250100 ∧ controlRead State.reset 0x004 = some 0x00800810 ∧
    controlRead State.reset 0x008 = some 0 ∧ controlRead State.reset 0x00C = some 0 ∧
    controlRead State.reset 0x010 = some 0 ∧ controlRead State.reset 0x014 = some 0 ∧
    controlRead State.reset 0x01C = some 0 ∧ controlRead State.reset 0x020 = some 0xFF ∧
    controlRead State.reset 0x024 = some 0x3E8 ∧ State.reset.status.busy = false ∧ State.reset.hmacPort = .idle ∧
    State.reset.rngPort = .idle ∧ State.reset.irq = false

/-- `PRESETn = 0` at any time puts the block in its reset state, without a completion, and while it lasts transfers are
ignored and `irq` is 0; released, the block is in the state of R133; a late response on either port is ignored (R131). The
model's choices in it are the values that R133 leaves unspecified (entry 5), that `PRESETn` is a level and an ignored transfer
gets no answer (entry 11), and that the events to come are kept (entry 2). -/
def Obligations.ResetPinHoldsTheBlockInReset : Prop :=
  (∀ (s : State) (rest : List Input), s.inputs = .resetPin false :: rest →
      step s = .next { State.reset with presetn := false, inputs := rest }) ∧
    (∀ (s : State) (rest : List Input) (tr : Transfer), s.presetn = false → s.inputs = .bus tr :: rest →
      step s = .next { s with inputs := rest } ∧ s.irq = false) ∧
    (∀ rest : List Input, step { State.reset with presetn := false, inputs := .resetPin true :: rest } =
      .next { State.reset with inputs := rest }) ∧
    ∀ (s : State) (rest : List Input), s.hmacPort = .idle → s.rngPort = .idle →
      (∀ data, s.inputs = .hmacResponse data :: rest → step s = .next { s with inputs := rest }) ∧
        ∀ data, s.inputs = .rngAck data :: rest → step s = .next { s with inputs := rest }

/-! The host window (spec/20_memory.md, spec/10_state.md). -/

/-- While busy, a write of `CMD` is dropped and flagged, every access of the data region and a write of `BUF_LEN` is refused
and flagged, and the control registers read, and `CTRL` and `STATUS` are written, as when idle (R47). Data 0 in the answer of a
write, refused or taken, is the model's choice (entry 7). -/
def Obligations.BusyBlockRefusesAccessesOfItsData : Prop :=
  ∀ (s : State) (rest : List Input), s.presetn = true → s.status.busy = true →
    (∀ w, s.inputs = hostWrite 0x014 w :: rest →
      step s = .next { s with status := { s.status with cmdDropped := true }, response := refusedAnswer, inputs := rest }) ∧
      (∀ off v, off % 4 = 0 → 0x100 ≤ off → off < 0x680 →
        s.inputs = hostRead off :: rest ∨ s.inputs = hostWrite off v :: rest →
        step s = .next { s with status := { s.status with accViol := true }, response := refusedAnswer, inputs := rest }) ∧
      (∀ v, s.inputs = hostWrite 0x018 v :: rest →
        step s = .next { s with status := { s.status with accViol := true }, response := refusedAnswer, inputs := rest }) ∧
      (∀ off x, controlRead s off = some x → s.inputs = hostRead off :: rest →
        step s = .next { s with response := some { data := BitVec.ofNat 32 x, err := false }, inputs := rest }) ∧
      (∀ v, s.inputs = hostWrite 0x00C v :: rest →
        step s = .next { s with
          status := { s.status with
            done := s.status.done && !v.getLsbD 1
            err := s.status.err && !v.getLsbD 2
            cmdDropped := s.status.cmdDropped && !v.getLsbD 3
            accViol := s.status.accViol && !v.getLsbD 4 }
          response := takenAnswer
          inputs := rest }) ∧
      ∀ v, v.getLsbD 1 = false → v.getLsbD 2 = false → s.inputs = hostWrite 0x008 v :: rest →
        step s = .next { s with ie := v.getLsbD 0, response := takenAnswer, inputs := rest }

/-- A transfer at a misaligned address, and a write with a partial strobe, has no effect, reads 0 and is answered with an
error (R40). That it sets no flag while the block is busy either is the model's choice (entry 6), and so is data 0 in the
answer of a write (entry 7). -/
def Obligations.MalformedTransfersHaveNoEffect : Prop :=
  ∀ (s : State) (rest : List Input) (addr : Offset) (strb : BitVec 4) (v : BusWord), s.presetn = true →
    (addr.extractLsb' 0 2 ≠ 0#2 ∧ s.inputs = .bus (.read addr) :: rest) ∨
      ((addr.extractLsb' 0 2 ≠ 0#2 ∨ strb ≠ 0b1111#4) ∧ s.inputs = .bus (.write addr strb v) :: rest) →
    step s = .next { s with response := refusedAnswer, inputs := rest }

/-- A read of a reserved offset answers 0 with an error, a write of a reserved or a read-only offset has no effect and
answers an error, and none of them sets a `STATUS` bit, except `ACC_VIOL` in the data region while busy (R38). Data 0 in the
answer of a refused write is the model's choice (entry 7). -/
def Obligations.ReservedAndReadOnlyOffsetsAnswerErrors : Prop :=
  ∀ (s : State) (rest : List Input) (off : Nat) (v : BusWord), s.presetn = true → off % 4 = 0 →
    (ReservedOffset off ∧ s.inputs = hostRead off :: rest) ∨
      ((ReservedOffset off ∨ ReadOnlyOffset off) ∧ s.inputs = hostWrite off v :: rest) →
    step s = .next
      (if s.status.busy = true ∧ 0x100 ≤ off ∧ off < 0x680 then
        { s with status := { s.status with accViol := true }, response := refusedAnswer, inputs := rest }
      else { s with response := refusedAnswer, inputs := rest })

/-- A read leaves its answer and changes nothing else, but for the flag `ACC_VIOL` of a refused one; so the same read again
gives the same answer (R42). -/
def Obligations.ReadsHaveNoSideEffect : Prop :=
  ∀ (s : State) (rest : List Input) (addr : Offset), s.inputs = .bus (.read addr) :: .bus (.read addr) :: rest →
    ∃ t u, step s = .next t ∧ step t = .next u ∧ u.response = t.response ∧
      (t = { s with response := t.response, inputs := .bus (.read addr) :: rest } ∨
        s.status.busy = true ∧ 0x100 ≤ addr.toNat ∧ addr.toNat < 0x680 ∧
          t = { s with
            status := { s.status with accViol := true }
            response := refusedAnswer
            inputs := .bus (.read addr) :: rest }) ∧
      u = { t with inputs := rest }

/-- The control registers read as R24 to R33 lay them out, busy or idle, and `ERRCODE` with the number that the table of R107
gives the code (R28); a write of `CTRL` with bits 1 and 2 clear sets `IE`
to bit 0 and has no other effect, busy or idle (R26; with bit 1 or 2 set, AbortEndsTheRunningCommand and
SoftResetRestoresTheResetState); writing 1 clears each of `DONE`, `ERR`, `CMD_DROPPED` and `ACC_VIOL` and writes of the other
`STATUS` bits have no effect (R27); `BUF_LEN` takes bits [7:0] of a write while idle (R30). Data 0 in the answer of a write is
the model's choice (entry 7). -/
def Obligations.ControlRegistersReadAndWrite : Prop :=
  ∀ (s : State) (rest : List Input), s.presetn = true →
    (∀ off x, controlRead s off = some x → s.inputs = hostRead off :: rest →
      step s = .next { s with response := some { data := BitVec.ofNat 32 x, err := false }, inputs := rest }) ∧
      (∀ v, s.inputs = hostWrite 0x00C v :: rest →
        step s = .next { s with
          status := { s.status with
            done := s.status.done && !v.getLsbD 1
            err := s.status.err && !v.getLsbD 2
            cmdDropped := s.status.cmdDropped && !v.getLsbD 3
            accViol := s.status.accViol && !v.getLsbD 4 }
          response := takenAnswer
          inputs := rest }) ∧
      (∀ v, v.getLsbD 1 = false → v.getLsbD 2 = false → s.inputs = hostWrite 0x008 v :: rest →
        step s = .next { s with ie := v.getLsbD 0, response := takenAnswer, inputs := rest }) ∧
      ∀ v, s.status.busy = false → s.inputs = hostWrite 0x018 v :: rest →
        step s = .next { s with bufLen := v.extractLsb' 0 8, response := takenAnswer, inputs := rest }

/-- Word `k` of an operand register, a curve register, a point's X and a point's Y is bits `[32k+31 : 32k]`, at the offset
`4k` above the base of R37; a host write of a word replaces those bits and nothing else (R43). Data 0 in the answer of the
write is the model's choice (entry 7). -/
def Obligations.WordsOfWideValuesLieLittleEndian : Prop :=
  ∀ (s : State) (rest : List Input) (k : Fin 8), s.presetn = true → s.status.busy = false →
    (∀ r : Reg, s.inputs = hostRead (0x100 + 0x20 * r.val + 4 * k.val) :: rest → step s = .next { s with
      response := some { data := (s.reg r).extractLsb' (32 * k.val) 32, err := false }, inputs := rest }) ∧
      (∀ q : PtReg, s.inputs = hostRead (0x400 + 0x40 * q.val + 4 * k.val) :: rest → step s = .next { s with
        response := some { data := (s.point q).x.extractLsb' (32 * k.val) 32, err := false }, inputs := rest }) ∧
      (∀ q : PtReg, s.inputs = hostRead (0x420 + 0x40 * q.val + 4 * k.val) :: rest → step s = .next { s with
        response := some { data := (s.point q).y.extractLsb' (32 * k.val) 32, err := false }, inputs := rest }) ∧
      (∀ f ∈ [(0x300, CurveField.p), (0x320, .a), (0x340, .b), (0x360, .gx), (0x380, .gy), (0x3A0, .n)],
        s.inputs = hostRead (f.1 + 4 * k.val) :: rest → step s = .next { s with
          response := some { data := (s.curve.get f.2).extractLsb' (32 * k.val) 32, err := false }, inputs := rest }) ∧
      (∀ (r : Reg) (v : BusWord), s.inputs = hostWrite (0x100 + 0x20 * r.val + 4 * k.val) v :: rest →
        ∃ x : Word, x.extractLsb' (32 * k.val) 32 = v ∧
          (∀ j : Fin 8, j ≠ k → x.extractLsb' (32 * j.val) 32 = (s.reg r).extractLsb' (32 * j.val) 32) ∧
          step s = .next { s.setReg r x with response := takenAnswer, inputs := rest }) ∧
      ∀ f ∈ [(0x300, CurveField.p), (0x320, .a), (0x340, .b), (0x360, .gx), (0x380, .gy), (0x3A0, .n)], ∀ v : BusWord,
        s.inputs = hostWrite (f.1 + 4 * k.val) v :: rest →
        ∃ x : Word, x.extractLsb' (32 * k.val) 32 = v ∧
          (∀ j : Fin 8, j ≠ k → x.extractLsb' (32 * j.val) 32 = (s.curve.get f.2).extractLsb' (32 * j.val) 32) ∧
          step s = .next { s with curve := s.curve.set f.2 x, response := takenAnswer, inputs := rest }

/-- `W256` on an idle block stores its 256-bit value, in eight transfers (R64, R41, R43). Data 0 in the answer of the last
write is the model's choice (entry 7). -/
def Obligations.HostWrite256StoresTheValue : Prop :=
  ∀ (s : State) (rest : List Input) (x : Word), s.presetn = true → s.status.busy = false →
    (∀ r : Reg, s.inputs = hostWrite256 (0x100 + 0x20 * r.val) x ++ rest →
      core.run 8 s = .next ({ s.setReg r x with response := takenAnswer, inputs := rest } : State)) ∧
      ∀ f ∈ [(0x300, CurveField.p), (0x320, .a), (0x340, .b), (0x360, .gx), (0x380, .gy), (0x3A0, .n)],
        s.inputs = hostWrite256 f.1 x ++ rest →
        core.run 8 s = .next ({ s with curve := s.curve.set f.2 x, response := takenAnswer, inputs := rest } : State)

/-- The buffer word at `0x600 + 4k` holds `BUF[4k]` in its low byte up to `BUF[4k+3]` in its high byte, read and written;
every other byte of `BUF` is left as it was (R44). The canonical form in the premise is the model's (entry 12; StepKeepsInv),
and data 0 in the answer of the write is the model's choice (entry 7). -/
def Obligations.BufferWordsLieInLittleEndianLanes : Prop :=
  ∀ (s : State) (rest : List Input) (k : Fin 32), s.presetn = true → s.status.busy = false → s.buf.wf = true →
    (s.inputs = hostRead (0x600 + 4 * k.val) :: rest → ∃ data : BusWord,
      (∀ j, j < 4 → data.extractLsb' (8 * j) 8 = s.buf.read (4 * k.val + j)) ∧
        step s = .next { s with response := some { data := data, err := false }, inputs := rest }) ∧
      ∀ v : BusWord, s.inputs = hostWrite (0x600 + 4 * k.val) v :: rest → ∃ m : Memory,
        (∀ j, j < 4 → m.read (4 * k.val + j) = v.extractLsb' (8 * j) 8) ∧
          (∀ i, (i < 4 * k.val ∨ 4 * k.val + 4 ≤ i) → m.read i = s.buf.read i) ∧
          step s = .next { s with buf := m, response := takenAnswer, inputs := rest }

/-- While a command runs, no event and no turn changes an operand register, a point register, the curve, `BUF`, `BUF_LEN`,
the latched word or `ATTEMPTS`; they change only with the completion, or a reset, that ends it (R47, R111, R113). -/
def Obligations.RunningCommandKeepsInputsAndOutputs : Prop :=
  ∀ s t : State, s.status.busy = true → step s = .next t → t.status.busy = true →
    t.regs = s.regs ∧ t.points = s.points ∧ t.curve = s.curve ∧ t.buf = s.buf ∧ t.bufLen = s.bufLen ∧
      t.cmdLast = s.cmdLast ∧ t.attempts = s.attempts ∧ t.errcode = s.errcode

/-! Invariants. -/

/-- The reset state meets the invariant of the block. -/
def Obligations.ResetStateMeetsInv : Prop := State.reset.Inv

/-- Every step keeps the invariant of the block: `BUF` in canonical form, the attempt counts bounded (R31), `DONE`, `ERR` and
`ERRCODE` 0 while a command runs (R110, R137), no reserved result code (R107), and port traffic owned by the commands that
may use the port (R121, R122). -/
def Obligations.StepKeepsInv : Prop := ∀ s t : State, s.Inv → step s = .next t → t.Inv

/-- R19: while the curve registers are unchanged, with `CURVE.p` prime and `G` on the curve, every point register holds `INF`
or a point of the curve with coordinates below `p`. -/
def Obligations.PointRegistersStayOnTheCurve : Prop :=
  ∀ s t : State, Nat.Prime s.curve.p.toNat → OnCurve s.curve s.curve.gx.toNat s.curve.gy.toNat → s.PointsOnCurve →
    step s = .next t → t.curve = s.curve → t.PointsOnCurve

/-! The ports (spec/60_exceptions.md R121-R123). -/

/-- Only NONCE and deterministic SIGN send HMAC requests, only RAND and random SIGN send RNG requests, each only while the port
is free, and an HMAC message is 97, 33 or 32 bytes; the request's key, length and message lie on the signals in the lanes of
R121, with 0 above the message. That `rng_req` is a level, which rises when a request is sent, is the model's choice
(entry 23). -/
def Obligations.PortsCarryTheRequestsOfTheirCommands : Prop :=
  (∀ s t : State, step s = .next t → s.hmReqValid = false → t.hmReqValid = true →
      s.RunsDrbg ∧ s.hmacPort = .idle ∧
        ∃ req, t.hmacPort.presentedRequest = some req ∧
          (req.msg.length = 97 ∨ req.msg.length = 33 ∨ req.msg.length = 32)) ∧
    (∀ s t : State, step s = .next t → s.rngReq = false → t.rngReq = true →
      (s.RunsRand ∨ s.RunsRandomSign) ∧ s.rngPort = .idle) ∧
    ∀ req : HmacRequest, req.msg.length ≤ 97 →
      (∀ i, i < 32 → req.keyLanes.extractLsb' (8 * i) 8 = req.key.extractLsb' (248 - 8 * i) 8) ∧
        req.lenLanes.toNat = req.msg.length ∧
        (∀ i (h : i < req.msg.length), req.msgLanes.extractLsb' (8 * i) 8 = req.msg[i]) ∧
        ∀ j, 8 * req.msg.length ≤ j → req.msgLanes.getLsbD j = false

/-- R123: a command whose port does not answer stays `BUSY`, turn after turn and through every transfer but a write of `CTRL`
with bit 1 or 2 set; such a write, or `PRESETn = 0`, ends it. An unanswered RNG request is read from `rng_req`, whose level is
the model's choice (entry 23). -/
def Obligations.SilentPortKeepsTheCommandBusy : Prop :=
  ∀ (s : State) (rest : List Input), s.presetn = true → s.status.busy = true →
    ((s.RunsRand ∨ s.RunsRandomSign ∧ s.stage = .random) ∧ s.rngReq = true ∨
      (s.RunsDrbg ∧ ∃ k req live, s.stage = .drbg k ∧
        (s.hmacPort = .presented req live ∨ s.hmacPort = .outstanding req live))) →
    (s.inputs = [] → step s = .next s) ∧
      (s.inputs = .turn :: rest → step s = .next { s with inputs := rest }) ∧
      (∀ tr, s.inputs = .bus tr :: rest →
        (∀ v, tr = .write 0x008#12 0b1111#4 v → v.getLsbD 1 = false ∧ v.getLsbD 2 = false) →
        ∃ t, step s = .next t ∧ t.status.busy = true ∧ t.stage = s.stage ∧ t.hmacPort = s.hmacPort ∧ t.rngPort = s.rngPort) ∧
      (∀ v, s.inputs = hostWrite 0x008 v :: rest → v.getLsbD 1 = true ∨ v.getLsbD 2 = true →
        ∃ t, step s = .next t ∧ t.status.busy = false) ∧
      (s.inputs = .resetPin false :: rest → ∃ t, step s = .next t ∧ t.status.busy = false)

/-! The nonce generator (spec/43_ecdsa.md R102-R104). -/

/-- Each HMAC transaction of `DRBG_INIT`, `DRBG_REJECT` and `DRBG_NEXT`, whatever function `hmac` the unit computes (R102
takes the parameter `HMAC`): the request the block presents has the key and the message of R102, and the answer becomes `K`, or
`V`, or `V` and the candidate that the command then judges. That a transaction takes four steps is the model's choice
(entry 18). -/
def Obligations.HmacTransactionsUpdateTheDrbg : Prop :=
  ∀ (hmac : Word → List Byte → Word) (s : State) (rest : List Input) (i : Instr) (a b : Reg), s.presetn = true →
    decode s.cmdLast = .ok i → drbgOperands i = some (a, b) → s.RunsDrbg → s.hmacPort = .idle →
    let seed (x : Byte) := bytes32 s.drbgV ++ [x] ++ bytes32 (s.reg a) ++ bytes32 (s.reg b)
    ∀ k msg, (k, msg) ∈ [(DrbgStep.initK0, seed 0x00#8), (.initV0, bytes32 s.drbgV), (.initK1, seed 0x01#8),
        (.initV1, bytes32 s.drbgV), (.rejectK, bytes32 s.drbgV ++ [0x00#8]), (.rejectV, bytes32 s.drbgV),
        (.next, bytes32 s.drbgV)] →
      s.stage = .drbg k → (k = .initV1 → s.attempt = 0) →
      s.inputs = hmacTransaction hmac { key := s.drbgK, msg := msg } ++ rest →
      let answer : BitVec 256 := HmacRequest.answer { key := s.drbgK, msg := msg } hmac
      (∃ t, step s = .next t ∧ t.hmacPort.presentedRequest = some { key := s.drbgK, msg := msg }) ∧
        ∃ u : State, core.run 4 s = .next u ∧
          match k with
          | .initK0 => u = { s with drbgK := hmac s.drbgK msg, stage := .drbg .initV0, inputs := rest }
          | .initV0 => u = { s with drbgV := hmac s.drbgK msg, stage := .drbg .initK1, inputs := rest }
          | .initK1 => u = { s with drbgK := hmac s.drbgK msg, stage := .drbg .initV1, inputs := rest }
          | .initV1 => u = { s with drbgV := hmac s.drbgK msg, attempt := 1, stage := .drbg .next, inputs := rest }
          | .rejectK => u = { s with drbgK := hmac s.drbgK msg, stage := .drbg .rejectV, inputs := rest }
          | .rejectV => u = { s with drbgV := hmac s.drbgK msg, stage := .drbg .next, inputs := rest }
          | .next => u.drbgK = s.drbgK ∧ u.drbgV = hmac s.drbgK msg ∧ hmacValue answer = (hmac s.drbgK msg).toNat ∧
              exec i { s with hmacPort := .answered answer, inputs := rest } = .next u

/-- The whole run of NONCE and of deterministic SIGN, whatever function `hmac` the unit computes, when the first candidate is
accepted: from its issue through five transactions, in which the block presents the requests of R102 in their order, to the
completion, with `ATTEMPTS = 1` (R102, R103, R104). That it takes 21 steps is the model's choice (entry 18). -/
def Obligations.DeterministicRunsYieldTheirResults : Prop :=
  ∀ (hmac : Word → List Byte → Word) (s : State) (rest : List Input) (a b d : Reg), s.presetn = true →
    s.status.busy = true → s.stage = .start → s.hmacPort = .idle → ¬BadModulus s.curve.n.toNat →
    s.inputs = .turn :: ((firstRequests hmac (s.reg a) (s.reg b)).flatMap (hmacTransaction hmac) ++ rest) →
    0 < (firstCandidate hmac (s.reg a) (s.reg b)).toNat → (firstCandidate hmac (s.reg a) (s.reg b)).toNat < s.curve.n.toNat →
    (decode s.cmdLast = .ok (.nonce d a b) → s.PresentsFirstRequests hmac (s.reg a) (s.reg b) ∧
      ∃ t : State, core.run 21 s = .next t ∧ Completed .ok t ∧
        Frame [d] [] { s with inputs := rest } t ∧ BufferKept s t ∧ PortsKept s t ∧ t.attempts = 1#16 ∧
        t.reg d = firstCandidate hmac (s.reg a) (s.reg b)) ∧
      ∀ i offset r σ v, SignForm i d a b true offset → decode s.cmdLast = .ok i → ¬BadModulus s.curve.p.toNat →
        0 < (s.reg a).toNat → (s.reg a).toNat < s.curve.n.toNat →
        SignsWith s.curve (s.reg a).toNat (s.reg b).toNat (firstCandidate hmac (s.reg a) (s.reg b)).toNat (offset s) r σ v →
        v < 2 ^ 256 →
        s.PresentsFirstRequests hmac (s.reg a) (s.reg b) ∧
        ∃ t : State, core.run 21 s = .next t ∧ Completed .ok t ∧
          Frame [d, regUp d 1, regUp d 2] [] { s with inputs := rest } t ∧ BufferKept s t ∧ PortsKept s t ∧
          t.attempts = 1#16 ∧ (t.reg d).toNat = r ∧ (t.reg (regUp d 1)).toNat = σ ∧ (t.reg (regUp d 2)).toNat = v

/-! The register and modular commands (spec/41_modular.md). Each says how the command is encoded, that every other word with
its opcode ends with `ILLEGAL_COMMAND`, where it ends with an error and with which, and otherwise what it completes with and
that it changes nothing else. -/

/-- R69, R70. -/
def Obligations.NopAndMovComplete : Prop :=
  RefusesOtherWords 0x00#8 ∧ RefusesOtherWords 0x01#8 ∧ EncodedBy .nop (commandWord 0x00 0 0 0 0 0 0 0) ∧
    ∀ (d a : Reg) (s : State), EncodedBy (.mov d a) (commandWord 0x01 d a 0 0 0 0 0) ∧
      CompletesOk .nop s [] [] (fun _ => True) ∧ CompletesOk (.mov d a) s [d] [] fun t => t.reg d = s.reg a

/-- R71, R72: the sum and the difference, reduced to `[0, m)`. -/
def Obligations.AddAndSubReduceExactly : Prop :=
  RefusesOtherWords 0x10#8 ∧ RefusesOtherWords 0x11#8 ∧
    ∀ (d a b : Reg) (m : ModSel) (s : State),
      EncodedBy (.add d a b m) (commandWord 0x10 d a b 0 m.bit 0 0) ∧
      EncodedBy (.sub d a b m) (commandWord 0x11 d a b 0 m.bit 0 0) ∧
      (BadModulus (s.curve.modulus m) → FailsWith (.add d a b m) s .badModulus ∧ FailsWith (.sub d a b m) s .badModulus) ∧
      (¬BadModulus (s.curve.modulus m) →
        CompletesOk (.add d a b m) s [d] []
          (fun t => (t.reg d).toNat = ((s.reg a).toNat + (s.reg b).toNat) % s.curve.modulus m) ∧
        CompletesOk (.sub d a b m) s [d] []
          (fun t => ((t.reg d).toNat : Int) = ((s.reg a).toNat - (s.reg b).toNat : Int) % s.curve.modulus m))

/-- R73, R74: the product, and the Montgomery product for the inverse of `2^256`. -/
def Obligations.MulAndMmulReduceExactly : Prop :=
  RefusesOtherWords 0x12#8 ∧ RefusesOtherWords 0x13#8 ∧
    ∀ (d a b : Reg) (m : ModSel) (s : State),
      EncodedBy (.mul d a b m) (commandWord 0x12 d a b 0 m.bit 0 0) ∧
      EncodedBy (.mmul d a b m) (commandWord 0x13 d a b 0 m.bit 0 0) ∧
      (BadModulus (s.curve.modulus m) → FailsWith (.mul d a b m) s .badModulus ∧ FailsWith (.mmul d a b m) s .badModulus) ∧
      (¬BadModulus (s.curve.modulus m) →
        CompletesOk (.mul d a b m) s [d] []
          (fun t => (t.reg d).toNat = (s.reg a).toNat * (s.reg b).toNat % s.curve.modulus m) ∧
        CompletesOk (.mmul d a b m) s [d] []
          (fun t => ∃ rinv, rinv < s.curve.modulus m ∧ 2 ^ 256 * rinv % s.curve.modulus m = 1 ∧
            (t.reg d).toNat = (s.reg a).toNat * (s.reg b).toNat * rinv % s.curve.modulus m))

/-- R75, R76: a 256-bit value, and the 512-bit value of a register group, reduced to `[0, m)`. -/
def Obligations.RedAndRedwReduce : Prop :=
  RefusesOtherWords 0x14#8 ∧ RefusesOtherWords 0x15#8 ∧
    ∀ (d a : Reg) (m : ModSel) (s : State),
      EncodedBy (.red d a m) (commandWord 0x14 d a 0 0 m.bit 0 0) ∧
      (a.val ≤ 14 → EncodedBy (.redw d a m) (commandWord 0x15 d a 0 0 m.bit 0 0)) ∧
      (BadModulus (s.curve.modulus m) → FailsWith (.red d a m) s .badModulus ∧
        (a.val ≤ 14 → FailsWith (.redw d a m) s .badModulus)) ∧
      (¬BadModulus (s.curve.modulus m) →
        CompletesOk (.red d a m) s [d] [] (fun t => (t.reg d).toNat = (s.reg a).toNat % s.curve.modulus m) ∧
        (a.val ≤ 14 → CompletesOk (.redw d a m) s [d] []
          (fun t => (t.reg d).toNat = ((s.reg (a + 1)).toNat * 2 ^ 256 + (s.reg a).toNat) % s.curve.modulus m)))

/-- R77: `b^e mod m` with `b^0 = 1`. -/
def Obligations.PowRaisesToThePower : Prop :=
  RefusesOtherWords 0x16#8 ∧
    ∀ (d a b : Reg) (m : ModSel) (s : State), EncodedBy (.pow d a b m) (commandWord 0x16 d a b 0 m.bit 0 0) ∧
      (BadModulus (s.curve.modulus m) → FailsWith (.pow d a b m) s .badModulus) ∧
      (¬BadModulus (s.curve.modulus m) → CompletesOk (.pow d a b m) s [d] []
        fun t => (t.reg d).toNat = ((s.reg a).toNat % s.curve.modulus m) ^ (s.reg b).toNat % s.curve.modulus m)

/-- R78, R79: the inverse exactly when the operand and the modulus have no common factor; the formula of the quotient for
every odd modulus; `NoInverse` otherwise, and for a divisor that is 0 modulo `m`. -/
def Obligations.InvAndDivComputeOrReportNoInverse : Prop :=
  RefusesOtherWords 0x17#8 ∧ RefusesOtherWords 0x18#8 ∧
    ∀ (d a b : Reg) (m : ModSel) (s : State),
      let q := s.curve.modulus m
      EncodedBy (.inv d a m) (commandWord 0x17 d a 0 0 m.bit 0 0) ∧
      EncodedBy (.div d a b m) (commandWord 0x18 d a b 0 m.bit 0 0) ∧
      (BadModulus q → FailsWith (.inv d a m) s .badModulus ∧ FailsWith (.div d a b m) s .badModulus) ∧
      (¬BadModulus q →
        (Nat.gcd (s.reg a).toNat q ≠ 1 → FailsWith (.inv d a m) s .noInverse) ∧
        (Nat.gcd (s.reg a).toNat q = 1 → CompletesOk (.inv d a m) s [d] []
          fun t => (t.reg d).toNat < q ∧ (s.reg a).toNat * (t.reg d).toNat % q = 1) ∧
        ((s.reg b).toNat % q = 0 → FailsWith (.div d a b m) s .noInverse) ∧
        ((s.reg b).toNat % q ≠ 0 → CompletesOk (.div d a b m) s [d] []
          fun t => (t.reg d).toNat = (s.reg a).toNat * ((s.reg b).toNat % q) ^ (q - 2) % q))

/-- R80: both roots, in the order `(r, m - r)`, and the two errors in their order. -/
def Obligations.SqrtWritesBothRoots : Prop :=
  RefusesOtherWords 0x19#8 ∧
    ∀ (d c a : Reg) (m : ModSel) (s : State), d ≠ c →
      let q := s.curve.modulus m
      let v := (s.reg a).toNat % q
      EncodedBy (.sqrt d c a m) (commandWord 0x19 d a 0 c m.bit 0 0) ∧
      (BadModulus q → FailsWith (.sqrt d c a m) s .badModulus) ∧
      (¬BadModulus q → q % 4 ≠ 3 → FailsWith (.sqrt d c a m) s .unsupportedModulus) ∧
      (¬BadModulus q → q % 4 = 3 → v ^ ((q - 1) / 2) % q ≠ 1 → FailsWith (.sqrt d c a m) s .notAQuadraticResidue) ∧
      (¬BadModulus q → q % 4 = 3 → v ^ ((q - 1) / 2) % q = 1 → CompletesOk (.sqrt d c a m) s [d, c] []
        fun t => (t.reg d).toNat = v ^ ((q + 1) / 4) % q ∧ (t.reg c).toNat = q - v ^ ((q + 1) / 4) % q)

/-- R81: RAND sends one request, waits while it is unanswered, and reduces the big-endian value of the 64 bytes; `rng_ack` gives
the outstanding request of a running command its 64 bytes as they are, and changes nothing else (R122). That `rng_req` is 1 while
RAND waits is the model's choice (entry 23). -/
def Obligations.RandReducesOneDraw : Prop :=
  RefusesOtherWords 0x1A#8 ∧
    (∀ (s : State) (rest : List Input) (data : BitVec 512), s.presetn = true → s.rngPort = .requested true →
      s.inputs = .rngAck data :: rest → step s = .next { s with rngPort := .answered data, inputs := rest }) ∧
    ∀ (d : Reg) (m : ModSel) (s : State), EncodedBy (.rand d m) (commandWord 0x1A d 0 0 0 m.bit 0 0) ∧
      (BadModulus (s.curve.modulus m) → FailsWith (.rand d m) s .badModulus) ∧
      (¬BadModulus (s.curve.modulus m) →
        (s.rngPort = .idle → ∃ t, exec (.rand d m) s = .next t ∧ t = { s with rngPort := .requested true } ∧ t.rngReq = true) ∧
        (s.rngReq = true → exec (.rand d m) s = .next s) ∧
        ∀ data, s.rngPort = .answered data → ∃ t, exec (.rand d m) s = .next t ∧
          Ends .ok [d] [] { s with rngPort := .idle } t ∧ BufferKept s t ∧
          (t.reg d).toNat = rngValue data % s.curve.modulus m)

/-! The point group commands (spec/42_point_group.md). -/

/-- R89, R92, R93, R94: the moves of points and coordinates; PGETX and PGETY of `INF` end with `POINT_AT_INFINITY`. -/
def Obligations.PointMovesCopyOrReportInfinity : Prop :=
  RefusesOtherWords 0x20#8 ∧ RefusesOtherWords 0x23#8 ∧ RefusesOtherWords 0x24#8 ∧ RefusesOtherWords 0x25#8 ∧
    (∀ (d a : PtReg) (s : State), EncodedBy (.pinf d) (commandWord 0x20 d 0 0 0 0 0 0) ∧
      EncodedBy (.pmov d a) (commandWord 0x23 d a 0 0 0 0 0) ∧
      CompletesOk (.pinf d) s [] [d] (fun t => t.point d = .inf) ∧
      CompletesOk (.pmov d a) s [] [d] (fun t => t.point d = s.point a)) ∧
    ∀ (d : Reg) (a : PtReg) (s : State), EncodedBy (.pgetx d a) (commandWord 0x24 d a 0 0 0 0 0) ∧
      EncodedBy (.pgety d a) (commandWord 0x25 d a 0 0 0 0 0) ∧
      (s.point a = .inf → FailsWith (.pgetx d a) s .pointAtInfinity ∧ FailsWith (.pgety d a) s .pointAtInfinity) ∧
      ∀ x y, s.point a = .affine x y → CompletesOk (.pgetx d a) s [d] [] (fun t => t.reg d = x) ∧
        CompletesOk (.pgety d a) s [d] [] (fun t => t.reg d = y)

/-- R90, R91: the generator and a pair of registers are written to a point register exactly when they are on the curve with
coordinates below `p` (R85). -/
def Obligations.PgenAndPsetCheckTheCurve : Prop :=
  RefusesOtherWords 0x21#8 ∧ RefusesOtherWords 0x22#8 ∧
    ∀ (d : PtReg) (a b : Reg) (s : State), EncodedBy (.pgen d) (commandWord 0x21 d 0 0 0 0 0 0) ∧
      EncodedBy (.pset d a b) (commandWord 0x22 d a b 0 0 0 0) ∧
      (BadModulus s.curve.p.toNat → FailsWith (.pgen d) s .badModulus ∧ FailsWith (.pset d a b) s .badModulus) ∧
      (¬BadModulus s.curve.p.toNat →
        (OnCurve s.curve s.curve.gx.toNat s.curve.gy.toNat →
          CompletesOk (.pgen d) s [] [d] fun t => t.point d = .affine s.curve.gx s.curve.gy) ∧
        (¬OnCurve s.curve s.curve.gx.toNat s.curve.gy.toNat → FailsWith (.pgen d) s .pointNotOnCurve) ∧
        (OnCurve s.curve (s.reg a).toNat (s.reg b).toNat →
          CompletesOk (.pset d a b) s [] [d] fun t => t.point d = .affine (s.reg a) (s.reg b)) ∧
        (¬OnCurve s.curve (s.reg a).toNat (s.reg b).toNat → FailsWith (.pset d a b) s .pointNotOnCurve))

/-- R95 with R84 and R86: every branch of the point adder, in its order. `NoInverse` for every divisor that is 0 modulo `p` is
the model's reading of R84 and of the formulas of R86 (DEDUCED, entry 22): two points on no common curve raise it with all
coordinates below `p`, where R86 and R95 remark that it arises only with a coordinate at or above `p`. -/
def Obligations.PaddFollowsTheBranchesOfR86 : Prop :=
  RefusesOtherWords 0x26#8 ∧
    ∀ (d a b : PtReg) (s : State),
      let p := s.curve.p.toNat
      EncodedBy (.padd d a b) (commandWord 0x26 d a b 0 0 0 0) ∧
      (BadModulus p → FailsWith (.padd d a b) s .badModulus) ∧
      (¬BadModulus p →
        (s.point a = .inf → CompletesOk (.padd d a b) s [] [d] fun t => t.point d = s.point b) ∧
        (s.point b = .inf → CompletesOk (.padd d a b) s [] [d] fun t => t.point d = s.point a) ∧
        ∀ x1 y1 x2 y2 : Word, s.point a = .affine x1 y1 → s.point b = .affine x2 y2 →
          let opposite : Prop := x1 = x2 ∧ (y1.toNat : Int) = ((p : Int) - y2.toNat) % p
          let u : Int := if x1 = x2 ∧ y1 = y2 then 3 * (x1.toNat : Int) ^ 2 + s.curve.a.toNat else (y2.toNat : Int) - y1.toNat
          let v : Int := if x1 = x2 ∧ y1 = y2 then 2 * (y1.toNat : Int) else (x2.toNat : Int) - x1.toNat
          (opposite → CompletesOk (.padd d a b) s [] [d] fun t => t.point d = .inf) ∧
          (¬opposite → v % p = 0 → FailsWith (.padd d a b) s .noInverse) ∧
          (¬opposite → v % p ≠ 0 → CompletesOk (.padd d a b) s [] [d] fun t => ∃ x3 y3 : Word, t.point d = .affine x3 y3 ∧
            (x3.toNat : Int) = (fieldQuotient p u v ^ 2 - x1.toNat - x2.toNat) % p ∧
            (y3.toNat : Int) = (fieldQuotient p u v * ((x1.toNat : Int) - x3.toNat) - y1.toNat) % p))

/-- R96, R97 with R87: a scalar at or above `n` is rejected; otherwise the double-and-add ladder over 256 bits, and for PMULADD
the sum of two ladders; errors of the adder propagate. -/
def Obligations.PmulAndPmuladdFollowTheLadder : Prop :=
  RefusesOtherWords 0x27#8 ∧ RefusesOtherWords 0x28#8 ∧
    (∀ (c : Curve) (q : Point) (k : Nat), pmulF c q k = ladder c q k 256) ∧
    (∀ (d a : PtReg) (b : Reg) (s : State), EncodedBy (.pmul d a b) (commandWord 0x27 d a b 0 0 0 0) ∧
      (BadModulus s.curve.p.toNat ∨ BadModulus s.curve.n.toNat → FailsWith (.pmul d a b) s .badModulus) ∧
      (¬BadModulus s.curve.p.toNat → ¬BadModulus s.curve.n.toNat →
        (s.curve.n.toNat ≤ (s.reg b).toNat → FailsWith (.pmul d a b) s .scalarOutOfRange) ∧
        ((s.reg b).toNat < s.curve.n.toNat →
          (∀ e, ladder s.curve (s.point a) (s.reg b).toNat 256 = .error e → FailsWith (.pmul d a b) s e) ∧
          (∀ Q, ladder s.curve (s.point a) (s.reg b).toNat 256 = .ok Q →
            CompletesOk (.pmul d a b) s [] [d] fun t => t.point d = Q) ∧
          (s.point a = .inf ∨ s.reg b = 0#256 → CompletesOk (.pmul d a b) s [] [d] fun t => t.point d = .inf)))) ∧
    ∀ (d a b : PtReg) (c : Reg) (s : State), c.val ≤ 14 →
      EncodedBy (.pmuladd d a b c) (commandWord 0x28 d a b c 0 0 0) ∧
      (BadModulus s.curve.p.toNat ∨ BadModulus s.curve.n.toNat → FailsWith (.pmuladd d a b c) s .badModulus) ∧
      (¬BadModulus s.curve.p.toNat → ¬BadModulus s.curve.n.toNat →
        (s.curve.n.toNat ≤ (s.reg c).toNat ∨ s.curve.n.toNat ≤ (s.reg (c + 1)).toNat →
          FailsWith (.pmuladd d a b c) s .scalarOutOfRange) ∧
        ((s.reg c).toNat < s.curve.n.toNat → (s.reg (c + 1)).toNat < s.curve.n.toNat →
          ∀ result, result = (do
              let q1 ← ladder s.curve (s.point a) (s.reg c).toNat 256
              let q2 ← ladder s.curve (s.point b) (s.reg (c + 1)).toNat 256
              paddF s.curve q1 q2) →
            (∀ e, result = .error e → FailsWith (.pmuladd d a b c) s e) ∧
            ∀ Q, result = .ok Q → CompletesOk (.pmuladd d a b c) s [] [d] fun t => t.point d = Q))

/-- R98 with R88: the decompressor's errors in their order, and otherwise the root with the parity asked for. -/
def Obligations.PfromxPicksTheRootByParity : Prop :=
  RefusesOtherWords 0x29#8 ∧
    ∀ (d : PtReg) (a : Reg) (odd : Bool) (s : State),
      EncodedBy (.pfromx d a odd) (commandWord 0x29 d a 0 0 0 (if odd then 1 else 0) 0) ∧
      (BadModulus s.curve.p.toNat → FailsWith (.pfromx d a odd) s .badModulus) ∧
      (¬BadModulus s.curve.p.toNat →
        (∀ e, decompressionError s.curve (s.reg a).toNat = some e → FailsWith (.pfromx d a odd) s e) ∧
        (decompressionError s.curve (s.reg a).toNat = none → CompletesOk (.pfromx d a odd) s [] [d] fun t =>
          ∃ y : Word, t.point d = .affine (s.reg a) y ∧ y.toNat < s.curve.p.toNat ∧
            PickedRoot s.curve (s.reg a).toNat odd y.toNat))

/-- R99: the bytes ENCODE writes, in both forms, and `BUF_LEN`; every other byte of `BUF` stays; `INF` is an error. -/
def Obligations.EncodeWritesTheListedBytes : Prop :=
  RefusesOtherWords 0x2A#8 ∧
    ∀ (a : PtReg) (compressed : Bool) (s : State),
      EncodedBy (.encode a compressed) (commandWord 0x2A 0 a 0 0 0 (if compressed then 1 else 0) 0) ∧
      (s.point a = .inf → FailsWith (.encode a compressed) s .pointAtInfinity) ∧
      ∀ x y, s.point a = .affine x y → s.buf.wf = true → ∃ t, exec (.encode a compressed) s = .next t ∧ Ends .ok [] [] s t ∧
        (∀ i, i < 32 → t.buf.read (1 + i) = x.extractLsb' (248 - 8 * i) 8) ∧
        (compressed = true → (t.buf.read 0).toNat = 2 + y.toNat % 2 ∧ t.bufLen = 33#8 ∧
          ∀ j, 33 ≤ j → t.buf.read j = s.buf.read j) ∧
        (compressed = false → t.buf.read 0 = 0x04#8 ∧ t.bufLen = 65#8 ∧
          (∀ i, i < 32 → t.buf.read (33 + i) = y.extractLsb' (248 - 8 * i) 8) ∧ ∀ j, 65 ≤ j → t.buf.read j = s.buf.read j)

/-- R100: the two accepted forms, and each error in its place. -/
def Obligations.DecodeReadsTheTwoForms : Prop :=
  RefusesOtherWords 0x2B#8 ∧
    ∀ (d : PtReg) (s : State), EncodedBy (.decode d) (commandWord 0x2B d 0 0 0 0 0 0) ∧
      (BadModulus s.curve.p.toNat → FailsWith (.decode d) s .badModulus) ∧
      (¬BadModulus s.curve.p.toNat →
        (∀ e, decodeError s.curve s.buf.read s.bufLen.toNat = some e → FailsWith (.decode d) s e) ∧
        (decodeError s.curve s.buf.read s.bufLen.toNat = none → CompletesOk (.decode d) s [] [d] fun t =>
          DecodesTo s.curve s.buf.read s.bufLen.toNat (t.point d)))

/-- Decoding what ENCODE wrote gives the point back: the decompressed form for every point of the curve, the compressed form
when `p` is a prime that is 3 modulo 4 and `y ≠ 0` (R99, R100). -/
def Obligations.DecodeAfterEncodeReturnsThePoint : Prop :=
  ∀ (a d : PtReg) (compressed : Bool) (s : State) (x y : Word), s.point a = .affine x y → s.buf.wf = true →
    ¬BadModulus s.curve.p.toNat → OnCurve s.curve x.toNat y.toNat →
    (compressed = true → Nat.Prime s.curve.p.toNat ∧ s.curve.p.toNat % 4 = 3 ∧ y ≠ 0#256) →
    ∃ t u, exec (.encode a compressed) s = .next t ∧ exec (.decode d) t = .next u ∧ Completed .ok t ∧ Completed .ok u ∧
      u.point d = .affine x y

/-! The ECDSA commands (spec/43_ecdsa.md). -/

/-- R103: NONCE begins `DRBG_INIT` without checking the key; a candidate in `(0, n)` is accepted, any other is rejected and
retried until `MAX_ATTEMPTS`; each way the response is used up. -/
def Obligations.NonceJudgesItsCandidates : Prop :=
  RefusesOtherWords 0x33#8 ∧
    ∀ (d a b : Reg) (s : State), EncodedBy (.nonce d a b) (commandWord 0x33 d a b 0 0 0 0) ∧
      (BadModulus s.curve.n.toNat → FailsCounting (.nonce d a b) s .badModulus 0) ∧
      (¬BadModulus s.curve.n.toNat →
        (s.stage = .start → exec (.nonce d a b) s =
          .next { s with attempt := 0, drbgK := 0#256, drbgV := initialV, stage := .drbg .initK0 }) ∧
        ∀ data, s.stage = .drbg .next → s.hmacPort = .answered data → 1 ≤ s.attempt → s.attempt ≤ 1000 →
          (0 < hmacValue data ∧ hmacValue data < s.curve.n.toNat → ∃ t, exec (.nonce d a b) s = .next t ∧
            Completed .ok t ∧ Frame [d] [] s t ∧ BufferKept s t ∧ (t.reg d).toNat = hmacValue data ∧
            t.attempts.toNat = s.attempt ∧ t.hmacPort = .idle ∧ t.rngPort = s.rngPort) ∧
          (¬(0 < hmacValue data ∧ hmacValue data < s.curve.n.toNat) → s.attempt < 1000 →
            ∃ v : Word, v.toNat = hmacValue data ∧ exec (.nonce d a b) s = .next { s with
              hmacPort := .idle, drbgV := v, attempt := s.attempt + 1, stage := .drbg .rejectK }) ∧
          (¬(0 < hmacValue data ∧ hmacValue data < s.curve.n.toNat) → s.attempt = 1000 →
            FailsAtCandidate true (.nonce d a b) s .retryLimit 1000))

/-- SIGN is encoded by R57 and R58, checks the moduli and then the key, and begins `DRBG_INIT` or its first random draw (R104). -/
def Obligations.SignChecksItsKeyThenBegins : Prop :=
  RefusesOtherWords 0x30#8 ∧
    (∀ (d a b c : Reg) (det : Bool), d.val ≤ 13 →
      EncodedBy (.sign d a b det) (commandWord 0x30 d a b 0 0 (if det then 1 else 0) 0) ∧
        EncodedBy (.signCid d a b c det) (commandWord 0x30 d a b c 0 (if det then 1 else 0) 1)) ∧
    ∀ (i : Instr) (d a b : Reg) (det : Bool) (offset : State → Nat) (s : State), SignForm i d a b det offset → d.val ≤ 13 →
      (BadModulus s.curve.p.toNat ∨ BadModulus s.curve.n.toNat → FailsCounting i s .badModulus 0) ∧
      (¬BadModulus s.curve.p.toNat → ¬BadModulus s.curve.n.toNat → s.stage = .start →
        (¬(0 < (s.reg a).toNat ∧ (s.reg a).toNat < s.curve.n.toNat) → FailsCounting i s .invalidPrivateKey 0) ∧
        (0 < (s.reg a).toNat ∧ (s.reg a).toNat < s.curve.n.toNat → exec i s = .next
          (if det then { s with attempt := 0, drbgK := 0#256, drbgV := initialV, stage := .drbg .initK0 }
          else { s with attempt := 1, stage := .random })))

/-- An accepted candidate of SIGN: `r`, `s` with low-s normalization and the recovery id are written to the group, and
`ATTEMPTS` to the count (R104). -/
def Obligations.SignWritesTheSignatureOfItsCandidate : Prop :=
  ∀ (i : Instr) (d a b : Reg) (det : Bool) (offset : State → Nat) (s : State) (k r σ v : Nat),
    SignForm i d a b det offset → d.val ≤ 13 → ¬BadModulus s.curve.p.toNat → ¬BadModulus s.curve.n.toNat →
    s.attempt ≤ 1000 → CandidateArrived s det k → 0 < k → k < s.curve.n.toNat →
    SignsWith s.curve (s.reg a).toNat (s.reg b).toNat k (offset s) r σ v → v < 2 ^ 256 →
    ∃ t, exec i s = .next t ∧ Completed .ok t ∧ Frame [d, regUp d 1, regUp d 2] [] s t ∧ BufferKept s t ∧
      (t.reg d).toNat = r ∧ (t.reg (regUp d 1)).toNat = σ ∧ (t.reg (regUp d 2)).toNat = v ∧
      t.attempts.toNat = s.attempt ∧ ResponseUsed det s t

/-- A rejected candidate of SIGN is retried until `MAX_ATTEMPTS`, then `RETRY_LIMIT`; a recovery id of `2^256` or more, a
candidate without inverse, and an error of the scalar multiplier end the command. Each way the response is used up and its port
idle again, so the next attempt makes a transaction of its own: of the continuing stream, whose `K` is kept and whose `V` is the
candidate, or the next draw (R102, R104). -/
def Obligations.SignRetriesOrReportsItsErrors : Prop :=
  ∀ (i : Instr) (d a b : Reg) (det : Bool) (offset : State → Nat) (s : State) (k : Nat),
    SignForm i d a b det offset → d.val ≤ 13 → ¬BadModulus s.curve.p.toNat → ¬BadModulus s.curve.n.toNat →
    1 ≤ s.attempt → s.attempt ≤ 1000 → CandidateArrived s det k →
    (Rejected s.curve (s.reg a).toNat (s.reg b).toNat k →
      (s.attempt < 1000 →
        if det then ∃ v : Word, v.toNat = k ∧ exec i s = .next { s with
          hmacPort := .idle, drbgV := v, attempt := s.attempt + 1, stage := .drbg .rejectK }
        else exec i s = .next { s with rngPort := .idle, attempt := s.attempt + 1, stage := .random }) ∧
      (s.attempt = 1000 → FailsAtCandidate det i s .retryLimit 1000)) ∧
    (0 < k → k < s.curve.n.toNat →
      (∀ e, pmulF s.curve s.curve.g k = .error e → FailsAtCandidate det i s e s.attempt) ∧
      (∀ x y : Word, pmulF s.curve s.curve.g k = .ok (.affine x y) → x.toNat % s.curve.n.toNat ≠ 0 →
        Nat.gcd k s.curve.n.toNat ≠ 1 → FailsAtCandidate det i s .noInverse s.attempt) ∧
      ∀ r σ v, SignsWith s.curve (s.reg a).toNat (s.reg b).toNat k (offset s) r σ v → 2 ^ 256 ≤ v →
        FailsAtCandidate det i s .chainidRange s.attempt)

/-- Whatever the candidate, a signature SIGN completes with has `0 < r < n`, `0 < s ≤ floor(n/2)`, and a recovery id of its
offset plus 0, 1, 2 or 3 (R104, corner cases). -/
def Obligations.SignaturesAreLowS : Prop :=
  ∀ (i : Instr) (d a b : Reg) (det : Bool) (offset : State → Nat) (s t : State), SignForm i d a b det offset →
    s.status.busy = true → exec i s = .next t → t.status.busy = false → t.errcode = .ok →
    0 < (t.reg d).toNat ∧ (t.reg d).toNat < s.curve.n.toNat ∧
      0 < (t.reg (regUp d 1)).toNat ∧ (t.reg (regUp d 1)).toNat ≤ s.curve.n.toNat / 2 ∧
      offset s ≤ (t.reg (regUp d 2)).toNat ∧ (t.reg (regUp d 2)).toNat ≤ offset s + 3

/-- R105: the range check, the key, and the verdict on `u1·G + u2·Qa`; a false signature is an `OK` completion with 0. -/
def Obligations.VerifyComparesWithR : Prop :=
  RefusesOtherWords 0x31#8 ∧
    ∀ (d a b : Reg) (s : State), a.val ≤ 14 →
      let c := s.curve
      let n := s.curve.n.toNat
      let r := (s.reg a).toNat
      let σ := (s.reg (a + 1)).toNat
      let e := (s.reg b).toNat
      EncodedBy (.verify d a b) (commandWord 0x31 d a b 0 0 0 0) ∧
      (BadModulus c.p.toNat ∨ BadModulus n → FailsWith (.verify d a b) s .badModulus) ∧
      (¬BadModulus c.p.toNat → ¬BadModulus n →
        (¬(0 < r ∧ r < n ∧ 0 < σ ∧ σ < n) → FailsWith (.verify d a b) s .signatureOutOfRange) ∧
        (0 < r → r < n → 0 < σ → σ < n →
          (decodeError c s.buf.read s.bufLen.toNat ≠ none → FailsWith (.verify d a b) s .invalidPublicKey) ∧
          (decodeError c s.buf.read s.bufLen.toNat = none →
            (Nat.gcd σ n ≠ 1 → FailsWith (.verify d a b) s .noInverse) ∧
            ∀ w Q result, w < n → σ * w % n = 1 → DecodesTo c s.buf.read s.bufLen.toNat Q →
              result = (do
                let x1 ← pmulF c c.g (e * w % n)
                let x2 ← pmulF c Q (r * w % n)
                paddF c x1 x2) →
              (∀ err, result = .error err → FailsWith (.verify d a b) s err) ∧
              (result = .ok .inf → CompletesOk (.verify d a b) s [d] [] fun t => t.reg d = 0#256) ∧
              ∀ x y, result = .ok (.affine x y) → CompletesOk (.verify d a b) s [d] []
                fun t => t.reg d = if x.toNat % n = r then 1#256 else 0#256)))

/-- R106: the checks in their order, with the bound `r + n ≥ p` of spec/90_conflicts.md C1, and the recovered point. -/
def Obligations.RecoverComputesThePoint : Prop :=
  RefusesOtherWords 0x32#8 ∧
    ∀ (d : PtReg) (a b : Reg) (s : State), a.val ≤ 13 →
      let c := s.curve
      let n := s.curve.n.toNat
      let r := (s.reg a).toNat
      let σ := (s.reg (a + 1)).toNat
      let v := (s.reg (a + 2)).toNat
      let e := (s.reg b).toNat
      let x := if (v - 27) / 2 % 2 = 1 then r + n else r
      EncodedBy (.recover d a b) (commandWord 0x32 d a b 0 0 0 0) ∧
      (BadModulus c.p.toNat ∨ BadModulus n → FailsWith (.recover d a b) s .badModulus) ∧
      (¬BadModulus c.p.toNat → ¬BadModulus n →
        (¬(0 < r ∧ r < n ∧ 0 < σ ∧ σ < n) → FailsWith (.recover d a b) s .signatureOutOfRange) ∧
        (0 < r → r < n → 0 < σ → σ < n →
          (v < 27 → FailsWith (.recover d a b) s .invalidRecoveryId) ∧
          (27 ≤ v →
            ((v - 27) / 2 % 2 = 1 → c.p.toNat ≤ r + n → FailsWith (.recover d a b) s .unrecoverableKey) ∧
            (¬((v - 27) / 2 % 2 = 1 ∧ c.p.toNat ≤ r + n) →
              (∀ err, decompressionError c x = some err → FailsWith (.recover d a b) s err) ∧
              (decompressionError c x = none →
                (Nat.gcd r n ≠ 1 → FailsWith (.recover d a b) s .noInverse) ∧
                ∀ y rinv result, PickedRoot c x (decide ((v - 27) % 2 = 1)) y → rinv < n → r * rinv % n = 1 →
                  result = (do
                    let q1 ← pmulF c (.affine (word x) (word y)) (σ * rinv % n)
                    let q2 ← pmulF c c.g ((-(e * rinv : Int)) % n).toNat
                    paddF c q1 q2) →
                  (∀ err, result = .error err → FailsWith (.recover d a b) s err) ∧
                  (result = .ok .inf → FailsWith (.recover d a b) s .pointAtInfinity) ∧
                  ∀ Q, Q ≠ .inf → result = .ok Q →
                    CompletesOk (.recover d a b) s [] [d] fun t => t.point d = Q)))))

/-! The arithmetic units and the group (spec/41_modular.md R82, R83; spec/42_point_group.md R86, R87). -/

/-- REDC gives the Montgomery product and the Barrett method the residue, their estimates exceed the result by less than the
bounds of R82 and R83 (at most two final subtractions for a modulus of 256 bits), two Montgomery products with `R² mod m` give
the product, and the constants have the values of the tables of R82 and R83. -/
def Obligations.RedcAndBarrettGiveTheResidue : Prop :=
  (∀ m a b : Nat, ¬BadModulus m → m < 2 ^ 256 → a < 2 ^ 256 → b < 2 ^ 256 →
      redcEstimate m a b < 2 ^ 256 + m ∧ (2 ^ 255 ≤ m → redcEstimate m a b < 3 * m) ∧
        (∃ rinv, rinv < m ∧ 2 ^ 256 * rinv % m = 1 ∧ redc m a b = a * b * rinv % m) ∧
        redc m (redc m a b) (reductionConstants m).rSquared = a * b % m) ∧
    (∀ m x : Nat, 2 ^ 255 ≤ m → m < 2 ^ 256 → x < 2 ^ 512 → barrettEstimate m x < 3 * m ∧ barrett m x = x % m) ∧
    (reductionConstants Config.secpP.toNat).mPrime = 0xC9BD1905155383999C46C2C295F2B761BCB223FEDC24A059D838091DD2253531 ∧
    2 ^ 256 % Config.secpP.toNat = 0x1000003D1 ∧
    2 ^ 256 % Config.secpN.toNat = 0x14551231950B75FC4402DA1732FC9BEBF ∧
    (reductionConstants Config.secpP.toNat).rSquared = 0x1000007A2000E90A1 ∧
    (reductionConstants Config.secpP.toNat).mu = 0x100000000000000000000000000000000000000000000000000000001000003d1 ∧
    (reductionConstants Config.secpN.toNat).mPrime = 0xD9E8890D6494EF93897F30C127CFAB5E50A51AC834B9EC244B0DFF665588B13F ∧
    (reductionConstants Config.secpN.toNat).rSquared =
      0x9D671CD581C69BC5E697F5E45BCD07C6741496C20E7CF878896CF21467D7D140 ∧
    (reductionConstants Config.secpN.toNat).mu = 0x1000000000000000000000000000000014551231950b75fc4402da1732fc9bec0

/-- PADD on points of the curve over a prime field is the addition of the elliptic-curve group (R84, R86, R95). -/
def Obligations.PaddIsGroupAddition : Prop :=
  ∀ (d a b : PtReg) (s : State) (_hp : Fact (Nat.Prime s.curve.p.toNat)) (g h : (fieldCurve s.curve).toAffine.Point),
    ¬BadModulus s.curve.p.toNat → Represents s.curve (s.point a) g → Represents s.curve (s.point b) h →
    CompletesOk (.padd d a b) s [] [d] fun t => Represents s.curve (t.point d) (g + h)

/-- PMUL on a point of the curve over a prime field is the scalar multiple in the elliptic-curve group (R87, R96). -/
def Obligations.PmulIsScalarMultiplication : Prop :=
  ∀ (d a : PtReg) (b : Reg) (s : State) (_hp : Fact (Nat.Prime s.curve.p.toNat)) (g : (fieldCurve s.curve).toAffine.Point),
    ¬BadModulus s.curve.p.toNat → ¬BadModulus s.curve.n.toNat → (s.reg b).toNat < s.curve.n.toNat →
    Represents s.curve (s.point a) g →
    CompletesOk (.pmul d a b) s [] [d] fun t => Represents s.curve (t.point d) ((s.reg b).toNat • g)

/-- A signature that SIGN computes verifies: when `p` and `n` are primes, `G` has order dividing `n`, and `BUF` holds an encoding
of the public key `d·G`, VERIFY of the signature for the same hash completes with 1 (R104, R105). -/
def Obligations.SignaturesVerify : Prop :=
  ∀ (rd a b : Reg) (s : State) (_hp : Fact (Nat.Prime s.curve.p.toNat)) (g : (fieldCurve s.curve).toAffine.Point)
    (d k offset v : Nat) (Q : Point),
    Nat.Prime s.curve.n.toNat → ¬BadModulus s.curve.p.toNat → ¬BadModulus s.curve.n.toNat →
    Represents s.curve s.curve.g g → s.curve.n.toNat • g = 0 → a.val ≤ 14 →
    Represents s.curve Q (d • g) → decodeError s.curve s.buf.read s.bufLen.toNat = none →
    DecodesTo s.curve s.buf.read s.bufLen.toNat Q →
    SignsWith s.curve d (s.reg b).toNat k offset (s.reg a).toNat (s.reg (a + 1)).toNat v → k < s.curve.n.toNat →
    CompletesOk (.verify rd a b) s [rd] [] fun t => t.reg rd = 1#256
end

