-- ==== Sys2Proof/Laws/State.lean ====
section
/-! SUPPORT. One lemma per field per update of the state, each true by `rfl`, so that no later proof unfolds a record
update. -/

namespace Sys2Proof.Machine

/-! `State.setReg`. -/

@[simp] theorem State.setReg_regs (s : State) (r : Reg) (v : Word) : (s.setReg r v).regs = s.regs.set r.val v r.isLt := rfl
@[simp] theorem State.setReg_points (s : State) (r : Reg) (v : Word) : (s.setReg r v).points = s.points := rfl
@[simp] theorem State.setReg_curve (s : State) (r : Reg) (v : Word) : (s.setReg r v).curve = s.curve := rfl
@[simp] theorem State.setReg_buf (s : State) (r : Reg) (v : Word) : (s.setReg r v).buf = s.buf := rfl
@[simp] theorem State.setReg_bufLen (s : State) (r : Reg) (v : Word) : (s.setReg r v).bufLen = s.bufLen := rfl
@[simp] theorem State.setReg_ie (s : State) (r : Reg) (v : Word) : (s.setReg r v).ie = s.ie := rfl
@[simp] theorem State.setReg_status (s : State) (r : Reg) (v : Word) : (s.setReg r v).status = s.status := rfl
@[simp] theorem State.setReg_errcode (s : State) (r : Reg) (v : Word) : (s.setReg r v).errcode = s.errcode := rfl
@[simp] theorem State.setReg_cmdLast (s : State) (r : Reg) (v : Word) : (s.setReg r v).cmdLast = s.cmdLast := rfl
@[simp] theorem State.setReg_attempts (s : State) (r : Reg) (v : Word) : (s.setReg r v).attempts = s.attempts := rfl
@[simp] theorem State.setReg_stage (s : State) (r : Reg) (v : Word) : (s.setReg r v).stage = s.stage := rfl
@[simp] theorem State.setReg_drbgK (s : State) (r : Reg) (v : Word) : (s.setReg r v).drbgK = s.drbgK := rfl
@[simp] theorem State.setReg_drbgV (s : State) (r : Reg) (v : Word) : (s.setReg r v).drbgV = s.drbgV := rfl
@[simp] theorem State.setReg_attempt (s : State) (r : Reg) (v : Word) : (s.setReg r v).attempt = s.attempt := rfl
@[simp] theorem State.setReg_hmacPort (s : State) (r : Reg) (v : Word) : (s.setReg r v).hmacPort = s.hmacPort := rfl
@[simp] theorem State.setReg_rngPort (s : State) (r : Reg) (v : Word) : (s.setReg r v).rngPort = s.rngPort := rfl
@[simp] theorem State.setReg_presetn (s : State) (r : Reg) (v : Word) : (s.setReg r v).presetn = s.presetn := rfl
@[simp] theorem State.setReg_response (s : State) (r : Reg) (v : Word) : (s.setReg r v).response = s.response := rfl
@[simp] theorem State.setReg_inputs (s : State) (r : Reg) (v : Word) : (s.setReg r v).inputs = s.inputs := rfl

/-! `State.setPoint`. -/

@[simp] theorem State.setPoint_regs (s : State) (q : PtReg) (P : Point) : (s.setPoint q P).regs = s.regs := rfl
@[simp] theorem State.setPoint_points (s : State) (q : PtReg) (P : Point) : (s.setPoint q P).points = s.points.set q.val P q.isLt := rfl
@[simp] theorem State.setPoint_curve (s : State) (q : PtReg) (P : Point) : (s.setPoint q P).curve = s.curve := rfl
@[simp] theorem State.setPoint_buf (s : State) (q : PtReg) (P : Point) : (s.setPoint q P).buf = s.buf := rfl
@[simp] theorem State.setPoint_bufLen (s : State) (q : PtReg) (P : Point) : (s.setPoint q P).bufLen = s.bufLen := rfl
@[simp] theorem State.setPoint_ie (s : State) (q : PtReg) (P : Point) : (s.setPoint q P).ie = s.ie := rfl
@[simp] theorem State.setPoint_status (s : State) (q : PtReg) (P : Point) : (s.setPoint q P).status = s.status := rfl
@[simp] theorem State.setPoint_errcode (s : State) (q : PtReg) (P : Point) : (s.setPoint q P).errcode = s.errcode := rfl
@[simp] theorem State.setPoint_cmdLast (s : State) (q : PtReg) (P : Point) : (s.setPoint q P).cmdLast = s.cmdLast := rfl
@[simp] theorem State.setPoint_attempts (s : State) (q : PtReg) (P : Point) : (s.setPoint q P).attempts = s.attempts := rfl
@[simp] theorem State.setPoint_stage (s : State) (q : PtReg) (P : Point) : (s.setPoint q P).stage = s.stage := rfl
@[simp] theorem State.setPoint_drbgK (s : State) (q : PtReg) (P : Point) : (s.setPoint q P).drbgK = s.drbgK := rfl
@[simp] theorem State.setPoint_drbgV (s : State) (q : PtReg) (P : Point) : (s.setPoint q P).drbgV = s.drbgV := rfl
@[simp] theorem State.setPoint_attempt (s : State) (q : PtReg) (P : Point) : (s.setPoint q P).attempt = s.attempt := rfl
@[simp] theorem State.setPoint_hmacPort (s : State) (q : PtReg) (P : Point) : (s.setPoint q P).hmacPort = s.hmacPort := rfl
@[simp] theorem State.setPoint_rngPort (s : State) (q : PtReg) (P : Point) : (s.setPoint q P).rngPort = s.rngPort := rfl
@[simp] theorem State.setPoint_presetn (s : State) (q : PtReg) (P : Point) : (s.setPoint q P).presetn = s.presetn := rfl
@[simp] theorem State.setPoint_response (s : State) (q : PtReg) (P : Point) : (s.setPoint q P).response = s.response := rfl
@[simp] theorem State.setPoint_inputs (s : State) (q : PtReg) (P : Point) : (s.setPoint q P).inputs = s.inputs := rfl

/-! `State.issue`. -/

@[simp] theorem State.issue_regs (s : State) (w : CmdWord) : (s.issue w).regs = s.regs := rfl
@[simp] theorem State.issue_points (s : State) (w : CmdWord) : (s.issue w).points = s.points := rfl
@[simp] theorem State.issue_curve (s : State) (w : CmdWord) : (s.issue w).curve = s.curve := rfl
@[simp] theorem State.issue_buf (s : State) (w : CmdWord) : (s.issue w).buf = s.buf := rfl
@[simp] theorem State.issue_bufLen (s : State) (w : CmdWord) : (s.issue w).bufLen = s.bufLen := rfl
@[simp] theorem State.issue_ie (s : State) (w : CmdWord) : (s.issue w).ie = s.ie := rfl
@[simp] theorem State.issue_status (s : State) (w : CmdWord) : (s.issue w).status = s.status.issued := rfl
@[simp] theorem State.issue_errcode (s : State) (w : CmdWord) : (s.issue w).errcode = .ok := rfl
@[simp] theorem State.issue_cmdLast (s : State) (w : CmdWord) : (s.issue w).cmdLast = w := rfl
@[simp] theorem State.issue_attempts (s : State) (w : CmdWord) : (s.issue w).attempts = s.attempts := rfl
@[simp] theorem State.issue_stage (s : State) (w : CmdWord) : (s.issue w).stage = .start := rfl
@[simp] theorem State.issue_drbgK (s : State) (w : CmdWord) : (s.issue w).drbgK = s.drbgK := rfl
@[simp] theorem State.issue_drbgV (s : State) (w : CmdWord) : (s.issue w).drbgV = s.drbgV := rfl
@[simp] theorem State.issue_attempt (s : State) (w : CmdWord) : (s.issue w).attempt = s.attempt := rfl
@[simp] theorem State.issue_hmacPort (s : State) (w : CmdWord) : (s.issue w).hmacPort = s.hmacPort := rfl
@[simp] theorem State.issue_rngPort (s : State) (w : CmdWord) : (s.issue w).rngPort = s.rngPort := rfl
@[simp] theorem State.issue_presetn (s : State) (w : CmdWord) : (s.issue w).presetn = s.presetn := rfl
@[simp] theorem State.issue_response (s : State) (w : CmdWord) : (s.issue w).response = s.response := rfl
@[simp] theorem State.issue_inputs (s : State) (w : CmdWord) : (s.issue w).inputs = s.inputs := rfl

/-! `State.complete`. -/

@[simp] theorem State.complete_regs (s : State) (code : ResultCode) (n : Option Nat) : (s.complete code n).regs = s.regs := rfl
@[simp] theorem State.complete_points (s : State) (code : ResultCode) (n : Option Nat) : (s.complete code n).points = s.points := rfl
@[simp] theorem State.complete_curve (s : State) (code : ResultCode) (n : Option Nat) : (s.complete code n).curve = s.curve := rfl
@[simp] theorem State.complete_buf (s : State) (code : ResultCode) (n : Option Nat) : (s.complete code n).buf = s.buf := rfl
@[simp] theorem State.complete_bufLen (s : State) (code : ResultCode) (n : Option Nat) : (s.complete code n).bufLen = s.bufLen := rfl
@[simp] theorem State.complete_ie (s : State) (code : ResultCode) (n : Option Nat) : (s.complete code n).ie = s.ie := rfl
@[simp] theorem State.complete_status (s : State) (code : ResultCode) (n : Option Nat) : (s.complete code n).status = s.status.completed code := rfl
@[simp] theorem State.complete_errcode (s : State) (code : ResultCode) (n : Option Nat) : (s.complete code n).errcode = code := rfl
@[simp] theorem State.complete_cmdLast (s : State) (code : ResultCode) (n : Option Nat) : (s.complete code n).cmdLast = s.cmdLast := rfl
@[simp] theorem State.complete_stage (s : State) (code : ResultCode) (n : Option Nat) : (s.complete code n).stage = .start := rfl
@[simp] theorem State.complete_drbgK (s : State) (code : ResultCode) (n : Option Nat) : (s.complete code n).drbgK = s.drbgK := rfl
@[simp] theorem State.complete_drbgV (s : State) (code : ResultCode) (n : Option Nat) : (s.complete code n).drbgV = s.drbgV := rfl
@[simp] theorem State.complete_attempt (s : State) (code : ResultCode) (n : Option Nat) : (s.complete code n).attempt = s.attempt := rfl
@[simp] theorem State.complete_hmacPort (s : State) (code : ResultCode) (n : Option Nat) : (s.complete code n).hmacPort = s.hmacPort := rfl
@[simp] theorem State.complete_rngPort (s : State) (code : ResultCode) (n : Option Nat) : (s.complete code n).rngPort = s.rngPort := rfl
@[simp] theorem State.complete_presetn (s : State) (code : ResultCode) (n : Option Nat) : (s.complete code n).presetn = s.presetn := rfl
@[simp] theorem State.complete_response (s : State) (code : ResultCode) (n : Option Nat) : (s.complete code n).response = s.response := rfl
@[simp] theorem State.complete_inputs (s : State) (code : ResultCode) (n : Option Nat) : (s.complete code n).inputs = s.inputs := rfl
@[simp] theorem State.complete_attempts_none (s : State) (code : ResultCode) : (s.complete code none).attempts = s.attempts := rfl
@[simp] theorem State.complete_attempts_some (s : State) (code : ResultCode) (n : Nat) :
    (s.complete code (some n)).attempts = BitVec.ofNat 16 n := rfl
@[simp] theorem State.fail_eq_complete (s : State) (code : ResultCode) (n : Option Nat) : s.fail code n = s.complete code n := rfl

/-! `State.acknowledge`. -/

@[simp] theorem State.acknowledge_regs (s : State) (v : BusWord) : (s.acknowledge v).regs = s.regs := rfl
@[simp] theorem State.acknowledge_points (s : State) (v : BusWord) : (s.acknowledge v).points = s.points := rfl
@[simp] theorem State.acknowledge_curve (s : State) (v : BusWord) : (s.acknowledge v).curve = s.curve := rfl
@[simp] theorem State.acknowledge_buf (s : State) (v : BusWord) : (s.acknowledge v).buf = s.buf := rfl
@[simp] theorem State.acknowledge_bufLen (s : State) (v : BusWord) : (s.acknowledge v).bufLen = s.bufLen := rfl
@[simp] theorem State.acknowledge_ie (s : State) (v : BusWord) : (s.acknowledge v).ie = s.ie := rfl
@[simp] theorem State.acknowledge_status (s : State) (v : BusWord) : (s.acknowledge v).status = s.status.cleared v := rfl
@[simp] theorem State.acknowledge_errcode (s : State) (v : BusWord) : (s.acknowledge v).errcode = s.errcode := rfl
@[simp] theorem State.acknowledge_cmdLast (s : State) (v : BusWord) : (s.acknowledge v).cmdLast = s.cmdLast := rfl
@[simp] theorem State.acknowledge_attempts (s : State) (v : BusWord) : (s.acknowledge v).attempts = s.attempts := rfl
@[simp] theorem State.acknowledge_stage (s : State) (v : BusWord) : (s.acknowledge v).stage = s.stage := rfl
@[simp] theorem State.acknowledge_drbgK (s : State) (v : BusWord) : (s.acknowledge v).drbgK = s.drbgK := rfl
@[simp] theorem State.acknowledge_drbgV (s : State) (v : BusWord) : (s.acknowledge v).drbgV = s.drbgV := rfl
@[simp] theorem State.acknowledge_attempt (s : State) (v : BusWord) : (s.acknowledge v).attempt = s.attempt := rfl
@[simp] theorem State.acknowledge_hmacPort (s : State) (v : BusWord) : (s.acknowledge v).hmacPort = s.hmacPort := rfl
@[simp] theorem State.acknowledge_rngPort (s : State) (v : BusWord) : (s.acknowledge v).rngPort = s.rngPort := rfl
@[simp] theorem State.acknowledge_presetn (s : State) (v : BusWord) : (s.acknowledge v).presetn = s.presetn := rfl
@[simp] theorem State.acknowledge_response (s : State) (v : BusWord) : (s.acknowledge v).response = s.response := rfl
@[simp] theorem State.acknowledge_inputs (s : State) (v : BusWord) : (s.acknowledge v).inputs = s.inputs := rfl

/-! `State.respond`. -/

@[simp] theorem State.respond_regs (s : State) (r : Response) : (s.respond r).regs = s.regs := rfl
@[simp] theorem State.respond_points (s : State) (r : Response) : (s.respond r).points = s.points := rfl
@[simp] theorem State.respond_curve (s : State) (r : Response) : (s.respond r).curve = s.curve := rfl
@[simp] theorem State.respond_buf (s : State) (r : Response) : (s.respond r).buf = s.buf := rfl
@[simp] theorem State.respond_bufLen (s : State) (r : Response) : (s.respond r).bufLen = s.bufLen := rfl
@[simp] theorem State.respond_ie (s : State) (r : Response) : (s.respond r).ie = s.ie := rfl
@[simp] theorem State.respond_status (s : State) (r : Response) : (s.respond r).status = s.status := rfl
@[simp] theorem State.respond_errcode (s : State) (r : Response) : (s.respond r).errcode = s.errcode := rfl
@[simp] theorem State.respond_cmdLast (s : State) (r : Response) : (s.respond r).cmdLast = s.cmdLast := rfl
@[simp] theorem State.respond_attempts (s : State) (r : Response) : (s.respond r).attempts = s.attempts := rfl
@[simp] theorem State.respond_stage (s : State) (r : Response) : (s.respond r).stage = s.stage := rfl
@[simp] theorem State.respond_drbgK (s : State) (r : Response) : (s.respond r).drbgK = s.drbgK := rfl
@[simp] theorem State.respond_drbgV (s : State) (r : Response) : (s.respond r).drbgV = s.drbgV := rfl
@[simp] theorem State.respond_attempt (s : State) (r : Response) : (s.respond r).attempt = s.attempt := rfl
@[simp] theorem State.respond_hmacPort (s : State) (r : Response) : (s.respond r).hmacPort = s.hmacPort := rfl
@[simp] theorem State.respond_rngPort (s : State) (r : Response) : (s.respond r).rngPort = s.rngPort := rfl
@[simp] theorem State.respond_presetn (s : State) (r : Response) : (s.respond r).presetn = s.presetn := rfl
@[simp] theorem State.respond_response (s : State) (r : Response) : (s.respond r).response = some r := rfl
@[simp] theorem State.respond_inputs (s : State) (r : Response) : (s.respond r).inputs = s.inputs := rfl

/-! `State.abort`. -/

@[simp] theorem State.abort_regs (s : State) : s.abort.regs = s.regs := rfl
@[simp] theorem State.abort_points (s : State) : s.abort.points = s.points := rfl
@[simp] theorem State.abort_curve (s : State) : s.abort.curve = s.curve := rfl
@[simp] theorem State.abort_buf (s : State) : s.abort.buf = s.buf := rfl
@[simp] theorem State.abort_bufLen (s : State) : s.abort.bufLen = s.bufLen := rfl
@[simp] theorem State.abort_ie (s : State) : s.abort.ie = s.ie := rfl
@[simp] theorem State.abort_status (s : State) : s.abort.status = s.status.completed .aborted := rfl
@[simp] theorem State.abort_errcode (s : State) : s.abort.errcode = .aborted := rfl
@[simp] theorem State.abort_cmdLast (s : State) : s.abort.cmdLast = s.cmdLast := rfl
@[simp] theorem State.abort_attempts (s : State) : s.abort.attempts = s.attempts := rfl
@[simp] theorem State.abort_stage (s : State) : s.abort.stage = .start := rfl
@[simp] theorem State.abort_drbgK (s : State) : s.abort.drbgK = s.drbgK := rfl
@[simp] theorem State.abort_drbgV (s : State) : s.abort.drbgV = s.drbgV := rfl
@[simp] theorem State.abort_attempt (s : State) : s.abort.attempt = s.attempt := rfl
@[simp] theorem State.abort_hmacPort (s : State) : s.abort.hmacPort = s.hmacPort.orphan := rfl
@[simp] theorem State.abort_rngPort (s : State) : s.abort.rngPort = s.rngPort.orphan := rfl
@[simp] theorem State.abort_presetn (s : State) : s.abort.presetn = s.presetn := rfl
@[simp] theorem State.abort_response (s : State) : s.abort.response = s.response := rfl
@[simp] theorem State.abort_inputs (s : State) : s.abort.inputs = s.inputs := rfl

/-! `State.accessViolation`. -/

@[simp] theorem State.accessViolation_regs (s : State) : s.accessViolation.regs = s.regs := rfl
@[simp] theorem State.accessViolation_points (s : State) : s.accessViolation.points = s.points := rfl
@[simp] theorem State.accessViolation_curve (s : State) : s.accessViolation.curve = s.curve := rfl
@[simp] theorem State.accessViolation_buf (s : State) : s.accessViolation.buf = s.buf := rfl
@[simp] theorem State.accessViolation_bufLen (s : State) : s.accessViolation.bufLen = s.bufLen := rfl
@[simp] theorem State.accessViolation_ie (s : State) : s.accessViolation.ie = s.ie := rfl
@[simp] theorem State.accessViolation_status (s : State) : s.accessViolation.status = { s.status with accViol := true } := rfl
@[simp] theorem State.accessViolation_errcode (s : State) : s.accessViolation.errcode = s.errcode := rfl
@[simp] theorem State.accessViolation_cmdLast (s : State) : s.accessViolation.cmdLast = s.cmdLast := rfl
@[simp] theorem State.accessViolation_attempts (s : State) : s.accessViolation.attempts = s.attempts := rfl
@[simp] theorem State.accessViolation_stage (s : State) : s.accessViolation.stage = s.stage := rfl
@[simp] theorem State.accessViolation_drbgK (s : State) : s.accessViolation.drbgK = s.drbgK := rfl
@[simp] theorem State.accessViolation_drbgV (s : State) : s.accessViolation.drbgV = s.drbgV := rfl
@[simp] theorem State.accessViolation_attempt (s : State) : s.accessViolation.attempt = s.attempt := rfl
@[simp] theorem State.accessViolation_hmacPort (s : State) : s.accessViolation.hmacPort = s.hmacPort := rfl
@[simp] theorem State.accessViolation_rngPort (s : State) : s.accessViolation.rngPort = s.rngPort := rfl
@[simp] theorem State.accessViolation_presetn (s : State) : s.accessViolation.presetn = s.presetn := rfl
@[simp] theorem State.accessViolation_response (s : State) : s.accessViolation.response = some refusal := rfl
@[simp] theorem State.accessViolation_inputs (s : State) : s.accessViolation.inputs = s.inputs := rfl

/-! `State.dropCommand`. -/

@[simp] theorem State.dropCommand_regs (s : State) : s.dropCommand.regs = s.regs := rfl
@[simp] theorem State.dropCommand_points (s : State) : s.dropCommand.points = s.points := rfl
@[simp] theorem State.dropCommand_curve (s : State) : s.dropCommand.curve = s.curve := rfl
@[simp] theorem State.dropCommand_buf (s : State) : s.dropCommand.buf = s.buf := rfl
@[simp] theorem State.dropCommand_bufLen (s : State) : s.dropCommand.bufLen = s.bufLen := rfl
@[simp] theorem State.dropCommand_ie (s : State) : s.dropCommand.ie = s.ie := rfl
@[simp] theorem State.dropCommand_status (s : State) : s.dropCommand.status = { s.status with cmdDropped := true } := rfl
@[simp] theorem State.dropCommand_errcode (s : State) : s.dropCommand.errcode = s.errcode := rfl
@[simp] theorem State.dropCommand_cmdLast (s : State) : s.dropCommand.cmdLast = s.cmdLast := rfl
@[simp] theorem State.dropCommand_attempts (s : State) : s.dropCommand.attempts = s.attempts := rfl
@[simp] theorem State.dropCommand_stage (s : State) : s.dropCommand.stage = s.stage := rfl
@[simp] theorem State.dropCommand_drbgK (s : State) : s.dropCommand.drbgK = s.drbgK := rfl
@[simp] theorem State.dropCommand_drbgV (s : State) : s.dropCommand.drbgV = s.drbgV := rfl
@[simp] theorem State.dropCommand_attempt (s : State) : s.dropCommand.attempt = s.attempt := rfl
@[simp] theorem State.dropCommand_hmacPort (s : State) : s.dropCommand.hmacPort = s.hmacPort := rfl
@[simp] theorem State.dropCommand_rngPort (s : State) : s.dropCommand.rngPort = s.rngPort := rfl
@[simp] theorem State.dropCommand_presetn (s : State) : s.dropCommand.presetn = s.presetn := rfl
@[simp] theorem State.dropCommand_response (s : State) : s.dropCommand.response = some refusal := rfl
@[simp] theorem State.dropCommand_inputs (s : State) : s.dropCommand.inputs = s.inputs := rfl

/-! `State.beginDrbg`. -/

@[simp] theorem State.beginDrbg_regs (s : State) : s.beginDrbg.regs = s.regs := rfl
@[simp] theorem State.beginDrbg_points (s : State) : s.beginDrbg.points = s.points := rfl
@[simp] theorem State.beginDrbg_curve (s : State) : s.beginDrbg.curve = s.curve := rfl
@[simp] theorem State.beginDrbg_buf (s : State) : s.beginDrbg.buf = s.buf := rfl
@[simp] theorem State.beginDrbg_bufLen (s : State) : s.beginDrbg.bufLen = s.bufLen := rfl
@[simp] theorem State.beginDrbg_ie (s : State) : s.beginDrbg.ie = s.ie := rfl
@[simp] theorem State.beginDrbg_status (s : State) : s.beginDrbg.status = s.status := rfl
@[simp] theorem State.beginDrbg_errcode (s : State) : s.beginDrbg.errcode = s.errcode := rfl
@[simp] theorem State.beginDrbg_cmdLast (s : State) : s.beginDrbg.cmdLast = s.cmdLast := rfl
@[simp] theorem State.beginDrbg_attempts (s : State) : s.beginDrbg.attempts = s.attempts := rfl
@[simp] theorem State.beginDrbg_stage (s : State) : s.beginDrbg.stage = .drbg .initK0 := rfl
@[simp] theorem State.beginDrbg_drbgK (s : State) : s.beginDrbg.drbgK = 0#256 := rfl
@[simp] theorem State.beginDrbg_drbgV (s : State) : s.beginDrbg.drbgV = drbgV0 := rfl
@[simp] theorem State.beginDrbg_attempt (s : State) : s.beginDrbg.attempt = 0 := rfl
@[simp] theorem State.beginDrbg_hmacPort (s : State) : s.beginDrbg.hmacPort = s.hmacPort := rfl
@[simp] theorem State.beginDrbg_rngPort (s : State) : s.beginDrbg.rngPort = s.rngPort := rfl
@[simp] theorem State.beginDrbg_presetn (s : State) : s.beginDrbg.presetn = s.presetn := rfl
@[simp] theorem State.beginDrbg_response (s : State) : s.beginDrbg.response = s.response := rfl
@[simp] theorem State.beginDrbg_inputs (s : State) : s.beginDrbg.inputs = s.inputs := rfl

/-! `State.restart`: the reset state with the events to come. -/

@[simp] theorem State.restart_regs (s : State) : s.restart.regs = State.reset.regs := rfl
@[simp] theorem State.restart_points (s : State) : s.restart.points = State.reset.points := rfl
@[simp] theorem State.restart_curve (s : State) : s.restart.curve = State.reset.curve := rfl
@[simp] theorem State.restart_buf (s : State) : s.restart.buf = State.reset.buf := rfl
@[simp] theorem State.restart_bufLen (s : State) : s.restart.bufLen = State.reset.bufLen := rfl
@[simp] theorem State.restart_ie (s : State) : s.restart.ie = State.reset.ie := rfl
@[simp] theorem State.restart_status (s : State) : s.restart.status = State.reset.status := rfl
@[simp] theorem State.restart_errcode (s : State) : s.restart.errcode = State.reset.errcode := rfl
@[simp] theorem State.restart_cmdLast (s : State) : s.restart.cmdLast = State.reset.cmdLast := rfl
@[simp] theorem State.restart_attempts (s : State) : s.restart.attempts = State.reset.attempts := rfl
@[simp] theorem State.restart_stage (s : State) : s.restart.stage = State.reset.stage := rfl
@[simp] theorem State.restart_drbgK (s : State) : s.restart.drbgK = State.reset.drbgK := rfl
@[simp] theorem State.restart_drbgV (s : State) : s.restart.drbgV = State.reset.drbgV := rfl
@[simp] theorem State.restart_attempt (s : State) : s.restart.attempt = State.reset.attempt := rfl
@[simp] theorem State.restart_hmacPort (s : State) : s.restart.hmacPort = State.reset.hmacPort := rfl
@[simp] theorem State.restart_rngPort (s : State) : s.restart.rngPort = State.reset.rngPort := rfl
@[simp] theorem State.restart_presetn (s : State) : s.restart.presetn = State.reset.presetn := rfl
@[simp] theorem State.restart_response (s : State) : s.restart.response = State.reset.response := rfl
@[simp] theorem State.restart_inputs (s : State) : s.restart.inputs = s.inputs := rfl

/-! `Status`. -/

@[simp] theorem Status.issued_busy (f : Status) : f.issued.busy = true := rfl
@[simp] theorem Status.issued_done (f : Status) : f.issued.done = false := rfl
@[simp] theorem Status.issued_err (f : Status) : f.issued.err = false := rfl
@[simp] theorem Status.issued_cmdDropped (f : Status) : f.issued.cmdDropped = f.cmdDropped := rfl
@[simp] theorem Status.issued_accViol (f : Status) : f.issued.accViol = f.accViol := rfl
@[simp] theorem Status.completed_busy (f : Status) (code : ResultCode) : (f.completed code).busy = false := rfl
@[simp] theorem Status.completed_done (f : Status) (code : ResultCode) : (f.completed code).done = true := rfl
@[simp] theorem Status.completed_err (f : Status) (code : ResultCode) :
    (f.completed code).err = decide (code ≠ .ok) := rfl
@[simp] theorem Status.completed_cmdDropped (f : Status) (code : ResultCode) :
    (f.completed code).cmdDropped = f.cmdDropped := rfl
@[simp] theorem Status.completed_accViol (f : Status) (code : ResultCode) :
    (f.completed code).accViol = f.accViol := rfl
@[simp] theorem Status.cleared_busy (f : Status) (v : BusWord) : (f.cleared v).busy = f.busy := rfl

end Sys2Proof.Machine
end

