-- ==== Sys2Proof/Laws/Arith.lean ====
section
/-! SUPPORT. What the arithmetic units compute: reduction, repeated squaring, the Euclid loop (spec/41_modular.md). -/

namespace Sys2Proof.Machine

theorem reduce_lt {m : Nat} (hm : 0 < m) (x : Int) : reduce m x < m := by
  have h1 := Int.emod_nonneg x (by omega : (m : Int) ≠ 0)
  have h2 := Int.emod_lt_of_pos x (by omega : (0 : Int) < m)
  unfold reduce; omega

/-- `reduce` is the non-negative representative (R10). -/
theorem reduce_cast {m : Nat} (hm : 0 < m) (x : Int) : (reduce m x : Int) = x % m := by
  unfold reduce
  exact Int.toNat_of_nonneg (Int.emod_nonneg x (by omega))

@[simp] theorem reduce_natCast (m n : Nat) : reduce m (n : Int) = n % m := by
  unfold reduce; omega

/-- The loop squares the accumulator once per bit and multiplies in the base at the bits that are set. -/
theorem powLoop_modEq (m b e k acc : Nat) : powLoop m b e k acc ≡ acc ^ 2 ^ k * b ^ (e % 2 ^ k) [MOD m] := by
  induction k generalizing acc with
  | zero => simp [powLoop, Nat.mod_one, Nat.ModEq.refl]
  | succ k ih =>
    have hsplit : e % 2 ^ (k + 1) = e % 2 ^ k + 2 ^ k * (e / 2 ^ k % 2) := Nat.mod_pow_succ
    have hsq : (acc * acc) ^ 2 ^ k = acc ^ 2 ^ (k + 1) := by rw [← pow_two, ← pow_mul, pow_succ' 2 k]
    rw [powLoop]
    refine (ih _).trans ?_
    rw [hsplit, Nat.testBit_eq_decide_div_mod_eq]
    rcases Nat.mod_two_eq_zero_or_one (e / 2 ^ k) with h | h
    · simp only [h, mul_zero, add_zero, zero_ne_one, decide_false, Bool.false_eq_true, if_false]
      exact ((Nat.mod_modEq _ m).pow _).mul_right _ |>.trans (by rw [hsq])
    · simp only [h, mul_one, decide_true, if_true]
      have h1 : acc * acc % m * b % m ≡ acc * acc * b [MOD m] :=
        (Nat.mod_modEq _ m).trans ((Nat.mod_modEq _ m).mul_right b)
      exact (h1.pow _).mul_right _ |>.trans (by rw [mul_pow, hsq, mul_assoc, ← pow_add, add_comm (2 ^ k)])

theorem powLoop_lt {m : Nat} (hm : 0 < m) (b e : Nat) {k acc : Nat} (h : acc < m ∨ 0 < k) : powLoop m b e k acc < m := by
  induction k generalizing acc with
  | zero => simpa [powLoop] using h
  | succ k ih =>
    rw [powLoop]
    refine ih (.inl ?_)
    split <;> exact Nat.mod_lt _ hm

theorem powLoop_one {m k : Nat} (hm : 0 < m) (hk : 0 < k) (b : Nat) {e : Nat} (he : e < 2 ^ k) :
    powLoop m b e k 1 = b ^ e % m := by
  have h : powLoop m b e k 1 % m = 1 ^ 2 ^ k * b ^ (e % 2 ^ k) % m := powLoop_modEq m b e k 1
  rwa [Nat.mod_eq_of_lt (powLoop_lt hm b e (.inr hk)), one_pow, one_mul, Nat.mod_eq_of_lt he] at h

/-- Repeated squaring computes the power (R77). -/
theorem powMod_eq {m : Nat} (hm : 0 < m) (b : Nat) {e : Nat} (he : e < 2 ^ 256) : powMod m b e = b ^ e % m :=
  powLoop_one hm (by omega) b he

theorem powMod_lt {m : Nat} (hm : 0 < m) (b e : Nat) : powMod m b e < m := powLoop_lt hm b e (.inr (by omega))

/-- The loop of R78 keeps the Bézout relation and ends at the greatest common divisor, once the second remainder is the
smaller one: the product of the remainders at least halves at each iteration. -/
theorem euclidLoop_spec (a m : Int) {fuel r0 r1 k : Nat} {s0 s1 : Int} (hlt : r1 < r0) (hk : r0 * r1 < 2 ^ k)
    (hfuel : k < fuel) (h0 : m ∣ (r0 : Int) - s0 * a) (h1 : m ∣ (r1 : Int) - s1 * a) :
    (euclidLoop fuel r0 r1 s0 s1).1 = Nat.gcd r0 r1 ∧
      m ∣ ((euclidLoop fuel r0 r1 s0 s1).1 : Int) - (euclidLoop fuel r0 r1 s0 s1).2 * a := by
  induction fuel generalizing r0 r1 s0 s1 k with
  | zero => omega
  | succ fuel ih =>
    rw [euclidLoop]
    by_cases hr : r1 = 0
    · subst hr; simp [h0]
    · rw [if_neg hr]
      have hdiv := Nat.div_add_mod r0 r1
      have hmod : r0 - r0 / r1 * r1 = r0 % r1 := by rw [mul_comm] at hdiv; omega
      have hrem : r0 % r1 < r1 := Nat.mod_lt _ (by omega)
      have hq : 0 < r0 / r1 := Nat.div_pos hlt.le (by omega)
      have hhalf : 2 * (r0 % r1) ≤ r0 := by nlinarith
      obtain ⟨k, rfl⟩ : ∃ j, k = j + 1 := by
        cases k with
        | zero => exact absurd hk (by simp; omega)
        | succ j => exact ⟨j, rfl⟩
      have hprod : r1 * (r0 % r1) < 2 ^ k := by
        rw [pow_succ] at hk
        nlinarith
      have hz : ((r0 % r1 : Nat) : Int) = (r0 : Int) - ((r0 / r1 : Nat) : Int) * r1 := by
        have : (r1 : Int) * ((r0 / r1 : Nat) : Int) + ((r0 % r1 : Nat) : Int) = r0 := by exact_mod_cast hdiv
        linarith
      have hrec : m ∣ ((r0 % r1 : Nat) : Int) - (s0 - ((r0 / r1 : Nat) : Int) * s1) * a := by
        have : ((r0 % r1 : Nat) : Int) - (s0 - ((r0 / r1 : Nat) : Int) * s1) * a
            = ((r0 : Int) - s0 * a) - ((r0 / r1 : Nat) : Int) * ((r1 : Int) - s1 * a) := by rw [hz]; ring
        rw [this]
        exact dvd_sub h0 (Dvd.dvd.mul_left h1 _)
      have hgcd : Nat.gcd r0 r1 = Nat.gcd r1 (r0 % r1) := by
        rw [Nat.gcd_comm r0 r1, Nat.gcd_rec r1 r0, Nat.gcd_comm]
      rw [hmod, hgcd]
      exact ih hrem hprod (by omega) h1 hrec

/-- The whole Euclid computation on operands of 256 bits: the greatest common divisor with its Bézout coefficient. -/
theorem euclidLoop_start {m a : Nat} (hm : 0 < m) (hlt : m ≤ 2 ^ 256) :
    (euclidLoop euclidBound (a % m) m 1 0).1 = Nat.gcd (a % m) m ∧
      (m : Int) ∣ ((euclidLoop euclidBound (a % m) m 1 0).1 : Int) - (euclidLoop euclidBound (a % m) m 1 0).2 * a := by
  have ha : a % m < m := Nat.mod_lt _ hm
  have hprod : m * (a % m) < 2 ^ 512 := by
    calc m * (a % m) < 2 ^ 256 * 2 ^ 256 := by nlinarith
      _ = 2 ^ 512 := (pow_add 2 256 256).symm
  have hstep : euclidLoop euclidBound (a % m) m 1 0 = euclidLoop 519 m (a % m) 0 1 := by
    rw [show euclidBound = 519 + 1 from rfl, euclidLoop, if_neg (by omega : m ≠ 0)]
    have : a % m / m = 0 := Nat.div_eq_of_lt ha
    simp [this]
  have h1 : (m : Int) ∣ ((a % m : Nat) : Int) - 1 * a := by
    refine ⟨-((a / m : Nat) : Int), ?_⟩
    have : (m : Int) * ((a / m : Nat) : Int) + ((a % m : Nat) : Int) = a := by exact_mod_cast Nat.div_add_mod a m
    linarith
  have := euclidLoop_spec a m (fuel := 519) (k := 512) ha hprod (by omega) (s0 := 0) (by simp) h1
  rw [hstep, Nat.gcd_comm]
  exact this

/-- `inverse` finds the inverse when there is one (R78). -/
theorem inverse_of_coprime {m a : Nat} (hm : 1 < m) (hlt : m ≤ 2 ^ 256) (h : Nat.gcd (a % m) m = 1) :
    ∃ x, inverse m a = .ok x ∧ x < m ∧ a * x % m = 1 := by
  obtain ⟨hg, hd⟩ := euclidLoop_start (m := m) (a := a) (by omega) hlt
  refine ⟨_, by rw [inverse, if_pos (hg.trans h)], reduce_lt (by omega) _, ?_⟩
  rw [hg, h] at hd
  generalize (euclidLoop euclidBound (a % m) m 1 0).2 = s at hd ⊢
  have : ((a * reduce m s % m : Nat) : Int) = 1 := by
    have h1 : (s * a) % (m : Int) = 1 % m :=
      (Int.emod_eq_emod_iff_emod_sub_eq_zero.2 (Int.emod_eq_zero_of_dvd (by simpa using hd))).symm
    push_cast
    rw [reduce_cast (by omega), Int.mul_emod, Int.emod_emod_of_dvd _ dvd_rfl, ← Int.mul_emod, mul_comm, h1]
    exact Int.emod_eq_of_lt (by omega) (by omega)
  exact_mod_cast this

/-- `inverse` ends with `NoInverse` when there is none (R78). -/
theorem inverse_of_not_coprime {m a : Nat} (hm : 0 < m) (hlt : m ≤ 2 ^ 256) (h : Nat.gcd (a % m) m ≠ 1) :
    inverse m a = .error .noInverse := by
  obtain ⟨hg, -⟩ := euclidLoop_start (m := m) (a := a) hm hlt
  rw [inverse, if_neg (by rwa [hg])]

end Sys2Proof.Machine
end

