-- ==== Sys2Proof/Laws/Bytes.lean ====
section
/-! SUPPORT. Byte strings: what lies on the lanes of the ports and what big-endian integers they are (spec/00_scope.md R12,
spec/60_exceptions.md R121, R122). -/

namespace Sys2Proof.Machine

/-! Lanes. -/

/-- Byte `j` of a string lies on lane `j` (R121). -/
theorem lanes_get (l : List Byte) (j : Nat) (h : j < l.length) : BitVec.ofNat 8 (lanes l / 2 ^ (8 * j)) = l[j] := by
  induction l generalizing j with
  | nil => simp at h
  | cons b l ih =>
    cases j with
    | zero => apply BitVec.eq_of_toNat_eq; simp [lanes]; omega
    | succ j =>
      have : lanes (b :: l) / 2 ^ (8 * (j + 1)) = lanes l / 2 ^ (8 * j) := by
        rw [lanes, show 8 * (j + 1) = 8 + 8 * j by ring, pow_add, ← Nat.div_div_eq_div_mul]
        congr 1; omega
      rw [this]; exact ih j (by simpa using h)

theorem lanes_lt (l : List Byte) : lanes l < 256 ^ l.length := by
  induction l with
  | nil => simp [lanes]
  | cons b l ih => rw [lanes, List.length_cons, pow_succ]; omega

/-- The bytes read back from the lanes are the string. -/
theorem laneBytes_lanes (l : List Byte) : laneBytes l.length (lanes l) = l := by
  apply List.ext_getElem
  · simp [laneBytes]
  · intro i h1 h2
    simp [laneBytes]
    exact lanes_get l i h2

/-! Big-endian integers. -/

/-- The fold from any start: the start is the more significant part. -/
theorem intOf_foldl (l : List Byte) (acc : Nat) :
    l.foldl (fun acc b => acc * 256 + b.toNat) acc = acc * 256 ^ l.length + intOf l := by
  induction l generalizing acc with
  | nil => simp [intOf]
  | cons b rest ih => simp only [List.foldl_cons, intOf, List.length_cons]; rw [ih, ih]; ring

theorem intOf_cons (b : Byte) (l : List Byte) : intOf (b :: l) = b.toNat * 256 ^ l.length + intOf l := by
  rw [intOf, List.foldl_cons, intOf_foldl]; simp

theorem bigEndian_succ (n : Nat) (f : Nat → Byte) :
    bigEndian (n + 1) f = (f 0).toNat * 256 ^ n + bigEndian n (fun i => f (i + 1)) := by
  unfold bigEndian
  rw [Finset.sum_range_succ']
  simp only [Nat.sub_zero, Nat.add_sub_cancel]
  rw [add_comm]
  congr 1
  refine Finset.sum_congr rfl fun i hi => ?_
  congr 2; omega

/-- The big-endian value of the bytes `f 0 .. f (n-1)` (R12). -/
theorem intOf_map (n : Nat) (f : Nat → Byte) : intOf ((List.range n).map f) = bigEndian n f := by
  induction n generalizing f with
  | zero => rfl
  | succ n ih =>
    rw [List.range_succ_eq_map, List.map_cons, intOf_cons, bigEndian_succ, List.map_map, List.length_map, List.length_range]
    congr 1
    exact ih _

@[simp] theorem bytes32_length (x : Word) : (bytes32 x).length = 32 := by simp [bytes32]

/-- The first `n` bytes of the encoding are the value without its lower bytes. -/
theorem intOf_bytes32_take (x : Word) {n : Nat} (hn : n ≤ 32) :
    intOf ((List.range n).map fun i => x.extractLsb' (248 - 8 * i) 8) = x.toNat / 2 ^ (256 - 8 * n) := by
  induction n with
  | zero => simp [intOf]; omega
  | succ n ih =>
    rw [List.range_succ, List.map_append, intOf, List.foldl_append, ← intOf, ih (by omega)]
    simp only [List.map_cons, List.map_nil, List.foldl_cons, List.foldl_nil, BitVec.extractLsb'_toNat,
      Nat.shiftRight_eq_div_pow]
    rw [show 256 - 8 * n = 248 - 8 * n + 8 by omega, show 256 - 8 * (n + 1) = 248 - 8 * n by omega, pow_add,
      ← Nat.div_div_eq_div_mul]
    omega

/-- `int(bytes32(x)) = x` (R12). -/
theorem intOf_bytes32 (x : Word) : intOf (bytes32 x) = x.toNat := by
  simpa [bytes32] using intOf_bytes32_take x (le_refl 32)

/-! The HMAC response. -/

/-- The response of a unit that computes `f` is the value of `f` on the request (R121). -/
theorem hmacWord_answer (r : HmacRequest) (f : Word → List Byte → Word) : hmacWord (r.answer f) = f r.key r.msg := by
  have hl : lanes (bytes32 (f r.key r.msg)) < 2 ^ 256 := by
    simpa using lanes_lt (bytes32 (f r.key r.msg))
  have hb := laneBytes_lanes (bytes32 (f r.key r.msg))
  rw [bytes32_length] at hb
  rw [hmacWord, HmacRequest.answer, BitVec.toNat_ofNat, Nat.mod_eq_of_lt hl, hb, intOf_bytes32]
  simp [word]

end Sys2Proof.Machine
end

