-- ==== Sys2Proof/Laws/Encoding.lean ====
section
/-! SUPPORT. The fields of the command word: each field read back from a word built of fields, and a word built back
from its fields (spec/30_encoding.md R53). -/

namespace Sys2Proof

/-- Fields of the widths R53 gives them. -/
structure Fields.InRange (x : Fields) : Prop where
  op : x.op < 2 ^ 8
  d : x.d < 2 ^ 4
  a : x.a < 2 ^ 4
  b : x.b < 2 ^ 4
  c : x.c < 2 ^ 4
  m : x.m < 2 ^ 1
  f : x.f < 2 ^ 1
  g : x.g < 2 ^ 1
  rsv : x.rsv < 2 ^ 5

theorem Fields.ofWord_inRange (w : CmdWord) : (Fields.ofWord w).InRange := by
  constructor <;> exact Nat.mod_lt _ (by decide)

/-- A word built of fields in range has these fields. -/
theorem Fields.ofWord_toWord {x : Fields} (h : x.InRange) : Fields.ofWord x.toWord = x := by
  obtain ⟨op, d, a, b, c, m, f, g, rsv⟩ := x
  obtain ⟨h1, h2, h3, h4, h5, h6, h7, h8, h9⟩ := h
  simp only at h1 h2 h3 h4 h5 h6 h7 h8 h9
  simp only [Fields.ofWord, Fields.toWord, bitsOf, BitVec.toNat_ofNat, Fields.mk.injEq]
  refine ⟨?_, ?_, ?_, ?_, ?_, ?_, ?_, ?_, ?_⟩ <;> omega

/-- A word is the one built of its fields. -/
theorem Fields.toWord_ofWord (w : CmdWord) : (Fields.ofWord w).toWord = w := by
  apply BitVec.eq_of_toNat_eq
  have h := w.isLt
  simp only [Fields.ofWord, Fields.toWord, bitsOf, BitVec.toNat_ofNat]
  omega

/-- A field as the bits of the word R53 names. -/
theorem bitsOf_eq_extract (w : CmdWord) (lo width : Nat) : bitsOf w.toNat lo width = (w.extractLsb' lo width).toNat := by
  simp only [bitsOf, BitVec.extractLsb'_toNat, Nat.shiftRight_eq_div_pow]

namespace Machine

theorem or_shift_eq_add (x y : CmdWord) (k : Nat) (hx : x.toNat < 2 ^ k) (hy : y.toNat * 2 ^ k < 2 ^ 32) :
    (x ||| y <<< k).toNat = x.toNat + y.toNat * 2 ^ k := by
  rw [BitVec.toNat_or, BitVec.toNat_shiftLeft, Nat.shiftLeft_eq, Nat.mod_eq_of_lt hy, Nat.or_comm, Nat.mul_comm,
    ← Nat.two_pow_add_eq_or_of_lt hx, Nat.add_comm]

/-- The word of R65 is the word built of the same fields. -/
theorem commandWord_eq_toWord {op d a b c m f g : Nat} (h : Fields.InRange ⟨op, d, a, b, c, m, f, g, 0⟩) :
    commandWord op d a b c m f g = Fields.toWord ⟨op, d, a, b, c, m, f, g, 0⟩ := by
  obtain ⟨h1, h2, h3, h4, h5, h6, h7, h8, -⟩ := h
  simp only at h1 h2 h3 h4 h5 h6 h7 h8
  apply BitVec.eq_of_toNat_eq
  have e (n : Nat) (hn : n < 2 ^ 32) : (BitVec.ofNat 32 n).toNat = n := by
    rw [BitVec.toNat_ofNat, Nat.mod_eq_of_lt hn]
  have eo := e op (by omega)
  have ed := e d (by omega)
  have ea := e a (by omega)
  have eb := e b (by omega)
  have ec := e c (by omega)
  have em := e m (by omega)
  have ef := e f (by omega)
  have eg := e g (by omega)
  have s1 := or_shift_eq_add (BitVec.ofNat 32 op) (BitVec.ofNat 32 d) 8 (by omega) (by omega)
  have s2 := or_shift_eq_add _ (BitVec.ofNat 32 a) 12 (by rw [s1]; omega) (by omega)
  have s3 := or_shift_eq_add _ (BitVec.ofNat 32 b) 16 (by rw [s2, s1]; omega) (by omega)
  have s4 := or_shift_eq_add _ (BitVec.ofNat 32 c) 20 (by rw [s3, s2, s1]; omega) (by omega)
  have s5 := or_shift_eq_add _ (BitVec.ofNat 32 m) 24 (by rw [s4, s3, s2, s1]; omega) (by omega)
  have s6 := or_shift_eq_add _ (BitVec.ofNat 32 f) 25 (by rw [s5, s4, s3, s2, s1]; omega) (by omega)
  have s7 := or_shift_eq_add _ (BitVec.ofNat 32 g) 26 (by rw [s6, s5, s4, s3, s2, s1]; omega) (by omega)
  have right : (Fields.toWord ⟨op, d, a, b, c, m, f, g, 0⟩).toNat =
      op + d * 2 ^ 8 + a * 2 ^ 12 + b * 2 ^ 16 + c * 2 ^ 20 + m * 2 ^ 24 + f * 2 ^ 25 + g * 2 ^ 26 := by
    simp only [Fields.toWord, BitVec.toNat_ofNat]
    omega
  rw [right]
  unfold commandWord
  rw [s7, s6, s5, s4, s3, s2, s1, eo, ed, ea, eb, ec, em, ef, eg]

end Machine

end Sys2Proof
end

