-- ==== Sys2Proof/Laws/Operands.lean ====
section
/-! SUPPORT. Reads of operand and point registers after writes (spec/10_state.md R16-R18), and the checks on operands. -/

namespace Sys2Proof.Machine

theorem State.reg_setReg (s : State) (r q : Reg) (v : Word) : (s.setReg r v).reg q = if r = q then v else s.reg q := by
  simp only [State.reg, State.setReg, Vector.get_eq_getElem, Vector.getElem_set, Fin.ext_iff]

@[simp] theorem State.reg_setReg_same (s : State) (r : Reg) (v : Word) : (s.setReg r v).reg r = v := by
  rw [State.reg_setReg, if_pos rfl]

theorem State.reg_setReg_other (s : State) {r q : Reg} (v : Word) (h : r ≠ q) : (s.setReg r v).reg q = s.reg q := by
  rw [State.reg_setReg, if_neg h]

theorem State.point_setPoint (s : State) (r q : PtReg) (P : Point) :
    (s.setPoint r P).point q = if r = q then P else s.point q := by
  simp only [State.point, State.setPoint, Vector.get_eq_getElem, Vector.getElem_set, Fin.ext_iff]

@[simp] theorem State.point_setPoint_same (s : State) (q : PtReg) (P : Point) : (s.setPoint q P).point q = P := by
  rw [State.point_setPoint, if_pos rfl]

theorem State.point_setPoint_other (s : State) {r q : PtReg} (P : Point) (h : r ≠ q) :
    (s.setPoint r P).point q = s.point q := by
  rw [State.point_setPoint, if_neg h]

@[simp] theorem State.point_setReg (s : State) (r : Reg) (v : Word) (q : PtReg) :
    (s.setReg r v).point q = s.point q := rfl

@[simp] theorem State.reg_setPoint (s : State) (q : PtReg) (P : Point) (r : Reg) :
    (s.setPoint q P).reg r = s.reg r := rfl

@[simp] theorem State.reg_complete (s : State) (code : ResultCode) (n : Option Nat) (r : Reg) :
    (s.complete code n).reg r = s.reg r := rfl

@[simp] theorem State.point_complete (s : State) (code : ResultCode) (n : Option Nat) (q : PtReg) :
    (s.complete code n).point q = s.point q := rfl

/-- A register group's writes change only operand registers. -/
theorem State.setRegs_eq (ws : List (Reg × Word)) (s : State) : ∃ regs, s.setRegs ws = { s with regs := regs } := by
  induction ws generalizing s with
  | nil => exact ⟨s.regs, rfl⟩
  | cons w rest ih => obtain ⟨regs, h⟩ := ih (s.setReg w.1 w.2); exact ⟨regs, h⟩

/-- A register that no write of the group names is unchanged. -/
theorem State.reg_setRegs_other {ws : List (Reg × Word)} {q : Reg} (h : ∀ w ∈ ws, w.1 ≠ q) (s : State) :
    (s.setRegs ws).reg q = s.reg q := by
  induction ws generalizing s with
  | nil => rfl
  | cons w rest ih =>
    obtain ⟨r, v⟩ := w
    rw [State.setRegs, ih (fun w hw => h w (by simp [hw])), State.reg_setReg_other _ _ (h (r, v) (by simp))]

@[simp] theorem regUp_val (r : Reg) (k : Nat) : (regUp r k).val = (r.val + k) % 16 := rfl

/-- The registers of a legal group are the next ones up (R17). -/
theorem regUp_val_of_le {r : Reg} {k : Nat} (h : r.val + k ≤ 15) : (regUp r k).val = r.val + k := by
  rw [regUp_val, Nat.mod_eq_of_lt (by omega)]

@[simp] theorem Curve.modulus_p (c : Curve) : c.modulus .p = c.pNat := rfl
@[simp] theorem Curve.modulus_n (c : Curve) : c.modulus .n = c.nNat := rfl

theorem modulusValid_iff (m : Nat) : modulusValid m = true ↔ m % 2 = 1 ∧ 3 ≤ m := by simp [modulusValid]

theorem Curve.modulus_lt (c : Curve) (m : ModSel) : c.modulus m < 2 ^ 256 := by
  cases m
  · exact c.p.isLt
  · exact c.n.isLt

@[simp] theorem require_true (e : ResultCode) : require true e = .ok () := rfl
@[simp] theorem require_false (e : ResultCode) : require false e = .error e := rfl

theorem require_eq_ok {b : Bool} {e : ResultCode} : require b e = .ok () ↔ b = true := by
  cases b <;> simp

@[simp] theorem ok_bind {α β : Type} (a : α) (f : α → Except ResultCode β) : ((Except.ok a : Except ResultCode α) >>= f) = f a := rfl
@[simp] theorem error_bind {α β : Type} (e : ResultCode) (f : α → Except ResultCode β) :
    ((Except.error e : Except ResultCode α) >>= f) = .error e := rfl

/-- A computation in sequence succeeds exactly when both parts do. -/
theorem bind_eq_ok {α β : Type} {x : Except ResultCode α} {f : α → Except ResultCode β} {b : β} :
    (x >>= f) = .ok b ↔ ∃ a, x = .ok a ∧ f a = .ok b := by
  cases x <;> simp

theorem State.finish_ok (s t : State) : s.finish (.ok t) = .next (t.complete .ok none) := rfl
theorem State.finish_error (s : State) (e : ResultCode) : s.finish (.error e) = .next (s.complete e none) := rfl

/-- Everything a command without port traffic can do: complete with its staged state, or end with its error. -/
theorem State.finish_cases (s : State) (x : Except ResultCode State) :
    (∃ t, x = .ok t ∧ s.finish x = .next (t.complete .ok none)) ∨
      ∃ e, x = .error e ∧ s.finish x = .next (s.complete e none) := by
  cases x with
  | ok t => exact .inl ⟨t, rfl, rfl⟩
  | error e => exact .inr ⟨e, rfl, rfl⟩

theorem word_toNat {n : Nat} (h : n < 2 ^ 256) : (word n).toNat = n := by
  rw [word, BitVec.toNat_ofNat, Nat.mod_eq_of_lt h]

end Sys2Proof.Machine
end

