-- ==== Sys2Proof/Laws/Ops.lean ====
section
/-! SUPPORT. What each shared operation can do: the completion step and the error (spec/60_exceptions.md R113, R114), the
modulus check (R108), the shape of the modular commands (spec/41_modular.md), and the turns of the port commands
(spec/43_ecdsa.md, R121, R122). -/

namespace Sys2Proof.Machine

/-! Completion. -/

theorem completed_complete (s : State) (code : ResultCode) (n : Option Nat) : Completed code (s.complete code n) where
  errcode := rfl
  busy := rfl
  done := rfl
  err := by simp [Status.completed]

theorem Frame.refl (ds : List Reg) (ps : List PtReg) (s : State) : Frame ds ps s s where
  regs _ _ := rfl
  points _ _ := rfl
  curve := rfl
  ie := rfl
  cmdLast := rfl
  cmdDropped := rfl
  accViol := rfl
  presetn := rfl
  response := rfl
  inputs := rfl

/-- The completion step keeps a frame. -/
theorem Frame.complete {ds : List Reg} {ps : List PtReg} {s t : State} (h : Frame ds ps s t) (code : ResultCode)
    (n : Option Nat) : Frame ds ps s (t.complete code n) where
  regs := h.regs
  points := h.points
  curve := h.curve
  ie := h.ie
  cmdLast := h.cmdLast
  cmdDropped := h.cmdDropped
  accViol := h.accViol
  presetn := h.presetn
  response := h.response
  inputs := h.inputs

theorem Frame.setReg {ds : List Reg} {ps : List PtReg} {s t : State} (h : Frame ds ps s t) {d : Reg} (hd : d ∈ ds) (v : Word) :
    Frame ds ps s (t.setReg d v) where
  regs r hr := by
    have hne : d ≠ r := fun e => hr (e ▸ hd)
    rw [State.reg_setReg_other t v hne, h.regs r hr]
  points := h.points
  curve := h.curve
  ie := h.ie
  cmdLast := h.cmdLast
  cmdDropped := h.cmdDropped
  accViol := h.accViol
  presetn := h.presetn
  response := h.response
  inputs := h.inputs

theorem Frame.setPoint {ds : List Reg} {ps : List PtReg} {s t : State} (h : Frame ds ps s t) {d : PtReg} (hd : d ∈ ps)
    (Q : Point) : Frame ds ps s (t.setPoint d Q) where
  regs := h.regs
  points q hq := by
    have hne : d ≠ q := fun e => hq (e ▸ hd)
    rw [State.point_setPoint_other t Q hne, h.points q hq]
  curve := h.curve
  ie := h.ie
  cmdLast := h.cmdLast
  cmdDropped := h.cmdDropped
  accViol := h.accViol
  presetn := h.presetn
  response := h.response
  inputs := h.inputs

theorem Frame.setRegs {ds : List Reg} {ps : List PtReg} {s t : State} (h : Frame ds ps s t) {ws : List (Reg × Word)}
    (hw : ∀ w ∈ ws, w.1 ∈ ds) : Frame ds ps s (t.setRegs ws) := by
  induction ws generalizing t with
  | nil => exact h
  | cons w rest ih => exact ih (h.setReg (hw w (by simp)) w.2) (fun x hx => hw x (by simp [hx]))

/-- The state of an error completion. -/
theorem ends_complete (s : State) (code : ResultCode) : Ends code [] [] s (s.complete code none) where
  completed := completed_complete s code none
  frame := (Frame.refl [] [] s).complete code none
  attempts := rfl
  drbg := ⟨rfl, rfl, rfl⟩
  ports := ⟨rfl, rfl⟩

theorem failsWith_of_exec {i : Instr} {s : State} {e : ResultCode} (he : e ≠ .ok) (h : exec i s = .next (s.complete e none)) :
    FailsWith i s e :=
  ⟨he, _, h, ends_complete s e, fun _ => rfl, rfl⟩

theorem failsCounting_of_exec {i : Instr} {s : State} {e : ResultCode} {n : Nat} (he : e ≠ .ok) (hn : n < 2 ^ 16)
    (h : exec i s = .next (s.complete e (some n))) : FailsCounting i s e n :=
  ⟨he, _, h, completed_complete s e _, (Frame.refl [] [] s).complete e _, ⟨fun _ => rfl, rfl⟩, by simp; omega,
    ⟨rfl, rfl⟩⟩

/-- The same from the state `u` in which the response has been used. -/
theorem failsAtCandidate_of_exec {det : Bool} {i : Instr} {s u : State} {e : ResultCode} {n : Nat} (he : e ≠ .ok)
    (hn : n < 2 ^ 16) (hf : Frame [] [] s u) (hb : BufferKept s u) (hp : ResponseUsed det s u)
    (h : exec i s = .next (u.complete e (some n))) : FailsAtCandidate det i s e n :=
  ⟨he, _, h, completed_complete u e _, hf.complete e _, ⟨hb.bytes, hb.len⟩, by simp; omega, ⟨hp.hmacPort, hp.rngPort⟩⟩

/-- A command that completes with one operand register written. -/
theorem completesOk_setReg {i : Instr} {s : State} {d : Reg} {v : Word}
    (h : exec i s = .next ((s.setReg d v).complete .ok none)) {result : State → Prop}
    (hr : ∀ t : State, t.reg d = v → result t) : CompletesOk i s [d] [] result :=
  ⟨_, h, ⟨completed_complete _ _ _, ((Frame.refl _ _ s).setReg (by simp) v).complete _ _, rfl, ⟨rfl, rfl, rfl⟩, ⟨rfl, rfl⟩⟩,
    ⟨fun _ => rfl, rfl⟩, hr _ (by simp)⟩

/-- A command that completes with one point register written. -/
theorem completesOk_setPoint {i : Instr} {s : State} {d : PtReg} {Q : Point}
    (h : exec i s = .next ((s.setPoint d Q).complete .ok none)) {result : State → Prop}
    (hr : ∀ t : State, t.point d = Q → result t) : CompletesOk i s [] [d] result :=
  ⟨_, h, ⟨completed_complete _ _ _, ((Frame.refl _ _ s).setPoint (by simp) Q).complete _ _, rfl, ⟨rfl, rfl, rfl⟩, ⟨rfl, rfl⟩⟩,
    ⟨fun _ => rfl, rfl⟩, hr _ (by simp)⟩

/-! The modulus check. -/

theorem modulusValid_eq_not_bad (m : Nat) : modulusValid m = true ↔ ¬BadModulus m := by
  simp only [modulusValid_iff, BadModulus]; omega

theorem State.requireModulus_ok {s : State} {m : ModSel} (h : ¬BadModulus (s.curve.modulus m)) : s.requireModulus m = .ok () := by
  rw [State.requireModulus, (modulusValid_eq_not_bad _).mpr h, require_true]

theorem State.requireModulus_bad {s : State} {m : ModSel} (h : BadModulus (s.curve.modulus m)) :
    s.requireModulus m = .error .badModulus := by
  rw [State.requireModulus]
  rcases hv : modulusValid (s.curve.modulus m) with _ | _
  · rfl
  · exact absurd h ((modulusValid_eq_not_bad _).mp hv)

theorem State.requireModuli_ok {s : State} (hp : ¬BadModulus s.curve.p.toNat) (hn : ¬BadModulus s.curve.n.toNat) :
    s.requireModuli = .ok () := by
  rw [State.requireModuli, Curve.modulus, Curve.modulus, (modulusValid_eq_not_bad _).mpr hp, (modulusValid_eq_not_bad _).mpr hn]
  rfl

theorem State.requireModuli_bad {s : State} (h : BadModulus s.curve.p.toNat ∨ BadModulus s.curve.n.toNat) :
    s.requireModuli = .error .badModulus := by
  have e : (modulusValid (s.curve.modulus .p) && modulusValid (s.curve.modulus .n)) = false := by
    rw [Bool.and_eq_false_iff]
    refine h.imp ?_ ?_ <;> intro hb <;> rw [← Bool.not_eq_true] <;> exact fun hv => (modulusValid_eq_not_bad _).mp hv hb
  rw [State.requireModuli, e, require_false]

/-- A modulus that passes the check is at least 3. -/
theorem three_le_of_not_bad {m : Nat} (h : ¬BadModulus m) : 3 ≤ m := by
  unfold BadModulus at h; omega

/-! The shape of the modular commands. -/

theorem State.modular_bad {s : State} {d : Reg} {m : ModSel} {f : Nat → Except ResultCode Nat}
    (h : BadModulus (s.curve.modulus m)) : s.modular d m f = .next (s.complete .badModulus none) := by
  rw [State.modular, State.requireModulus_bad h]; rfl

theorem State.modular_ok {s : State} {d : Reg} {m : ModSel} {f : Nat → Except ResultCode Nat} {v : Nat}
    (h : ¬BadModulus (s.curve.modulus m)) (hv : f (s.curve.modulus m) = .ok v) :
    s.modular d m f = .next ((s.setReg d (word v)).complete .ok none) := by
  rw [State.modular, State.requireModulus_ok h, ok_bind, hv]; rfl

theorem State.modular_error {s : State} {d : Reg} {m : ModSel} {f : Nat → Except ResultCode Nat} {e : ResultCode}
    (h : ¬BadModulus (s.curve.modulus m)) (hv : f (s.curve.modulus m) = .error e) :
    s.modular d m f = .next (s.complete e none) := by
  rw [State.modular, State.requireModulus_ok h, ok_bind, hv]; rfl

/-! The turns of the port commands. -/

/-- `s` and `t` differ at most in where the running command stands: its stage, the DRBG, the attempt counter, the two
ports. -/
structure SameButProgress (s t : State) : Prop where
  regs : t.regs = s.regs
  points : t.points = s.points
  curve : t.curve = s.curve
  buf : t.buf = s.buf
  bufLen : t.bufLen = s.bufLen
  ie : t.ie = s.ie
  status : t.status = s.status
  errcode : t.errcode = s.errcode
  cmdLast : t.cmdLast = s.cmdLast
  attempts : t.attempts = s.attempts
  presetn : t.presetn = s.presetn
  response : t.response = s.response
  inputs : t.inputs = s.inputs

/-- Where a command stands may change in every field it is made of. -/
theorem SameButProgress.progress (s : State) (stage : Stage) (k v : Word) (attempt : Nat) (h : HmacPort) (r : RngPort) :
    SameButProgress s
      { s with stage := stage, drbgK := k, drbgV := v, attempt := attempt, hmacPort := h, rngPort := r } := by
  constructor <;> rfl

theorem SameButProgress.refl (s : State) : SameButProgress s s := .progress s _ _ _ _ _ _

theorem SameButProgress.trans {s t u : State} (h : SameButProgress s t) (k : SameButProgress t u) : SameButProgress s u := by
  constructor
  all_goals first
    | exact k.regs.trans h.regs | exact k.points.trans h.points | exact k.curve.trans h.curve | exact k.buf.trans h.buf
    | exact k.bufLen.trans h.bufLen | exact k.ie.trans h.ie | exact k.status.trans h.status
    | exact k.errcode.trans h.errcode | exact k.cmdLast.trans h.cmdLast | exact k.attempts.trans h.attempts
    | exact k.presetn.trans h.presetn | exact k.response.trans h.response | exact k.inputs.trans h.inputs

/-- A code that an error may carry: not `OK`, and none of the reserved names (R107, R109). -/
abbrev ResultCode.Raised (e : ResultCode) : Prop := e ≠ .ok ∧ e.reservedName = false

/-- What one turn of a command that uses a port can do to `s`, when it may write the registers `ds`: go on, fail, or
complete with register writes; `ATTEMPTS` is written only as the attempt counter of NONCE and SIGN. -/
inductive PortTurn (ds : List Reg) (s : State) : State → Prop where
  | goesOn (t : State) (h : SameButProgress s t) : PortTurn ds s t
  | fails (t : State) (h : SameButProgress s t) (e : ResultCode) (he : e.Raised) (n : Option Nat) :
      PortTurn ds s (t.complete e n)
  | completes (t : State) (h : SameButProgress s t) (ws : List (Reg × Word)) (hw : ∀ w ∈ ws, w.1 ∈ ds) (n : Option Nat) :
      PortTurn ds s ((t.setRegs ws).complete .ok n)

/-- A verdict writes only the registers `ds`, and its error is one that may be raised. -/
def Verdict.Within (ds : List Reg) : Verdict → Prop
  | .error e => e.Raised
  | .ok none => True
  | .ok (some ws) => ∀ w ∈ ws, w.1 ∈ ds

theorem PortTurn.of_same {ds : List Reg} {s s' t : State} (h : SameButProgress s s') (k : PortTurn ds s' t) : PortTurn ds s t := by
  cases k with
  | goesOn t h' => exact .goesOn t (h.trans h')
  | fails t h' e he n => exact .fails t (h.trans h') e he n
  | completes t h' ws hw n => exact .completes t (h.trans h') ws hw n

theorem State.nextCandidate_turn (ds : List Reg) (s : State) (det : Bool) : PortTurn ds s (s.nextCandidate det) := by
  unfold State.nextCandidate
  split
  · exact .fails s (.refl s) _ (by decide) _
  · exact .goesOn _ (.progress s _ _ _ _ _ _)

theorem State.judge_turn {ds : List Reg} (s : State) (det : Bool) {v : Verdict} (hv : Verdict.Within ds v) :
    PortTurn ds s (s.judge det v) := by
  match v, hv with
  | .error e, he => exact PortTurn.fails s (.refl s) e he (some s.attempt)
  | .ok none, _ => exact s.nextCandidate_turn ds det
  | .ok (some ws), hw => exact PortTurn.completes s (.refl s) ws hw (some s.attempt)

theorem State.absorb_turn {ds : List Reg} (s : State) (k : DrbgStep) (h : Word) {test : Nat → Verdict}
    (ht : ∀ n, Verdict.Within ds (test n)) : PortTurn ds s (s.absorb k h test) := by
  have same : SameButProgress s { s with drbgV := h } := .progress s _ _ _ _ _ _
  cases k with
  | initV1 => exact .of_same same (State.nextCandidate_turn ds { s with drbgV := h } true)
  | next => exact .of_same same (State.judge_turn { s with drbgV := h } true (ht h.toNat))
  | initK0 => exact .goesOn _ (.progress s _ _ _ _ _ _)
  | initV0 => exact .goesOn _ (.progress s _ _ _ _ _ _)
  | initK1 => exact .goesOn _ (.progress s _ _ _ _ _ _)
  | rejectK => exact .goesOn _ (.progress s _ _ _ _ _ _)
  | rejectV => exact .goesOn _ (.progress s _ _ _ _ _ _)

theorem State.drbgTurn_turn {ds : List Reg} (s : State) (d e : Word) (k : DrbgStep) {test : Nat → Verdict}
    (ht : ∀ n, Verdict.Within ds (test n)) : PortTurn ds s (s.drbgTurn d e k test) := by
  unfold State.drbgTurn
  split
  · exact .goesOn _ (.progress s _ _ _ _ _ _)
  · exact .goesOn _ (.refl s)
  · exact .goesOn _ (.refl s)
  · exact .of_same (s' := { s with hmacPort := .idle }) (.progress s _ _ _ _ _ _) (State.absorb_turn _ k _ ht)

theorem State.randomTurn_turn {ds : List Reg} (s : State) {test : BitVec 512 → Verdict}
    (ht : ∀ x, Verdict.Within ds (test x)) : PortTurn ds s (s.randomTurn test) := by
  unfold State.randomTurn
  split
  · exact .goesOn _ (.progress s _ _ _ _ _ _)
  · exact .goesOn _ (.refl s)
  · exact .of_same (s' := { s with rngPort := .idle }) (.progress s _ _ _ _ _ _) (State.judge_turn _ false (ht _))

end Sys2Proof.Machine
end

