-- ==== Sys2Proof/Laws/Exec.lean ====
section
/-! SUPPORT. What `exec` does with any command: it answers a next state of one of five kinds (spec/60_exceptions.md R112-R114),
and which errors the computations behind the rules raise (R107). -/

namespace Sys2Proof.Machine

/-! Which errors the computations raise. -/

/-- Every error of the computation is one that may be raised. -/
def Clean {α : Type} (x : Except ResultCode α) : Prop := ∀ e, x = .error e → e.Raised

theorem Clean.ok {α : Type} (a : α) : Clean (.ok a) := by simp [Clean]

theorem Clean.error {α : Type} {e : ResultCode} (h : e.Raised) : Clean (.error e : Except ResultCode α) :=
  fun _ k => by cases k; exact h

theorem Clean.bind {α β : Type} {x : Except ResultCode α} {f : α → Except ResultCode β} (h : Clean x)
    (k : ∀ a, x = .ok a → Clean (f a)) : Clean (x >>= f) := by
  cases x with
  | ok a => exact k a rfl
  | error e => exact .error (h e rfl)

theorem Clean.ite {α : Type} {c : Prop} [Decidable c] {x y : Except ResultCode α} (h : Clean x) (k : Clean y) :
    Clean (if c then x else y) := by
  split <;> assumption

theorem require_clean {c : Bool} {e : ResultCode} (h : e.Raised) : Clean (require c e) := .ite (.ok _) (.error h)

theorem requireLegal_clean (i : Instr) : Clean (requireLegal i) := require_clean (by decide)

theorem State.requireModulus_clean (s : State) (m : ModSel) : Clean (s.requireModulus m) := require_clean (by decide)

theorem State.requireModuli_clean (s : State) : Clean s.requireModuli := require_clean (by decide)

theorem divide_clean (m : Nat) (a b : Int) : Clean (divide m a b) := .ite (.error (by decide)) (.ok _)

theorem inverse_clean (m a : Nat) : Clean (inverse m a) := .ite (.ok _) (.error (by decide))

theorem squareRoots_clean (m : Nat) (v : Int) : Clean (squareRoots m v) :=
  .ite (.error (by decide)) (.ite (.error (by decide)) (.ok _))

theorem paddF_clean (c : Curve) (q1 q2 : Point) : Clean (paddF c q1 q2) := by
  match q1, q2 with
  | .inf, _ => exact .ok _
  | .affine _ _, .inf => exact .ok _
  | .affine _ _, .affine _ _ => exact .ite (.ok _) (.ite (.bind (divide_clean _ _ _) fun _ _ => .ok _) (.bind (divide_clean _ _ _) fun _ _ => .ok _))

theorem pmulLoop_clean (c : Curve) (q : Point) (scalar k : Nat) (acc : Point) : Clean (pmulLoop c q scalar k acc) := by
  induction k generalizing acc with
  | zero => exact .ok _
  | succ k ih => exact .bind (paddF_clean _ _ _) fun _ _ => .ite (.bind (paddF_clean _ _ _) fun _ _ => ih _) (ih _)

theorem pmulF_clean (c : Curve) (q : Point) (scalar : Nat) : Clean (pmulF c q scalar) := pmulLoop_clean _ _ _ _ _

theorem fromxF_clean (c : Curve) (x : Nat) (odd : Bool) : Clean (fromxF c x odd) :=
  .bind (require_clean (by decide)) fun _ _ => .bind (squareRoots_clean _ _) fun _ _ => .ok _

theorem decodePoint_clean (c : Curve) (buf : Memory) (len : Nat) : Clean (decodePoint c buf len) :=
  .ite (fromxF_clean _ _ _) (.ite (.bind (require_clean (by decide)) fun _ _ => .ok _) (.error (by decide)))

theorem publicKey_clean (c : Curve) (buf : Memory) (len : Nat) : Clean (publicKey c buf len) := by
  unfold publicKey
  split
  · exact .ok _
  · exact .error (by decide)

theorem signCandidate_clean (c : Curve) (d e k : Nat) (chainId : Option Nat) : Clean (signCandidate c d e k chainId) := by
  refine .bind (pmulF_clean _ _ _) fun q _ => ?_
  cases q with
  | inf => exact .ok _
  | affine x y =>
    exact .ite (.ok _) (.bind (inverse_clean _ _) fun _ _ => .ite (.ok _) (.bind (require_clean (by decide)) fun _ _ => .ok _))

/-! What a turn of a command does. -/

/-- What exec can do to `s` with the command `i`: end with an error and nothing written, complete with writes of its
destination registers or point register, complete with the bytes of ENCODE, or take a turn of a port command. -/
inductive Turned (i : Instr) (s : State) : State → Prop where
  | fails (e : ResultCode) (he : e.Raised) (hp : usesPort i = false) : Turned i s (s.complete e none)
  | regs (ws : List (Reg × Word)) (hw : ∀ w ∈ ws, w.1 ∈ (destinations i).1) (hp : usesPort i = false) :
      Turned i s ((s.setRegs ws).complete .ok none)
  | point (d : PtReg) (Q : Point) (hd : d ∈ (destinations i).2) (hp : usesPort i = false) :
      Turned i s ((s.setPoint d Q).complete .ok none)
  | bytes (a : PtReg) (compressed : Bool) (hi : i = .encode a compressed) (x y : Word) :
      Turned i s (({ s with
        buf := s.buf.writeAll 0 (encodePoint x y compressed)
        bufLen := BitVec.ofNat 8 (encodePoint x y compressed).length }).complete .ok none)
  | port (t : State) (hp : usesPort i = true) (h : PortTurn (destinations i).1 s t) : Turned i s t

/-- The computation ends in one of the states that `P` allows, or with an error that may be raised. -/
def Reaches (P : State → Prop) (x : Except ResultCode State) : Prop := Clean x ∧ ∀ t, x = .ok t → P t

theorem Reaches.ok {P : State → Prop} {t : State} (h : P t) : Reaches P (.ok t) :=
  ⟨.ok t, fun _ he => by cases he; exact h⟩

theorem Reaches.pure {P : State → Prop} {t : State} (h : P t) : Reaches P (pure t) := .ok h

theorem Reaches.error {P : State → Prop} {e : ResultCode} (h : e.Raised) : Reaches P (.error e) :=
  ⟨.error h, fun _ he => by cases he⟩

theorem Reaches.bind {α : Type} {P : State → Prop} {x : Except ResultCode α} {f : α → Except ResultCode State} (h : Clean x)
    (k : ∀ a, x = .ok a → Reaches P (f a)) : Reaches P (x >>= f) := by
  cases x with
  | ok a => exact k a rfl
  | error e => exact .error (h e rfl)

theorem turned_finish {i : Instr} {s : State} {P : State → Prop} {x : Except ResultCode State} (hp : usesPort i = false)
    (h : Reaches P x) (k : ∀ t, P t → Turned i s (t.complete .ok none)) : ∃ t, s.finish x = .next t ∧ Turned i s t := by
  cases x with
  | ok t => exact ⟨_, rfl, k t (h.2 t rfl)⟩
  | error e => exact ⟨_, rfl, .fails e (h.1 e rfl) hp⟩

theorem turned_setReg {i : Instr} {s : State} {d : Reg} {x : Except ResultCode State} (hp : usesPort i = false)
    (hd : d ∈ (destinations i).1) (h : Reaches (fun t => ∃ v, t = s.setReg d v) x) : ∃ t, s.finish x = .next t ∧ Turned i s t :=
  turned_finish hp h fun _ ⟨v, ht⟩ => ht ▸ .regs [(d, v)] (fun w hw => by cases List.mem_singleton.mp hw; exact hd) hp

theorem turned_setPoint {i : Instr} {s : State} {d : PtReg} {x : Except ResultCode State} (hp : usesPort i = false)
    (hd : d ∈ (destinations i).2) (h : Reaches (fun t => ∃ Q, t = s.setPoint d Q) x) : ∃ t, s.finish x = .next t ∧ Turned i s t :=
  turned_finish hp h fun _ ⟨Q, ht⟩ => ht ▸ .point d Q hd hp

theorem turned_modular {i : Instr} {s : State} {d : Reg} {m : ModSel} {f : Nat → Except ResultCode Nat} (hp : usesPort i = false)
    (hd : d ∈ (destinations i).1) (hf : ∀ q, Clean (f q)) : ∃ t, s.modular d m f = .next t ∧ Turned i s t :=
  turned_setReg hp hd (.bind (s.requireModulus_clean m) fun _ _ => .bind (hf _) fun _ _ => .ok ⟨_, rfl⟩)

theorem signWrites_within {d : Reg} {x : Except ResultCode (Option (Nat × Nat × Nat))} (h : Clean x) :
    Verdict.Within [d, regUp d 1, regUp d 2] (signWrites d x) := by
  match x, h with
  | .error e, h => exact h e rfl
  | .ok none, _ => trivial
  | .ok (some (_, _, _)), _ =>
    intro w hw
    simp only [List.mem_cons, List.not_mem_nil, or_false] at hw
    rcases hw with rfl | rfl | rfl <;> simp

theorem State.signTurn_turn (s : State) (rd : Reg) (d e : Word) (chainId : Option Nat) (det : Bool) :
    PortTurn [rd, regUp rd 1, regUp rd 2] s (s.signTurn rd d e chainId det) := by
  unfold State.signTurn
  split
  · split
    · split
      · exact .goesOn _ (.progress s _ _ _ _ _ _)
      · exact .of_same (s' := { s with attempt := 0 }) (.progress s _ _ _ _ _ _)
          (State.nextCandidate_turn _ _ _)
    · exact .fails s (.refl s) _ (by decide) _
  · split
    · refine s.drbgTurn_turn _ _ _ fun k => ?_
      unfold signTestDet
      split
      · exact signWrites_within (signCandidate_clean _ _ _ _ _)
      · trivial
    · exact .goesOn _ (.refl s)
  · split
    · exact .goesOn _ (.refl s)
    · refine s.randomTurn_turn fun data => ?_
      unfold signTestRnd
      split
      · trivial
      · exact signWrites_within (signCandidate_clean _ _ _ _ _)

theorem exec_nop_turned (s : State) : ∃ t, exec .nop s = .next t ∧ Turned .nop s t := by
  simp only [exec, execNop]
  exact turned_finish (P := fun t => t = s) rfl (.ok rfl) fun t ht => ht ▸ .regs [] (by simp) rfl

theorem exec_mov_turned (d a : Reg) (s : State) : ∃ t, exec (.mov d a) s = .next t ∧ Turned (.mov d a) s t := by
  simp only [exec, execMov]
  exact turned_setReg rfl (List.mem_singleton.mpr rfl) (.ok ⟨_, rfl⟩)

theorem exec_add_turned (d a b : Reg) (m : ModSel) (s : State) :
    ∃ t, exec (.add d a b m) s = .next t ∧ Turned (.add d a b m) s t := by
  simp only [exec, execAdd]
  exact turned_modular rfl (List.mem_singleton.mpr rfl) fun _ => .ok _

theorem exec_sub_turned (d a b : Reg) (m : ModSel) (s : State) :
    ∃ t, exec (.sub d a b m) s = .next t ∧ Turned (.sub d a b m) s t := by
  simp only [exec, execSub]
  exact turned_modular rfl (List.mem_singleton.mpr rfl) fun _ => .ok _

theorem exec_mul_turned (d a b : Reg) (m : ModSel) (s : State) :
    ∃ t, exec (.mul d a b m) s = .next t ∧ Turned (.mul d a b m) s t := by
  simp only [exec, execMul]
  exact turned_modular rfl (List.mem_singleton.mpr rfl) fun _ => .ok _

theorem exec_mmul_turned (d a b : Reg) (m : ModSel) (s : State) :
    ∃ t, exec (.mmul d a b m) s = .next t ∧ Turned (.mmul d a b m) s t := by
  simp only [exec, execMmul]
  exact turned_modular rfl (List.mem_singleton.mpr rfl) fun _ => .ok _

theorem exec_red_turned (d a : Reg) (m : ModSel) (s : State) :
    ∃ t, exec (.red d a m) s = .next t ∧ Turned (.red d a m) s t := by
  simp only [exec, execRed]
  exact turned_modular rfl (List.mem_singleton.mpr rfl) fun _ => .ok _

theorem exec_redw_turned (d a : Reg) (m : ModSel) (s : State) :
    ∃ t, exec (.redw d a m) s = .next t ∧ Turned (.redw d a m) s t := by
  simp only [exec, execRedw]
  exact turned_setReg rfl (List.mem_singleton.mpr rfl)
    (.bind (requireLegal_clean _) fun _ _ => .bind (s.requireModulus_clean m) fun _ _ => .pure ⟨_, rfl⟩)

theorem exec_pow_turned (d a b : Reg) (m : ModSel) (s : State) :
    ∃ t, exec (.pow d a b m) s = .next t ∧ Turned (.pow d a b m) s t := by
  simp only [exec, execPow]
  exact turned_modular rfl (List.mem_singleton.mpr rfl) fun _ => .ok _

theorem exec_inv_turned (d a : Reg) (m : ModSel) (s : State) :
    ∃ t, exec (.inv d a m) s = .next t ∧ Turned (.inv d a m) s t := by
  simp only [exec, execInv]
  exact turned_modular rfl (List.mem_singleton.mpr rfl) fun _ => inverse_clean _ _

theorem exec_div_turned (d a b : Reg) (m : ModSel) (s : State) :
    ∃ t, exec (.div d a b m) s = .next t ∧ Turned (.div d a b m) s t := by
  simp only [exec, execDiv]
  exact turned_modular rfl (List.mem_singleton.mpr rfl) fun _ => divide_clean _ _ _

theorem exec_sqrt_turned (d c a : Reg) (m : ModSel) (s : State) :
    ∃ t, exec (.sqrt d c a m) s = .next t ∧ Turned (.sqrt d c a m) s t := by
  simp only [exec, execSqrt]
  refine turned_finish (P := fun t => ∃ v w, t = s.setRegs [(d, v), (c, w)]) rfl
    (.bind (requireLegal_clean _) fun _ _ => .bind (s.requireModulus_clean m) fun _ _ => .bind (squareRoots_clean _ _)
      fun _ _ => .pure ⟨_, _, rfl⟩) fun t ⟨v, w, ht⟩ => ht ▸ .regs _ (fun x hx => ?_) rfl
  simp only [List.mem_cons, List.not_mem_nil, or_false] at hx
  rcases hx with rfl | rfl <;> simp [destinations]

theorem exec_rand_turned (d : Reg) (m : ModSel) (s : State) :
    ∃ t, exec (.rand d m) s = .next t ∧ Turned (.rand d m) s t := by
  simp only [exec, execRand]
  split
  · rename_i e he
    exact ⟨_, rfl, .port _ rfl (.fails s (.refl s) e (s.requireModulus_clean m e he) none)⟩
  · split
    · exact ⟨_, rfl, .port _ rfl (.goesOn _ (.progress s _ _ _ _ _ _))⟩
    · exact ⟨_, rfl, .port _ rfl (.goesOn _ (.refl s))⟩
    · rename_i data _
      have same : SameButProgress s { s with rngPort := .idle } := .progress s _ _ _ _ _ _
      have k := PortTurn.completes (s := s) (ds := [d]) _ same [(d, word (reduce (s.curve.modulus m) (rngInt data)))]
        (fun w hw => by cases List.mem_singleton.mp hw; exact List.mem_singleton.mpr rfl) none
      exact ⟨_, rfl, .port _ rfl k⟩

theorem exec_pinf_turned (d : PtReg) (s : State) : ∃ t, exec (.pinf d) s = .next t ∧ Turned (.pinf d) s t := by
  simp only [exec, execPinf]
  exact turned_setPoint rfl (List.mem_singleton.mpr rfl) (.ok ⟨_, rfl⟩)

theorem exec_pgen_turned (d : PtReg) (s : State) : ∃ t, exec (.pgen d) s = .next t ∧ Turned (.pgen d) s t := by
  simp only [exec, execPgen]
  exact turned_setPoint rfl (List.mem_singleton.mpr rfl)
    (.bind (s.requireModulus_clean .p) fun _ _ => .bind (require_clean (by decide)) fun _ _ => .pure ⟨_, rfl⟩)

theorem exec_pset_turned (d : PtReg) (a b : Reg) (s : State) :
    ∃ t, exec (.pset d a b) s = .next t ∧ Turned (.pset d a b) s t := by
  simp only [exec, execPset]
  exact turned_setPoint rfl (List.mem_singleton.mpr rfl)
    (.bind (s.requireModulus_clean .p) fun _ _ => .bind (require_clean (by decide)) fun _ _ => .pure ⟨_, rfl⟩)

theorem exec_pmov_turned (d a : PtReg) (s : State) : ∃ t, exec (.pmov d a) s = .next t ∧ Turned (.pmov d a) s t := by
  simp only [exec, execPmov]
  exact turned_setPoint rfl (List.mem_singleton.mpr rfl) (.ok ⟨_, rfl⟩)

theorem exec_pgetx_turned (d : Reg) (a : PtReg) (s : State) :
    ∃ t, exec (.pgetx d a) s = .next t ∧ Turned (.pgetx d a) s t := by
  simp only [exec, execPgetx]
  refine turned_setReg (d := d) rfl (List.mem_singleton.mpr rfl) ?_
  split
  · exact .error (by decide)
  · exact .ok ⟨_, rfl⟩

theorem exec_pgety_turned (d : Reg) (a : PtReg) (s : State) :
    ∃ t, exec (.pgety d a) s = .next t ∧ Turned (.pgety d a) s t := by
  simp only [exec, execPgety]
  refine turned_setReg (d := d) rfl (List.mem_singleton.mpr rfl) ?_
  split
  · exact .error (by decide)
  · exact .ok ⟨_, rfl⟩

theorem exec_padd_turned (d a b : PtReg) (s : State) :
    ∃ t, exec (.padd d a b) s = .next t ∧ Turned (.padd d a b) s t := by
  simp only [exec, execPadd]
  exact turned_setPoint rfl (List.mem_singleton.mpr rfl)
    (.bind (s.requireModulus_clean .p) fun _ _ => .bind (paddF_clean _ _ _) fun _ _ => .pure ⟨_, rfl⟩)

theorem exec_pmul_turned (d a : PtReg) (b : Reg) (s : State) :
    ∃ t, exec (.pmul d a b) s = .next t ∧ Turned (.pmul d a b) s t := by
  simp only [exec, execPmul]
  exact turned_setPoint rfl (List.mem_singleton.mpr rfl)
    (.bind s.requireModuli_clean fun _ _ => .bind (require_clean (by decide)) fun _ _ => .bind (pmulF_clean _ _ _)
      fun _ _ => .pure ⟨_, rfl⟩)

theorem exec_pmuladd_turned (d a b : PtReg) (c : Reg) (s : State) :
    ∃ t, exec (.pmuladd d a b c) s = .next t ∧ Turned (.pmuladd d a b c) s t := by
  simp only [exec, execPmuladd]
  exact turned_setPoint rfl (List.mem_singleton.mpr rfl)
    (.bind (requireLegal_clean _) fun _ _ => .bind s.requireModuli_clean fun _ _ => .bind (require_clean (by decide))
      fun _ _ => .bind (require_clean (by decide)) fun _ _ => .bind (pmulF_clean _ _ _) fun _ _ =>
      .bind (pmulF_clean _ _ _) fun _ _ => .bind (paddF_clean _ _ _) fun _ _ => .pure ⟨_, rfl⟩)

theorem exec_pfromx_turned (d : PtReg) (a : Reg) (odd : Bool) (s : State) :
    ∃ t, exec (.pfromx d a odd) s = .next t ∧ Turned (.pfromx d a odd) s t := by
  simp only [exec, execPfromx]
  exact turned_setPoint rfl (List.mem_singleton.mpr rfl)
    (.bind (s.requireModulus_clean .p) fun _ _ => .bind (fromxF_clean _ _ _) fun _ _ => .pure ⟨_, rfl⟩)

theorem exec_encode_turned (a : PtReg) (compressed : Bool) (s : State) :
    ∃ t, exec (.encode a compressed) s = .next t ∧ Turned (.encode a compressed) s t := by
  simp only [exec, execEncode]
  refine turned_finish (P := fun t => ∃ x y, t = { s with
    buf := s.buf.writeAll 0 (encodePoint x y compressed)
    bufLen := BitVec.ofNat 8 (encodePoint x y compressed).length }) rfl ?_ fun t ⟨x, y, ht⟩ => ht ▸ .bytes a compressed rfl x y
  split
  · exact .error (by decide)
  · exact .ok ⟨_, _, rfl⟩

theorem exec_decode_turned (d : PtReg) (s : State) : ∃ t, exec (.decode d) s = .next t ∧ Turned (.decode d) s t := by
  simp only [exec, execDecode]
  exact turned_setPoint rfl (List.mem_singleton.mpr rfl)
    (.bind (s.requireModulus_clean .p) fun _ _ => .bind (decodePoint_clean _ _ _) fun _ _ => .pure ⟨_, rfl⟩)

theorem exec_sign_turned (d a b : Reg) (det : Bool) (s : State) :
    ∃ t, exec (.sign d a b det) s = .next t ∧ Turned (.sign d a b det) s t := by
  simp only [exec, execSign]
  split
  · rename_i e he
    have hr := (Clean.bind (requireLegal_clean _) fun _ _ => s.requireModuli_clean) e he
    exact ⟨_, rfl, .port _ rfl (.fails s (.refl s) e hr (some 0))⟩
  · exact ⟨_, rfl, .port _ rfl (s.signTurn_turn _ _ _ _ _)⟩

theorem exec_signCid_turned (d a b c : Reg) (det : Bool) (s : State) :
    ∃ t, exec (.signCid d a b c det) s = .next t ∧ Turned (.signCid d a b c det) s t := by
  simp only [exec, execSignCid]
  split
  · rename_i e he
    have hr := (Clean.bind (requireLegal_clean _) fun _ _ => s.requireModuli_clean) e he
    exact ⟨_, rfl, .port _ rfl (.fails s (.refl s) e hr (some 0))⟩
  · exact ⟨_, rfl, .port _ rfl (s.signTurn_turn _ _ _ _ _)⟩

theorem exec_verify_turned (d a b : Reg) (s : State) :
    ∃ t, exec (.verify d a b) s = .next t ∧ Turned (.verify d a b) s t := by
  simp only [exec, execVerify]
  exact turned_setReg rfl (List.mem_singleton.mpr rfl)
    (.bind (requireLegal_clean _) fun _ _ => .bind s.requireModuli_clean fun _ _ => .bind (require_clean (by decide))
      fun _ _ => .bind (publicKey_clean _ _ _) fun _ _ => .bind (inverse_clean _ _) fun _ _ => .bind (pmulF_clean _ _ _)
      fun _ _ => .bind (pmulF_clean _ _ _) fun _ _ => .bind (paddF_clean _ _ _) fun _ _ => .pure ⟨_, rfl⟩)

theorem exec_recover_turned (d : PtReg) (a b : Reg) (s : State) :
    ∃ t, exec (.recover d a b) s = .next t ∧ Turned (.recover d a b) s t := by
  simp only [exec, execRecover]
  exact turned_setPoint rfl (List.mem_singleton.mpr rfl)
    (.bind (requireLegal_clean _) fun _ _ => .bind s.requireModuli_clean fun _ _ => .bind (require_clean (by decide))
      fun _ _ => .bind (require_clean (by decide)) fun _ _ => .bind (require_clean (by decide)) fun _ _ =>
      .bind (fromxF_clean _ _ _) fun _ _ => .bind (inverse_clean _ _) fun _ _ => .bind (pmulF_clean _ _ _) fun _ _ =>
      .bind (pmulF_clean _ _ _) fun _ _ => .bind (paddF_clean _ _ _) fun _ _ => .bind (require_clean (by decide))
      fun _ _ => .pure ⟨_, rfl⟩)

theorem exec_nonce_turned (d a b : Reg) (s : State) :
    ∃ t, exec (.nonce d a b) s = .next t ∧ Turned (.nonce d a b) s t := by
  simp only [exec, execNonce]
  split
  · rename_i e he
    exact ⟨_, rfl, .port _ rfl (.fails s (.refl s) e (s.requireModulus_clean .n e he) (some 0))⟩
  · split
    · exact ⟨_, rfl, .port _ rfl (.goesOn _ (.progress s _ _ _ _ _ _))⟩
    · refine ⟨_, rfl, .port _ rfl (s.drbgTurn_turn _ _ _ fun t => ?_)⟩
      unfold nonceTest
      split
      · intro w hw
        simp only [List.mem_singleton] at hw
        subst hw
        simp [destinations]
      · trivial
    · exact ⟨_, rfl, .port _ rfl (.goesOn _ (.refl s))⟩

/-- What exec does with any command: it answers a next state of the kinds above. -/
theorem exec_turned (i : Instr) (s : State) : ∃ t, exec i s = .next t ∧ Turned i s t := by
  cases i with
  | nop => exact exec_nop_turned s
  | mov d a => exact exec_mov_turned d a s
  | add d a b m => exact exec_add_turned d a b m s
  | sub d a b m => exact exec_sub_turned d a b m s
  | mul d a b m => exact exec_mul_turned d a b m s
  | mmul d a b m => exact exec_mmul_turned d a b m s
  | red d a m => exact exec_red_turned d a m s
  | redw d a m => exact exec_redw_turned d a m s
  | pow d a b m => exact exec_pow_turned d a b m s
  | inv d a m => exact exec_inv_turned d a m s
  | div d a b m => exact exec_div_turned d a b m s
  | sqrt d c a m => exact exec_sqrt_turned d c a m s
  | rand d m => exact exec_rand_turned d m s
  | pinf d => exact exec_pinf_turned d s
  | pgen d => exact exec_pgen_turned d s
  | pset d a b => exact exec_pset_turned d a b s
  | pmov d a => exact exec_pmov_turned d a s
  | pgetx d a => exact exec_pgetx_turned d a s
  | pgety d a => exact exec_pgety_turned d a s
  | padd d a b => exact exec_padd_turned d a b s
  | pmul d a b => exact exec_pmul_turned d a b s
  | pmuladd d a b c => exact exec_pmuladd_turned d a b c s
  | pfromx d a odd => exact exec_pfromx_turned d a odd s
  | encode a compressed => exact exec_encode_turned a compressed s
  | decode d => exact exec_decode_turned d s
  | sign d a b det => exact exec_sign_turned d a b det s
  | signCid d a b c det => exact exec_signCid_turned d a b c det s
  | verify d a b => exact exec_verify_turned d a b s
  | recover d a b => exact exec_recover_turned d a b s
  | nonce d a b => exact exec_nonce_turned d a b s

end Sys2Proof.Machine
end

