-- ==== Sys2Proof/Laws/Memory.lean ====
section
/-! SUPPORT. Byte memory: a read after a write, and every operation keeps the canonical form (entry 12). -/

namespace Sys2Proof.Machine

/-- The canonical form as a proposition. -/
theorem Memory.wf_iff (m : Memory) :
    m.wf = true ↔ (m.Pairwise fun x y => x.1 < y.1) ∧ ∀ c ∈ m, c.2 ≠ Memory.unlisted ∧ c.1 < Config.bufBytes := by
  simp [Memory.wf]

/-- Addresses above every listed one are not listed. -/
theorem Memory.read_eq_unlisted {m : Memory} {i : Nat} (h : ∀ c ∈ m, c.1 ≠ i) : m.read i = Memory.unlisted := by
  induction m with
  | nil => rfl
  | cons c rest ih =>
    obtain ⟨a, b⟩ := c
    have ha : a ≠ i := h (a, b) (by simp)
    simp only [Memory.read, if_neg ha]
    exact ih fun c hc => h c (by simp [hc])

theorem Memory.read_cons (i j : Nat) (v : Byte) {m : Memory} (h : ∀ c ∈ m, c.1 ≠ i) :
    (Memory.cons i v m).read j = if i = j then v else m.read j := by
  unfold Memory.cons
  split
  · rename_i hv
    by_cases hij : i = j
    · subst hij; rw [if_pos rfl, Memory.read_eq_unlisted h, hv]
    · rw [if_neg hij]
  · rfl

/-- A read after a write: the byte written, and every other byte as before. -/
theorem Memory.read_write {m : Memory} (hm : m.Pairwise fun x y => x.1 < y.1) (i j : Nat) (v : Byte) :
    (m.write i v).read j = if i = j then v else m.read j := by
  induction m with
  | nil => exact Memory.read_cons i j v (by simp)
  | cons c rest ih =>
    obtain ⟨a, b⟩ := c
    obtain ⟨hlt, hrest⟩ := List.pairwise_cons.1 hm
    simp only [Memory.write]
    split
    · rename_i hia
      refine Memory.read_cons i j v fun c hc => ?_
      rcases List.mem_cons.1 hc with rfl | hc
      · exact fun h => by simp at h; omega
      · have := hlt c hc; simp at this; omega
    · split
      · rename_i hia
        subst hia
        rw [Memory.read_cons i j v fun c hc => by have := hlt c hc; simp at this; omega]
        by_cases hij : i = j <;> simp [Memory.read, hij]
      · rename_i h1 h2
        simp only [Memory.read]
        split
        · rename_i haj; subst haj; rw [if_neg (fun h => h2 h)]
        · exact ih hrest

theorem Memory.mem_cons {i : Nat} {v : Byte} {m : Memory} {c : Host.Cell} (h : c ∈ Memory.cons i v m) :
    c = (i, v) ∧ v ≠ Memory.unlisted ∨ c ∈ m := by
  unfold Memory.cons at h
  split at h
  · exact .inr h
  · rcases List.mem_cons.1 h with h | h
    · exact .inl ⟨h, ‹_›⟩
    · exact .inr h

theorem Memory.mem_write {m : Memory} {i : Nat} {v : Byte} {c : Host.Cell} (h : c ∈ m.write i v) :
    c = (i, v) ∧ v ≠ Memory.unlisted ∨ c ∈ m := by
  induction m with
  | nil => exact Memory.mem_cons h
  | cons d rest ih =>
    obtain ⟨a, b⟩ := d
    simp only [Memory.write] at h
    split at h
    · exact Memory.mem_cons h
    · split at h
      · exact (Memory.mem_cons h).imp_right fun h => by simp [h]
      · rcases List.mem_cons.1 h with rfl | h
        · exact .inr (by simp)
        · exact (ih h).imp_right fun h => by simp [h]

theorem Memory.pairwise_cons {i : Nat} {v : Byte} {m : Memory} (hm : m.Pairwise fun x y => x.1 < y.1)
    (h : ∀ c ∈ m, i < c.1) : (Memory.cons i v m).Pairwise fun x y => x.1 < y.1 := by
  unfold Memory.cons
  split
  · exact hm
  · exact List.pairwise_cons.2 ⟨h, hm⟩

theorem Memory.pairwise_write {m : Memory} (hm : m.Pairwise fun x y => x.1 < y.1) (i : Nat) (v : Byte) :
    (m.write i v).Pairwise fun x y => x.1 < y.1 := by
  induction m with
  | nil => exact Memory.pairwise_cons List.Pairwise.nil (by simp)
  | cons d rest ih =>
    obtain ⟨a, b⟩ := d
    obtain ⟨hlt, hrest⟩ := List.pairwise_cons.1 hm
    simp only [Memory.write]
    split
    · rename_i hia
      refine Memory.pairwise_cons hm fun c hc => ?_
      rcases List.mem_cons.1 hc with rfl | hc
      · exact hia
      · exact lt_trans hia (hlt c hc)
    · split
      · rename_i hia
        subst hia
        exact Memory.pairwise_cons hrest hlt
      · rename_i h1 h2
        refine List.pairwise_cons.2 ⟨fun c hc => ?_, ih hrest⟩
        rcases Memory.mem_write hc with ⟨rfl, -⟩ | hc
        · simp; omega
        · exact hlt c hc

/-- A write inside the buffer keeps the canonical form. -/
theorem Memory.write_wf {m : Memory} (hm : m.wf = true) {i : Nat} (hi : i < Config.bufBytes) (v : Byte) :
    (m.write i v).wf = true := by
  rw [Memory.wf_iff] at hm ⊢
  refine ⟨Memory.pairwise_write hm.1 i v, fun c hc => ?_⟩
  rcases Memory.mem_write hc with ⟨rfl, hv⟩ | hc
  · exact ⟨hv, hi⟩
  · exact hm.2 c hc

/-- A write of a byte string inside the buffer keeps the canonical form. -/
theorem Memory.writeAll_wf {m : Memory} (hm : m.wf = true) {i : Nat} {bytes : List Byte}
    (hi : i + bytes.length ≤ Config.bufBytes) : (m.writeAll i bytes).wf = true := by
  induction bytes generalizing m i with
  | nil => exact hm
  | cons b rest ih =>
    simp only [List.length_cons] at hi
    exact ih (Memory.write_wf hm (by omega) b) (by omega)

theorem Memory.pairwise_of_wf {m : Memory} (hm : m.wf = true) : m.Pairwise fun x y => x.1 < y.1 :=
  ((Memory.wf_iff m).1 hm).1

/-- A read after a write of a byte string: the bytes written, and every other byte as before. -/
theorem Memory.read_writeAll {m : Memory} (hm : m.Pairwise fun x y => x.1 < y.1) (i j : Nat) (bytes : List Byte) :
    (m.writeAll i bytes).read j = if h : i ≤ j ∧ j < i + bytes.length then bytes[j - i]'(by omega) else m.read j := by
  induction bytes generalizing m i with
  | nil =>
    have : ¬(i ≤ j ∧ j < i + ([] : List Byte).length) := by simp
    rw [dif_neg this]; rfl
  | cons b rest ih =>
    simp only [Memory.writeAll]
    rw [ih (Memory.pairwise_write hm i b), Memory.read_write hm]
    by_cases hij : i = j
    · subst hij; simp
    · rw [if_neg hij]
      by_cases h : i + 1 ≤ j ∧ j < i + 1 + rest.length
      · have h' : i ≤ j ∧ j < i + (b :: rest).length := by simp; omega
        have hk : j - i = (j - (i + 1)) + 1 := by omega
        rw [dif_pos h, dif_pos h']
        simp [hk]
      · have h' : ¬(i ≤ j ∧ j < i + (b :: rest).length) := by simp; omega
        rw [dif_neg h, dif_neg h']

/-- The buffer after reset is in canonical form. -/
theorem Memory.reset_wf : State.reset.buf.wf = true := by decide

/-- In a canonical memory the front cell is read first: two canonical memories that read alike are equal. -/
theorem Memory.ext_of_wf {m m' : Memory} (hm : m.wf = true) (hm' : m'.wf = true) (h : ∀ i, m.read i = m'.read i) :
    m = m' := by
  induction m generalizing m' with
  | nil =>
    cases m' with
    | nil => rfl
    | cons c rest =>
      have := ((Memory.wf_iff _).1 hm').2 c (by simp)
      exact absurd ((h c.1).symm.trans rfl) (by simpa [Memory.read] using this.1)
  | cons c rest ih =>
    obtain ⟨hp, hc⟩ := (Memory.wf_iff _).1 hm
    obtain ⟨hlt, hrest⟩ := List.pairwise_cons.1 hp
    cases m' with
    | nil => exact absurd ((h c.1).trans rfl) (by simpa [Memory.read] using (hc c (by simp)).1)
    | cons d rest' =>
      obtain ⟨hp', hd⟩ := (Memory.wf_iff _).1 hm'
      obtain ⟨hlt', hrest'⟩ := List.pairwise_cons.1 hp'
      have hread : ∀ (e : Host.Cell) (l : Memory), Memory.read (e :: l) e.1 = e.2 := fun e l => by
        obtain ⟨a, b⟩ := e; simp [Memory.read]
      have hmiss : ∀ (e : Host.Cell) (l : Memory) (i : Nat), (∀ x ∈ l, e.1 < x.1) → i < e.1 →
          Memory.read (e :: l) i = Memory.unlisted := fun e l i hl hi =>
        Memory.read_eq_unlisted fun x hx => by
          rcases List.mem_cons.1 hx with rfl | hx
          · omega
          · have := hl x hx; omega
      have h1 : ¬c.1 < d.1 := fun hcd => (hc c (by simp)).1 <| by
        rw [← hread c rest, h, hmiss d rest' _ hlt' hcd]
      have h2 : ¬d.1 < c.1 := fun hdc => (hd d (by simp)).1 <| by
        rw [← hread d rest', ← h, hmiss c rest _ hlt hdc]
      have haddr : c.1 = d.1 := by omega
      have hcd : c = d := Prod.ext haddr (by rw [← hread c rest, h, haddr, hread d rest'])
      subst hcd
      congr 1
      refine ih ((Memory.wf_iff _).2 ⟨hrest, fun x hx => hc x (by simp [hx])⟩)
        ((Memory.wf_iff _).2 ⟨hrest', fun x hx => hd x (by simp [hx])⟩) fun i => ?_
      by_cases hi : c.1 = i
      · subst hi
        rw [Memory.read_eq_unlisted fun x hx => (by have := hlt x hx; omega),
          Memory.read_eq_unlisted fun x hx => (by have := hlt' x hx; omega)]
      · have := h i
        obtain ⟨a, b⟩ := c
        simpa [Memory.read, hi] using this

end Sys2Proof.Machine
end

