-- ==== Sys2Proof/Laws/PerInstr.lean ====
section
/-! SUPPORT. The per-instruction family `FieldRanges`: the encoder gives every field a value of the width that
spec/30_encoding.md R53 gives it, and the reserved bits 0. -/

namespace Sys2Proof

theorem reg_lt_sixteen (r : Reg) : (r : Nat) < 2 ^ 4 := r.isLt

theorem ptReg_lt_sixteen (q : PtReg) : (q : Nat) < 2 ^ 4 := Nat.lt_of_lt_of_le q.isLt (by decide)

theorem modSel_bit_lt (m : ModSel) : m.bit < 2 ^ 1 := by cases m <;> decide

theorem flagBit_lt (b : Bool) : flagBit b < 2 ^ 1 := by cases b <;> decide

namespace Laws.FieldRanges

/-- The fields of an instruction have the widths of R53, and its reserved bits are 0. -/
def Statement (i : Instr) : Prop := i.fields.InRange ∧ i.fields.rsv = 0

theorem nop : Statement .nop :=
  ⟨⟨(by decide : 0x00 < 2 ^ 8), Nat.two_pow_pos _, Nat.two_pow_pos _, Nat.two_pow_pos _,
    Nat.two_pow_pos _, Nat.two_pow_pos _, Nat.two_pow_pos _, Nat.two_pow_pos _, Nat.two_pow_pos _⟩, rfl⟩

theorem mov (d a : Reg) : Statement (.mov d a) :=
  ⟨⟨(by decide : 0x01 < 2 ^ 8), reg_lt_sixteen d, reg_lt_sixteen a, Nat.two_pow_pos _,
    Nat.two_pow_pos _, Nat.two_pow_pos _, Nat.two_pow_pos _, Nat.two_pow_pos _, Nat.two_pow_pos _⟩, rfl⟩

theorem add (d a b : Reg) (m : ModSel) : Statement (.add d a b m) :=
  ⟨⟨(by decide : 0x10 < 2 ^ 8), reg_lt_sixteen d, reg_lt_sixteen a, reg_lt_sixteen b,
    Nat.two_pow_pos _, modSel_bit_lt m, Nat.two_pow_pos _, Nat.two_pow_pos _, Nat.two_pow_pos _⟩, rfl⟩

theorem sub (d a b : Reg) (m : ModSel) : Statement (.sub d a b m) :=
  ⟨⟨(by decide : 0x11 < 2 ^ 8), reg_lt_sixteen d, reg_lt_sixteen a, reg_lt_sixteen b,
    Nat.two_pow_pos _, modSel_bit_lt m, Nat.two_pow_pos _, Nat.two_pow_pos _, Nat.two_pow_pos _⟩, rfl⟩

theorem mul (d a b : Reg) (m : ModSel) : Statement (.mul d a b m) :=
  ⟨⟨(by decide : 0x12 < 2 ^ 8), reg_lt_sixteen d, reg_lt_sixteen a, reg_lt_sixteen b,
    Nat.two_pow_pos _, modSel_bit_lt m, Nat.two_pow_pos _, Nat.two_pow_pos _, Nat.two_pow_pos _⟩, rfl⟩

theorem mmul (d a b : Reg) (m : ModSel) : Statement (.mmul d a b m) :=
  ⟨⟨(by decide : 0x13 < 2 ^ 8), reg_lt_sixteen d, reg_lt_sixteen a, reg_lt_sixteen b,
    Nat.two_pow_pos _, modSel_bit_lt m, Nat.two_pow_pos _, Nat.two_pow_pos _, Nat.two_pow_pos _⟩, rfl⟩

theorem red (d a : Reg) (m : ModSel) : Statement (.red d a m) :=
  ⟨⟨(by decide : 0x14 < 2 ^ 8), reg_lt_sixteen d, reg_lt_sixteen a, Nat.two_pow_pos _,
    Nat.two_pow_pos _, modSel_bit_lt m, Nat.two_pow_pos _, Nat.two_pow_pos _, Nat.two_pow_pos _⟩, rfl⟩

theorem redw (d a : Reg) (m : ModSel) : Statement (.redw d a m) :=
  ⟨⟨(by decide : 0x15 < 2 ^ 8), reg_lt_sixteen d, reg_lt_sixteen a, Nat.two_pow_pos _,
    Nat.two_pow_pos _, modSel_bit_lt m, Nat.two_pow_pos _, Nat.two_pow_pos _, Nat.two_pow_pos _⟩, rfl⟩

theorem pow (d a b : Reg) (m : ModSel) : Statement (.pow d a b m) :=
  ⟨⟨(by decide : 0x16 < 2 ^ 8), reg_lt_sixteen d, reg_lt_sixteen a, reg_lt_sixteen b,
    Nat.two_pow_pos _, modSel_bit_lt m, Nat.two_pow_pos _, Nat.two_pow_pos _, Nat.two_pow_pos _⟩, rfl⟩

theorem inv (d a : Reg) (m : ModSel) : Statement (.inv d a m) :=
  ⟨⟨(by decide : 0x17 < 2 ^ 8), reg_lt_sixteen d, reg_lt_sixteen a, Nat.two_pow_pos _,
    Nat.two_pow_pos _, modSel_bit_lt m, Nat.two_pow_pos _, Nat.two_pow_pos _, Nat.two_pow_pos _⟩, rfl⟩

theorem div (d a b : Reg) (m : ModSel) : Statement (.div d a b m) :=
  ⟨⟨(by decide : 0x18 < 2 ^ 8), reg_lt_sixteen d, reg_lt_sixteen a, reg_lt_sixteen b,
    Nat.two_pow_pos _, modSel_bit_lt m, Nat.two_pow_pos _, Nat.two_pow_pos _, Nat.two_pow_pos _⟩, rfl⟩

theorem sqrt (d c a : Reg) (m : ModSel) : Statement (.sqrt d c a m) :=
  ⟨⟨(by decide : 0x19 < 2 ^ 8), reg_lt_sixteen d, reg_lt_sixteen a, Nat.two_pow_pos _,
    reg_lt_sixteen c, modSel_bit_lt m, Nat.two_pow_pos _, Nat.two_pow_pos _, Nat.two_pow_pos _⟩, rfl⟩

theorem rand (d : Reg) (m : ModSel) : Statement (.rand d m) :=
  ⟨⟨(by decide : 0x1a < 2 ^ 8), reg_lt_sixteen d, Nat.two_pow_pos _, Nat.two_pow_pos _,
    Nat.two_pow_pos _, modSel_bit_lt m, Nat.two_pow_pos _, Nat.two_pow_pos _, Nat.two_pow_pos _⟩, rfl⟩

theorem pinf (d : PtReg) : Statement (.pinf d) :=
  ⟨⟨(by decide : 0x20 < 2 ^ 8), ptReg_lt_sixteen d, Nat.two_pow_pos _, Nat.two_pow_pos _,
    Nat.two_pow_pos _, Nat.two_pow_pos _, Nat.two_pow_pos _, Nat.two_pow_pos _, Nat.two_pow_pos _⟩, rfl⟩

theorem pgen (d : PtReg) : Statement (.pgen d) :=
  ⟨⟨(by decide : 0x21 < 2 ^ 8), ptReg_lt_sixteen d, Nat.two_pow_pos _, Nat.two_pow_pos _,
    Nat.two_pow_pos _, Nat.two_pow_pos _, Nat.two_pow_pos _, Nat.two_pow_pos _, Nat.two_pow_pos _⟩, rfl⟩

theorem pset (d : PtReg) (a b : Reg) : Statement (.pset d a b) :=
  ⟨⟨(by decide : 0x22 < 2 ^ 8), ptReg_lt_sixteen d, reg_lt_sixteen a, reg_lt_sixteen b,
    Nat.two_pow_pos _, Nat.two_pow_pos _, Nat.two_pow_pos _, Nat.two_pow_pos _, Nat.two_pow_pos _⟩, rfl⟩

theorem pmov (d a : PtReg) : Statement (.pmov d a) :=
  ⟨⟨(by decide : 0x23 < 2 ^ 8), ptReg_lt_sixteen d, ptReg_lt_sixteen a, Nat.two_pow_pos _,
    Nat.two_pow_pos _, Nat.two_pow_pos _, Nat.two_pow_pos _, Nat.two_pow_pos _, Nat.two_pow_pos _⟩, rfl⟩

theorem pgetx (d : Reg) (a : PtReg) : Statement (.pgetx d a) :=
  ⟨⟨(by decide : 0x24 < 2 ^ 8), reg_lt_sixteen d, ptReg_lt_sixteen a, Nat.two_pow_pos _,
    Nat.two_pow_pos _, Nat.two_pow_pos _, Nat.two_pow_pos _, Nat.two_pow_pos _, Nat.two_pow_pos _⟩, rfl⟩

theorem pgety (d : Reg) (a : PtReg) : Statement (.pgety d a) :=
  ⟨⟨(by decide : 0x25 < 2 ^ 8), reg_lt_sixteen d, ptReg_lt_sixteen a, Nat.two_pow_pos _,
    Nat.two_pow_pos _, Nat.two_pow_pos _, Nat.two_pow_pos _, Nat.two_pow_pos _, Nat.two_pow_pos _⟩, rfl⟩

theorem padd (d a b : PtReg) : Statement (.padd d a b) :=
  ⟨⟨(by decide : 0x26 < 2 ^ 8), ptReg_lt_sixteen d, ptReg_lt_sixteen a, ptReg_lt_sixteen b,
    Nat.two_pow_pos _, Nat.two_pow_pos _, Nat.two_pow_pos _, Nat.two_pow_pos _, Nat.two_pow_pos _⟩, rfl⟩

theorem pmul (d a : PtReg) (b : Reg) : Statement (.pmul d a b) :=
  ⟨⟨(by decide : 0x27 < 2 ^ 8), ptReg_lt_sixteen d, ptReg_lt_sixteen a, reg_lt_sixteen b,
    Nat.two_pow_pos _, Nat.two_pow_pos _, Nat.two_pow_pos _, Nat.two_pow_pos _, Nat.two_pow_pos _⟩, rfl⟩

theorem pmuladd (d a b : PtReg) (c : Reg) : Statement (.pmuladd d a b c) :=
  ⟨⟨(by decide : 0x28 < 2 ^ 8), ptReg_lt_sixteen d, ptReg_lt_sixteen a, ptReg_lt_sixteen b,
    reg_lt_sixteen c, Nat.two_pow_pos _, Nat.two_pow_pos _, Nat.two_pow_pos _, Nat.two_pow_pos _⟩, rfl⟩

theorem pfromx (d : PtReg) (a : Reg) (odd : Bool) : Statement (.pfromx d a odd) :=
  ⟨⟨(by decide : 0x29 < 2 ^ 8), ptReg_lt_sixteen d, reg_lt_sixteen a, Nat.two_pow_pos _,
    Nat.two_pow_pos _, Nat.two_pow_pos _, flagBit_lt odd, Nat.two_pow_pos _, Nat.two_pow_pos _⟩, rfl⟩

theorem encode (a : PtReg) (compressed : Bool) : Statement (.encode a compressed) :=
  ⟨⟨(by decide : 0x2a < 2 ^ 8), Nat.two_pow_pos _, ptReg_lt_sixteen a, Nat.two_pow_pos _,
    Nat.two_pow_pos _, Nat.two_pow_pos _, flagBit_lt compressed, Nat.two_pow_pos _, Nat.two_pow_pos _⟩, rfl⟩

theorem decode (d : PtReg) : Statement (.decode d) :=
  ⟨⟨(by decide : 0x2b < 2 ^ 8), ptReg_lt_sixteen d, Nat.two_pow_pos _, Nat.two_pow_pos _,
    Nat.two_pow_pos _, Nat.two_pow_pos _, Nat.two_pow_pos _, Nat.two_pow_pos _, Nat.two_pow_pos _⟩, rfl⟩

theorem sign (d a b : Reg) (det : Bool) : Statement (.sign d a b det) :=
  ⟨⟨(by decide : 0x30 < 2 ^ 8), reg_lt_sixteen d, reg_lt_sixteen a, reg_lt_sixteen b,
    Nat.two_pow_pos _, Nat.two_pow_pos _, flagBit_lt det, Nat.two_pow_pos _, Nat.two_pow_pos _⟩, rfl⟩

theorem signCid (d a b c : Reg) (det : Bool) : Statement (.signCid d a b c det) :=
  ⟨⟨(by decide : 0x30 < 2 ^ 8), reg_lt_sixteen d, reg_lt_sixteen a, reg_lt_sixteen b,
    reg_lt_sixteen c, Nat.two_pow_pos _, flagBit_lt det, (by decide : 1 < 2 ^ 1), Nat.two_pow_pos _⟩, rfl⟩

theorem verify (d a b : Reg) : Statement (.verify d a b) :=
  ⟨⟨(by decide : 0x31 < 2 ^ 8), reg_lt_sixteen d, reg_lt_sixteen a, reg_lt_sixteen b,
    Nat.two_pow_pos _, Nat.two_pow_pos _, Nat.two_pow_pos _, Nat.two_pow_pos _, Nat.two_pow_pos _⟩, rfl⟩

theorem recover (d : PtReg) (a b : Reg) : Statement (.recover d a b) :=
  ⟨⟨(by decide : 0x32 < 2 ^ 8), ptReg_lt_sixteen d, reg_lt_sixteen a, reg_lt_sixteen b,
    Nat.two_pow_pos _, Nat.two_pow_pos _, Nat.two_pow_pos _, Nat.two_pow_pos _, Nat.two_pow_pos _⟩, rfl⟩

theorem nonce (d a b : Reg) : Statement (.nonce d a b) :=
  ⟨⟨(by decide : 0x33 < 2 ^ 8), reg_lt_sixteen d, reg_lt_sixteen a, reg_lt_sixteen b,
    Nat.two_pow_pos _, Nat.two_pow_pos _, Nat.two_pow_pos _, Nat.two_pow_pos _, Nat.two_pow_pos _⟩, rfl⟩

end Laws.FieldRanges

/-- The fields of every instruction are in range. -/
theorem Instr.fields_inRange (i : Instr) : i.fields.InRange ∧ i.fields.rsv = 0 := by
  cases i
  case nop => exact Laws.FieldRanges.nop
  case mov d a => exact Laws.FieldRanges.mov d a
  case add d a b m => exact Laws.FieldRanges.add d a b m
  case sub d a b m => exact Laws.FieldRanges.sub d a b m
  case mul d a b m => exact Laws.FieldRanges.mul d a b m
  case mmul d a b m => exact Laws.FieldRanges.mmul d a b m
  case red d a m => exact Laws.FieldRanges.red d a m
  case redw d a m => exact Laws.FieldRanges.redw d a m
  case pow d a b m => exact Laws.FieldRanges.pow d a b m
  case inv d a m => exact Laws.FieldRanges.inv d a m
  case div d a b m => exact Laws.FieldRanges.div d a b m
  case sqrt d c a m => exact Laws.FieldRanges.sqrt d c a m
  case rand d m => exact Laws.FieldRanges.rand d m
  case pinf d => exact Laws.FieldRanges.pinf d
  case pgen d => exact Laws.FieldRanges.pgen d
  case pset d a b => exact Laws.FieldRanges.pset d a b
  case pmov d a => exact Laws.FieldRanges.pmov d a
  case pgetx d a => exact Laws.FieldRanges.pgetx d a
  case pgety d a => exact Laws.FieldRanges.pgety d a
  case padd d a b => exact Laws.FieldRanges.padd d a b
  case pmul d a b => exact Laws.FieldRanges.pmul d a b
  case pmuladd d a b c => exact Laws.FieldRanges.pmuladd d a b c
  case pfromx d a odd => exact Laws.FieldRanges.pfromx d a odd
  case encode a compressed => exact Laws.FieldRanges.encode a compressed
  case decode d => exact Laws.FieldRanges.decode d
  case sign d a b det => exact Laws.FieldRanges.sign d a b det
  case signCid d a b c det => exact Laws.FieldRanges.signCid d a b c det
  case verify d a b => exact Laws.FieldRanges.verify d a b
  case recover d a b => exact Laws.FieldRanges.recover d a b
  case nonce d a b => exact Laws.FieldRanges.nonce d a b

/-- Reading the fields of an encoded instruction gives its fields back. -/
theorem Fields.ofWord_encode (i : Instr) : Fields.ofWord (encode i) = i.fields := Fields.ofWord_toWord i.fields_inRange.1

end Sys2Proof
end

