-- ==== Sys2Proof/Tests/Slice0.lean ====
section
/-! SUPPORT. Tests with results from spec/95_test_vectors.md and the examples of the rules (named in each docstring), the
words of spec/30_encoding.md written out, the smoke tests of WellFormed, and for each statement with hypotheses a state and
operands that meet them. -/

namespace Sys2Proof.Tests

open Sys2Proof Sys2Proof.Machine

set_option Elab.async false

/-! Helpers. -/

/-- The outcome is a next state with the property. -/
def Yields (o : Host.Outcome State Fault Refusal) (post : State → Bool) : Bool :=
  match o with
  | .next t => post t
  | .fault _ => false
  | .refused _ => false

/-- The word runs as the first command and the state after it has the property. -/
def After (w : CmdWord) (s : State) (post : State → Bool) : Bool := Yields (step (s.withFetchWord 32 w.toNat)) post

/-- One step of a state reaches a state with the property. -/
def Turned (s : State) (post : State → Bool) : Bool := Yields (step s) post

theorem next_of_yields {o : Host.Outcome State Fault Refusal} {post : State → Bool} (h : Yields o post = true) :
    ∃ t, o = .next t ∧ post t = true := by
  cases o with
  | next t => exact ⟨t, rfl, h⟩
  | fault _ => cases h
  | refused _ => cases h

/-- The reset state with the command word latched and running. -/
def running (w : CmdWord) : State := State.reset.issue w

/-- The running command of SIGN in random mode, or of RAND, with this response on the RNG port. -/
def withRng (s : State) (data : BitVec 512) : State :=
  { s with rngPort := .answered data, stage := if s.cmdLast.extractLsb' 0 8 = 0x30#8 then .random else .start, attempt := 1 }

/-- The running command at a candidate of the generator, with this response on the HMAC port. -/
def withHmac (s : State) (data : BitVec 256) : State :=
  { s with hmacPort := .answered data, stage := .drbg .next, attempt := 1 }

/-- The bytes at the start of `BUF`, and `BUF_LEN`. -/
def withBuf (s : State) (len : Nat) (bytes : List Byte) : State :=
  { s with buf := s.buf.writeAll 0 bytes, bufLen := BitVec.ofNat 8 len }

/-- The reset state with the events to come. -/
def awaiting (s : State) (events : List Input) : State := { s with inputs := events }

/-- The curve `y² = x³ + 2x + 7` over 11 elements, whose group has the 7 points of `G = (6, 2)`. -/
def smallCurve : Curve := { p := 11#256, a := 2#256, b := 7#256, gx := 6#256, gy := 2#256, n := 7#256 }

/-- The reset state with that curve. -/
def small : State := { State.reset with curve := smallCurve }

/-! One step of each command. -/

/-- R69, V-MOD-41. -/
theorem test_nop :
    After 0x00000000#32 State.reset fun t => t.errcode = .ok ∧ t.status.word = 2#32 ∧ t.regs = State.reset.regs := by
  decide +kernel

/-- R70. -/
theorem test_mov :
    After 0x00000301#32 (State.reset.setReg 0 5#256) fun t => t.errcode = .ok ∧ t.reg 3 = 5#256 ∧ t.reg 0 = 5#256 := by
  decide +kernel

/-- R71 example. -/
theorem test_add_wraps :
    After 0x00010210#32 ((State.reset.setReg 0 0xffffffffffffffffffffffffffffffffffffffffffffffffffffffffffffffff#256).setReg 1 0xffffffffffffffffffffffffffffffffffffffffffffffffffffffffffffffff#256) fun t =>
      t.errcode = .ok ∧ t.reg 2 = 0x2000007a0#256 := by
  decide +kernel

/-- V-MOD-2. -/
theorem test_add_n :
    After 0x01010210#32 (State.reset.setReg 0 0xffffffffffffffffffffffffffffffffffffffffffffffffffffffffffffffff#256) fun t =>
      t.errcode = .ok ∧ t.reg 2 = 0x14551231950b75fc4402da1732fc9bebe#256 := by
  decide +kernel

/-- R72 example. -/
theorem test_sub_negative :
    After 0x00010211#32 (State.reset.setReg 1 1#256) fun t =>
      t.errcode = .ok ∧ t.reg 2 = 0xfffffffffffffffffffffffffffffffffffffffffffffffffffffffefffffc2e#256 := by
  decide +kernel

/-- R72 example. -/
theorem test_sub_n :
    After 0x01010211#32 ((State.reset.setReg 0 5#256).setReg 1 7#256) fun t =>
      t.errcode = .ok ∧ t.reg 2 = 0xfffffffffffffffffffffffffffffffebaaedce6af48a03bbfd25e8cd036413f#256 := by
  decide +kernel

/-- V-MOD-6. -/
theorem test_mul :
    After 0x00010212#32 ((State.reset.setReg 0 0x100000000000000000000000000000000#256).setReg 1 0x100000000000000000000000000000000#256) fun t =>
      t.errcode = .ok ∧ t.reg 2 = 0x1000003d1#256 := by
  decide +kernel

/-- R73 example. -/
theorem test_mul_n :
    After 0x01010212#32 ((State.reset.setReg 0 0x8000000000000000000000000000000000000000000000000000000000000000#256).setReg 1 2#256) fun t =>
      t.errcode = .ok ∧ t.reg 2 = 0x14551231950b75fc4402da1732fc9bebf#256 := by
  decide +kernel

/-- V-MOD-8. -/
theorem test_mmul :
    After 0x00010213#32 ((State.reset.setReg 0 1#256).setReg 1 1#256) fun t =>
      t.errcode = .ok ∧ t.reg 2 = 0xc9bd1905155383999c46c2c295f2b761bcb223fedc24a059d838091d0868192a#256 := by
  decide +kernel

/-- R75 example. -/
theorem test_red :
    After 0x00000114#32 (State.reset.setReg 0 0xffffffffffffffffffffffffffffffffffffffffffffffffffffffffffffffff#256) fun t =>
      t.errcode = .ok ∧ t.reg 1 = 0x1000003d0#256 := by
  decide +kernel

/-- V-MOD-36, for RED. -/
theorem test_red_bad_modulus :
    After 0x00000114#32 { State.reset with curve := { Curve.reset with p := 16#256 } } fun t =>
      t.errcode = .badModulus ∧ t.status.err = true ∧ t.regs = State.reset.regs := by
  decide +kernel

/-- V-MOD-13. -/
theorem test_redw :
    After 0x01000215#32 ((State.reset.setReg 0 0xffffffffffffffffffffffffffffffffffffffffffffffffffffffffffffffff#256).setReg 1 0xffffffffffffffffffffffffffffffffffffffffffffffffffffffffffffffff#256) fun t =>
      t.errcode = .ok ∧ t.reg 2 = 0x9d671cd581c69bc5e697f5e45bcd07c6741496c20e7cf878896cf21467d7d13f#256 := by
  decide +kernel

/-- V-MOD-12. -/
theorem test_redw_high_half :
    After 0x00000215#32 (State.reset.setReg 1 1#256) fun t => t.errcode = .ok ∧ t.reg 2 = 0x1000003d1#256 := by
  decide +kernel

/-- V-MOD-15. -/
theorem test_pow_zero_zero :
    After 0x00010216#32 State.reset fun t => t.errcode = .ok ∧ t.reg 2 = 1#256 := by
  decide +kernel

/-- V-MOD-18. -/
theorem test_pow_n :
    After 0x01010216#32 ((State.reset.setReg 0 2#256).setReg 1 10#256) fun t => t.errcode = .ok ∧ t.reg 2 = 1024#256 := by
  decide +kernel

/-- E1. -/
theorem test_inv :
    After 0x01000117#32 { State.reset.setReg 0 564#256 with curve := { Curve.reset with n := 41621#256 } } fun t =>
      t.errcode = .ok ∧ t.reg 1 = 7601#256 := by
  decide +kernel

/-- V-MOD-22. -/
theorem test_inv_none :
    After 0x00000117#32 (State.reset.setReg 0 0xfffffffffffffffffffffffffffffffffffffffffffffffffffffffefffffc2f#256) fun t =>
      t.errcode = .noInverse ∧ t.status.err = true ∧ t.reg 1 = 0#256 := by
  decide +kernel

/-- V-MOD-24. -/
theorem test_div :
    After 0x00010218#32 ((State.reset.setReg 0 6#256).setReg 1 3#256) fun t => t.errcode = .ok ∧ t.reg 2 = 2#256 := by
  decide +kernel

/-- V-MOD-25. -/
theorem test_div_by_zero :
    After 0x00010218#32 ((State.reset.setReg 0 1#256).setReg 1 0xfffffffffffffffffffffffffffffffffffffffffffffffffffffffefffffc2f#256) fun t =>
      t.errcode = .noInverse ∧ t.status.err = true ∧ t.reg 2 = 0#256 := by
  decide +kernel

/-- V-MOD-27. -/
theorem test_sqrt_order :
    After 0x00200119#32 (State.reset.setReg 0 9#256) fun t =>
      t.errcode = .ok ∧ t.reg 1 = 0xfffffffffffffffffffffffffffffffffffffffffffffffffffffffefffffc2c#256 ∧ t.reg 2 = 3#256 := by
  decide +kernel

/-- V-MOD-31. -/
theorem test_sqrt_unsupported :
    After 0x01200119#32 (State.reset.setReg 0 4#256) fun t =>
      t.errcode = .unsupportedModulus ∧ t.status.err = true ∧ t.reg 2 = 0#256 := by
  decide +kernel

/-- R122. -/
theorem test_rand_sends :
    After 0x0000001A#32 State.reset fun t => t.rngReq = true ∧ t.status.busy = true := by
  decide +kernel

/-- V-MOD-34. -/
theorem test_rand :
    Turned (withRng (running 0x0000001A#32) 0x3f3e3d3c3b3a393837363534333231302f2e2d2c2b2a292827262524232221201f1e1d1c1b1a191817161514131211100f0e0d0c0b0a09080706050403020100#512) fun t =>
      t.errcode = .ok ∧ t.reg 0 = 0x27fed5ac835a3107deb58c633a10e7be956c4319f0c79e754c23fbd38b35e001#256 := by
  decide +kernel

/-- V-PT-7. -/
theorem test_pinf :
    After 0x00000320#32 (State.reset.setPoint 3 (.affine 0x79be667ef9dcbbac55a06295ce870b07029bfcdb2dce28d959f2815b16f81798#256 0x483ada7726a3c4655da4fbfc0e1108a8fd17b448a68554199c47d08ffb10d4b8#256)) fun t =>
      t.errcode = .ok ∧ t.point 3 = .inf := by
  decide +kernel

/-- V-PT-1. -/
theorem test_pgen :
    After 0x00000021#32 State.reset fun t =>
      t.errcode = .ok ∧ t.point 0 = .affine 0x79be667ef9dcbbac55a06295ce870b07029bfcdb2dce28d959f2815b16f81798#256 0x483ada7726a3c4655da4fbfc0e1108a8fd17b448a68554199c47d08ffb10d4b8#256 := by
  decide +kernel

/-- V-PT-2. -/
theorem test_pgen_off_curve :
    After 0x00000021#32 { State.reset with curve := { Curve.reset with gy := 0x483ada7726a3c4655da4fbfc0e1108a8fd17b448a68554199c47d08ffb10d4b9#256 } } fun t =>
      t.errcode = .pointNotOnCurve ∧ t.status.err = true ∧ t.point 0 = .inf := by
  decide +kernel

/-- V-PT-4. -/
theorem test_pset :
    After 0x00010122#32 ((State.reset.setReg 0 0x79be667ef9dcbbac55a06295ce870b07029bfcdb2dce28d959f2815b16f81798#256).setReg 1 0xb7c52588d95c3b9aa25b0403f1eef75702e84bb7597aabe663b82f6f04ef2777#256) fun t =>
      t.errcode = .ok ∧ t.point 1 = .affine 0x79be667ef9dcbbac55a06295ce870b07029bfcdb2dce28d959f2815b16f81798#256 0xb7c52588d95c3b9aa25b0403f1eef75702e84bb7597aabe663b82f6f04ef2777#256 := by
  decide +kernel

/-- V-PT-6. -/
theorem test_pset_off_curve :
    After 0x00010122#32 State.reset fun t => t.errcode = .pointNotOnCurve ∧ t.status.err = true ∧ t.point 1 = .inf := by
  decide +kernel

/-- V-PT-8. -/
theorem test_pmov :
    After 0x00000223#32 (State.reset.setPoint 0 (.affine 0x79be667ef9dcbbac55a06295ce870b07029bfcdb2dce28d959f2815b16f81798#256 0x483ada7726a3c4655da4fbfc0e1108a8fd17b448a68554199c47d08ffb10d4b8#256)) fun t =>
      t.errcode = .ok ∧ t.point 2 = .affine 0x79be667ef9dcbbac55a06295ce870b07029bfcdb2dce28d959f2815b16f81798#256 0x483ada7726a3c4655da4fbfc0e1108a8fd17b448a68554199c47d08ffb10d4b8#256 ∧ t.point 0 = .affine 0x79be667ef9dcbbac55a06295ce870b07029bfcdb2dce28d959f2815b16f81798#256 0x483ada7726a3c4655da4fbfc0e1108a8fd17b448a68554199c47d08ffb10d4b8#256 := by
  decide +kernel

/-- V-PT-9. -/
theorem test_pgetx :
    After 0x00001024#32 (State.reset.setPoint 1 (.affine 0x79be667ef9dcbbac55a06295ce870b07029bfcdb2dce28d959f2815b16f81798#256 0x483ada7726a3c4655da4fbfc0e1108a8fd17b448a68554199c47d08ffb10d4b8#256)) fun t =>
      t.errcode = .ok ∧ t.reg 0 = 0x79be667ef9dcbbac55a06295ce870b07029bfcdb2dce28d959f2815b16f81798#256 := by
  decide +kernel

/-- R94, P2. -/
theorem test_pgety :
    After 0x00002125#32 (State.reset.setPoint 2 (.affine 0x79be667ef9dcbbac55a06295ce870b07029bfcdb2dce28d959f2815b16f81798#256 0x483ada7726a3c4655da4fbfc0e1108a8fd17b448a68554199c47d08ffb10d4b8#256)) fun t =>
      t.errcode = .ok ∧ t.reg 1 = 0x483ada7726a3c4655da4fbfc0e1108a8fd17b448a68554199c47d08ffb10d4b8#256 := by
  decide +kernel

/-- V-PT-10. -/
theorem test_pgety_inf :
    After 0x00001025#32 State.reset fun t => t.errcode = .pointAtInfinity ∧ t.status.err = true ∧ t.reg 0 = 0#256 := by
  decide +kernel

/-- V-PT-11. -/
theorem test_padd_double :
    After 0x00010226#32 ((State.reset.setPoint 0 (.affine 0x79be667ef9dcbbac55a06295ce870b07029bfcdb2dce28d959f2815b16f81798#256 0x483ada7726a3c4655da4fbfc0e1108a8fd17b448a68554199c47d08ffb10d4b8#256)).setPoint 1 (.affine 0x79be667ef9dcbbac55a06295ce870b07029bfcdb2dce28d959f2815b16f81798#256 0x483ada7726a3c4655da4fbfc0e1108a8fd17b448a68554199c47d08ffb10d4b8#256)) fun t =>
      t.errcode = .ok ∧ t.point 2 = .affine 0xc6047f9441ed7d6d3045406e95c07cd85c778e4b8cef3ca7abac09b95c709ee5#256 0x1ae168fea63dc339a3c58419466ceaeef7f632653266d0e1236431a950cfe52a#256 := by
  decide +kernel

/-- V-PT-13. -/
theorem test_padd_opposite :
    After 0x00010226#32 ((State.reset.setPoint 0 (.affine 0x79be667ef9dcbbac55a06295ce870b07029bfcdb2dce28d959f2815b16f81798#256 0x483ada7726a3c4655da4fbfc0e1108a8fd17b448a68554199c47d08ffb10d4b8#256)).setPoint 1 (.affine 0x79be667ef9dcbbac55a06295ce870b07029bfcdb2dce28d959f2815b16f81798#256 0xb7c52588d95c3b9aa25b0403f1eef75702e84bb7597aabe663b82f6f04ef2777#256)) fun t =>
      t.errcode = .ok ∧ t.point 2 = .inf := by
  decide +kernel

/-- V-PT-18. -/
theorem test_pmul :
    After 0x00000127#32 ((State.reset.setPoint 0 (.affine 0x79be667ef9dcbbac55a06295ce870b07029bfcdb2dce28d959f2815b16f81798#256 0x483ada7726a3c4655da4fbfc0e1108a8fd17b448a68554199c47d08ffb10d4b8#256)).setReg 0 3#256) fun t =>
      t.errcode = .ok ∧ t.point 1 = .affine 0xf9308a019258c31049344f85f89d5229b531c845836f99b08601f113bce036f9#256 0x388f7b0f632de8140fe337e62a37f3566500a99934c2231b6cb9fd7584b8e672#256 := by
  decide +kernel

/-- V-PT-20. -/
theorem test_pmul_out_of_range :
    After 0x00000127#32 ((State.reset.setPoint 0 (.affine 0x79be667ef9dcbbac55a06295ce870b07029bfcdb2dce28d959f2815b16f81798#256 0x483ada7726a3c4655da4fbfc0e1108a8fd17b448a68554199c47d08ffb10d4b8#256)).setReg 0 0xfffffffffffffffffffffffffffffffebaaedce6af48a03bbfd25e8cd0364141#256) fun t =>
      t.errcode = .scalarOutOfRange ∧ t.status.err = true ∧ t.point 1 = .inf := by
  decide +kernel

/-- V-PT-22. -/
theorem test_pmuladd :
    After 0x00610328#32 ((((State.reset.setPoint 0 (.affine 0x79be667ef9dcbbac55a06295ce870b07029bfcdb2dce28d959f2815b16f81798#256 0x483ada7726a3c4655da4fbfc0e1108a8fd17b448a68554199c47d08ffb10d4b8#256)).setPoint 1 (.affine 0x79be667ef9dcbbac55a06295ce870b07029bfcdb2dce28d959f2815b16f81798#256 0x483ada7726a3c4655da4fbfc0e1108a8fd17b448a68554199c47d08ffb10d4b8#256)).setReg 6 2#256).setReg 7 3#256) fun t =>
      t.errcode = .ok ∧ t.point 3 = .affine 0x2f8bde4d1a07209355b4a7250a5c5128e88b84bddc619ab7cba8d569b240efe4#256 0xd8ac222636e5e3d6d4dba9dda6c9c426f788271bab0d6840dca87d3aa6ac62d6#256 := by
  decide +kernel

/-- V-PT-26. -/
theorem test_pfromx_odd :
    After 0x02000029#32 (State.reset.setReg 0 1#256) fun t =>
      t.errcode = .ok ∧ t.point 0 = .affine 1#256 0xbde70df51939b94c9c24979fa7dd04ebd9b3572da7802290438af2a681895441#256 := by
  decide +kernel

/-- V-PT-30. -/
theorem test_pfromx_range :
    After 0x00000029#32 (State.reset.setReg 0 0xfffffffffffffffffffffffffffffffffffffffffffffffffffffffefffffc2f#256) fun t =>
      t.errcode = .pointNotOnCurve ∧ t.status.err = true ∧ t.point 0 = .inf := by
  decide +kernel

/-- V-PT-31. -/
theorem test_encode_c :
    After 0x0200002A#32 (State.reset.setPoint 0 (.affine 0x79be667ef9dcbbac55a06295ce870b07029bfcdb2dce28d959f2815b16f81798#256 0x483ada7726a3c4655da4fbfc0e1108a8fd17b448a68554199c47d08ffb10d4b8#256)) fun t =>
      t.errcode = .ok ∧ t.bufLen = 33#8 ∧ t.buf.slice 0 34 = [0x02#8, 0x79#8, 0xbe#8, 0x66#8, 0x7e#8, 0xf9#8, 0xdc#8, 0xbb#8, 0xac#8, 0x55#8, 0xa0#8, 0x62#8, 0x95#8, 0xce#8, 0x87#8, 0x0b#8, 0x07#8, 0x02#8, 0x9b#8, 0xfc#8, 0xdb#8, 0x2d#8, 0xce#8, 0x28#8, 0xd9#8, 0x59#8, 0xf2#8, 0x81#8, 0x5b#8, 0x16#8, 0xf8#8, 0x17#8, 0x98#8, 0x00#8] := by
  decide +kernel

/-- V-PT-32. -/
theorem test_encode_u :
    After 0x0000002A#32 (State.reset.setPoint 0 (.affine 0x79be667ef9dcbbac55a06295ce870b07029bfcdb2dce28d959f2815b16f81798#256 0x483ada7726a3c4655da4fbfc0e1108a8fd17b448a68554199c47d08ffb10d4b8#256)) fun t =>
      t.errcode = .ok ∧ t.bufLen = 65#8 ∧ t.buf.slice 0 3 = [0x04#8, 0x79#8, 0xbe#8] ∧ t.buf.slice 62 4 = [0x10#8, 0xd4#8, 0xb8#8, 0x00#8] := by
  decide +kernel

/-- V-PT-35. -/
theorem test_decode_odd :
    After 0x0000002B#32 (withBuf State.reset 33 (0x03#8 :: bytes32 Config.secpGx)) fun t =>
      t.errcode = .ok ∧ t.point 0 = .affine 0x79be667ef9dcbbac55a06295ce870b07029bfcdb2dce28d959f2815b16f81798#256 0xb7c52588d95c3b9aa25b0403f1eef75702e84bb7597aabe663b82f6f04ef2777#256 := by
  decide +kernel

/-- V-PT-39. -/
theorem test_decode_hybrid :
    After 0x0000002B#32 (withBuf State.reset 65 (0x06#8 :: (bytes32 Config.secpGx ++ bytes32 Config.secpGy))) fun t =>
      t.errcode = .invalidEncoding ∧ t.status.err = true ∧ t.point 0 = .inf := by
  decide +kernel

/-- R102, R103. -/
theorem test_nonce_begins :
    After 0x00010233#32 State.reset fun t =>
      t.status.busy = true ∧ t.stage = .drbg .initK0 ∧ t.drbgK = 0#256 ∧ t.drbgV = 0x101010101010101010101010101010101010101010101010101010101010101#256 := by
  decide +kernel

/-- E2, transaction 5. -/
theorem test_nonce_accepts :
    Turned (withHmac (running 0x00010233#32) 0x583c3b33a44bd01bc2fb796c3fe2f3a6a15ff9a15cadf71e72c6754c6d3cacdc#256) fun t =>
      t.errcode = .ok ∧ t.reg 2 = 0xdcac3c6d4c75c6721ef7ad5ca1f95fa1a6f3e23f6c79fbc21bd04ba4333b3c58#256 ∧ t.attempts = 1#16 := by
  decide +kernel

/-- V-ECDSA-11. -/
theorem test_sign_rnd :
    Turned (withRng (((running 0x00010430#32).setReg 0 0x44ce8e536ea4e4c61b42862bc98f8c574942fb77121e27f316cb15a96d9c99a#256).setReg 1 0xe4e90cf9bf8145f8def57bb3c0af1322624634ac887c350a687d58983f9ceb90#256) 0x7000000000000000000000000000000000000000000000000000000000000000000000000000000000000000000000000000000000000000000000000000000#512) fun t =>
      t.errcode = .ok ∧ t.reg 4 = 0x5cbdf0646e5db4eaa398f365f2ea7a0e3d419b7e0330e39ce92bddedcac4f9bc#256 ∧ t.reg 5 = 0x3144c1440fbe463ce99728d78de67d30617416633d215cdd1b83a946979b0df#256 ∧ t.reg 6 = 0x1c#256 ∧ t.attempts = 1#16 := by
  decide +kernel

/-- V-ECDSA-10. -/
theorem test_sign_bad_key :
    After 0x02010430#32 (State.reset.setReg 0 0xfffffffffffffffffffffffffffffffebaaedce6af48a03bbfd25e8cd0364141#256) fun t =>
      t.errcode = .invalidPrivateKey ∧ t.status.err = true ∧ t.attempts = 0#16 := by
  decide +kernel

/-- V-ECDSA-11 with the chain id of V-ECDSA-5. -/
theorem test_sign_cid :
    Turned (withRng ((((running 0x04210430#32).setReg 0 0x44ce8e536ea4e4c61b42862bc98f8c574942fb77121e27f316cb15a96d9c99a#256).setReg 1 0xe4e90cf9bf8145f8def57bb3c0af1322624634ac887c350a687d58983f9ceb90#256).setReg 2 1#256) 0x7000000000000000000000000000000000000000000000000000000000000000000000000000000000000000000000000000000000000000000000000000000#512) fun t =>
      t.errcode = .ok ∧ t.reg 4 = 0x5cbdf0646e5db4eaa398f365f2ea7a0e3d419b7e0330e39ce92bddedcac4f9bc#256 ∧ t.reg 6 = 0x26#256 := by
  decide +kernel

/-- V-ECDSA-7. -/
theorem test_sign_cid_too_wide :
    Turned (withRng ((((running 0x04210430#32).setReg 0 0x44ce8e536ea4e4c61b42862bc98f8c574942fb77121e27f316cb15a96d9c99a#256).setReg 1 0xe4e90cf9bf8145f8def57bb3c0af1322624634ac887c350a687d58983f9ceb90#256).setReg 2 0x8000000000000000000000000000000000000000000000000000000000000000#256) 0x7000000000000000000000000000000000000000000000000000000000000000000000000000000000000000000000000000000000000000000000000000000#512) fun t =>
      t.errcode = .chainidRange ∧ t.reg 4 = 0#256 ∧ t.attempts = 1#16 := by
  decide +kernel

/-- V-ECDSA-19. -/
theorem test_verify_range :
    After 0x00014731#32 (State.reset.setReg 5 1#256) fun t =>
      t.errcode = .signatureOutOfRange ∧ t.status.err = true ∧ t.reg 7 = 0#256 := by
  decide +kernel

/-- V-ECDSA-27. -/
theorem test_recover_low_v :
    After 0x00014232#32 (((State.reset.setReg 4 1#256).setReg 5 1#256).setReg 6 26#256) fun t =>
      t.errcode = .invalidRecoveryId ∧ t.status.err = true ∧ t.point 2 = .inf := by
  decide +kernel

/-- R105 on the curve of 7 points over 11, by hand. -/
theorem test_verify :
    After 0x00014731#32 (withBuf (((small.setReg 4 3#256).setReg 5 2#256).setReg 1 1#256) 65 (0x04#8 :: (bytes32 7#256 ++ bytes32 10#256))) fun t =>
      t.errcode = .ok ∧ t.reg 7 = 1#256 := by
  decide +kernel

/-- R106 on the same curve. -/
theorem test_recover :
    After 0x00014232#32 ((((small.setReg 4 3#256).setReg 5 2#256).setReg 6 29#256).setReg 1 1#256) fun t =>
      t.errcode = .ok ∧ t.point 2 = .affine 7#256 10#256 := by
  decide +kernel

/-! The words of R53 and R58, written out: reserved(5) G F M C(4) B(4) A(4) D(4) OP(8). -/

theorem test_decode_nop : decode 0b00000_0_0_0_0000_0000_0000_0000_00000000#32 = .ok (.nop) := by decide

theorem test_decode_mov : decode 0b00000_0_0_0_0000_0000_1001_0011_00000001#32 = .ok (.mov 3 9) := by decide

theorem test_decode_add : decode 0b00000_0_0_1_0000_1111_0000_0010_00010000#32 = .ok (.add 2 0 15 .n) := by decide

theorem test_decode_sub : decode 0b00000_0_0_0_0000_0001_0111_1110_00010001#32 = .ok (.sub 14 7 1 .p) := by decide

theorem test_decode_mul : decode 0b00000_0_0_1_0000_0111_0110_0101_00010010#32 = .ok (.mul 5 6 7 .n) := by decide

theorem test_decode_mmul : decode 0b00000_0_0_0_0000_0011_0010_0001_00010011#32 = .ok (.mmul 1 2 3 .p) := by decide

theorem test_decode_red : decode 0b00000_0_0_1_0000_0000_1000_1111_00010100#32 = .ok (.red 15 8 .n) := by decide

theorem test_decode_redw : decode 0b00000_0_0_0_0000_0000_1110_0000_00010101#32 = .ok (.redw 0 14 .p) := by decide

theorem test_decode_pow : decode 0b00000_0_0_1_0000_0010_0011_0100_00010110#32 = .ok (.pow 4 3 2 .n) := by decide

theorem test_decode_inv : decode 0b00000_0_0_0_0000_0000_1010_1001_00010111#32 = .ok (.inv 9 10 .p) := by decide

theorem test_decode_div : decode 0b00000_0_0_1_0000_1101_1100_1011_00011000#32 = .ok (.div 11 12 13 .n) := by decide

theorem test_decode_sqrt : decode 0b00000_0_0_0_0100_0000_0001_0011_00011001#32 = .ok (.sqrt 3 4 1 .p) := by decide

theorem test_decode_rand : decode 0b00000_0_0_1_0000_0000_0000_1000_00011010#32 = .ok (.rand 8 .n) := by decide

theorem test_decode_pinf : decode 0b00000_0_0_0_0000_0000_0000_0111_00100000#32 = .ok (.pinf 7) := by decide

theorem test_decode_pgen : decode 0b00000_0_0_0_0000_0000_0000_0110_00100001#32 = .ok (.pgen 6) := by decide

theorem test_decode_pset : decode 0b00000_0_0_0_0000_1110_1111_0101_00100010#32 = .ok (.pset 5 15 14) := by decide

theorem test_decode_pmov : decode 0b00000_0_0_0_0000_0000_0111_0100_00100011#32 = .ok (.pmov 4 7) := by decide

theorem test_decode_pgetx : decode 0b00000_0_0_0_0000_0000_0111_1111_00100100#32 = .ok (.pgetx 15 7) := by decide

theorem test_decode_pgety : decode 0b00000_0_0_0_0000_0000_0011_1001_00100101#32 = .ok (.pgety 9 3) := by decide

theorem test_decode_padd : decode 0b00000_0_0_0_0000_0011_0010_0001_00100110#32 = .ok (.padd 1 2 3) := by decide

theorem test_decode_pmul : decode 0b00000_0_0_0_0000_1100_0010_0001_00100111#32 = .ok (.pmul 1 2 12) := by decide

theorem test_decode_pmuladd : decode 0b00000_0_0_0_1110_0001_0000_0011_00101000#32 = .ok (.pmuladd 3 0 1 14) := by decide

theorem test_decode_pfromx : decode 0b00000_0_1_0_0000_0000_1011_0010_00101001#32 = .ok (.pfromx 2 11 true) := by decide

theorem test_decode_encode : decode 0b00000_0_1_0_0000_0000_0101_0000_00101010#32 = .ok (.encode 5 true) := by decide

theorem test_decode_decode : decode 0b00000_0_0_0_0000_0000_0000_0011_00101011#32 = .ok (.decode 3) := by decide

theorem test_decode_sign : decode 0b00000_0_1_0_0000_0010_0001_1101_00110000#32 = .ok (.sign 13 1 2 true) := by decide

theorem test_decode_sign_cid : decode 0b00000_1_0_0_0010_0001_0000_0100_00110000#32 = .ok (.signCid 4 0 1 2 false) := by decide

theorem test_decode_verify : decode 0b00000_0_0_0_0000_0001_1110_0111_00110001#32 = .ok (.verify 7 14 1) := by decide

theorem test_decode_recover : decode 0b00000_0_0_0_0000_0001_1101_0010_00110010#32 = .ok (.recover 2 13 1) := by decide

theorem test_decode_nonce : decode 0b00000_0_0_0_0000_1100_1001_0110_00110011#32 = .ok (.nonce 6 9 12) := by decide

/-! Words that are no command, and why (R59, R60). -/

theorem test_refuses_unassigned : decode 0x0000002C#32 = .error .unassignedOpcode := by decide

theorem test_refuses_reserved_bit : decode 0x80000010#32 = .error .reservedBits := by decide

theorem test_refuses_unused_field : decode 0x00001000#32 = .error .unusedField := by decide

theorem test_refuses_sign_unused_c : decode 0x00200430#32 = .error .unusedField := by decide

theorem test_refuses_point_register : decode 0x00000820#32 = .error .pointRegister := by decide

theorem test_refuses_register_group : decode 0x0000F215#32 = .error .registerGroup := by decide

/-! Smoke tests of WellFormed: one ill-formed term for each check. -/

theorem test_ill_formed_redw : Instr.wellFormed (.redw 0 15 .p) = false := by decide

theorem test_ill_formed_sqrt : Instr.wellFormed (.sqrt 3 3 1 .p) = false := by decide

theorem test_ill_formed_pmuladd : Instr.wellFormed (.pmuladd 0 0 0 15) = false := by decide

theorem test_ill_formed_sign : Instr.wellFormed (.sign 14 0 1 true) = false := by decide

theorem test_ill_formed_sign_cid : Instr.wellFormed (.signCid 15 0 1 2 false) = false := by decide

theorem test_ill_formed_verify : Instr.wellFormed (.verify 0 15 1) = false := by decide

theorem test_ill_formed_recover : Instr.wellFormed (.recover 0 14 1) = false := by decide

/-- A term that is not well formed ends with `ILLEGAL_COMMAND` (entry 16). -/
theorem test_ill_formed_term_reports :
    ∃ t, exec (.redw 0 15 .p) State.reset = .next t ∧ t.errcode = .illegalCommand ∧ t.regs = State.reset.regs :=
  ⟨_, rfl, rfl, rfl⟩

/-! Transfers (vectors B-9, B-13, B-14, B-15 of spec/95_test_vectors.md section 5). -/

theorem test_misaligned_read :
    Turned (awaiting State.reset [hostRead 0x002]) fun t => t.response = some { data := 0#32, err := true } := by
  decide +kernel

theorem test_buf_len_keeps_eight_bits :
    Turned (awaiting State.reset [hostWrite 0x018 0x141#32]) fun t => t.bufLen = 0x41#8 ∧
      t.response = some { data := 0#32, err := false } := by
  decide +kernel

theorem test_word_order :
    Turned (awaiting (State.reset.setReg 0 0x0123456789abcdef#256) [hostRead 0x104]) fun t =>
      t.response = some { data := 0x01234567#32, err := false } := by
  decide +kernel

theorem test_buffer_lanes :
    Turned (awaiting (withBuf State.reset 4 [0x04#8, 0x79#8, 0xbe#8, 0x66#8]) [hostRead 0x600]) fun t =>
      t.response = some { data := 0x66BE7904#32, err := false } := by
  decide +kernel

/-! For each statement with hypotheses: a state and operands that meet them together, one for each clause. -/

/-- The curve `y² = x³ + 6` over 11 elements with `G = (4, 2)` of order 3. -/
def tinyCurve : Curve := { p := 11#256, a := 0#256, b := 6#256, gx := 4#256, gy := 2#256, n := 3#256 }

/-- The reset state with that curve. -/
def tiny : State := { State.reset with curve := tinyCurve }

/-- The state with the word latched and running, and these events to come. -/
def busy (s : State) (w : CmdWord) (events : List Input) : State := awaiting (s.issue w) events

theorem busy_engineNext (s : State) (w : CmdWord) (rest : List Input) (h : s.presetn = true) :
    (busy s w (.turn :: rest)).EngineNext rest := ⟨h, rfl, .inl rfl⟩

theorem good_three : ¬BadModulus 3 := by unfold BadModulus; decide

theorem good_seven : ¬BadModulus 7 := by unfold BadModulus; decide

theorem good_eleven : ¬BadModulus 11 := by unfold BadModulus; decide

theorem good_reset (m : ModSel) : ¬BadModulus (State.reset.curve.modulus m) := by
  unfold BadModulus; cases m <;> decide +kernel

theorem bad_sixteen : BadModulus 16 := by unfold BadModulus; decide

theorem bad_one : BadModulus 1 := by unfold BadModulus; decide

/-- The reset state with an invalid `CURVE.p`. -/
def evenP : State := { State.reset with curve := { Curve.reset with p := 16#256 } }

/-- The reset state with an invalid `CURVE.n`. -/
def oneN : State := { State.reset with curve := { Curve.reset with n := 1#256 } }

theorem evenP_bad : BadModulus evenP.curve.p.toNat := bad_sixteen

theorem oneN_bad : BadModulus oneN.curve.n.toNat := bad_one

/-! Encoding. -/

theorem witness_DecodeEncodeRoundTrip :
    ∀ i ∈ [Instr.redw 15 14 .n, .sqrt 15 0 15 .n, .pmuladd 7 7 7 14, .sign 13 15 15 true, .signCid 13 15 15 15 false,
      .verify 15 14 15, .recover 7 13 15, .nonce 15 15 15], i.wellFormed = true := by
  decide

theorem witness_EncodeDecodeRoundTrip : decode 0x06210430#32 = .ok (.signCid 4 0 1 2 true) := by decide

theorem witness_LegalWordsRunAndNoOthersDo :
    ((busy State.reset 0x00000002#32 [.turn]).EngineNext [] ∧ ¬LegalWord (busy State.reset 0x00000002#32 [.turn]).cmdLast) ∧
      (busy State.reset 0x02010E30#32 []).EngineNext [] ∧ ¬LegalWord (busy State.reset 0x02010E30#32 []).cmdLast :=
  ⟨⟨busy_engineNext _ _ _ rfl, fun h => absurd h.assigned (by unfold AssignedOpcode; decide)⟩, ⟨rfl, rfl, .inr ⟨rfl, rfl⟩⟩,
    fun h => absurd (h.sign (by decide)) (by decide)⟩

theorem witness_PseudoInstructionsMeanTheirExpansions :
    ¬BadModulus (State.reset.curve.modulus .p) ∧ State.reset.reg 2 = 0#256 ∧
      (small.setPoint 0 (.affine 6#256 2#256)).point 0 = .affine 6#256 2#256 ∧ ¬BadModulus small.curve.p.toNat ∧
      (2 * (((2#256 : Word).toNat : Nat) : Int)) % small.curve.p.toNat ≠ 0 ∧ (2#256 : Word).toNat < small.curve.p.toNat :=
  ⟨good_reset .p, by decide, by decide, good_eleven, by decide, by decide⟩

/-! The lifecycle. -/

theorem witness_StepRunsTheLatchedCommand :
    (busy State.reset 0x00000301#32 [.turn]).EngineNext [] ∧ decode (busy State.reset 0x00000301#32 [.turn]).cmdLast = .ok (.mov 3 0) ∧
      State.reset.status.busy = false ∧ State.reset.inputs = [] ∧ decode (BitVec.ofNat 32 (0x301 % 2 ^ 32)) = .ok (.mov 3 0) :=
  ⟨busy_engineNext _ _ _ rfl, by decide, rfl, rfl, by decide⟩

/-- The state that an accepted write of `NOP`'s word leaves, with the engine's turn next. -/
theorem witness_AcceptedWriteOfCmdIssues :
    (awaiting State.reset [hostWrite 0x014 0#32, .turn]).presetn = true ∧
      (awaiting State.reset [hostWrite 0x014 0#32, .turn]).status.busy = false ∧
      (busy State.reset 0#32 [hostWrite 0x014 1#32]).status.busy = true ∧
      (busy State.reset 0#32 [.turn]).EngineNext [] :=
  ⟨rfl, rfl, rfl, busy_engineNext _ _ _ rfl⟩

theorem witness_PortlessCommandsAlwaysComplete : usesPort .nop = false ∧ usesPort (.encode 0 true) = false := by decide

theorem witness_FailedCommandsWriteNothing :
    (busy State.reset 0x00001025#32 [.turn]).EngineNext [] ∧
      ∃ t, step (busy State.reset 0x00001025#32 [.turn]) = .next t ∧ t.status.busy = false ∧ t.errcode ≠ .ok :=
  ⟨busy_engineNext _ _ _ rfl, _, rfl, rfl, by decide⟩

theorem witness_CommandsWriteOnlyTheirDestinations :
    (∃ t, exec (.mov 1 2) State.reset = .next t) ∧ (∀ a compressed, Instr.nop ≠ .encode a compressed) ∧
      countsAttempts .nop = false ∧ usesPort .nop = false :=
  ⟨⟨_, rfl⟩, by simp, rfl, rfl⟩

theorem witness_BadModulusComesFirst :
    (Instr.wellFormed (.add 0 0 0 .p) = true ∧ ∃ m ∈ checkedModuli (.add 0 0 0 .p), BadModulus (evenP.curve.modulus m)) ∧
      (Instr.wellFormed (.nonce 0 0 0) = true ∧ ∃ m ∈ checkedModuli (.nonce 0 0 0), BadModulus (oneN.curve.modulus m)) ∧
      (∀ m ∈ checkedModuli (.pmul 0 0 0), ¬BadModulus (State.reset.curve.modulus m)) ∧ State.reset.errcode = .ok ∧
      ∃ t, exec (.pmul 0 0 0) State.reset = .next t ∧ t.status.done = true :=
  ⟨⟨rfl, .p, by decide, evenP_bad⟩, ⟨rfl, .n, by decide, oneN_bad⟩, fun m _ => good_reset m, rfl,
    next_of_yields (post := fun t => t.status.done) (by decide +kernel)⟩

theorem witness_ModularResultsAreCanonical :
    modularResult (.sqrt 1 2 0 .p) = some ([1, 2], .p) ∧
      (busy (State.reset.setReg 0 9#256) 0x00200119#32 []).status.busy = true ∧
      ∃ t, exec (.sqrt 1 2 0 .p) (busy (State.reset.setReg 0 9#256) 0x00200119#32 []) = .next t ∧
        decide (t.status.busy = false ∧ t.errcode = .ok) = true :=
  ⟨rfl, rfl, next_of_yields (post := fun t => decide (t.status.busy = false ∧ t.errcode = .ok)) (by decide +kernel)⟩

/-- A running command with the ports as given. -/
def busyPorts (h : HmacPort) (r : RngPort) (events : List Input) : State :=
  { busy State.reset 0x00010233#32 events with hmacPort := h, rngPort := r }

/-- Idle and busy, with each state of the ports: none, presented, taken, requested and answered; and the orphaned requests. -/
theorem witness_AbortEndsTheRunningCommand :
    (0x3#32 : BusWord).getLsbD 1 = true ∧ (0x3#32 : BusWord).getLsbD 2 = false ∧
      (awaiting State.reset [hostWrite 0x008 0x3#32]).status.busy = false ∧
      (∀ h ∈ [HmacPort.idle, .presented { key := 0#256, msg := [] } true, .outstanding { key := 0#256, msg := [] } true,
          .answered 0#256], ∀ r ∈ [RngPort.idle, .requested true, .answered 0#512],
        (busyPorts h r [hostWrite 0x008 0x3#32]).presetn = true ∧ (busyPorts h r [hostWrite 0x008 0x3#32]).status.busy = true ∧
          (busyPorts h r [hostWrite 0x008 0x3#32]).inputs = [hostWrite 0x008 0x3#32] ∧
          (busyPorts h r [hostWrite 0x008 0x3#32]).hmacPort = h ∧ (busyPorts h r [hostWrite 0x008 0x3#32]).rngPort = r) ∧
      ∀ h ∈ [HmacPort.presented { key := 0#256, msg := [] } false, .outstanding { key := 0#256, msg := [] } false],
        ∀ e ∈ [Input.hmacReady, .hmacResponse 0#256, .rngAck 0#512],
          (busyPorts h (.requested false) [e]).presetn = true ∧ (busyPorts h (.requested false) [e]).inputs = [e] ∧
            (busyPorts h (.requested false) [e]).hmacPort = h ∧ (busyPorts h (.requested false) [e]).rngPort = .requested false :=
  ⟨by decide, by decide, by decide, fun _ _ _ _ => ⟨rfl, rfl, rfl, rfl, rfl⟩, fun _ _ _ _ => ⟨rfl, rfl, rfl, rfl⟩⟩

theorem witness_InterruptFollowsEnableAndDone :
    (∃ t, step (busy State.reset 0#32 [.turn]) = .next t ∧ t.status.busy = false) ∧
      (0x2#32 : BusWord).getLsbD 1 = true ∧ (0x1#32 : BusWord).getLsbD 1 = false ∧ (0x1#32 : BusWord).getLsbD 2 = false ∧
      (0x2#32 : BusWord).getLsbD 2 = false ∧
      (busy State.reset 0#32 [.turn]).EngineNext [] ∧
      ∀ s ∈ [awaiting State.reset [hostWrite 0x00C 0x2#32], awaiting State.reset [hostWrite 0x014 0x2#32],
        awaiting State.reset [hostWrite 0x008 0x1#32], busy State.reset 0#32 [hostWrite 0x008 0x2#32]], s.presetn = true :=
  ⟨⟨_, rfl, rfl⟩, by decide, by decide, by decide, by decide, busy_engineNext _ _ _ rfl, by decide⟩

/-! Reset and the window. -/

theorem witness_SoftResetRestoresTheResetState :
    (0xFFFFFFFF#32 : BusWord).getLsbD 2 = true ∧
      (busy State.reset 0#32 [hostWrite 0x008 0xFFFFFFFF#32]).presetn = true := by
  decide

/-- The reset state with `PRESETn` low. -/
def held (events : List Input) : State := awaiting (State.reset.setResetPin false) events

theorem witness_ResetPinHoldsTheBlockInReset :
    (busy State.reset 0x0000001A#32 [.resetPin false]).inputs = [.resetPin false] ∧
      (held [hostRead 0]).presetn = false ∧ (held [hostRead 0]).inputs = [.bus (.read 0#12)] ∧
      (awaiting State.reset [.hmacResponse 1#256]).hmacPort = .idle ∧ (awaiting State.reset [.rngAck 1#512]).rngPort = .idle := by
  decide

theorem witness_BusyBlockRefusesAccessesOfItsData :
    ∀ events ∈ [[hostWrite 0x014 1#32], [hostRead 0x100], [hostWrite 0x67C 1#32], [hostRead 0x3C0], [hostWrite 0x018 1#32],
        [hostRead 0x020], [hostWrite 0x00C 2#32], [hostWrite 0x008 1#32]],
      (busy State.reset 0x0000001A#32 events).presetn = true ∧ (busy State.reset 0x0000001A#32 events).status.busy = true ∧
        (busy State.reset 0x0000001A#32 events).inputs = events := by
  decide

theorem witness_BusyBlockRefusesAccessesOfItsData_control :
    controlRead (busy State.reset 0x0000001A#32 []) 0x014 = some 0x1A ∧ controlRead State.reset 0x020 = some 0xFF := by
  decide +kernel

theorem witness_MalformedTransfersHaveNoEffect :
    State.reset.presetn = true ∧ (0x001#12 : Offset).extractLsb' 0 2 ≠ 0#2 ∧ (0xFFF#12 : Offset).extractLsb' 0 2 ≠ 0#2 ∧
      (0b0111#4 : BitVec 4) ≠ 0b1111#4 := by
  decide

theorem witness_ReservedAndReadOnlyOffsetsAnswerErrors :
    ReservedOffset 0x028 ∧ ReservedOffset 0x0FC ∧ ReservedOffset 0x3C0 ∧ ReservedOffset 0x680 ∧ ReservedOffset 0xFFC ∧
      ReadOnlyOffset 0x000 ∧ ReadOnlyOffset 0x024 ∧ ReadOnlyOffset 0x400 ∧ ReadOnlyOffset 0x5FC := by
  unfold ReservedOffset ReadOnlyOffset; decide

theorem witness_ReadsHaveNoSideEffect :
    (busy State.reset 0#32 [.bus (.read 0x100#12), .bus (.read 0x100#12)]).inputs = [.bus (.read 0x100#12), .bus (.read 0x100#12)] := by
  decide

theorem witness_ControlRegistersReadAndWrite :
    controlRead State.reset 0x018 = some 0 ∧
      controlRead { State.reset with errcode := .noInverse } 0x010 = some 0x15 ∧ (awaiting State.reset [hostWrite 0x018 0xFF#32]).status.busy = false ∧
      (awaiting State.reset [hostWrite 0x00C 0x1F#32]).presetn = true ∧
      (awaiting State.reset [hostWrite 0x008 1#32]).presetn = true ∧
      (1#32).getLsbD 1 = false ∧ (1#32).getLsbD 2 = false := by
  decide

theorem witness_WordsOfWideValuesLieLittleEndian :
    ∀ event ∈ [hostRead (0x100 + 0x20 * 15 + 4 * 7), hostRead (0x400 + 0x40 * 7), hostRead (0x420 + 0x40 * 7 + 4 * 7),
        hostRead (0x3A0 + 4 * 7), hostWrite (0x100 + 0x20 * 15 + 4 * 7) 1#32, hostWrite (0x3A0 + 4 * 7) 1#32],
      (awaiting State.reset [event]).presetn = true ∧ (awaiting State.reset [event]).status.busy = false ∧
        (awaiting State.reset [event]).inputs = [event] := by
  decide

theorem witness_HostWrite256StoresTheValue :
    (awaiting State.reset (hostWrite256 (0x100 + 0x20 * 15) 1#256 ++ [.turn])).presetn = true ∧
      (awaiting State.reset (hostWrite256 0x3A0 1#256 ++ [.turn])).status.busy = false := by
  decide

theorem witness_BufferWordsLieInLittleEndianLanes :
    ∀ event ∈ [hostRead (0x600 + 4 * 31), hostWrite (0x600 + 4 * 31) 1#32],
      (awaiting State.reset [event]).presetn = true ∧ (awaiting State.reset [event]).status.busy = false ∧
        (awaiting State.reset [event]).buf.wf = true := by
  decide

theorem witness_RunningCommandKeepsInputsAndOutputs :
    (busy State.reset 0x0000001A#32 [.turn]).status.busy = true ∧
      ∃ t, step (busy State.reset 0x0000001A#32 [.turn]) = .next t ∧ t.status.busy = true :=
  ⟨rfl, _, rfl, rfl⟩

/-! Invariants. -/

/-- RAND running, its request unanswered. -/
def waitingRand (events : List Input) : State := { busy State.reset 0x0000001A#32 events with rngPort := .requested true }

theorem waitingRand_runs (events : List Input) : (waitingRand events).RunsRand := 
  ⟨rfl, 0, .p, (by decide : decode 0x0000001A#32 = .ok (.rand 0 .p)),
    (by decide +kernel : modulusValid (State.reset.curve.modulus .p) = true)⟩

/-- A state in the middle of a run that meets the invariant, and a step from it. -/
theorem witness_StepKeepsInv :
    (waitingRand [.rngAck 5#512]).Inv ∧ ∃ t, step (waitingRand [.rngAck 5#512]) = .next t :=
  ⟨{ bufCanonical := by decide
     attemptBound := by decide
     attemptsBound := by decide
     busyQuiet := fun _ => ⟨rfl, rfl, rfl⟩
     errHasCode := fun h => by cases h
     codeProduced := rfl
     drbgOwned := fun ⟨_, h⟩ => by cases h
     randomOwned := fun h => by cases h
     hmacOwned := fun h => by cases h
     rngOwned := fun _ => .inr (waitingRand_runs _)
     heldInReset := fun h => by cases h }, _, rfl⟩

theorem small_generator_onCurve : OnCurve small.curve small.curve.gx.toNat small.curve.gy.toNat := by decide +kernel

theorem small_prime : Nat.Prime small.curve.p.toNat := by
  change Nat.Prime 11
  norm_num

theorem witness_PointRegistersStayOnTheCurve :
    Nat.Prime (busy small 0x00000021#32 [.turn]).curve.p.toNat ∧
      OnCurve small.curve small.curve.gx.toNat small.curve.gy.toNat ∧ (busy small 0x00000021#32 [.turn]).PointsOnCurve ∧
      ∃ t, step (busy small 0x00000021#32 [.turn]) = .next t ∧
        decide (t.curve = (busy small 0x00000021#32 [.turn]).curve ∧ t.point 0 = .affine 6#256 2#256) = true := by
  refine ⟨small_prime, small_generator_onCurve, fun q x y h => ?_,
    next_of_yields (post := fun t =>
      decide (t.curve = (busy small 0x00000021#32 [.turn]).curve ∧ t.point 0 = .affine 6#256 2#256))
      (by decide +kernel)⟩
  have : ∀ q, (busy small 0x00000021#32 [.turn]).point q = .inf := by decide
  rw [this q] at h
  cases h

/-! The ports. -/

/-- NONCE running at a transaction of the generator. -/
def drbgAt (k : DrbgStep) (port : HmacPort) (events : List Input) : State :=
  { busy State.reset 0x00010233#32 events with stage := .drbg k, hmacPort := port }

theorem drbgAt_runs (k : DrbgStep) (port : HmacPort) (events : List Input) : (drbgAt k port events).RunsDrbg :=
  ⟨rfl, by change modulusValid State.reset.curve.nNat = true; decide +kernel, .inl ⟨2, 0, 1,
    (by decide : decode 0x00010233#32 = .ok (.nonce 2 0 1))⟩⟩

theorem witness_PortsCarryTheRequestsOfTheirCommands :
    (∃ t, step (drbgAt .initK0 .idle [.turn]) = .next t ∧
        decide ((drbgAt .initK0 .idle [.turn]).hmReqValid = false ∧ t.hmReqValid = true) = true) ∧
      (∃ t, step (busy State.reset 0x0000001A#32 [.turn]) = .next t ∧
        decide ((busy State.reset 0x0000001A#32 [.turn]).rngReq = false ∧ t.rngReq = true) = true) ∧
      (drbgRequest 1#256 2#256 3#256 4#256 .initK0).msg.length ≤ 97 :=
  ⟨next_of_yields (post := fun t => decide ((drbgAt .initK0 .idle [.turn]).hmReqValid = false ∧ t.hmReqValid = true))
      (by decide +kernel),
    next_of_yields (post := fun t => decide ((busy State.reset 0x0000001A#32 [.turn]).rngReq = false ∧ t.rngReq = true))
      (by decide +kernel), by decide⟩

/-- SIGN in random mode, waiting for its draw. -/
def waitingSign (events : List Input) : State :=
  { busy State.reset 0x00010430#32 events with stage := .random, attempt := 1, rngPort := .requested true }

theorem witness_SilentPortKeepsTheCommandBusy :
    ((waitingRand []).presetn = true ∧ (waitingRand []).status.busy = true ∧ (waitingRand []).RunsRand ∧
        (waitingRand []).rngReq = true) ∧
      ((waitingSign [.turn]).RunsRandomSign ∧ (waitingSign [.turn]).stage = .random ∧ (waitingSign [.turn]).rngReq = true) ∧
      (∀ port ∈ [HmacPort.presented { key := 0#256, msg := [] } true, .outstanding { key := 0#256, msg := [] } false],
        (drbgAt .next port [hostRead 0x00C]).RunsDrbg ∧ (drbgAt .next port [hostRead 0x00C]).stage = .drbg .next ∧
          (drbgAt .next port [hostRead 0x00C]).hmacPort = port) ∧
      (0x4#32 : BusWord).getLsbD 2 = true :=
  ⟨⟨rfl, rfl, waitingRand_runs _, rfl⟩,
    ⟨⟨rfl, by change modulusValid State.reset.curve.nNat = true; decide +kernel,
      by change modulusValid State.reset.curve.pNat = true; decide +kernel, .inl ⟨4, 0, 1,
      (by decide : decode 0x00010430#32 = .ok (.sign 4 0 1 false))⟩⟩, rfl, rfl⟩,
    fun _ _ => ⟨drbgAt_runs _ _ _, rfl, rfl⟩, by decide⟩

/-! The nonce generator. -/

/-- A unit that computes a constant. -/
def constantUnit : Word → List Byte → Word := fun _ _ => 1#256

theorem witness_HmacTransactionsUpdateTheDrbg :
    ∀ k : DrbgStep, (drbgAt k .idle []).presetn = true ∧ decode (drbgAt k .idle []).cmdLast = .ok (.nonce 2 0 1) ∧
      drbgOperands (.nonce 2 0 1) = some (0, 1) ∧ (drbgAt k .idle []).RunsDrbg ∧ (drbgAt k .idle []).hmacPort = .idle ∧
      (drbgAt k .idle []).stage = .drbg k ∧ (drbgAt k .idle []).attempt = 0 :=
  fun k => ⟨rfl, (by decide : decode 0x00010233#32 = .ok (.nonce 2 0 1)), rfl, drbgAt_runs _ _ _, rfl, rfl, rfl⟩

/-- SIGN, deterministic, on the tiny curve, with key 1 and hash 1 and the events of its run. -/
def tinySign : State :=
  busy ((tiny.setReg 0 1#256).setReg 1 1#256) 0x02010430#32
    (.turn :: ((firstRequests constantUnit 1#256 1#256).flatMap (hmacTransaction constantUnit) ++ []))

theorem tiny_signsWith_27 : SignsWith tinyCurve 1 1 1 27 1 1 30 :=
  ⟨4#256, 2#256, 1, 2, by decide +kernel, by decide, by decide, by decide, by decide, by decide, by decide, by decide, by decide⟩

theorem witness_DeterministicRunsYieldTheirResults :
    (tinySign.presetn = true ∧ tinySign.status.busy = true ∧ tinySign.stage = .start ∧ tinySign.hmacPort = .idle ∧
        ¬BadModulus tinySign.curve.n.toNat ∧ ¬BadModulus tinySign.curve.p.toNat) ∧
      tinySign.reg 0 = 1#256 ∧ tinySign.reg 1 = 1#256 ∧ firstCandidate constantUnit 1#256 1#256 = 1#256 ∧
      SignForm (.sign 4 0 1 true) 4 0 1 true (fun _ => 27) ∧ decode tinySign.cmdLast = .ok (.sign 4 0 1 true) ∧
      SignsWith tinySign.curve 1 1 1 27 1 1 30 ∧ decode 0x00010233#32 = .ok (.nonce 2 0 1) :=
  ⟨⟨rfl, rfl, rfl, rfl, good_three, good_eleven⟩, by decide, by decide, rfl, .inl ⟨rfl, rfl⟩, by decide,
    tiny_signsWith_27, by decide⟩

/-! The conditions of the modular commands, each clause. -/

/-- For ADD, SUB, MUL, MMUL, RED, REDW, POW and the others with a modulus: an invalid one under each select; `good_reset`
meets the other clause. -/
theorem witness_modularCommands : BadModulus (evenP.curve.modulus .p) ∧ BadModulus (oneN.curve.modulus .n) :=
  ⟨evenP_bad, oneN_bad⟩

/-- The reset state with `CURVE.p = 15`. -/
def fifteen : State := { State.reset with curve := { Curve.reset with p := 15#256 } }

/-- `a = 6` and `a = 7` under the modulus 15, a zero divisor and another. -/
theorem witness_InvAndDivComputeOrReportNoInverse :
    ¬BadModulus (fifteen.curve.modulus .p) ∧ Nat.gcd ((fifteen.setReg 0 6#256).reg 0).toNat (fifteen.curve.modulus .p) ≠ 1 ∧
      Nat.gcd ((fifteen.setReg 0 7#256).reg 0).toNat (fifteen.curve.modulus .p) = 1 ∧
      ((fifteen.setReg 0 15#256).reg 0).toNat % fifteen.curve.modulus .p = 0 ∧
      ((fifteen.setReg 0 7#256).reg 0).toNat % fifteen.curve.modulus .p ≠ 0 := by
  refine ⟨by unfold BadModulus; decide, ?_⟩
  decide +kernel

/-- A modulus that is 1 modulo 4, a value that is no square, and a square, under 13 and 11. -/
theorem witness_SqrtWritesBothRoots :
    (1 : Reg) ≠ 2 ∧ small.curve.modulus .p % 4 = 3 ∧ small.curve.modulus .n % 4 = 3 ∧
      ({ State.reset with curve := { Curve.reset with p := 13#256 } } : State).curve.modulus .p % 4 ≠ 3 ∧
      small.curve.modulus .p = 11 ∧ 2 ^ ((11 - 1) / 2) % 11 ≠ 1 ∧ 4 ^ ((11 - 1) / 2) % 11 = 1 := by
  decide

theorem witness_RedAndRedwReduce : (14 : Reg).val ≤ 14 := by decide

theorem witness_RandReducesOneDraw :
    State.reset.rngPort = .idle ∧ (waitingRand []).rngReq = true ∧
      ({ State.reset with rngPort := .answered 5#512 } : State).rngPort = .answered 5#512 ∧
      ((waitingRand [.rngAck 5#512]).presetn = true ∧ (waitingRand [.rngAck 5#512]).rngPort = .requested true) :=
  ⟨rfl, rfl, rfl, rfl, rfl⟩

/-! The conditions of the point commands. -/

theorem witness_PointMovesCopyOrReportInfinity :
    State.reset.point 0 = .inf ∧ (small.setPoint 0 (.affine 6#256 2#256)).point 0 = .affine 6#256 2#256 := by
  decide

theorem witness_PgenAndPsetCheckTheCurve :
    OnCurve small.curve small.curve.gx.toNat small.curve.gy.toNat ∧
      ¬OnCurve (small.setReg 0 17#256).curve ((small.setReg 0 17#256).reg 0).toNat ((small.setReg 0 17#256).reg 1).toNat ∧
      OnCurve small.curve (((small.setReg 0 6#256).setReg 1 9#256).reg 0).toNat
        (((small.setReg 0 6#256).setReg 1 9#256).reg 1).toNat := by
  decide +kernel

/-- A pair of opposite points, a doubling, two different points, and coordinates above `p` without a slope. -/
theorem witness_PaddFollowsTheBranchesOfR86 :
    (2 : Int) = ((11 : Int) - 9) % 11 ∧ ¬(2 : Int) = ((11 : Int) - 2) % 11 ∧ (2 * (2 : Int)) % 11 ≠ 0 ∧
      ((7 : Int) - 6) % 11 ≠ 0 ∧ ((17 : Int) - 6) % 11 = 0 ∧
      ((small.setPoint 0 (.affine 6#256 2#256)).setPoint 1 (.affine 17#256 2#256)).point 1 = .affine 17#256 2#256 := by
  decide

theorem witness_PmulAndPmuladdFollowTheLadder :
    small.curve.n.toNat ≤ ((small.setReg 6 7#256).reg 6).toNat ∧ ((small.setReg 6 6#256).reg 6).toNat < small.curve.n.toNat ∧
      ladder small.curve (.affine 6#256 2#256) 6 256 = .ok (.affine 6#256 9#256) ∧
      ladder small.curve (.affine 17#256 2#256) 2 256 ≠ .ok .inf ∧
      (ladder small.curve (.affine 6#256 11#256) 3 256).toOption = none ∧ (14 : Reg).val ≤ 14 := by
  decide +kernel

theorem witness_PfromxPicksTheRootByParity :
    decompressionError small.curve 11 = some .pointNotOnCurve ∧ decompressionError small.curve 10 = none ∧
      decompressionError small.curve 0 = some .notAQuadraticResidue ∧
      decompressionError { smallCurve with p := 13#256 } 1 = some .unsupportedModulus := by
  decide +kernel

theorem witness_EncodeWritesTheListedBytes :
    (small.setPoint 3 (.affine 6#256 2#256)).point 3 = .affine 6#256 2#256 ∧ small.buf.wf = true ∧
      small.point 3 = .inf := by
  decide

/-- The decompressed and the compressed encoding of `G`, and buffers that are none. -/
theorem witness_DecodeReadsTheTwoForms :
    decodeError small.curve (withBuf small 65 (0x04#8 :: (bytes32 6#256 ++ bytes32 2#256))).buf.read 65 = none ∧
      decodeError small.curve (withBuf small 33 (0x02#8 :: bytes32 6#256)).buf.read 33 = none ∧
      decodeError small.curve (withBuf small 33 (0x04#8 :: bytes32 6#256)).buf.read 33 = some .invalidEncoding ∧
      decodeError small.curve (withBuf small 65 (0x04#8 :: (bytes32 6#256 ++ bytes32 3#256))).buf.read 65
        = some .pointNotOnCurve := by
  decide +kernel

theorem witness_DecodeAfterEncodeReturnsThePoint :
    (small.setPoint 0 (.affine 6#256 2#256)).point 0 = .affine 6#256 2#256 ∧ small.buf.wf = true ∧
      ¬BadModulus small.curve.p.toNat ∧ OnCurve small.curve 6 2 ∧ Nat.Prime small.curve.p.toNat ∧
      small.curve.p.toNat % 4 = 3 ∧ (2#256 : Word) ≠ 0#256 :=
  ⟨by decide, by decide, good_eleven, by decide +kernel, small_prime, by decide, by decide⟩

/-! The conditions of the ECDSA commands. -/

/-- NONCE on the small curve at a candidate, with an HMAC answer and an attempt count. -/
def nonceAt (data : BitVec 256) (attempt : Nat) : State :=
  { busy small 0x00010233#32 [] with stage := .drbg .next, hmacPort := .answered data, attempt := attempt }

/-- The HMAC answer whose integer is `v < 256`. -/
def lastByte (v : Nat) : BitVec 256 := BitVec.ofNat 256 (v * 2 ^ 248)

theorem witness_NonceJudgesItsCandidates :
    ¬BadModulus small.curve.n.toNat ∧ small.stage = .start ∧
      ((nonceAt (lastByte 6) 1000).hmacPort = .answered (lastByte 6) ∧ hmacValue (lastByte 6) = 6) ∧
      hmacValue (lastByte 7) = 7 ∧ hmacValue (lastByte 0) = 0 ∧ (nonceAt (lastByte 7) 999).attempt = 999 ∧
      (nonceAt (lastByte 0) 1000).attempt = 1000 ∧ (nonceAt (lastByte 0) 1000).stage = .drbg .next :=
  ⟨good_seven, rfl, ⟨rfl, by decide +kernel⟩, by decide +kernel, by decide +kernel, rfl, rfl, rfl⟩

/-- SIGN on the tiny curve in deterministic mode at a candidate, key and hash in `r0` and `r1`, chain id in `r2`. -/
def signAt (w : CmdWord) (k : Nat) (attempt : Nat) : State :=
  { busy (((tiny.setReg 0 1#256).setReg 1 1#256).setReg 2 0#256) w [] with
    stage := .drbg .next, hmacPort := .answered (lastByte k), attempt := attempt }

theorem signAt_arrived (w : CmdWord) (k attempt : Nat) (h : hmacValue (lastByte k) = k) :
    CandidateArrived (signAt w k attempt) true k := .inl ⟨rfl, rfl, _, rfl, h.symm⟩

/-- The RNG answer whose integer is `v < 256`. -/
def lastByte64 (v : Nat) : BitVec 512 := BitVec.ofNat 512 (v * 2 ^ 504)

theorem witness_SignChecksItsKeyThenBegins :
    (13 : Reg).val ≤ 13 ∧ SignForm (.signCid 13 0 1 2 false) 13 0 1 false (fun s => 2 * (s.reg 2).toNat + 35) ∧
      BadModulus evenP.curve.p.toNat ∧ ¬BadModulus tiny.curve.p.toNat ∧ ¬BadModulus tiny.curve.n.toNat ∧ tiny.stage = .start ∧
      ¬(0 < ((tiny.setReg 0 3#256).reg 0).toNat ∧ ((tiny.setReg 0 3#256).reg 0).toNat < tiny.curve.n.toNat) ∧
      0 < ((tiny.setReg 0 2#256).reg 0).toNat ∧ ((tiny.setReg 0 2#256).reg 0).toNat < tiny.curve.n.toNat :=
  ⟨by decide, .inr ⟨2, rfl, rfl⟩, evenP_bad, good_eleven, good_three, rfl, by decide +kernel, by decide +kernel,
    by decide +kernel⟩

/-- Both forms, at the last attempt and the first, in both modes. -/
theorem witness_SignWritesTheSignatureOfItsCandidate :
    (SignForm (.sign 4 0 1 true) 4 0 1 true (fun _ => 27) ∧ CandidateArrived (signAt 0x02010430#32 1 1000) true 1 ∧
        SignsWith (signAt 0x02010430#32 1 1000).curve 1 1 1 27 1 1 30 ∧ 30 < 2 ^ 256) ∧
      (SignForm (.signCid 4 0 1 2 true) 4 0 1 true (fun s => 2 * (s.reg 2).toNat + 35) ∧
        CandidateArrived (signAt 0x06210430#32 1 1) true 1 ∧ SignsWith (signAt 0x06210430#32 1 1).curve 1 1 1 35 1 1 38) ∧
      CandidateArrived { signAt 0x00010430#32 1 1 with stage := .random, rngPort := .answered (lastByte64 4) } false 1 :=
  ⟨⟨.inl ⟨rfl, rfl⟩, signAt_arrived _ _ _ (by decide +kernel), tiny_signsWith_27, by decide +kernel⟩,
    ⟨.inr ⟨2, rfl, rfl⟩, signAt_arrived _ _ _ (by decide +kernel),
      4#256, 2#256, 1, 2, by decide +kernel, by decide, by decide, by decide, by decide, by decide, by decide, by decide, by decide⟩,
    .inr ⟨rfl, rfl, _, rfl, by decide +kernel⟩⟩

/-- A candidate 0 in both modes, a candidate with `s = 0`, one whose `G` is off every slope, one without inverse, and a chain id of `2^255`. -/
theorem witness_SignRetriesOrReportsItsErrors :
    (1 ≤ (signAt 0x02010430#32 0 1).attempt ∧ Rejected tinyCurve 1 1 0 ∧ Rejected tinyCurve 1 2 1) ∧
      CandidateArrived (signAt 0x02010430#32 0 1) true 0 ∧
      CandidateArrived { signAt 0x00010430#32 1 1 with stage := .random, rngPort := .answered (lastByte64 3) } false 0 ∧
      (signAt 0x02010430#32 0 1000).attempt = 1000 ∧
      (pmulF { tinyCurve with gy := 11#256 } (.affine 4#256 11#256) 2 = .error .noInverse) ∧
      (∃ x y : Word, pmulF { smallCurve with n := 9#256 } (.affine 6#256 2#256) 3 = .ok (.affine x y) ∧ x.toNat % 9 ≠ 0 ∧
        Nat.gcd 3 9 ≠ 1) ∧
      SignsWith tinyCurve 1 1 1 (2 ^ 256) 1 1 (2 ^ 256 + 3) :=
  ⟨⟨by decide, .inl (by decide), .inr (.inr ⟨4#256, 2#256, by decide +kernel, .inr ⟨1, by decide, by decide, by decide⟩⟩)⟩,
    signAt_arrived _ _ _ (by decide +kernel), .inr ⟨rfl, rfl, _, rfl, by decide +kernel⟩, rfl, by decide +kernel, ⟨7#256, 10#256, by decide +kernel, by decide, by decide⟩,
    ⟨4#256, 2#256, 1, 2, by decide +kernel, by decide, by decide, by decide, by decide, by decide, by decide, by decide,
      by decide +kernel⟩⟩

/-- A signature SIGN completes with. -/
theorem witness_SignaturesAreLowS :
    SignForm (.sign 4 0 1 true) 4 0 1 true (fun _ => 27) ∧ (signAt 0x02010430#32 1 1).status.busy = true ∧
      ∃ t, exec (.sign 4 0 1 true) (signAt 0x02010430#32 1 1) = .next t ∧
        decide (t.status.busy = false ∧ t.errcode = .ok) = true :=
  ⟨.inl ⟨rfl, rfl⟩, rfl, next_of_yields (post := fun t => decide (t.status.busy = false ∧ t.errcode = .ok)) (by decide +kernel)⟩

/-- The signature `(1, 1)` for the hash 1 in `r14`, `r15` and the key of `tinySign` in `BUF`. -/
def tinyVerify : State :=
  withBuf (((tiny.setReg 14 1#256).setReg 15 1#256).setReg 1 1#256) 65 (0x04#8 :: (bytes32 4#256 ++ bytes32 2#256))

theorem tinyVerify_decodes : decodeError tinyVerify.curve tinyVerify.buf.read tinyVerify.bufLen.toNat = none := by
  decide +kernel

theorem tinyVerify_key : DecodesTo tinyVerify.curve tinyVerify.buf.read tinyVerify.bufLen.toNat (.affine 4#256 2#256) :=
  .inr (by decide +kernel)

theorem witness_VerifyComparesWithR :
    (14 : Reg).val ≤ 14 ∧ ¬BadModulus tinyVerify.curve.p.toNat ∧ ¬BadModulus tinyVerify.curve.n.toNat ∧
      (0 < (tinyVerify.reg 14).toNat ∧ (tinyVerify.reg 14).toNat < tinyVerify.curve.n.toNat) ∧
      (0 < (tinyVerify.reg (14 + 1)).toNat ∧ (tinyVerify.reg (14 + 1)).toNat < tinyVerify.curve.n.toNat) ∧
      (tinyVerify.reg (14 + 1)).toNat * 1 % tinyVerify.curve.n.toNat = 1 ∧
      ¬(0 < (tiny.reg 14).toNat) ∧ decodeError tiny.curve tiny.buf.read tiny.bufLen.toNat ≠ none ∧ Nat.gcd 3 9 ≠ 1 :=
  ⟨by decide, good_eleven, good_three, by decide +kernel⟩

/-- RECOVER on the small curve: `r = 3`, `s = 2`, and a recovery id in `r15`. -/
def recoverAt (v : Word) : State :=
  (((small.setReg 13 3#256).setReg 14 2#256).setReg 15 v).setReg 1 1#256

theorem witness_RecoverComputesThePoint :
    (13 : Reg).val ≤ 13 ∧ ¬BadModulus small.curve.p.toNat ∧ ¬BadModulus small.curve.n.toNat ∧
      (0 < ((recoverAt 27#256).reg 13).toNat ∧ ((recoverAt 27#256).reg 13).toNat < small.curve.n.toNat) ∧
      (0 < ((recoverAt 27#256).reg (13 + 1)).toNat ∧ ((recoverAt 27#256).reg (13 + 1)).toNat < small.curve.n.toNat) ∧
      ((recoverAt 26#256).reg (13 + 2)).toNat < 27 ∧ 27 ≤ ((recoverAt 29#256).reg (13 + 2)).toNat ∧
      ((29 - 27) / 2 % 2 = 1 ∧ small.curve.p.toNat ≤ 4 + small.curve.n.toNat) ∧
      ¬small.curve.p.toNat ≤ 3 + small.curve.n.toNat ∧
      decompressionError small.curve (3 + 7) = none ∧ decompressionError small.curve 3 = some .notAQuadraticResidue ∧
      3 * 5 % small.curve.n.toNat = 1 ∧ Nat.gcd 3 9 ≠ 1 :=
  ⟨by decide, good_eleven, good_seven, by decide +kernel⟩

theorem witness_RecoverComputesThePoint_root : PickedRoot small.curve 10 false 2 := ⟨9, by decide +kernel, .inr (by decide +kernel), by decide⟩

theorem witness_RedcAndBarrettGiveTheResidue : ¬BadModulus 3 ∧ 3 < 2 ^ 256 ∧ 2 ^ 255 ≤ 2 ^ 256 - 1 ∧ 2 ^ 512 - 1 < 2 ^ 512 :=
  ⟨good_three, by decide +kernel, by decide +kernel, by decide +kernel⟩

/-! The group. -/

theorem tiny_prime : Nat.Prime tiny.curve.p.toNat := by
  change Nat.Prime 11
  norm_num

theorem tiny_nonsingular : (fieldCurve tinyCurve).toAffine.Nonsingular ((4#256 : Word).toNat : ZMod tinyCurve.p.toNat)
    ((2#256 : Word).toNat : ZMod tinyCurve.p.toNat) := by
  rw [WeierstrassCurve.Affine.nonsingular_iff, WeierstrassCurve.Affine.equation_iff]
  decide +kernel

/-- `G` of the tiny curve as a point of the group. -/
noncomputable def tinyG [Fact (Nat.Prime tinyCurve.p.toNat)] : (fieldCurve tinyCurve).toAffine.Point := .some _ _ tiny_nonsingular

theorem tiny_represents [Fact (Nat.Prime tinyCurve.p.toNat)] : Represents tinyCurve tinyCurve.g tinyG :=
  ⟨by decide +kernel, by decide +kernel, tiny_nonsingular, rfl⟩

/-- The arithmetic of `G + G = -G`: the slope is 1. -/
theorem tiny_doubling :
    let x : ZMod tinyCurve.p.toNat := (4#256 : Word).toNat
    let y : ZMod tinyCurve.p.toNat := (2#256 : Word).toNat
    let W := (fieldCurve tinyCurve).toAffine
    y ≠ W.negY x y ∧ 3 * x ^ 2 + 2 * W.a₂ * x + W.a₄ - W.a₁ * y = y - W.negY x y ∧ y - W.negY x y ≠ 0 ∧
      W.addX x x 1 = x ∧ W.addY x x y 1 = W.negY x y := by
  unfold WeierstrassCurve.Affine.negY WeierstrassCurve.Affine.addX WeierstrassCurve.Affine.addY
    WeierstrassCurve.Affine.negAddY WeierstrassCurve.Affine.negY WeierstrassCurve.Affine.addX
  decide +kernel

theorem tiny_order [Fact (Nat.Prime tinyCurve.p.toNat)] : 3 • tinyG = 0 := by
  obtain ⟨hy, hs, h0, hx, hz⟩ := tiny_doubling
  have h : tinyG + tinyG = -tinyG := by
    have hl : (fieldCurve tinyCurve).toAffine.slope ((4#256 : Word).toNat : ZMod tinyCurve.p.toNat)
        ((4#256 : Word).toNat : ZMod tinyCurve.p.toNat) ((2#256 : Word).toNat : ZMod tinyCurve.p.toNat)
        ((2#256 : Word).toNat : ZMod tinyCurve.p.toNat) = 1 := by
      rw [WeierstrassCurve.Affine.slope_of_Y_ne rfl hy]
      exact (div_eq_one_iff_eq h0).mpr hs
    unfold tinyG
    rw [WeierstrassCurve.Affine.Point.add_self_of_Y_ne hy, WeierstrassCurve.Affine.Point.neg_some,
      WeierstrassCurve.Affine.Point.some.injEq, hl]
    exact ⟨hx, hz⟩
  rw [show (3 : ℕ) = 2 + 1 from rfl, add_smul, two_smul, one_smul, h, neg_add_cancel]

theorem witness_PaddIsGroupAddition :
    ∃ (_hp : Fact (Nat.Prime tinyCurve.p.toNat)),
      ¬BadModulus (tiny.setPoint 0 tinyCurve.g).curve.p.toNat ∧ Represents tinyCurve ((tiny.setPoint 0 tinyCurve.g).point 0) tinyG ∧
        Represents tinyCurve ((tiny.setPoint 0 tinyCurve.g).point 1) (0 : (fieldCurve tinyCurve).toAffine.Point) :=
  haveI : Fact (Nat.Prime tinyCurve.p.toNat) := ⟨tiny_prime⟩
  ⟨⟨tiny_prime⟩, good_eleven, tiny_represents, rfl⟩

theorem witness_PmulIsScalarMultiplication :
    ∃ (_hp : Fact (Nat.Prime tinyCurve.p.toNat)), ¬BadModulus tiny.curve.p.toNat ∧ ¬BadModulus tiny.curve.n.toNat ∧
      (((tiny.setPoint 0 tinyCurve.g).setReg 0 2#256).reg 0).toNat < tiny.curve.n.toNat ∧
      Represents tinyCurve (((tiny.setPoint 0 tinyCurve.g).setReg 0 2#256).point 0) tinyG :=
  haveI : Fact (Nat.Prime tinyCurve.p.toNat) := ⟨tiny_prime⟩
  ⟨⟨tiny_prime⟩, good_eleven, good_three, by decide +kernel, tiny_represents⟩

/-- Key 1, candidate 1, offset 27, on the tiny curve. -/
theorem witness_SignaturesVerify :
    ∃ (_hp : Fact (Nat.Prime tinyCurve.p.toNat)), Nat.Prime tinyVerify.curve.n.toNat ∧
      ¬BadModulus tinyVerify.curve.p.toNat ∧ ¬BadModulus tinyVerify.curve.n.toNat ∧
      Represents tinyCurve tinyVerify.curve.g tinyG ∧ tinyVerify.curve.n.toNat • tinyG = 0 ∧ (14 : Reg).val ≤ 14 ∧
      Represents tinyCurve (.affine 4#256 2#256) (1 • tinyG) ∧
      decodeError tinyVerify.curve tinyVerify.buf.read tinyVerify.bufLen.toNat = none ∧
      DecodesTo tinyVerify.curve tinyVerify.buf.read tinyVerify.bufLen.toNat (.affine 4#256 2#256) ∧
      SignsWith tinyVerify.curve 1 (tinyVerify.reg 1).toNat 1 27 (tinyVerify.reg 14).toNat (tinyVerify.reg (14 + 1)).toNat 30 ∧
      1 < tinyVerify.curve.n.toNat :=
  haveI : Fact (Nat.Prime tinyCurve.p.toNat) := ⟨tiny_prime⟩
  ⟨⟨tiny_prime⟩, (by norm_num : Nat.Prime 3), good_eleven, good_three, tiny_represents, tiny_order, by decide,
    by rw [one_smul]; exact tiny_represents, tinyVerify_decodes, tinyVerify_key, tiny_signsWith_27, by decide +kernel⟩

/-- NOP's opcode with `A = 1` is the word of no command. -/
theorem witness_RefusesOtherWords :
    (busy State.reset 0x00001000#32 [.turn]).EngineNext [] ∧
      (busy State.reset 0x00001000#32 [.turn]).cmdLast.extractLsb' 0 8 = 0x00#8 ∧
      ∀ i, encode i = (busy State.reset 0x00001000#32 [.turn]).cmdLast → i.wellFormed = false := by
  refine ⟨busy_engineNext _ _ _ rfl, by decide, fun i h => ?_⟩
  have hw : Fields.ofWord (encode i) = Fields.ofWord 0x00001000#32 := congrArg _ h
  rw [Fields.ofWord_encode] at hw
  have ho : i.fields.op = 0 := congrArg Fields.op hw
  have ha : i.fields.a = 1 := congrArg Fields.a hw
  cases i <;> simp [Instr.fields, Fields.plain] at ho ha


end Sys2Proof.Tests
end

section
/-! What one step of the block can do: the event it takes, and a turn of the engine on the latched command
(spec/20_memory.md R48, spec/60_exceptions.md R110-R112). -/

namespace Sys2Proof.Machine

theorem step_of_settled {s t : State} (h : s.nextTurn = .settled t) : step s = .next t := by
  unfold step
  rw [h]

theorem step_of_run {s u : State} {i : Instr} (h : s.nextTurn = .run i u) : step s = exec i u := by
  unfold step
  rw [h]

/-- A step takes the oldest event, or is a turn of the engine (R48). -/
theorem State.nextTurn_cases (s : State) :
    ∃ rest, s.nextTurn = State.engineTurn { s with inputs := rest } ∨
      ∃ e, s.nextTurn = .settled (State.receive { s with inputs := rest } e) := by
  unfold State.nextTurn
  split
  · exact ⟨s.inputs, .inl rfl⟩
  · exact ⟨_, .inl rfl⟩
  all_goals exact ⟨_, .inr ⟨_, rfl⟩⟩

/-- A turn of the engine waits, ends an illegal word, or runs the latched command (R109, R112). -/
theorem State.engineTurn_cases (s : State) :
    s.engineTurn = .settled s ∨ s.presetn = true ∧ s.status.busy = true ∧
      ((∃ x, decode s.cmdLast = .error x) ∧
          s.engineTurn = .settled (s.complete .illegalCommand (illegalAttempts s.cmdLast)) ∨
        ∃ i, decode s.cmdLast = .ok i ∧ s.engineTurn = .run i s) := by
  unfold State.engineTurn
  split
  · rename_i hrun
    obtain ⟨hp, hb⟩ := Bool.and_eq_true_iff.mp hrun
    refine .inr ⟨hp, hb, ?_⟩
    split
    · exact .inr ⟨_, ‹_›, rfl⟩
    · exact .inl ⟨⟨_, ‹_›⟩, rfl⟩
  · exact .inl rfl

/-- What one step can do to the state `s`, its event taken off the schedule: react to the event, end an illegal word, or
run the latched command. -/
inductive Stepped (s : State) : State → Prop where
  | received (e : Input) : Stepped s (s.receive e)
  | illegal (hp : s.presetn = true) (hb : s.status.busy = true) (hd : ∃ x, decode s.cmdLast = .error x) :
      Stepped s (s.complete .illegalCommand (illegalAttempts s.cmdLast))
  | ran (i : Instr) (t : State) (hp : s.presetn = true) (hb : s.status.busy = true) (hd : decode s.cmdLast = .ok i)
      (he : exec i s = .next t) : Stepped s t

theorem stepped_of_step {s t : State} (h : step s = .next t) : ∃ rest, Stepped { s with inputs := rest } t := by
  obtain ⟨rest, hturn | ⟨e, he⟩⟩ := s.nextTurn_cases
  · refine ⟨rest, ?_⟩
    rcases State.engineTurn_cases { s with inputs := rest } with hidle | ⟨hp, hb, ⟨hd, hill⟩ | ⟨i, hd, hrun⟩⟩
    · rw [step_of_settled (hturn.trans hidle)] at h
      cases h
      exact .received .turn
    · rw [step_of_settled (hturn.trans hill)] at h
      cases h
      exact .illegal hp hb hd
    · rw [step_of_run (hturn.trans hrun)] at h
      exact .ran i t hp hb hd h
  · rw [step_of_settled he] at h
    cases h
    exact ⟨rest, .received e⟩

/-- A bus transfer as the next event is served (R39, R48). -/
theorem step_bus {s : State} {tr : Transfer} {rest : List Input} (h : s.inputs = .bus tr :: rest) :
    step s = .next (State.serve { s with inputs := rest } tr) := by
  refine step_of_settled ?_
  unfold State.nextTurn
  rw [h]
  rfl

/-- Every next state of a command is of the kinds that `Turned` lists. -/
theorem turned_of_exec {i : Instr} {s t : State} (h : exec i s = .next t) : Turned i s t := by
  obtain ⟨u, hu, hturned⟩ := exec_turned i s
  cases hu.symm.trans h
  exact hturned

/-! The words of the map that a running command keeps the host from. -/

/-- Every curve word lies in the data region (R37, R47). -/
theorem inDataRegion_of_curve {n : Nat} {f : CurveField} {k : Fin 8} (h : placeAt n = .curve f k) :
    inDataRegion n = true := by
  unfold placeAt controlPlace at h
  simp only [inDataRegion, Bool.and_eq_true, decide_eq_true_eq]
  split at h
  · split at h <;> cases h
  split at h
  · cases h
  split at h
  · omega
  split at h
  · cases h
  split at h
  · split at h <;> cases h
  split at h <;> cases h

/-- What a bus transfer can do: the block held in reset ignores it, it is answered, refused because a command runs, or it
writes a word of the map; `CMD` and the curve words are written only while idle (R38, R40, R42, R47, R131). -/
inductive Served (s : State) : State → Prop where
  | ignored : Served s s
  | answered (r : Response) : Served s (s.respond r)
  | dropped : Served s s.dropCommand
  | violates : Served s s.accessViolation
  | written (v : BusWord) (place : Place) (hp : s.presetn = true)
      (hidle : (place = .cmd ∨ ∃ f k, place = .curve f k) → s.status.busy = false) : Served s (s.writePlace v place)

theorem State.serveRead_served (s : State) (addr : Offset) : Served s (s.serveRead addr) := by
  unfold State.serveRead
  split
  · exact .answered _
  · split
    · exact .violates
    · exact .answered _

theorem State.serveWrite_served (s : State) (hp : s.presetn = true) (addr : Offset) (strb : BitVec 4) (v : BusWord) :
    Served s (s.serveWrite addr strb v) := by
  unfold State.serveWrite
  split
  · exact .answered _
  · split
    · exact .dropped
    · split
      · exact .violates
      · rename_i hcmd hdata
        refine .written v _ hp fun hplace => Bool.eq_false_iff.mpr fun hb => ?_
        rcases hplace with hplace | ⟨f, k, hplace⟩
        · exact hcmd (by simp [hb, hplace])
        · exact hdata (by simp [hb, inDataRegion_of_curve hplace])

theorem State.serve_served (s : State) (tr : Transfer) : Served s (s.serve tr) := by
  unfold State.serve
  split
  · rename_i hp
    cases tr with
    | read addr => exact s.serveRead_served addr
    | write addr strb v => exact s.serveWrite_served hp addr strb v
  · exact .ignored

/-! Decoded commands are legal. -/

theorem Fields.command_ok {x : Fields} {used points : List FieldName} {i j : Instr} (h : x.command used points i = .ok j) :
    j.wellFormed = true := by
  unfold Fields.command at h
  split at h
  · cases h
  · split at h
    · cases h
    · split at h
      · cases h
      · split at h
        · cases h; assumption
        · cases h

/-- The decoder accepts only commands that meet the constraints of R59, condition 5. -/
theorem wellFormed_of_decode {w : CmdWord} {i : Instr} (h : decode w = .ok i) : i.wellFormed = true := by
  unfold decode Fields.decode at h
  split at h
  case h_26 =>
    split at h <;> exact Fields.command_ok h
  case h_30 => cases h
  all_goals exact Fields.command_ok h

end Sys2Proof.Machine
end

section
/-! The invariant of the block: what it does not look at, the completion step, and every step keeps it
(spec/60_exceptions.md R107-R122, spec/70_reset_and_hazards.md R131). -/

namespace Sys2Proof.Machine

/-! Which command the latched word is, when the block is in the middle of port traffic. -/

/-- The commands with HMAC traffic, as `drbgOperands` lists them. -/
theorem State.RunsDrbg.command {s : State} (h : s.RunsDrbg) :
    ∃ i, decode s.cmdLast = .ok i ∧ (drbgOperands i).isSome = true ∧ usesPort i = true := by
  obtain ⟨-, -, ⟨d, a, b, hd⟩ | ⟨-, ⟨d, a, b, hd⟩ | ⟨d, a, b, c, hd⟩⟩⟩ := h <;> exact ⟨_, hd, rfl, rfl⟩

theorem State.RunsRandomSign.command {s : State} (h : s.RunsRandomSign) :
    ∃ i, decode s.cmdLast = .ok i ∧ (drbgOperands i).isSome = false ∧ countsAttempts i = true ∧ usesPort i = true := by
  obtain ⟨-, -, -, ⟨d, a, b, hd⟩ | ⟨d, a, b, c, hd⟩⟩ := h <;> exact ⟨_, hd, rfl, rfl, rfl⟩

/-- No command is both one with HMAC traffic and one with random draws. -/
theorem State.RunsDrbg.not_randomSign {s : State} (h : s.RunsDrbg) : ¬s.RunsRandomSign := by
  intro k
  obtain ⟨i, hi, hdrbg, -⟩ := h.command
  obtain ⟨j, hj, hno, -, -⟩ := k.command
  cases hi.symm.trans hj
  rw [hdrbg] at hno
  cases hno

theorem State.RunsDrbg.not_rand {s : State} (h : s.RunsDrbg) : ¬s.RunsRand := by
  rintro ⟨-, d, m, hj, -⟩
  obtain ⟨i, hi, hdrbg, -⟩ := h.command
  cases hi.symm.trans hj
  cases hdrbg

theorem State.RunsRandomSign.not_rand {s : State} (h : s.RunsRandomSign) : ¬s.RunsRand := by
  rintro ⟨-, d, m, hj, -⟩
  obtain ⟨i, hi, -, hcounts, -⟩ := h.command
  cases hi.symm.trans hj
  cases hcounts

/-- NONCE and SIGN in the two modes: what the candidate loop runs for (R103, R104). -/
def State.RunsCandidates (s : State) : Bool → Prop
  | true => s.RunsDrbg
  | false => s.RunsRandomSign

theorem State.RunsCandidates.validN {s : State} {det : Bool} (h : s.RunsCandidates det) :
    modulusValid s.curve.nNat = true := by
  cases det <;> exact h.2.1

theorem State.requireModuli_eq_ok {s : State} :
    s.requireModuli = .ok () ↔ modulusValid s.curve.pNat = true ∧ modulusValid s.curve.nNat = true := by
  unfold State.requireModuli
  rw [require_eq_ok, Bool.and_eq_true_iff]
  rfl

/-- A running candidate loop of SIGN has passed the modulus check (R108). -/
theorem State.RunsCandidates.requireModuli {s : State} {det : Bool} (h : s.RunsCandidates det)
    (hn : ∀ d a b, decode s.cmdLast ≠ .ok (.nonce d a b)) : s.requireModuli = .ok () := by
  refine State.requireModuli_eq_ok.mpr ⟨?_, h.validN⟩
  cases det with
  | true =>
    obtain ⟨-, -, ⟨d, a, b, hd⟩ | ⟨hp, -⟩⟩ := h
    · exact absurd hd (hn d a b)
    · exact hp
  | false =>
    obtain ⟨-, -, hp, -⟩ := h
    exact hp

/-! The two forms of SIGN. -/

section
variable {i : Instr} {d a b : Reg} {det : Bool} {offset : State → Nat}

theorem SignForm.countsAttempts (h : SignForm i d a b det offset) : countsAttempts i = true := by
  obtain ⟨rfl, -⟩ | ⟨c, rfl, -⟩ := h <;> rfl

theorem SignForm.ne_nonce (h : SignForm i d a b det offset) {d' a' b' : Reg} : i ≠ .nonce d' a' b' := by
  obtain ⟨rfl, -⟩ | ⟨c, rfl, -⟩ := h <;> simp

/-- SIGN runs its candidate loop once the modulus check has passed (R104, R108). -/
theorem SignForm.runsCandidates (h : SignForm i d a b det offset) {s : State} (hb : s.status.busy = true)
    (hd : decode s.cmdLast = .ok i) (hm : s.requireModuli = .ok ()) : s.RunsCandidates det := by
  obtain ⟨hp, hn⟩ := State.requireModuli_eq_ok.mp hm
  have hform : (∃ d a b, decode s.cmdLast = .ok (.sign d a b det)) ∨
      ∃ d a b c, decode s.cmdLast = .ok (.signCid d a b c det) := by
    obtain ⟨rfl, -⟩ | ⟨c, rfl, -⟩ := h
    · exact .inl ⟨d, a, b, hd⟩
    · exact .inr ⟨d, a, b, c, hd⟩
  cases det with
  | true => exact ⟨hb, hn, .inr ⟨hp, hform⟩⟩
  | false => exact ⟨hb, hn, hp, hform⟩

end

/-! Quiet ports. -/

/-- Neither port carries a request or a response of the running command. -/
structure State.PortsQuiet (s : State) : Prop where
  hmac : s.hmacPort.isLive = false
  rng : s.rngPort.isLive = false

@[simp] theorem HmacPort.orphan_isLive (p : HmacPort) : p.orphan.isLive = false := by cases p <;> rfl

@[simp] theorem RngPort.orphan_isLive (p : RngPort) : p.orphan.isLive = false := by cases p <;> rfl

@[simp] theorem HmacPort.ready_isLive (p : HmacPort) : p.ready.isLive = p.isLive := by cases p <;> rfl

@[simp] theorem HmacPort.respond_isLive (data : BitVec 256) (p : HmacPort) : (p.respond data).isLive = p.isLive := by
  match p with
  | .idle => rfl
  | .presented _ _ => rfl
  | .outstanding _ true => rfl
  | .outstanding _ false => rfl
  | .answered _ => rfl

@[simp] theorem RngPort.ack_isLive (data : BitVec 512) (p : RngPort) : (p.ack data).isLive = p.isLive := by
  match p with
  | .idle => rfl
  | .requested true => rfl
  | .requested false => rfl
  | .answered _ => rfl

/-! The verdicts of the two modes of SIGN, and of NONCE. -/

theorem signTestDet_within (c : Curve) (rd : Reg) (d e : Nat) (chainId : Option Nat) (k : Nat) :
    Verdict.Within [rd, regUp rd 1, regUp rd 2] (signTestDet c rd d e chainId k) := by
  unfold signTestDet
  split
  · exact signWrites_within (signCandidate_clean _ _ _ _ _)
  · trivial

theorem signTestRnd_within (c : Curve) (rd : Reg) (d e : Nat) (chainId : Option Nat) (data : BitVec 512) :
    Verdict.Within [rd, regUp rd 1, regUp rd 2] (signTestRnd c rd d e chainId data) := by
  unfold signTestRnd
  split
  · trivial
  · exact signWrites_within (signCandidate_clean _ _ _ _ _)

theorem nonceTest_within (d : Reg) (n k : Nat) : Verdict.Within [d] (nonceTest d n k) := by
  unfold nonceTest
  split
  · intro w hw
    cases List.mem_singleton.mp hw
    exact List.mem_singleton.mpr rfl
  · trivial

namespace State.Inv

variable {s : State}

theorem hmac_quiet (h : s.Inv) (hr : ¬s.RunsDrbg) : s.hmacPort.isLive = false :=
  Bool.eq_false_iff.mpr fun hl => hr (h.drbgOwned (h.hmacOwned hl))

theorem rng_quiet (h : s.Inv) (hr : ¬s.RunsRandomSign) (hr' : ¬s.RunsRand) : s.rngPort.isLive = false :=
  Bool.eq_false_iff.mpr fun hl => (h.rngOwned hl).elim (fun hs => hr (h.randomOwned hs)) hr'

/-- Port traffic belongs to a running port command: while none runs the ports are quiet. -/
theorem quiet_of_no_port_command (h : s.Inv) (hd : s.status.busy = true → ∀ i, decode s.cmdLast = .ok i → usesPort i = false) :
    s.PortsQuiet := by
  have absurd_of {i : Instr} (hb : s.status.busy = true) (hi : decode s.cmdLast = .ok i) (hu : usesPort i = true) : False := by
    rw [hd hb i hi] at hu
    cases hu
  refine ⟨h.hmac_quiet fun hr => ?_, h.rng_quiet (fun hr => ?_) fun hr => ?_⟩
  · obtain ⟨i, hi, -, hu⟩ := hr.command
    exact absurd_of hr.1 hi hu
  · obtain ⟨i, hi, -, -, hu⟩ := hr.command
    exact absurd_of hr.1 hi hu
  · obtain ⟨hb, d, m, hi, -⟩ := hr
    exact absurd_of hb hi rfl

/-! Updates. -/

/-- The fields and flags that the invariant says nothing of. -/
theorem unread (h : s.Inv) (regs : Vector Word 16) (points : Vector Point 8) (bufLen : BitVec 8) (ie dropped viol : Bool)
    (k v : Word) (response : Option Response) (inputs : List Input) :
    State.Inv { s with
      regs := regs, points := points, bufLen := bufLen, ie := ie, drbgK := k, drbgV := v, response := response, inputs := inputs
      status := { s.status with cmdDropped := dropped, accViol := viol } } where
  bufCanonical := h.bufCanonical
  attemptBound := h.attemptBound
  attemptsBound := h.attemptsBound
  busyQuiet := h.busyQuiet
  errHasCode := h.errHasCode
  codeProduced := h.codeProduced
  drbgOwned := h.drbgOwned
  randomOwned := h.randomOwned
  hmacOwned := h.hmacOwned
  rngOwned := h.rngOwned
  heldInReset := h.heldInReset

theorem setBuf (h : s.Inv) {m : Memory} (hm : m.wf = true) : State.Inv { s with buf := m } :=
  { h with bufCanonical := hm }

/-- A change of the ports that brings no live traffic. -/
theorem setPorts (h : s.Inv) {p : HmacPort} {q : RngPort} (hp : p.isLive = true → s.hmacPort.isLive = true)
    (hq : q.isLive = true → s.rngPort.isLive = true) : State.Inv { s with hmacPort := p, rngPort := q } :=
  { h with hmacOwned := fun hl => h.hmacOwned (hp hl), rngOwned := fun hl => h.rngOwned (hq hl) }

/-- The curve registers change only while the block is idle (R47). -/
theorem setCurve (h : s.Inv) (hb : s.status.busy = false) (c : Curve) : State.Inv { s with curve := c } := by
  have idle {p : Prop} (hr : s.status.busy = true) : p := by simp [hb] at hr
  exact { h with
    drbgOwned := fun hk => idle (h.drbgOwned hk).1
    randomOwned := fun hs => idle (h.randomOwned hs).1
    rngOwned := fun hl => (h.rngOwned hl).elim (fun hs => idle (h.randomOwned hs).1) fun hr => idle hr.1 }

/-- The completion step, once the ports are quiet (R113). -/
theorem complete (h : s.Inv) (hp : s.presetn = true) (hq : s.PortsQuiet) {code : ResultCode}
    (hc : code.reservedName = false) {n : Option Nat} (hn : ∀ k, n = some k → k ≤ Config.maxAttempts) :
    (s.complete code n).Inv where
  bufCanonical := h.bufCanonical
  attemptBound := h.attemptBound
  attemptsBound := by
    cases n with
    | none => exact h.attemptsBound
    | some k => exact (Nat.mod_le k _).trans (hn k rfl)
  busyQuiet hb := by cases hb
  errHasCode he := by simpa using he
  codeProduced := hc
  drbgOwned := by rintro ⟨k, hk⟩; cases hk
  randomOwned hs := by cases hs
  hmacOwned hl := absurd hl (by simp [hq.hmac])
  rngOwned hl := absurd hl (by simp [hq.rng])
  heldInReset h' := absurd hp (by simp_all)

/-- The completion step with register writes (R113). -/
theorem completeRegs (h : s.Inv) (hp : s.presetn = true) (hq : s.PortsQuiet) (ws : List (Reg × Word)) {n : Option Nat}
    (hn : ∀ k, n = some k → k ≤ Config.maxAttempts) : ((s.setRegs ws).complete .ok n).Inv := by
  obtain ⟨regs, hregs⟩ := s.setRegs_eq ws
  have hset : State.Inv { s with regs := regs } := h.unread regs _ _ _ _ _ _ _ _ _
  rw [hregs]
  exact hset.complete hp ⟨hq.hmac, hq.rng⟩ rfl hn

/-- Issue, while idle (R110). -/
theorem issue (h : s.Inv) (hp : s.presetn = true) (hb : s.status.busy = false) (w : CmdWord) : (s.issue w).Inv := by
  have hq : s.PortsQuiet := h.quiet_of_no_port_command fun hb' => by simp [hb] at hb'
  exact {
    bufCanonical := h.bufCanonical
    attemptBound := h.attemptBound
    attemptsBound := h.attemptsBound
    busyQuiet := fun _ => ⟨rfl, rfl, rfl⟩
    errHasCode := fun he => by cases he
    codeProduced := rfl
    drbgOwned := by rintro ⟨k, hk⟩; cases hk
    randomOwned := fun hs => by cases hs
    hmacOwned := fun hl => absurd hl (by simp [hq.hmac])
    rngOwned := fun hl => absurd hl (by simp [hq.rng])
    heldInReset := fun h' => absurd hp (by simp_all) }

/-- A write of `STATUS` clears flags (R117). -/
theorem acknowledge (h : s.Inv) (v : BusWord) : (s.acknowledge v).Inv :=
  { h with
    busyQuiet := fun hb => by
      obtain ⟨hdone, herr, hcode⟩ := h.busyQuiet hb
      exact ⟨by simp [Status.cleared, hdone], by simp [Status.cleared, herr], hcode⟩
    errHasCode := fun he => h.errHasCode (Bool.and_elim_left he)
    heldInReset := fun hp => by
      obtain ⟨hb, hdone⟩ := h.heldInReset hp
      exact ⟨hb, by simp [Status.cleared, hdone]⟩ }

theorem abort (h : s.Inv) (hp : s.presetn = true) : s.abort.Inv :=
  (h.setPorts (p := s.hmacPort.orphan) (q := s.rngPort.orphan) (by simp) (by simp)).complete (code := .aborted) (n := none) hp
    ⟨by simp, by simp⟩ rfl (by simp)

/-- The block after a reset, with `PRESETn` at either level (R131, R133). -/
theorem reset (level : Bool) (inputs : List Input) : State.Inv { State.reset with presetn := level, inputs := inputs } where
  bufCanonical := Memory.reset_wf
  attemptBound := Nat.zero_le _
  attemptsBound := Nat.zero_le _
  busyQuiet hb := by cases hb
  errHasCode he := by cases he
  codeProduced := rfl
  drbgOwned := by rintro ⟨k, hk⟩; cases hk
  randomOwned hs := by cases hs
  hmacOwned hl := by cases hl
  rngOwned hl := by cases hl
  heldInReset _ := ⟨rfl, rfl⟩

/-- The engine stands at an HMAC transaction of a command that has such transactions (R102). -/
theorem atDrbg (h : s.Inv) (hr : s.RunsDrbg) (k : DrbgStep) (key v : Word) {n : Nat} (hn : n ≤ Config.maxAttempts)
    (p : HmacPort) :
    State.Inv { s with stage := .drbg k, drbgK := key, drbgV := v, attempt := n, hmacPort := p } :=
  { h with
    attemptBound := hn
    drbgOwned := fun _ => hr
    randomOwned := fun hs => by cases hs
    hmacOwned := fun _ => ⟨k, rfl⟩
    rngOwned := fun hl => absurd hl (by simp [h.rng_quiet hr.not_randomSign hr.not_rand]) }

/-- The engine stands at a draw of random SIGN (R104). -/
theorem atRandom (h : s.Inv) (hr : s.RunsRandomSign) {n : Nat} (hn : n ≤ Config.maxAttempts) (p : RngPort) :
    State.Inv { s with stage := .random, attempt := n, rngPort := p } :=
  { h with
    attemptBound := hn
    drbgOwned := by rintro ⟨k, hk⟩; cases hk
    randomOwned := fun _ => hr
    hmacOwned := fun hl => absurd hl (by simp [h.hmac_quiet fun hd => hd.not_randomSign hr])
    rngOwned := fun _ => .inl rfl }

/-- The RNG port is at the disposal of RAND (R81). -/
theorem rngPort_of_runsRand (h : s.Inv) (hr : s.RunsRand) (p : RngPort) : State.Inv { s with rngPort := p } :=
  { h with rngOwned := fun _ => .inr hr }

/-! Events. -/

theorem writeCtrl (h : s.Inv) (hp : s.presetn = true) (v : BusWord) : (s.writeCtrl v).Inv := by
  unfold State.writeCtrl
  split
  · exact reset true s.inputs
  · split
    · exact (h.unread _ _ _ (v.getLsbD 0) _ _ _ _ _ _).abort hp
    · exact h.unread _ _ _ (v.getLsbD 0) _ _ _ _ _ _

theorem respond (h : s.Inv) (r : Response) : (s.respond r).Inv := h.unread _ _ _ _ _ _ _ _ (some r) _

theorem writePlace (h : s.Inv) (hp : s.presetn = true) (v : BusWord) (place : Place)
    (hidle : (place = .cmd ∨ ∃ f k, place = .curve f k) → s.status.busy = false) : (s.writePlace v place).Inv := by
  cases place with
  | ctrl => exact (h.writeCtrl hp v).respond accepted
  | status => exact (h.acknowledge v).respond accepted
  | cmd => exact (h.issue hp (hidle (.inl rfl)) v).respond accepted
  | bufLen => exact h.unread _ _ (v.setWidth 8) _ _ _ _ _ (some accepted) _
  | reg r k => exact h.unread (s.setReg r (setWordAt (s.reg r) k v)).regs _ _ _ _ _ _ _ (some accepted) _
  | curve f k => exact (h.setCurve (hidle (.inr ⟨f, k, rfl⟩)) _).respond accepted
  | buf k =>
    have hfit : 4 * k.val + (laneBytes 4 v.toNat).length ≤ Config.bufBytes := by
      have := k.isLt
      simp [laneBytes, Config.bufBytes]
      omega
    exact (h.setBuf (Memory.writeAll_wf h.bufCanonical hfit)).respond accepted
  | id | hwcfg | errcode | attempts | pinf | maxatt | pointX _ _ | pointY _ _ | reserved => exact h.respond refusal

theorem accessViolation (h : s.Inv) : s.accessViolation.Inv := h.unread _ _ _ _ _ true _ _ (some refusal) _

theorem dropCommand (h : s.Inv) : s.dropCommand.Inv := h.unread _ _ _ _ true _ _ _ (some refusal) _

theorem served (h : s.Inv) {t : State} (ht : Served s t) : t.Inv := by
  cases ht with
  | ignored => exact h
  | answered r => exact h.respond r
  | dropped => exact h.dropCommand
  | violates => exact h.accessViolation
  | written v place hp hidle => exact h.writePlace hp v place hidle

theorem setResetPin (h : s.Inv) (level : Bool) : (s.setResetPin level).Inv := by
  cases level with
  | false => exact reset false s.inputs
  | true => exact { h with heldInReset := fun hp => by cases hp }

theorem receive (h : s.Inv) (e : Input) : (s.receive e).Inv := by
  cases e with
  | bus tr => exact h.served (s.serve_served tr)
  | hmacReady => exact h.setPorts (by simp) id
  | hmacResponse data => exact h.setPorts (by simp) id
  | rngAck data => exact h.setPorts id (by simp)
  | resetPin level => exact h.setResetPin level
  | turn => exact h

/-! Turns of the engine. -/

theorem illegal (h : s.Inv) (hp : s.presetn = true) (hd : ∃ x, decode s.cmdLast = .error x) :
    (s.complete .illegalCommand (illegalAttempts s.cmdLast)).Inv := by
  obtain ⟨x, hx⟩ := hd
  have hq : s.PortsQuiet := h.quiet_of_no_port_command fun _ i hi => by cases hi.symm.trans hx
  refine h.complete hp hq rfl fun k hk => ?_
  unfold illegalAttempts at hk
  split at hk
  · cases hk
    exact Nat.zero_le _
  · cases hk

/-- While the candidate loop runs, the port of the other mode is quiet, and the loop's own is once its response is used. -/
theorem quiet_of_runsCandidates (h : s.Inv) {det : Bool} (hr : s.RunsCandidates det) (hp : det = true → s.hmacPort.isLive = false)
    (hq : det = false → s.rngPort.isLive = false) : s.PortsQuiet := by
  cases det with
  | true => exact ⟨hp rfl, h.rng_quiet hr.not_randomSign hr.not_rand⟩
  | false => exact ⟨h.hmac_quiet fun hd => hd.not_randomSign hr, hq rfl⟩

/-- At the start of a command with candidates the ports are quiet. -/
theorem quiet_at_start (h : s.Inv) {det : Bool} (hr : s.RunsCandidates det) (hs : s.stage = .start) : s.PortsQuiet := by
  refine h.quiet_of_runsCandidates hr (fun _ => ?_) fun hdet => ?_
  · refine Bool.eq_false_iff.mpr fun hl => ?_
    obtain ⟨k, hk⟩ := h.hmacOwned hl
    cases hk.symm.trans hs
  · subst hdet
    refine Bool.eq_false_iff.mpr fun hl => (h.rngOwned hl).elim (fun hk => ?_) hr.not_rand
    cases hk.symm.trans hs

theorem nextCandidate (h : s.Inv) (hp : s.presetn = true) (hq : s.PortsQuiet) {det : Bool} (hr : s.RunsCandidates det) :
    (s.nextCandidate det).Inv := by
  have hbound := h.attemptBound
  unfold State.nextCandidate
  split
  · exact h.complete hp hq rfl fun k hk => by cases hk; exact hbound
  · have hnext : s.attempt + 1 ≤ Config.maxAttempts := by omega
    cases det with
    | true =>
      simp only [if_true]
      split
      · exact h.atDrbg hr .next _ _ hnext _
      · exact h.atDrbg hr .rejectK _ _ hnext _
    | false => exact h.atRandom hr hnext _

theorem judge (h : s.Inv) (hp : s.presetn = true) (hq : s.PortsQuiet) {det : Bool} (hr : s.RunsCandidates det)
    {ds : List Reg} {v : Verdict} (hv : Verdict.Within ds v) : (s.judge det v).Inv := by
  have hcount : ∀ k, some s.attempt = some k → k ≤ Config.maxAttempts := fun k hk => by
    cases hk
    exact h.attemptBound
  match v, hv with
  | .error e, he => exact h.complete hp hq he.2 hcount
  | .ok none, _ => exact h.nextCandidate hp hq hr
  | .ok (some ws), _ => exact h.completeRegs hp hq ws hcount

theorem absorb (h : s.Inv) (hp : s.presetn = true) (hq : s.PortsQuiet) (hr : s.RunsDrbg) {ds : List Reg} (k : DrbgStep) (w : Word)
    {test : Nat → Verdict} (ht : ∀ n, Verdict.Within ds (test n)) : (s.absorb k w test).Inv := by
  have hv : State.Inv { s with drbgV := w } := h.unread _ _ _ _ _ _ _ w _ _
  have hbound := h.attemptBound
  cases k with
  | initK0 => exact h.atDrbg hr .initV0 w _ hbound _
  | initV0 => exact h.atDrbg hr .initK1 _ w hbound _
  | initK1 => exact h.atDrbg hr .initV1 w _ hbound _
  | initV1 => exact hv.nextCandidate hp ⟨hq.hmac, hq.rng⟩ (det := true) hr
  | rejectK => exact h.atDrbg hr .rejectV w _ hbound _
  | rejectV => exact h.atDrbg hr .next _ w hbound _
  | next => exact hv.judge hp ⟨hq.hmac, hq.rng⟩ (det := true) hr (ht w.toNat)

theorem drbgTurn (h : s.Inv) (hp : s.presetn = true) (hr : s.RunsDrbg) {ds : List Reg} (d e : Word) {k : DrbgStep}
    (hk : s.stage = .drbg k) {test : Nat → Verdict} (ht : ∀ n, Verdict.Within ds (test n)) : (s.drbgTurn d e k test).Inv := by
  unfold State.drbgTurn
  split
  · exact { h with hmacOwned := fun _ => ⟨k, hk⟩ }
  · exact h
  · exact h
  · have hidle : State.Inv { s with hmacPort := .idle } := h.setPorts (by simp [HmacPort.isLive]) id
    have hq := hidle.quiet_of_runsCandidates (det := true) hr (fun _ => rfl) (by simp)
    exact hidle.absorb hp hq hr k _ ht

theorem randomTurn (h : s.Inv) (hp : s.presetn = true) (hr : s.RunsRandomSign) {ds : List Reg} (hs : s.stage = .random)
    {test : BitVec 512 → Verdict} (ht : ∀ x, Verdict.Within ds (test x)) : (s.randomTurn test).Inv := by
  unfold State.randomTurn
  split
  · exact { h with rngOwned := fun _ => .inl hs }
  · exact h
  · rename_i data _
    have hidle : State.Inv { s with rngPort := .idle } := h.setPorts id (by simp [RngPort.isLive])
    have hq := hidle.quiet_of_runsCandidates (det := false) hr (by simp) (fun _ => rfl)
    exact hidle.judge hp hq (det := false) hr (ht data)

/-- `DRBG_INIT` begins (R102). -/
theorem beginDrbg (h : s.Inv) (hr : s.RunsDrbg) : s.beginDrbg.Inv := h.atDrbg hr .initK0 _ _ (Nat.zero_le _) _

/-- A turn of SIGN with valid moduli (R104). -/
theorem signTurn (h : s.Inv) (hp : s.presetn = true) {det : Bool} (hr : s.RunsCandidates det) (rd : Reg) (d e : Word)
    (chainId : Option Nat) : (s.signTurn rd d e chainId det).Inv := by
  unfold State.signTurn
  split
  · rename_i hstart
    have hq := h.quiet_at_start hr hstart
    split
    · cases det with
      | true => exact h.beginDrbg hr
      | false =>
        have hzero : State.Inv { s with attempt := 0 } := { h with attemptBound := Nat.zero_le _ }
        exact hzero.nextCandidate hp ⟨hq.hmac, hq.rng⟩ (det := false) hr
    · exact h.complete hp hq rfl fun k hk => by cases hk; exact Nat.zero_le _
  · rename_i k hk
    cases det with
    | true => exact h.drbgTurn hp hr d e hk (signTestDet_within s.curve rd d.toNat e.toNat chainId)
    | false => exact h
  · rename_i hs
    cases det with
    | true => exact h
    | false => exact h.randomTurn hp hr hs (signTestRnd_within s.curve rd d.toNat e.toNat chainId)

/-- NONCE and SIGN end with an error before their first turn only while no candidate loop runs: then the ports are quiet. -/
theorem fails_counting (h : s.Inv) (hp : s.presetn = true) {i : Instr} (hd : decode s.cmdLast = .ok i)
    (hi : countsAttempts i = true) (hloop : ∀ det, ¬s.RunsCandidates det) {e : ResultCode} (he : e.Raised) :
    (s.complete e (some 0)).Inv := by
  have hrand : ¬s.RunsRand := by
    rintro ⟨-, d, m, hj, -⟩
    cases hd.symm.trans hj
    cases hi
  have hq : s.PortsQuiet := ⟨h.hmac_quiet (hloop true), h.rng_quiet (hloop false) hrand⟩
  exact h.complete hp hq he.2 fun k hk => by cases hk; exact Nat.zero_le _

theorem exec_nonce (h : s.Inv) (hp : s.presetn = true) (hb : s.status.busy = true) {d a b : Reg}
    (hd : decode s.cmdLast = .ok (.nonce d a b)) {t : State} (he : exec (.nonce d a b) s = .next t) : t.Inv := by
  simp only [exec, execNonce] at he
  split at he
  · rename_i e hm
    cases he
    refine h.fails_counting hp hd rfl (fun det hr => ?_) (s.requireModulus_clean .n e hm)
    cases hm.symm.trans (require_eq_ok.mpr hr.validN)
  · rename_i hm
    have hr : s.RunsDrbg := ⟨hb, require_eq_ok.mp hm, .inl ⟨d, a, b, hd⟩⟩
    split at he
    · cases he
      exact h.beginDrbg hr
    · rename_i k hk
      cases he
      exact h.drbgTurn hp hr _ _ hk (nonceTest_within d s.curve.nNat)
    · cases he
      exact h

/-- The checks of SIGN before its first turn (R59, R108): an error ends it with quiet ports, and past them its candidate
loop runs. -/
theorem sign_checks (h : s.Inv) (hp : s.presetn = true) (hb : s.status.busy = true) {i : Instr} {d a b : Reg} {det : Bool}
    {offset : State → Nat} (hf : SignForm i d a b det offset) (hd : decode s.cmdLast = .ok i) :
    (∀ e, (do requireLegal i; s.requireModuli : Except ResultCode Unit) = .error e → (s.complete e (some 0)).Inv) ∧
      ∀ u, (do requireLegal i; s.requireModuli : Except ResultCode Unit) = .ok u → s.RunsCandidates det := by
  have hlegal : requireLegal i = .ok () := require_eq_ok.mpr (wellFormed_of_decode hd)
  rw [hlegal, ok_bind]
  refine ⟨fun e hm => ?_, fun _ hm => hf.runsCandidates hb hd hm⟩
  refine h.fails_counting hp hd hf.countsAttempts (fun det' hr => ?_) (s.requireModuli_clean e hm)
  cases hm.symm.trans (hr.requireModuli fun d' a' b' hn => hf.ne_nonce (Except.ok.inj (hd.symm.trans hn)))

theorem exec_sign (h : s.Inv) (hp : s.presetn = true) (hb : s.status.busy = true) {d a b : Reg} {det : Bool}
    (hd : decode s.cmdLast = .ok (.sign d a b det)) {t : State} (he : exec (.sign d a b det) s = .next t) : t.Inv := by
  obtain ⟨hfail, hrun⟩ := h.sign_checks hp hb (.inl ⟨rfl, rfl⟩) hd
  simp only [exec, execSign] at he
  split at he
  · rename_i e hm
    cases he
    exact hfail e hm
  · rename_i u hm
    cases he
    exact h.signTurn hp (hrun u hm) d _ _ none

theorem exec_signCid (h : s.Inv) (hp : s.presetn = true) (hb : s.status.busy = true) {d a b c : Reg} {det : Bool}
    (hd : decode s.cmdLast = .ok (.signCid d a b c det)) {t : State} (he : exec (.signCid d a b c det) s = .next t) :
    t.Inv := by
  obtain ⟨hfail, hrun⟩ := h.sign_checks hp hb (.inr ⟨c, rfl, rfl⟩) hd
  simp only [exec, execSignCid] at he
  split at he
  · rename_i e hm
    cases he
    exact hfail e hm
  · rename_i u hm
    cases he
    exact h.signTurn hp (hrun u hm) d _ _ _

theorem exec_rand (h : s.Inv) (hp : s.presetn = true) (hb : s.status.busy = true) {d : Reg} {m : ModSel}
    (hd : decode s.cmdLast = .ok (.rand d m)) {t : State} (he : exec (.rand d m) s = .next t) : t.Inv := by
  have hdrbg : ¬s.RunsDrbg := fun hr => by
    obtain ⟨i, hi, ho, -⟩ := hr.command
    cases hd.symm.trans hi
    cases ho
  have hsign : ¬s.RunsRandomSign := fun hr => by
    obtain ⟨i, hi, -, hc, -⟩ := hr.command
    cases hd.symm.trans hi
    cases hc
  simp only [exec, execRand] at he
  split at he
  · rename_i e hm
    cases he
    have hrand : ¬s.RunsRand := by
      rintro ⟨-, d', m', hi, hv⟩
      cases hd.symm.trans hi
      cases hm.symm.trans (require_eq_ok.mpr hv)
    exact h.complete hp ⟨h.hmac_quiet hdrbg, h.rng_quiet hsign hrand⟩ (s.requireModulus_clean m e hm).2 (by simp)
  · rename_i hm
    have hr : s.RunsRand := ⟨hb, d, m, hd, require_eq_ok.mp hm⟩
    split at he
    · cases he
      exact h.rngPort_of_runsRand hr _
    · cases he
      exact h
    · rename_i data _
      cases he
      exact (h.rngPort_of_runsRand hr .idle).completeRegs hp ⟨h.hmac_quiet hdrbg, rfl⟩
        [(d, word (reduce (s.curve.modulus m) (rngInt data)))] (n := none) (by simp)

/-- A command without port traffic (R112). -/
theorem exec_portless (h : s.Inv) (hp : s.presetn = true) {i : Instr} (hd : decode s.cmdLast = .ok i)
    (hi : usesPort i = false) {t : State} (he : exec i s = .next t) : t.Inv := by
  have hq : s.PortsQuiet := h.quiet_of_no_port_command fun _ j hj => by
    cases hd.symm.trans hj
    exact hi
  cases turned_of_exec he with
  | fails e hraised _ => exact h.complete hp hq hraised.2 (by simp)
  | regs ws _ _ => exact h.completeRegs hp hq ws (by simp)
  | point d Q _ _ =>
    have hset : State.Inv (s.setPoint d Q) := h.unread _ (s.setPoint d Q).points _ _ _ _ _ _ _ _
    exact hset.complete hp ⟨hq.hmac, hq.rng⟩ rfl (by simp)
  | bytes a compressed _ x y =>
    have hfit : 0 + (encodePoint x y compressed).length ≤ Config.bufBytes := by
      cases compressed <;> simp [encodePoint, Config.bufBytes]
    have hset := (h.setBuf (Memory.writeAll_wf h.bufCanonical hfit)).unread s.regs s.points
      (BitVec.ofNat 8 (encodePoint x y compressed).length) s.ie s.status.cmdDropped s.status.accViol s.drbgK s.drbgV s.response
      s.inputs
    exact hset.complete hp ⟨hq.hmac, hq.rng⟩ rfl (by simp)
  | port _ hport _ => cases hi.symm.trans hport

/-- A turn of the latched command. -/
theorem exec (h : s.Inv) (hp : s.presetn = true) (hb : s.status.busy = true) {i : Instr} (hd : decode s.cmdLast = .ok i)
    {t : State} (he : Machine.exec i s = .next t) : t.Inv := by
  cases i with
  | nonce d a b => exact h.exec_nonce hp hb hd he
  | sign d a b det => exact h.exec_sign hp hb hd he
  | signCid d a b c det => exact h.exec_signCid hp hb hd he
  | rand d m => exact h.exec_rand hp hb hd he
  | _ => exact h.exec_portless hp hd rfl he

theorem stepped (h : s.Inv) {t : State} (ht : Stepped s t) : t.Inv := by
  cases ht with
  | received e => exact h.receive e
  | illegal hp _ hd => exact h.illegal hp hd
  | ran i _ hp hb hd he => exact h.exec hp hb hd he

end State.Inv

/-- Settles O28: the invariant says nothing of the events to come, and each event and each turn of the engine keeps it. -/
theorem stepKeepsInv : Obligations.StepKeepsInv := by
  intro s t h hstep
  obtain ⟨rest, ht⟩ := stepped_of_step hstep
  exact (h.unread _ _ _ _ _ _ _ _ _ rest).stepped ht

end Sys2Proof.Machine
end

section
/-! The frame of every command: its destinations, the status, and what only ENCODE, NONCE, SIGN and the port commands
touch (spec/10_state.md R20, spec/60_exceptions.md R113, R121, R122). -/

namespace Sys2Proof.Machine

section
variable {ds : List Reg} {ps : List PtReg} {s t : State}

theorem SameButProgress.frame (h : SameButProgress s t) : Frame ds ps s t where
  regs r _ := by rw [State.reg, h.regs, State.reg]
  points q _ := by rw [State.point, h.points, State.point]
  curve := h.curve
  ie := h.ie
  cmdLast := h.cmdLast
  cmdDropped := by rw [h.status]
  accViol := by rw [h.status]
  presetn := h.presetn
  response := h.response
  inputs := h.inputs

theorem SameButProgress.bufferKept (h : SameButProgress s t) : BufferKept s t where
  bytes j := by rw [h.buf]
  len := h.bufLen

theorem BufferKept.setRegs (h : BufferKept s t) (ws : List (Reg × Word)) : BufferKept s (t.setRegs ws) := by
  obtain ⟨regs, hregs⟩ := t.setRegs_eq ws
  rw [hregs]
  exact ⟨h.bytes, h.len⟩

theorem BufferKept.complete (h : BufferKept s t) (code : ResultCode) (n : Option Nat) : BufferKept s (t.complete code n) :=
  ⟨h.bytes, h.len⟩

theorem PortTurn.frame (h : PortTurn ds s t) : Frame ds ps s t := by
  cases h with
  | goesOn _ same => exact same.frame
  | fails u same e _ n => exact same.frame.complete e n
  | completes u same ws hw n => exact (same.frame.setRegs hw).complete .ok n

theorem PortTurn.bufferKept (h : PortTurn ds s t) : BufferKept s t := by
  cases h with
  | goesOn _ same => exact same.bufferKept
  | fails u same e _ n => exact same.bufferKept.complete e n
  | completes u same ws _ n => exact (same.bufferKept.setRegs ws).complete .ok n

end

section
variable {i : Instr} {s t : State}

/-- A command writes no register but its destinations (R69-R106). -/
theorem Turned.frame (h : Turned i s t) : Frame (destinations i).1 (destinations i).2 s t := by
  have same := Frame.refl (destinations i).1 (destinations i).2 s
  cases h with
  | fails e _ _ => exact same.complete e none
  | regs ws hw _ => exact (same.setRegs hw).complete .ok none
  | point d Q hd _ => exact (same.setPoint hd Q).complete .ok none
  | bytes a compressed _ x y => exact ⟨same.regs, same.points, rfl, rfl, rfl, rfl, rfl, rfl, rfl, rfl⟩
  | port _ _ hturn => exact hturn.frame

/-- Only ENCODE writes the buffer (R99). -/
theorem Turned.bufferKept (h : Turned i s t) (hi : ∀ a compressed, i ≠ .encode a compressed) : BufferKept s t := by
  have same : BufferKept s s := ⟨fun _ => rfl, rfl⟩
  cases h with
  | fails e _ _ => exact same.complete e none
  | regs ws _ _ => exact (same.setRegs ws).complete .ok none
  | point d Q _ _ => exact ⟨fun _ => rfl, rfl⟩
  | bytes a compressed he _ _ => exact absurd he (hi a compressed)
  | port _ _ hturn => exact hturn.bufferKept

/-- A command without port traffic leaves `ATTEMPTS`, the generator and the ports alone (R121, R122). -/
theorem Turned.portless (h : Turned i s t) (hi : usesPort i = false) :
    t.attempts = s.attempts ∧ DrbgKept s t ∧ PortsKept s t := by
  cases h with
  | fails e _ _ => exact ⟨rfl, ⟨rfl, rfl, rfl⟩, rfl, rfl⟩
  | regs ws _ _ =>
    obtain ⟨regs, hregs⟩ := s.setRegs_eq ws
    rw [hregs]
    exact ⟨rfl, ⟨rfl, rfl, rfl⟩, rfl, rfl⟩
  | point d Q _ _ => exact ⟨rfl, ⟨rfl, rfl, rfl⟩, rfl, rfl⟩
  | bytes a compressed _ x y => exact ⟨rfl, ⟨rfl, rfl, rfl⟩, rfl, rfl⟩
  | port _ hport _ => cases hi.symm.trans hport

/-- RAND has no attempts and no generator (R81). -/
theorem exec_rand_keeps {d : Reg} {m : ModSel} (h : exec (.rand d m) s = .next t) :
    t.attempts = s.attempts ∧ DrbgKept s t := by
  simp only [exec, execRand] at h
  split at h
  · cases h
    exact ⟨rfl, rfl, rfl, rfl⟩
  · split at h <;> cases h <;> exact ⟨rfl, rfl, rfl, rfl⟩

/-- The one port command without attempts is RAND. -/
theorem usesPort_cases (hi : countsAttempts i = false) : usesPort i = false ∨ ∃ d m, i = .rand d m := by
  cases i with
  | rand d m => exact .inr ⟨d, m, rfl⟩
  | _ => exact .inl hi

theorem exec_keeps_attempts (h : exec i s = .next t) (hi : countsAttempts i = false) :
    t.attempts = s.attempts ∧ DrbgKept s t := by
  obtain hp | ⟨d, m, rfl⟩ := usesPort_cases hi
  · obtain ⟨hattempts, hdrbg, -⟩ := (turned_of_exec h).portless hp
    exact ⟨hattempts, hdrbg⟩
  · exact exec_rand_keeps h

end

/-- Settles O10, from what exec can do with any command. -/
theorem commandsWriteOnlyTheirDestinations : Obligations.CommandsWriteOnlyTheirDestinations := by
  intro i s t h
  have hturned := turned_of_exec h
  exact ⟨hturned.frame, hturned.bufferKept, exec_keeps_attempts h, fun hp => (hturned.portless hp).2.2⟩

end Sys2Proof.Machine
end

section
/-! The point units stay on the curve: the adder, the scalar multiplier, the decompressor and the decoder give `INF` or a
point of the curve, when `CURVE.p` is prime (spec/10_state.md R19, spec/42_point_group.md R85-R88, R100). -/

namespace Sys2Proof.Machine

/-! Arithmetic modulo `CURVE.p`, in the field. -/

theorem reduce_zmod {m : Nat} (hm : 0 < m) (x : Int) : ((reduce m x : Nat) : ZMod m) = (x : ZMod m) := by
  have hcast : ((reduce m x : Nat) : ZMod m) = (((reduce m x : Nat) : Int) : ZMod m) := by push_cast; rfl
  rw [hcast, reduce_cast hm, ZMod.intCast_mod]

theorem reduce_eq_zero_iff {m : Nat} (hm : 0 < m) (x : Int) : reduce m x = 0 ↔ (x : ZMod m) = 0 := by
  rw [ZMod.intCast_zmod_eq_zero_iff_dvd, Int.dvd_iff_emod_eq_zero, ← reduce_cast hm]
  exact Int.natCast_eq_zero.symm

theorem powMod_zmod {m : Nat} (hm : 0 < m) (b : Nat) {e : Nat} (he : e < 2 ^ 256) :
    ((powMod m b e : Nat) : ZMod m) = (b : ZMod m) ^ e := by
  rw [powMod_eq hm b he, ZMod.natCast_mod, Nat.cast_pow]

/-- The quotient of Fermat division, modulo a prime (R79). -/
theorem divide_mul {m l : Nat} (hm : Nat.Prime m) (hlt : m < 2 ^ 256) {a b : Int} (h : divide m a b = .ok l) :
    (l : ZMod m) * (b : ZMod m) = (a : ZMod m) ∧ (b : ZMod m) ≠ 0 := by
  have hpos := hm.pos
  have : Fact m.Prime := ⟨hm⟩
  unfold divide at h
  split at h
  · cases h
  · rename_i hb
    rw [reduce_eq_zero_iff hpos] at hb
    cases h
    refine ⟨?_, hb⟩
    rw [reduce_zmod hpos]
    push_cast
    rw [powMod_zmod hpos _ (by omega), reduce_zmod hpos, mul_assoc, ← pow_succ,
      show m - 2 + 1 = m - 1 by have := hm.two_le; omega, ZMod.pow_card_sub_one_eq_one hb, mul_one]

/-! The curve equation. -/

/-- The equation of the curve over the field (R3, R85). -/
def Curve.Equation (c : Curve) (x y : ZMod c.pNat) : Prop := y ^ 2 = x ^ 3 + c.a.toNat * x + c.b.toNat

theorem Curve.onCurve_iff {c : Curve} (hp : 0 < c.pNat) (x y : Nat) :
    c.onCurve x y = true ↔ x < c.pNat ∧ y < c.pNat ∧ c.Equation x y := by
  have heq : reduce c.pNat ((y : Int) ^ 2 - c.rhs x) = 0 ↔ c.Equation x y := by
    rw [reduce_eq_zero_iff hp, Curve.Equation, Curve.rhs]
    push_cast
    exact sub_eq_zero
  simp only [Curve.onCurve, Bool.and_eq_true, decide_eq_true_eq, heq, and_assoc]

theorem Curve.onCurve_of_OnCurve {c : Curve} (hp : 0 < c.pNat) {x y : Nat} (h : OnCurve c x y) : c.onCurve x y = true := by
  obtain ⟨hx, hy, heq⟩ := h
  have hzero : reduce c.pNat ((y : Int) ^ 2 - c.rhs x) = 0 := by
    rw [← Int.natCast_eq_zero, reduce_cast hp]
    exact heq
  simp [Curve.onCurve, hx, hy, hzero]

/-- A point register's content that R19 allows: `INF`, or a point of the curve. -/
def Point.On (c : Curve) (q : Point) : Prop := ∀ x y, q = .affine x y → c.onCurve x.toNat y.toNat = true

theorem Point.On.inf (c : Curve) : Point.On c .inf := by
  intro x y h
  cases h

theorem Point.On.affine {c : Curve} {x y : Word} (h : c.onCurve x.toNat y.toNat = true) : Point.On c (.affine x y) := by
  intro x' y' he
  cases he
  exact h

/-- The same for coordinates computed as numbers, which a register holds because they are below `CURVE.p`. -/
theorem Point.On.word {c : Curve} {x y : Nat} (h : c.onCurve x y = true) : Point.On c (.affine (word x) (word y)) := by
  refine .affine ?_
  have hp : c.pNat < 2 ^ 256 := c.p.isLt
  have hlt : x < c.pNat ∧ y < c.pNat := by
    simp only [Curve.onCurve, Bool.and_eq_true, decide_eq_true_eq] at h
    exact h.1
  rwa [word_toNat (by omega), word_toNat (by omega)]

/-- The third point of the line of slope `l` through `(x1, y1)`, mirrored, is on the curve when the line meets the curve
again at `x2`: the cubic less the square of the line has the roots `x1`, `x2` and `l² - x1 - x2`. -/
theorem chord_equation {R : Type} [CommRing R] {a b l x1 y1 x2 : R} (h1 : y1 ^ 2 = x1 ^ 3 + a * x1 + b)
    (h2 : l * (l * (x2 - x1) + 2 * y1) = x2 ^ 2 + x1 * x2 + x1 ^ 2 + a) :
    (l * (x1 - (l ^ 2 - x1 - x2)) - y1) ^ 2 = (l ^ 2 - x1 - x2) ^ 3 + a * (l ^ 2 - x1 - x2) + b := by
  linear_combination h1 + (l ^ 2 - 2 * x1 - x2) * h2

/-- A line through two points of the curve with different abscissas meets it at both. -/
theorem secant_meets {R : Type} [CommRing R] [IsDomain R] {a b l x1 y1 x2 y2 : R} (h1 : y1 ^ 2 = x1 ^ 3 + a * x1 + b)
    (h2 : y2 ^ 2 = x2 ^ 3 + a * x2 + b) (hne : x2 - x1 ≠ 0) (hl : l * (x2 - x1) = y2 - y1) :
    l * (l * (x2 - x1) + 2 * y1) = x2 ^ 2 + x1 * x2 + x1 ^ 2 + a := by
  refine mul_left_cancel₀ hne ?_
  linear_combination h2 - h1 + (l * (x2 - x1) + y2 + y1) * hl

/-- A point of the chord-and-tangent construction is on the curve (R86). -/
theorem chordPoint_on {c : Curve} (hp : 0 < c.pNat) {l x1 y1 x2 : Nat} (h1 : c.Equation x1 y1)
    (h2 : (l : ZMod c.pNat) * (l * (x2 - x1) + 2 * y1) = x2 ^ 2 + x1 * x2 + x1 ^ 2 + c.a.toNat) :
    (chordPoint c.pNat l x1 y1 x2).On c := by
  refine .word ((Curve.onCurve_iff hp _ _).mpr ⟨reduce_lt hp _, reduce_lt hp _, ?_⟩)
  have hchord := chord_equation h1 h2
  unfold Curve.Equation
  push_cast [reduce_zmod hp]
  exact hchord

/-! Computations that give a result of a kind, or an error. -/

/-- The result, if there is one, has the property. -/
def Gives {α : Type} (P : α → Prop) (x : Except ResultCode α) : Prop := ∀ a, x = .ok a → P a

namespace Gives

variable {α β : Type} {P : α → Prop} {Q : β → Prop}

theorem ok {a : α} (h : P a) : Gives P (.ok a) := fun _ ha => by cases ha; exact h

theorem pure {a : α} (h : P a) : Gives P (pure a) := .ok h

theorem error (e : ResultCode) : Gives P (.error e) := fun _ ha => by cases ha

theorem bind {x : Except ResultCode α} {f : α → Except ResultCode β} (h : Gives P x) (k : ∀ a, P a → Gives Q (f a)) :
    Gives Q (x >>= f) := by
  intro b hb
  obtain ⟨a, ha, hf⟩ := bind_eq_ok.mp hb
  exact k a (h a ha) b hf

/-- A first part whose result does not matter. -/
theorem after {x : Except ResultCode α} {f : α → Except ResultCode β} (k : ∀ a, Gives Q (f a)) : Gives Q (x >>= f) :=
  bind (P := fun _ => True) (fun _ _ => trivial) fun a _ => k a

theorem ite {c : Prop} [Decidable c] {x y : Except ResultCode α} (h : c → Gives P x) (k : ¬c → Gives P y) :
    Gives P (if c then x else y) := by
  split
  · exact h ‹_›
  · exact k ‹_›

theorem require {b : Bool} {e : ResultCode} : Gives (fun _ => b = true) (require b e) := fun _ h => require_eq_ok.mp h

end Gives

/-! The point units. -/

section
variable {c : Curve} (hprime : Nat.Prime c.pNat)
include hprime

theorem tangent_on {l x y : Nat} (he : c.Equation x y)
    (hl : divide c.pNat (3 * (x : Int) ^ 2 + c.a.toNat) (2 * (y : Int)) = .ok l) :
    (chordPoint c.pNat l x y x).On c := by
  refine chordPoint_on hprime.pos he ?_
  obtain ⟨hmul, -⟩ := divide_mul hprime c.p.isLt hl
  push_cast at hmul
  linear_combination hmul

theorem secant_on {l x1 y1 x2 y2 : Nat} (he1 : c.Equation x1 y1) (he2 : c.Equation x2 y2)
    (hl : divide c.pNat ((y2 : Int) - y1) ((x2 : Int) - x1) = .ok l) : (chordPoint c.pNat l x1 y1 x2).On c := by
  have : Fact c.pNat.Prime := ⟨hprime⟩
  refine chordPoint_on hprime.pos he1 ?_
  obtain ⟨hmul, hne⟩ := divide_mul hprime c.p.isLt hl
  push_cast at hmul hne
  unfold Curve.Equation at he1 he2
  exact secant_meets he1 he2 hne hmul

theorem paddF_on {q1 q2 : Point} (h1 : q1.On c) (h2 : q2.On c) : Gives (Point.On c) (paddF c q1 q2) := by
  match q1, q2 with
  | .inf, _ => exact .ok h2
  | .affine x y, .inf => exact .ok h1
  | .affine x1 y1, .affine x2 y2 =>
    obtain ⟨-, -, he1⟩ := (Curve.onCurve_iff hprime.pos _ _).mp (h1 _ _ rfl)
    obtain ⟨-, -, he2⟩ := (Curve.onCurve_iff hprime.pos _ _).mp (h2 _ _ rfl)
    refine .ite (fun _ => .ok (.inf c)) fun _ => .ite (fun hsame => ?_) fun _ => ?_
    · obtain ⟨rfl, rfl⟩ := hsame
      exact .bind (fun l hl => tangent_on hprime he1 hl) fun l hl => .pure hl
    · exact .bind (fun l hl => secant_on hprime he1 he2 hl) fun l hl => .pure hl

theorem pmulLoop_on {q : Point} (hq : q.On c) (scalar k : Nat) {acc : Point} (hacc : acc.On c) :
    Gives (Point.On c) (pmulLoop c q scalar k acc) := by
  induction k generalizing acc with
  | zero => exact .ok hacc
  | succ k ih =>
    refine .bind (paddF_on hprime hacc hacc) fun doubled hdoubled => .ite (fun _ => ?_) fun _ => ih hdoubled
    exact .bind (paddF_on hprime hdoubled hq) fun next hnext => ih hnext

theorem pmulF_on {q : Point} (hq : q.On c) (scalar : Nat) : Gives (Point.On c) (pmulF c q scalar) :=
  pmulLoop_on hprime hq scalar 256 (.inf c)

end

/-! The decompressor. -/

/-- Both roots of a square are roots, and below the modulus (R80). -/
theorem squareRoots_spec {m : Nat} (hm : Nat.Prime m) (hlt : m < 2 ^ 256) (v : Int) :
    Gives (fun roots => roots.1 < m ∧ roots.2 < m ∧ (roots.1 : ZMod m) ^ 2 = v ∧ (roots.2 : ZMod m) ^ 2 = v)
      (squareRoots m v) := by
  have hpos := hm.pos
  have : Fact m.Prime := ⟨hm⟩
  unfold squareRoots
  split
  · exact .error _
  · rename_i hmod
    have hfour : m % 4 = 3 := by omega
    split
    · exact .error _
    · rename_i heuler
      have hone : (v : ZMod m) ^ ((m - 1) / 2) = 1 := by
        have hdec : powMod m (reduce m v) ((m - 1) / 2) % m = 1 := by omega
        have hcast := congrArg (Nat.cast : Nat → ZMod m) hdec
        rwa [ZMod.natCast_mod, powMod_zmod hpos _ (by omega), reduce_zmod hpos, Nat.cast_one] at hcast
      have hsq : ((powMod m (reduce m v) ((m + 1) / 4) : Nat) : ZMod m) ^ 2 = v := by
        rw [powMod_zmod hpos _ (by omega), reduce_zmod hpos, ← pow_mul,
          show (m + 1) / 4 * 2 = (m - 1) / 2 + 1 by omega, pow_succ, hone, one_mul]
      have hr := powMod_lt hpos (reduce m v) ((m + 1) / 4)
      generalize powMod m (reduce m v) ((m + 1) / 4) = r at hsq hr
      have hr0 : r ≠ 0 := by
        rintro rfl
        have hv : (v : ZMod m) = 0 := by rw [← hsq]; simp
        rw [hv, zero_pow (by omega)] at hone
        exact zero_ne_one hone
      refine .ok ⟨hr, by simp; omega, hsq, ?_⟩
      rw [Nat.cast_sub hr.le, ZMod.natCast_self, zero_sub, neg_sq, hsq]

theorem fromxF_on {c : Curve} (hprime : Nat.Prime c.pNat) (x : Nat) (odd : Bool) :
    Gives (Point.On c) (fromxF c x odd) := by
  refine .bind .require fun _ hx => .bind (squareRoots_spec hprime c.p.isLt (c.rhs x)) fun roots hroots => .pure (.word ?_)
  obtain ⟨hlt1, hlt2, hsq1, hsq2⟩ := hroots
  refine (Curve.onCurve_iff hprime.pos _ _).mpr ⟨of_decide_eq_true hx, ?_⟩
  have hrhs : ((c.rhs x : Int) : ZMod c.pNat) = x ^ 3 + c.a.toNat * x + c.b.toNat := by
    unfold Curve.rhs
    push_cast
    rfl
  unfold Curve.Equation
  rw [← hrhs]
  split
  · exact ⟨hlt1, hsq1⟩
  · exact ⟨hlt2, hsq2⟩

theorem decodePoint_on {c : Curve} (hprime : Nat.Prime c.pNat) (buf : Memory) (len : Nat) :
    Gives (Point.On c) (decodePoint c buf len) := by
  unfold decodePoint
  split
  · exact fromxF_on hprime _ _
  · split
    · exact .bind .require fun _ h => .pure (.word h)
    · exact .error _

end Sys2Proof.Machine
end

section
/-! Every step keeps the point registers `INF` or on the curve (spec/10_state.md R19, R22). -/

namespace Sys2Proof.Machine

/-! Events leave the point registers as they are, or reset them. -/

theorem State.writeCtrl_points (s : State) (v : BusWord) :
    (s.writeCtrl v).points = s.points ∨ (s.writeCtrl v).points = State.reset.points := by
  unfold State.writeCtrl
  split
  · exact .inr rfl
  · split <;> exact .inl rfl

theorem State.writePlace_points (s : State) (v : BusWord) (place : Place) :
    (s.writePlace v place).points = s.points ∨ (s.writePlace v place).points = State.reset.points := by
  cases place with
  | ctrl => exact s.writeCtrl_points v
  | _ => exact .inl rfl

theorem Served.points {s t : State} (h : Served s t) : t.points = s.points ∨ t.points = State.reset.points := by
  cases h with
  | written v place _ _ => exact s.writePlace_points v place
  | _ => exact .inl rfl

theorem State.receive_points (s : State) (e : Input) :
    (s.receive e).points = s.points ∨ (s.receive e).points = State.reset.points := by
  cases e with
  | bus tr => exact (s.serve_served tr).points
  | resetPin level =>
    cases level with
    | false => exact .inr rfl
    | true => exact .inl rfl
  | _ => exact .inl rfl

/-! Commands. -/

section
variable {s t : State}

theorem State.pointsOnCurve_of_reset (h : s.points = State.reset.points) : s.PointsOnCurve := by
  intro q x y hq
  rw [State.point, h] at hq
  simp [State.reset, Vector.get_eq_getElem] at hq

/-- Point registers and curve registers as before. -/
theorem State.PointsOnCurve.congr (hs : s.PointsOnCurve) (hpoints : ∀ q, t.point q = s.point q) (hc : t.curve = s.curve) :
    t.PointsOnCurve := by
  intro q x y hq
  rw [hc]
  exact hs q x y ((hpoints q).symm.trans hq)

theorem State.PointsOnCurve.setPoint (hs : s.PointsOnCurve) {Q : Point} (hQ : Q.On s.curve) (d : PtReg) :
    (s.setPoint d Q).PointsOnCurve := by
  intro q
  rw [State.point_setPoint]
  split
  · exact hQ
  · exact hs q

theorem State.PointsOnCurve.finish (hs : s.PointsOnCurve) {x : Except ResultCode State} (hx : Gives State.PointsOnCurve x)
    (h : s.finish x = .next t) : t.PointsOnCurve := by
  obtain ⟨u, hu, hfinish⟩ | ⟨e, he, hfinish⟩ := s.finish_cases x <;> cases hfinish.symm.trans h
  · exact hx u hu
  · exact hs

/-- A command without a destination point register. -/
theorem State.PointsOnCurve.exec_of_no_point (hs : s.PointsOnCurve) {i : Instr} (hi : (destinations i).2 = [])
    (h : exec i s = .next t) : t.PointsOnCurve := by
  have hframe := (turned_of_exec h).frame
  exact hs.congr (fun q => hframe.points q (by simp [hi])) hframe.curve

/-- Every command: what it writes to a point register is `INF`, the generator, a copy of a point register, a pair that passed
`ONCURVE`, or the result of a point unit. -/
theorem State.PointsOnCurve.exec (hs : s.PointsOnCurve) (hprime : Nat.Prime s.curve.pNat) (hg : s.curve.g.On s.curve) {i : Instr}
    (h : exec i s = .next t) : t.PointsOnCurve := by
  cases i with
  | pinf d => exact hs.finish (.ok (hs.setPoint (.inf s.curve) d)) h
  | pgen d => exact hs.finish (.after fun _ => .after fun _ => .pure (hs.setPoint hg d)) h
  | pset d a b => exact hs.finish (.after fun _ => .bind .require fun _ hon => .pure (hs.setPoint (.affine hon) d)) h
  | pmov d a => exact hs.finish (.ok (hs.setPoint (hs a) d)) h
  | padd d a b =>
    exact hs.finish (.after fun _ => .bind (paddF_on hprime (hs a) (hs b)) fun _ hQ => .pure (hs.setPoint hQ d)) h
  | pmul d a b =>
    exact hs.finish (.after fun _ => .after fun _ => .bind (pmulF_on hprime (hs a) _) fun _ hQ => .pure (hs.setPoint hQ d)) h
  | pmuladd d a b c =>
    exact hs.finish (.after fun _ => .after fun _ => .after fun _ => .after fun _ =>
      .bind (pmulF_on hprime (hs a) _) fun _ h1 => .bind (pmulF_on hprime (hs b) _) fun _ h2 =>
      .bind (paddF_on hprime h1 h2) fun _ hQ => .pure (hs.setPoint hQ d)) h
  | pfromx d a odd => exact hs.finish (.after fun _ => .bind (fromxF_on hprime _ _) fun _ hQ => .pure (hs.setPoint hQ d)) h
  | decode d => exact hs.finish (.after fun _ => .bind (decodePoint_on hprime _ _) fun _ hQ => .pure (hs.setPoint hQ d)) h
  | recover d a b =>
    exact hs.finish (.after fun _ => .after fun _ => .after fun _ => .after fun _ => .after fun _ =>
      .bind (fromxF_on hprime _ _) fun _ hR => .after fun _ => .bind (pmulF_on hprime hR _) fun _ h1 =>
      .bind (pmulF_on hprime hg _) fun _ h2 => .bind (paddF_on hprime h1 h2) fun _ hQ =>
      .after fun _ => .pure (hs.setPoint hQ d)) h
  | _ => exact hs.exec_of_no_point rfl h

theorem State.PointsOnCurve.stepped (hs : s.PointsOnCurve) (hprime : Nat.Prime s.curve.pNat) (hg : s.curve.g.On s.curve)
    (h : Stepped s t) (hc : t.curve = s.curve) : t.PointsOnCurve := by
  cases h with
  | received e =>
    obtain hsame | hreset := s.receive_points e
    · exact hs.congr (fun q => by rw [State.point, hsame, State.point]) hc
    · exact State.pointsOnCurve_of_reset hreset
  | illegal _ _ _ => exact hs
  | ran i _ _ _ _ he => exact hs.exec hprime hg he

end

/-- Settles O29: no event writes a point register but to reset it, and the point units stay on the curve. -/
theorem pointRegistersStayOnTheCurve : Obligations.PointRegistersStayOnTheCurve := by
  intro s t hprime hg hs hstep hc
  obtain ⟨rest, ht⟩ := stepped_of_step hstep
  have hg' : s.curve.g.On s.curve := .affine (Curve.onCurve_of_OnCurve hprime.pos hg)
  exact State.PointsOnCurve.stepped (s := { s with inputs := rest }) hs hprime hg' ht hc

end Sys2Proof.Machine
end

section
/-! The control registers through the host window (spec/10_state.md R24-R33, spec/60_exceptions.md R107). -/

namespace Sys2Proof.Machine

/-! Transfers that are allowed. -/

section
variable {s : State} {addr : Offset}

/-- An aligned read is answered with the word of the map, while idle or outside the data region (R39, R47). -/
theorem State.serve_read (hp : s.presetn = true) (haligned : addr.toNat % 4 = 0)
    (hfree : s.status.busy = false ∨ inDataRegion addr.toNat = false) :
    s.serve (.read addr) = s.respond (s.readPlace (placeAt addr.toNat)) := by
  have hallowed : (s.status.busy && inDataRegion addr.toNat) = false := Bool.and_eq_false_iff.mpr hfree
  simp [State.serve, State.serveRead, hp, haligned, hallowed]

/-- An aligned write of a whole word takes effect, while idle or where a running command does not forbid it (R39, R47). -/
theorem State.serve_write (hp : s.presetn = true) (haligned : addr.toNat % 4 = 0)
    (hfree : s.status.busy = false ∨
      inDataRegion addr.toNat = false ∧ placeAt addr.toNat ≠ .cmd ∧ placeAt addr.toNat ≠ .bufLen) (v : BusWord) :
    s.serve (.write addr 0b1111#4 v) = s.writePlace v (placeAt addr.toNat) := by
  rcases hfree with hidle | ⟨hregion, hcmd, hlen⟩
  · simp [State.serve, State.serveWrite, hp, haligned, hidle]
  · simp [State.serve, State.serveWrite, hp, haligned, hregion, hcmd, hlen]

variable {rest : List Input}

theorem State.readPlace_inputs (s : State) (rest : List Input) (place : Place) :
    State.readPlace { s with inputs := rest } place = s.readPlace place := by
  cases place <;> rfl

theorem step_read (hi : s.inputs = .bus (.read addr) :: rest) (hp : s.presetn = true) (haligned : addr.toNat % 4 = 0)
    (hfree : s.status.busy = false ∨ inDataRegion addr.toNat = false) :
    step s = .next { s with response := some (s.readPlace (placeAt addr.toNat)), inputs := rest } := by
  rw [step_bus hi, ← s.readPlace_inputs rest]
  exact congrArg _ (State.serve_read (s := { s with inputs := rest }) hp haligned hfree)

theorem step_write {v : BusWord} (hi : s.inputs = .bus (.write addr 0b1111#4 v) :: rest) (hp : s.presetn = true)
    (haligned : addr.toNat % 4 = 0)
    (hfree : s.status.busy = false ∨
      inDataRegion addr.toNat = false ∧ placeAt addr.toNat ≠ .cmd ∧ placeAt addr.toNat ≠ .bufLen) :
    step s = .next (State.writePlace { s with inputs := rest } v (placeAt addr.toNat)) :=
  (step_bus hi).trans (congrArg _ (State.serve_write (s := { s with inputs := rest }) hp haligned hfree v))

end

/-! What the control registers read. -/

/-- The model's numbers of the codes are those of the table of R107. -/
theorem code_eq_codeNumber (e : ResultCode) : e.code.setWidth 32 = BitVec.ofNat 32 (codeNumber e) := by
  cases e <;> rfl

theorem pinfWord_eq_sum (s : State) :
    pinfWord s.points = BitVec.ofNat 32 (∑ q : PtReg, if s.point q = .inf then 2 ^ q.val else 0) := by
  have hbit (q : PtReg) : 2 ^ q.val * bit (decide (s.points[q] = .inf)) = if s.point q = .inf then 2 ^ q.val else 0 := by
    rw [show s.points[q] = s.point q from rfl, bit]
    by_cases hinf : s.point q = .inf <;> simp [hinf]
  simp only [pinfWord, hbit, Fin.sum_univ_def]

/-- A control register's offset is aligned and outside the data region, and reads the value of `controlRead` (R24-R33). -/
theorem controlRead_spec {s : State} {off x : Nat} (h : controlRead s off = some x) :
    (BitVec.ofNat 12 off).toNat % 4 = 0 ∧ inDataRegion (BitVec.ofNat 12 off).toNat = false ∧
      s.readPlace (placeAt (BitVec.ofNat 12 off).toNat) = { data := BitVec.ofNat 32 x, err := false } := by
  have answer {d : BusWord} {n : Nat} (hd : d = BitVec.ofNat 32 n) :
      (⟨d, false⟩ : Response) = { data := BitVec.ofNat 32 n, err := false } := by rw [hd]
  unfold controlRead at h
  split at h <;> cases h <;> refine ⟨by decide, by decide, answer ?_⟩
  · rfl
  · rfl
  · rfl
  · rfl
  · exact code_eq_codeNumber s.errcode
  · exact (BitVec.ofNat_toNat 32 s.cmdLast).symm
  · exact (BitVec.ofNat_toNat 32 s.bufLen).symm
  · exact (BitVec.ofNat_toNat 32 s.attempts).symm
  · exact pinfWord_eq_sum s
  · rfl

/-- A write of `CTRL` that asks for neither an abort nor a reset sets `IE` (R26). -/
theorem State.writePlace_ctrl_ie (s : State) {v : BusWord} (habort : v.getLsbD 1 = false) (hreset : v.getLsbD 2 = false) :
    s.writePlace v .ctrl = { s with ie := v.getLsbD 0, response := takenAnswer } := by
  simp only [State.writePlace, State.writeCtrl, habort, hreset, Bool.false_and, Bool.false_eq_true, if_false]
  rfl

/-- `BUF_LEN` takes bits [7:0] (R30). -/
theorem State.writePlace_bufLen (s : State) (v : BusWord) :
    s.writePlace v .bufLen = { s with bufLen := v.extractLsb' 0 8, response := takenAnswer } := by
  rw [← BitVec.setWidth_eq_extractLsb' (by decide)]
  rfl

/-- Settles O22: each transfer is an allowed one, and each register stands at its place of the map. -/
theorem controlRegistersReadAndWrite : Obligations.ControlRegistersReadAndWrite := by
  intro s rest hp
  refine ⟨fun off x hx hi => ?_, fun v hi => ?_, fun v habort hreset hi => ?_, fun v hidle hi => ?_⟩
  · obtain ⟨haligned, hregion, hread⟩ := controlRead_spec hx
    rw [step_read hi hp haligned (.inr hregion), hread]
  · exact step_write hi hp (by decide) (.inr (by decide))
  · refine (step_write hi hp (by decide) (.inr (by decide))).trans (congrArg _ ?_)
    exact State.writePlace_ctrl_ie { s with inputs := rest } habort hreset
  · refine (step_write hi hp (by decide) (.inl hidle)).trans (congrArg _ ?_)
    exact State.writePlace_bufLen { s with inputs := rest } v

end Sys2Proof.Machine
end

section
/-! The host window (spec/20_memory.md): where each word lies in the map, which transfers are refused and what they leave
behind (R37, R38, R40, R42, R47), and the lanes of the wide values and of `BUF` (R43, R44). -/

namespace Sys2Proof.Machine

/-! Where the words lie in the map (R37). -/

theorem toNat_offset {off : Nat} (hlt : off < 0x1000) : (BitVec.ofNat 12 off).toNat = off := by
  rw [BitVec.toNat_ofNat, Nat.mod_eq_of_lt hlt]

/-- The low two bits of a misaligned address are not both 0 (R40). -/
theorem extractLsb'_low_ne_zero_iff (addr : Offset) : addr.extractLsb' 0 2 ≠ 0#2 ↔ addr.toNat % 4 ≠ 0 := by
  simp [← BitVec.toNat_inj]

theorem inDataRegion_iff (n : Nat) : inDataRegion n = true ↔ 0x100 ≤ n ∧ n < 0x680 := by
  simp [inDataRegion]

theorem placeAt_reg (r : Reg) (k : Fin 8) : placeAt (0x100 + 0x20 * r.val + 4 * k.val) = .reg r k := by
  decide +revert

theorem placeAt_pointX (q : PtReg) (k : Fin 8) : placeAt (0x400 + 0x40 * q.val + 4 * k.val) = .pointX q k := by
  decide +revert

theorem placeAt_pointY (q : PtReg) (k : Fin 8) : placeAt (0x420 + 0x40 * q.val + 4 * k.val) = .pointY q k := by
  decide +revert

theorem placeAt_buf (k : Fin 32) : placeAt (0x600 + 4 * k.val) = .buf k := by
  decide +revert

/-- The curve registers stand at their offsets of the map, each word aligned. -/
theorem placeAt_curve (k : Fin 8) :
    ∀ f ∈ [(0x300, CurveField.p), (0x320, .a), (0x340, .b), (0x360, .gx), (0x380, .gy), (0x3A0, .n)],
      placeAt (f.1 + 4 * k.val) = .curve f.2 k ∧ (f.1 + 4 * k.val) % 4 = 0 ∧ f.1 + 4 * k.val < 0x1000 := by
  decide +revert

theorem controlPlace_reserved {n : Nat} (h : 10 ≤ n) : controlPlace n = .reserved := by
  obtain ⟨m, rfl⟩ := Nat.exists_eq_add_of_le' h
  rfl

theorem placeAt_reserved {off : Nat} (h : ReservedOffset off) : placeAt off = .reserved := by
  unfold placeAt
  rcases h with hcontrol | hhole | htop
  · rw [if_pos (by omega), controlPlace_reserved (by omega)]
  · rw [if_neg (by omega), if_neg (by omega), if_neg (by omega), if_pos (by omega)]
  · rw [if_neg (by omega), if_neg (by omega), if_neg (by omega), if_neg (by omega), if_neg (by omega), if_neg (by omega)]

/-- The place that `CMD` has in the map lies below the data region. -/
theorem placeAt_ne_cmd_of_inDataRegion {n : Nat} (h : inDataRegion n = true) : placeAt n ≠ .cmd := by
  obtain ⟨hlo, -⟩ := (inDataRegion_iff n).mp h
  unfold placeAt
  rw [if_neg (by omega)]
  repeat' split
  all_goals nofun

/-! Words that take no write (R38). -/

/-- The places a host write has an effect on: the map without its read-only and reserved words (R38). -/
def Place.writable : Place → Bool
  | .ctrl | .status | .cmd | .bufLen | .reg _ _ | .curve _ _ | .buf _ => true
  | .id | .hwcfg | .errcode | .attempts | .pinf | .maxatt | .pointX _ _ | .pointY _ _ | .reserved => false

theorem State.writePlace_of_not_writable {place : Place} (h : place.writable = false) (s : State) (v : BusWord) :
    s.writePlace v place = s.respond refusal := by
  cases place <;> cases h <;> rfl

theorem Place.ne_of_not_writable {p q : Place} (hp : p.writable = false) (hq : q.writable = true) : p ≠ q := by
  rintro rfl
  exact Bool.false_ne_true (hp.symm.trans hq)

theorem placeAt_not_writable {off : Nat} (h : ReservedOffset off ∨ ReadOnlyOffset off) :
    (placeAt off).writable = false := by
  rcases h with hreserved | rfl | rfl | rfl | rfl | rfl | rfl | hpoint
  · rw [placeAt_reserved hreserved]; rfl
  iterate 6 next => rfl
  · unfold placeAt
    rw [if_neg (by omega), if_neg (by omega), if_neg (by omega), if_neg (by omega), if_pos (by omega)]
    split <;> rfl

/-! Transfers that are refused. -/

section
variable {s : State} {addr : Offset} {rest : List Input}

/-- The block held in reset ignores a transfer (R131). -/
theorem step_bus_heldInReset {tr : Transfer} (hi : s.inputs = .bus tr :: rest) (hp : s.presetn = false) :
    step s = .next { s with inputs := rest } := by
  simp [step_bus hi, State.serve, hp]

/-- A misaligned read is refused and sets no flag (R40). -/
theorem step_read_misaligned (hi : s.inputs = .bus (.read addr) :: rest) (hp : s.presetn = true)
    (hmis : addr.toNat % 4 ≠ 0) : step s = .next { s with response := refusedAnswer, inputs := rest } := by
  rw [step_bus hi, State.serve, if_pos hp, State.serveRead, if_pos hmis]
  rfl

/-- A misaligned write and one with a partial strobe are refused and set no flag (R40). -/
theorem step_write_malformed {strb : BitVec 4} {v : BusWord} (hi : s.inputs = .bus (.write addr strb v) :: rest)
    (hp : s.presetn = true) (hmal : addr.toNat % 4 ≠ 0 ∨ strb ≠ 0b1111#4) :
    step s = .next { s with response := refusedAnswer, inputs := rest } := by
  rw [step_bus hi, State.serve, if_pos hp, State.serveWrite, if_pos hmal]
  rfl

/-- An aligned read of the data region is refused and flagged while busy (R47). -/
theorem step_read_violation (hi : s.inputs = .bus (.read addr) :: rest) (hp : s.presetn = true)
    (hbusy : s.status.busy = true) (haligned : addr.toNat % 4 = 0) (hregion : inDataRegion addr.toNat = true) :
    step s = .next { s with
      status := { s.status with accViol := true }, response := refusedAnswer, inputs := rest } := by
  rw [step_bus hi, State.serve, if_pos hp, State.serveRead, if_neg (by simp [haligned]), if_pos (by simp [hbusy, hregion])]
  rfl

/-- An aligned write of the data region or of `BUF_LEN` is refused and flagged while busy (R47). -/
theorem step_write_violation {v : BusWord} (hi : s.inputs = .bus (.write addr 0b1111#4 v) :: rest) (hp : s.presetn = true)
    (hbusy : s.status.busy = true) (haligned : addr.toNat % 4 = 0)
    (hplace : inDataRegion addr.toNat = true ∨ placeAt addr.toNat = .bufLen) :
    step s = .next { s with
      status := { s.status with accViol := true }, response := refusedAnswer, inputs := rest } := by
  have hcmd : placeAt addr.toNat ≠ .cmd := by
    rcases hplace with hregion | hlen
    · exact placeAt_ne_cmd_of_inDataRegion hregion
    · simp [hlen]
  rw [step_bus hi, State.serve, if_pos hp, State.serveWrite, if_neg (by simp [haligned]), if_neg (by simp [hcmd]),
    if_pos (by simpa [hbusy] using hplace)]
  rfl

/-- A write of `CMD` is dropped and flagged while busy (R47). -/
theorem step_write_dropped {v : BusWord} (hi : s.inputs = .bus (.write addr 0b1111#4 v) :: rest) (hp : s.presetn = true)
    (hbusy : s.status.busy = true) (haligned : addr.toNat % 4 = 0) (hplace : placeAt addr.toNat = .cmd) :
    step s = .next { s with
      status := { s.status with cmdDropped := true }, response := refusedAnswer, inputs := rest } := by
  rw [step_bus hi, State.serve, if_pos hp, State.serveWrite, if_neg (by simp [haligned]), if_pos (by simp [hbusy, hplace])]
  rfl

/-- Every aligned access of the data region is refused and flagged while busy, the reserved hole included (R47). -/
theorem step_dataRegion_violation {off : Nat} {v : BusWord} (hp : s.presetn = true) (hbusy : s.status.busy = true)
    (haligned : off % 4 = 0) (hlo : 0x100 ≤ off) (hhi : off < 0x680)
    (hi : s.inputs = hostRead off :: rest ∨ s.inputs = hostWrite off v :: rest) :
    step s = .next { s with
      status := { s.status with accViol := true }, response := refusedAnswer, inputs := rest } := by
  have haddr : (BitVec.ofNat 12 off).toNat = off := toNat_offset (by omega)
  have hregion := (inDataRegion_iff off).mpr ⟨hlo, hhi⟩
  rcases hi with hi | hi
  · exact step_read_violation hi hp hbusy (by rw [haddr, haligned]) (by rw [haddr, hregion])
  · exact step_write_violation hi hp hbusy (by rw [haddr, haligned]) (.inl (by rw [haddr, hregion]))

end

/-- Settles O18: the refusals of R47, and the control registers as on an idle block. -/
theorem busyBlockRefusesAccessesOfItsData : Obligations.BusyBlockRefusesAccessesOfItsData := by
  intro s rest hp hbusy
  obtain ⟨hread, hstatus, hctrl, -⟩ := controlRegistersReadAndWrite s rest hp
  refine ⟨fun w hi => ?_, fun off v haligned hlo hhi hi => ?_, fun v hi => ?_, hread, hstatus, hctrl⟩
  · exact step_write_dropped hi hp hbusy (by decide) (by decide)
  · exact step_dataRegion_violation hp hbusy haligned hlo hhi hi
  · exact step_write_violation hi hp hbusy (by decide) (.inr (by decide))

/-- Settles O19: the address and the strobe are looked at before anything else. -/
theorem malformedTransfersHaveNoEffect : Obligations.MalformedTransfersHaveNoEffect := by
  intro s rest addr strb v hp h
  rw [extractLsb'_low_ne_zero_iff] at h
  rcases h with ⟨hmis, hi⟩ | ⟨hmal, hi⟩
  · exact step_read_misaligned hi hp hmis
  · exact step_write_malformed hi hp hmal

/-- Settles O20: in the data region while busy R47 refuses the access; elsewhere the place of the map answers the error. -/
theorem reservedAndReadOnlyOffsetsAnswerErrors : Obligations.ReservedAndReadOnlyOffsetsAnswerErrors := by
  intro s rest off v hp haligned h
  by_cases hviolates : s.status.busy = true ∧ 0x100 ≤ off ∧ off < 0x680
  · obtain ⟨hbusy, hlo, hhi⟩ := hviolates
    rw [if_pos ⟨hbusy, hlo, hhi⟩]
    exact step_dataRegion_violation hp hbusy haligned hlo hhi (h.imp And.right And.right)
  · rw [if_neg hviolates]
    have hlt : off < 0x1000 := by
      unfold ReservedOffset ReadOnlyOffset at h
      omega
    have haddr : (BitVec.ofNat 12 off).toNat = off := toNat_offset hlt
    have hfree : s.status.busy = false ∨ inDataRegion off = false := by
      simpa only [← inDataRegion_iff, not_and_or, Bool.not_eq_true] using hviolates
    rw [← haddr] at haligned hfree
    rcases h with ⟨hreserved, hi⟩ | ⟨hrefuses, hi⟩
    · rw [step_read hi hp haligned hfree, haddr, placeAt_reserved hreserved]
      rfl
    · have hplace := placeAt_not_writable hrefuses
      rw [← haddr] at hplace
      rw [step_write hi hp haligned
          (hfree.imp_right (⟨·, Place.ne_of_not_writable hplace rfl, Place.ne_of_not_writable hplace rfl⟩)),
        State.writePlace_of_not_writable hplace]
      rfl

/-- What a word reads depends neither on the last answer nor on the events to come (R42). -/
theorem State.readPlace_answered (s : State) (r : Option Response) (rest : List Input) (place : Place) :
    State.readPlace { s with response := r, inputs := rest } place = s.readPlace place := by
  cases place <;> rfl

/-- Settles O21: whichever way a read is answered, the state it leaves answers the same read the same way. -/
theorem readsHaveNoSideEffect : Obligations.ReadsHaveNoSideEffect := by
  intro s rest addr hi
  by_cases hp : s.presetn = true
  case neg =>
    have hp : s.presetn = false := by simpa using hp
    exact ⟨_, _, step_bus_heldInReset hi hp, step_bus_heldInReset rfl hp, rfl, .inl rfl, rfl⟩
  by_cases haligned : addr.toNat % 4 = 0
  case neg =>
    exact ⟨_, _, step_read_misaligned hi hp haligned, step_read_misaligned rfl hp haligned, rfl, .inl rfl, rfl⟩
  by_cases hviolates : s.status.busy = true ∧ inDataRegion addr.toNat = true
  · obtain ⟨hbusy, hregion⟩ := hviolates
    obtain ⟨hlo, hhi⟩ := (inDataRegion_iff _).mp hregion
    exact ⟨_, _, step_read_violation hi hp hbusy haligned hregion, step_read_violation rfl hp hbusy haligned hregion, rfl,
      .inr ⟨hbusy, hlo, hhi, rfl⟩, rfl⟩
  · have hfree : s.status.busy = false ∨ inDataRegion addr.toNat = false := by
      simpa only [not_and_or, Bool.not_eq_true] using hviolates
    refine ⟨_, _, step_read hi hp haligned hfree, step_read rfl hp haligned hfree, ?_, .inl rfl, ?_⟩ <;>
      simp only [State.readPlace_answered]

/-! Accesses of an idle block, by the word of the map they reach. -/

section
variable {s : State} {rest : List Input} {off : Nat} {place : Place}

theorem step_hostRead_of_idle (hi : s.inputs = hostRead off :: rest) (hp : s.presetn = true) (hidle : s.status.busy = false)
    (hplace : placeAt off = place) (haligned : off % 4 = 0) (hlt : off < 0x1000) :
    step s = .next { s with response := some (s.readPlace place), inputs := rest } := by
  rw [step_read hi hp (by rwa [toNat_offset hlt]) (.inl hidle), toNat_offset hlt, hplace]

theorem step_hostWrite_of_idle {v : BusWord} (hi : s.inputs = hostWrite off v :: rest) (hp : s.presetn = true)
    (hidle : s.status.busy = false) (hplace : placeAt off = place) (haligned : off % 4 = 0) (hlt : off < 0x1000) :
    step s = .next (State.writePlace { s with inputs := rest } v place) := by
  rw [step_write hi hp (by rwa [toNat_offset hlt]) (.inl hidle), toNat_offset hlt, hplace]

end

/-! The words of a 256-bit value (R43). -/

/-- The mask of `setWordAt` has the low 32 bits set. -/
theorem getLsbD_lowMask (i : Nat) : (0xFFFFFFFF#256).getLsbD i = decide (i < 32) := by
  rw [show (0xFFFFFFFF#256) = BitVec.ofNat 256 (2 ^ 32 - 1) from rfl, BitVec.getLsbD_ofNat, Nat.testBit_two_pow_sub_one,
    ← Bool.decide_and, decide_eq_decide]
  omega

/-- Bit `i` of the value lies in its word `i / 32`, at bit `i % 32`. -/
theorem getLsbD_setWordAt (x : Word) (k : Fin 8) (v : BusWord) {i : Nat} (hi : i < 256) :
    (setWordAt x k v).getLsbD i = if i / 32 = k.val then v.getLsbD (i % 32) else x.getLsbD i := by
  simp only [setWordAt, BitVec.getLsbD_or, BitVec.getLsbD_and, BitVec.getLsbD_not, BitVec.getLsbD_shiftLeft,
    getLsbD_lowMask, BitVec.getLsbD_setWidth]
  by_cases hlow : i < 32 * k.val
  · rw [if_neg (by omega)]
    simp [hlow, hi]
  by_cases hword : i < 32 * k.val + 32
  · rw [if_pos (by omega), show i % 32 = i - 32 * k.val by omega]
    simp [hlow, hi, show i - 32 * k.val < 32 by omega, show i - 32 * k.val < 256 by omega]
  · rw [if_neg (by omega)]
    have habove : v.getLsbD (i - 32 * k.val) = false := BitVec.getLsbD_of_ge v _ (by omega)
    simp [hlow, hi, habove, show ¬i - 32 * k.val < 32 by omega]

/-- A word that is replaced holds the value written. -/
theorem extractLsb'_setWordAt_same (x : Word) (k : Fin 8) (v : BusWord) :
    (setWordAt x k v).extractLsb' (32 * k.val) 32 = v := by
  ext i hi
  rw [BitVec.getElem_extractLsb', getLsbD_setWordAt x k v (by omega), if_pos (by omega)]
  simp [Nat.mod_eq_of_lt hi, BitVec.getLsbD_eq_getElem hi]

/-- Every other word is left as it was. -/
theorem extractLsb'_setWordAt_other (x : Word) {j k : Fin 8} (hjk : j ≠ k) (v : BusWord) :
    (setWordAt x k v).extractLsb' (32 * j.val) 32 = x.extractLsb' (32 * j.val) 32 := by
  ext i hi
  rw [BitVec.getElem_extractLsb', BitVec.getElem_extractLsb', getLsbD_setWordAt x k v (by omega), if_neg (by omega)]

/-- Settles O23: each word stands at its place of the map, and `setWordAt` replaces one word. -/
theorem wordsOfWideValuesLieLittleEndian : Obligations.WordsOfWideValuesLieLittleEndian := by
  intro s rest k hp hidle
  refine ⟨fun r hi => ?_, fun q hi => ?_, fun q hi => ?_, fun f hf hi => ?_, fun r v hi => ?_, fun f hf v hi => ?_⟩
  · exact step_hostRead_of_idle hi hp hidle (placeAt_reg r k) (by omega) (by omega)
  · exact step_hostRead_of_idle hi hp hidle (placeAt_pointX q k) (by omega) (by omega)
  · exact step_hostRead_of_idle hi hp hidle (placeAt_pointY q k) (by omega) (by omega)
  · obtain ⟨hplace, haligned, hlt⟩ := placeAt_curve k f hf
    exact step_hostRead_of_idle hi hp hidle hplace haligned hlt
  · exact ⟨setWordAt (s.reg r) k v, extractLsb'_setWordAt_same _ k v, fun j hj => extractLsb'_setWordAt_other _ hj v,
      step_hostWrite_of_idle hi hp hidle (placeAt_reg r k) (by omega) (by omega)⟩
  · obtain ⟨hplace, haligned, hlt⟩ := placeAt_curve k f hf
    exact ⟨setWordAt (s.curve.get f.2) k v, extractLsb'_setWordAt_same _ k v,
      fun j hj => extractLsb'_setWordAt_other _ hj v, step_hostWrite_of_idle hi hp hidle hplace haligned hlt⟩

/-! The words of `BUF` (R44). -/

/-- Byte `j` of a buffer word is the byte `4k + j` of `BUF`. -/
theorem extractLsb'_bufWord (m : Memory) (k : Fin 32) {j : Nat} (hj : j < 4) :
    (bufWord m k).extractLsb' (8 * j) 8 = m.read (4 * k.val + j) := by
  have hlt : lanes (m.slice (4 * k.val) 4) < 2 ^ 32 := by
    simpa [Memory.slice] using lanes_lt (m.slice (4 * k.val) 4)
  have hlane := lanes_get (m.slice (4 * k.val) 4) j (by simpa [Memory.slice] using hj)
  rw [BitVec.extractLsb', bufWord, BitVec.toNat_ofNat, Nat.mod_eq_of_lt hlt, Nat.shiftRight_eq_div_pow, hlane]
  simp [Memory.slice]

/-- Settles O25: a buffer word reads its four bytes, and a write of it is a write of a string of four bytes. -/
theorem bufferWordsLieInLittleEndianLanes : Obligations.BufferWordsLieInLittleEndianLanes := by
  intro s rest k hp hidle hwf
  have hsorted := Memory.pairwise_of_wf hwf
  refine ⟨fun hi => ?_, fun v hi => ?_⟩
  · exact ⟨bufWord s.buf k, fun j hj => extractLsb'_bufWord s.buf k hj,
      step_hostRead_of_idle hi hp hidle (placeAt_buf k) (by omega) (by omega)⟩
  · refine ⟨s.buf.writeAll (4 * k.val) (laneBytes 4 v.toNat), fun j hj => ?_, fun i hi' => ?_,
      step_hostWrite_of_idle hi hp hidle (placeAt_buf k) (by omega) (by omega)⟩
    · rw [Memory.read_writeAll hsorted, dif_pos (by simp [laneBytes, hj])]
      simp [laneBytes, BitVec.extractLsb', Nat.shiftRight_eq_div_pow]
    · rw [Memory.read_writeAll hsorted, dif_neg (by simp [laneBytes]; omega)]

end Sys2Proof.Machine
end

section
/-! Encoding and decoding: what the check of conditions 2 to 5 answers, the fields of each command, and the word that
stands for it (spec/30_encoding.md R53-R60). -/

namespace Sys2Proof

open Machine

/-! Operands through their fields (R54, R56, R57). -/

@[simp] theorem regOf_val (r : Reg) : regOf r.val = r := by
  simp [regOf]

@[simp] theorem ptOf_val (q : PtReg) : ptOf q.val = q := by
  simp [ptOf]

@[simp] theorem selOf_bit (m : ModSel) : selOf m.bit = m := by cases m <;> rfl

@[simp] theorem flagOf_flagBit (b : Bool) : flagOf (flagBit b) = b := by cases b <;> rfl

theorem ptReg_le_seven (q : PtReg) : q.val ≤ 7 := Nat.le_of_lt_succ q.isLt

/-- Conditions 2 to 4 of R59 for a command that uses the fields `used`, of which `points` name point registers. -/
structure Fields.Meets (x : Fields) (used points : List FieldName) : Prop where
  reserved : x.rsv = 0
  unused : ∀ n, n ∉ used → x.get n = 0
  points : ∀ n ∈ points, x.get n ≤ 7

theorem Fields.meets_iff (x : Fields) (used points : List FieldName) :
    x.Meets used points ↔ x.rsv = 0 ∧ (∀ n, n ∉ used → x.get n = 0) ∧ ∀ n ∈ points, x.get n ≤ 7 :=
  ⟨fun ⟨hr, hu, hp⟩ => ⟨hr, hu, hp⟩, fun ⟨hr, hu, hp⟩ => ⟨hr, hu, hp⟩⟩

/-- The check accepts a command exactly when the fields meet conditions 2 to 4 and the command meets condition 5 (R59). -/
theorem Fields.command_eq_ok_iff {x : Fields} {used points : List FieldName} {i j : Instr} :
    x.command used points i = .ok j ↔ x.Meets used points ∧ i.wellFormed = true ∧ i = j := by
  have hunused : [FieldName.d, .a, .b, .c, .m, .f, .g].any (fun n => !used.contains n && x.get n != 0) = false ↔
      ∀ n, n ∉ used → x.get n = 0 := by
    refine ⟨fun h n hn => ?_, fun h => by simp +contextual [h]⟩
    have hall := List.any_eq_false.mp h n (by cases n <;> simp)
    simpa [hn] using hall
  have hpoints : points.any (fun n => decide (7 < x.get n)) = false ↔ ∀ n ∈ points, x.get n ≤ 7 := by simp
  constructor
  · intro h
    unfold Fields.command at h
    split at h
    · cases h
    split at h
    · cases h
    split at h
    · cases h
    split at h
    · rename_i hr hu hp hi
      cases h
      exact ⟨⟨not_not.mp hr, hunused.mp (Bool.eq_false_iff.mpr hu), hpoints.mp (Bool.eq_false_iff.mpr hp)⟩, hi, rfl⟩
    · cases h
  · rintro ⟨⟨hr, hu, hp⟩, hi, rfl⟩
    rw [Fields.command, if_neg (not_not.mpr hr), hunused.mpr hu, hpoints.mpr hp, hi]
    rfl

/-- The decoder reads from the fields of a command that command, under conditions 2 to 4 of R59, which they meet. -/
theorem Instr.decode_fields_eq_command (i : Instr) :
    ∃ used points, i.fields.decode = i.fields.command used points i ∧ i.fields.Meets used points := by
  cases i
  all_goals
    simp only [Instr.fields, Fields.plain, Fields.decode, regOf_val, ptOf_val, selOf_bit, flagOf_flagBit, if_true,
      one_ne_zero, if_false]
    refine ⟨_, _, rfl, rfl, ?_, ?_⟩
    · intro n
      cases n <;> simp [Fields.get]
    · simp [Fields.get, ptReg_le_seven]

/-- The fields of a well-formed command decode to it (R53, R58). -/
theorem Instr.decode_fields {i : Instr} (h : i.wellFormed = true) : i.fields.decode = .ok i := by
  obtain ⟨used, points, hdecode, hmeets⟩ := i.decode_fields_eq_command
  rw [hdecode]
  exact Fields.command_eq_ok_iff.mpr ⟨hmeets, h, rfl⟩

theorem decode_encode {i : Instr} (h : i.wellFormed = true) : decode (encode i) = .ok i := by
  rw [decode, Fields.ofWord_encode, Instr.decode_fields h]

theorem decodeTableWord_of_decode {w : CmdWord} {i : Instr} (h : decode w = .ok i) :
    decodeTableWord 32 w.toNat = some i := by
  rw [decodeTableWord, Nat.mod_eq_of_lt w.isLt, BitVec.ofNat_toNat, BitVec.setWidth_eq, h]

/-- Settles O1: an encoded command has the fields of the command, and these decode to it. -/
theorem decodeEncodeRoundTrip : Obligations.DecodeEncodeRoundTrip := by
  intro i h
  have hdecode := decode_encode h
  exact ⟨hdecode, decodeTableWord_of_decode hdecode⟩

/-! The table of R65. -/

/-- The word of a well-formed command is its encoding in both directions. -/
theorem encodedBy_of_encode {i : Instr} {w : CmdWord} (h : encode i = w) (hwf : i.wellFormed = true) : EncodedBy i w :=
  ⟨h, by rw [← h, decode_encode hwf]⟩

/-- Settles O4: each command of the table is well formed and has its word; each illegal word ends in an error. -/
theorem encodingExamplesHold : Obligations.EncodingExamplesHold := by
  refine ⟨?_, ?_, ?_, ?_, ?_, ?_, ?_, ?_, ?_, ?_, ?_, ?_, ?_, ?_, ?_, ?_, fun w hw i hi => ?_⟩
  iterate 16 next => exact encodedBy_of_encode (by decide) rfl
  · have herror : (decode w).isOk = false := by
      simp only [List.mem_cons, List.not_mem_nil, or_false] at hw
      rcases hw with rfl | rfl | rfl | rfl | rfl | rfl | rfl <;> rfl
    rw [hi] at herror
    cases herror

/-! Fields through the operands they name (R54, R56, R57). -/

theorem val_regOf {n : Nat} (h : n < 2 ^ 4) : (regOf n).val = n := Nat.mod_eq_of_lt h

theorem val_ptOf {n : Nat} (h : n ≤ 7) : (ptOf n).val = n := Nat.mod_eq_of_lt (by omega)

theorem bit_selOf {n : Nat} (h : n < 2 ^ 1) : (selOf n).bit = n := by
  obtain rfl | rfl : n = 0 ∨ n = 1 := by omega
  all_goals rfl

theorem flagBit_flagOf {n : Nat} (h : n < 2 ^ 1) : flagBit (flagOf n) = n := by
  obtain rfl | rfl : n = 0 ∨ n = 1 := by omega
  all_goals rfl

/-! The rows of the opcode map (R58). -/

theorem FieldName.forall_iff {p : FieldName → Prop} :
    (∀ n, p n) ↔ p .d ∧ p .a ∧ p .b ∧ p .c ∧ p .m ∧ p .f ∧ p .g :=
  ⟨fun h => ⟨h _, h _, h _, h _, h _, h _, h _⟩, fun ⟨hd, ha, hb, hc, hm, hf, hg⟩ n => by cases n <;> assumption⟩

/-- The fields that the opcode uses, by the tables of R58; SIGN uses `G` when it is 1. -/
def Fields.Uses (x : Fields) : FieldName → Prop
  | .d => UsesD x.op
  | .a => UsesA x.op
  | .b => UsesB x.op
  | .c => UsesC x.op x.g
  | .m => UsesM x.op
  | .f => UsesF x.op
  | .g => x.op = 0x30 ∧ x.g = 1

/-- The fields that name point registers, by the tables of R58. -/
def Fields.NamesPoint (x : Fields) : FieldName → Prop
  | .d => PointD x.op
  | .a => PointA x.op
  | .b => PointB x.op
  | .c | .m | .f | .g => False

/-- Condition 5 of R59, by opcode. -/
def Fields.Groups (x : Fields) : Prop :=
  (x.op = 0x15 → x.a ≤ 14) ∧ (x.op = 0x19 → x.d ≠ x.c) ∧ (x.op = 0x28 → x.c ≤ 14) ∧ (x.op = 0x30 → x.d ≤ 13) ∧
    (x.op = 0x31 → x.a ≤ 14) ∧ (x.op = 0x32 → x.a ≤ 13)

/-- The row of the opcode map for `x` has the command `i`, with the fields `used` and, among them, `points`. -/
structure Fields.Row (x : Fields) (used points : List FieldName) (i : Instr) : Prop where
  assigned : AssignedOpcode x.op
  uses : ∀ n, n ∈ used ↔ x.Uses n
  namesPoint : ∀ n, n ∈ points ↔ x.NamesPoint n
  groups : i.wellFormed = true ↔ x.Groups
  fields : x.Meets used points → i.fields = x

/-- The decoder checks the command of the opcode's row, or the opcode is unassigned (R58, R59). -/
theorem Fields.decode_row {x : Fields} (hx : x.InRange) :
    ¬AssignedOpcode x.op ∧ x.decode = .error .unassignedOpcode ∨
      ∃ used points i, x.decode = x.command used points i ∧ x.Row used points i := by
  have hd := val_regOf hx.d
  have ha := val_regOf hx.a
  have hb := val_regOf hx.b
  have hc := val_regOf hx.c
  have hm := bit_selOf hx.m
  have hf := flagBit_flagOf hx.f
  have hg := hx.g
  unfold Fields.decode
  obtain ⟨op, d, a, b, c, m, f, g, rsv⟩ := x
  split
  -- No row.
  case h_30 =>
    refine .inl ⟨?_, rfl⟩
    simp only [imp_false] at *
    unfold AssignedOpcode
    omega
  -- SIGN has a row without and one with a chain id.
  case' h_26 => obtain rfl | rfl : g = 0 ∨ g = 1 := Nat.le_one_iff_eq_zero_or_eq_one.mp (Nat.le_of_lt_succ hg)
  all_goals
    rename_i hop
    dsimp only at *
    subst hop
    refine .inr ⟨_, _, _, rfl, ?_, ?_, ?_, ?_, ?_⟩
    · simp [AssignedOpcode]
    · simp [FieldName.forall_iff, Fields.Uses, UsesD, UsesA, UsesB, UsesC, UsesM, UsesF]
    · simp [FieldName.forall_iff, Fields.NamesPoint, PointD, PointA, PointB]
    · simp [Instr.wellFormed, Fields.Groups, Fin.ext_iff, *]
    · simp +contextual [Fields.meets_iff, FieldName.forall_iff, Fields.get, Instr.fields, Fields.plain, val_ptOf, *]

/-- What the decoder accepts is what the row says, and the command has the fields read (R58, R59). -/
theorem Fields.row_of_decode {x : Fields} (hx : x.InRange) {i : Instr} (h : x.decode = .ok i) :
    ∃ used points, x.Row used points i ∧ x.Meets used points ∧ i.wellFormed = true := by
  obtain ⟨-, herror⟩ | ⟨used, points, j, hcommand, hrow⟩ := Fields.decode_row hx
  · cases herror.symm.trans h
  · obtain ⟨hmeets, hwf, rfl⟩ := Fields.command_eq_ok_iff.mp (hcommand.symm.trans h)
    exact ⟨used, points, hrow, hmeets, hwf⟩

/-- Settles O2: the command of a row has the fields of the word, and a word is the one built of its fields. -/
theorem encodeDecodeRoundTrip : Obligations.EncodeDecodeRoundTrip := by
  intro w i h
  obtain ⟨used, points, hrow, hmeets, hwf⟩ := Fields.row_of_decode (Fields.ofWord_inRange w) h
  exact ⟨hwf, by rw [encode, hrow.fields hmeets, Fields.toWord_ofWord]⟩

end Sys2Proof
end

section
/-! The legal words are those that decode (spec/30_encoding.md R59), and an illegal one ends with `ILLEGAL_COMMAND` at the
engine's turn (spec/60_exceptions.md R109). -/

namespace Sys2Proof

open Machine

/-! Legal words (R59). -/

/-- Conditions 1 to 5 of R59 on the fields of a word. -/
structure Fields.Legal (x : Fields) : Prop where
  assigned : AssignedOpcode x.op
  reserved : x.rsv = 0
  unused : ∀ n, ¬x.Uses n → x.get n = 0
  points : ∀ n, x.NamesPoint n → x.get n ≤ 7
  groups : x.Groups

/-- The fields decode to a command exactly when they meet the conditions of R59. -/
theorem Fields.exists_decode_iff {x : Fields} (hx : x.InRange) : (∃ i, x.decode = .ok i) ↔ x.Legal := by
  constructor
  · rintro ⟨i, h⟩
    obtain ⟨used, points, hrow, ⟨hr, hu, hp⟩, hwf⟩ := Fields.row_of_decode hx h
    exact ⟨hrow.assigned, hr, fun n hn => hu n (mt (hrow.uses n).mp hn), fun n hn => hp n ((hrow.namesPoint n).mpr hn),
      hrow.groups.mp hwf⟩
  · rintro ⟨ha, hr, hu, hp, hg⟩
    obtain ⟨hna, -⟩ | ⟨used, points, i, hcommand, hrow⟩ := Fields.decode_row hx
    · exact absurd ha hna
    · have hmeets : x.Meets used points :=
        ⟨hr, fun n hn => hu n (mt (hrow.uses n).mpr hn), fun n hn => hp n ((hrow.namesPoint n).mp hn)⟩
      exact ⟨i, hcommand.trans (Fields.command_eq_ok_iff.mpr ⟨hmeets, hrow.groups.mpr hg, rfl⟩)⟩

theorem Fields.ofWord_eq_extract (w : CmdWord) : Fields.ofWord w =
    { op := (w.extractLsb' 0 8).toNat
      d := (w.extractLsb' 8 4).toNat
      a := (w.extractLsb' 12 4).toNat
      b := (w.extractLsb' 16 4).toNat
      c := (w.extractLsb' 20 4).toNat
      m := (w.extractLsb' 24 1).toNat
      f := (w.extractLsb' 25 1).toNat
      g := (w.extractLsb' 26 1).toNat
      rsv := (w.extractLsb' 27 5).toNat } := by
  simp only [Fields.ofWord, bitsOf_eq_extract]

/-- `LegalWord` lists the conditions field by field; `G` is one bit, so SIGN uses it or it is 0. -/
theorem legalWord_iff (w : CmdWord) : LegalWord w ↔ (Fields.ofWord w).Legal := by
  have hzero {n : Nat} {v : BitVec n} : v.toNat = 0 ↔ v = 0 := (BitVec.toNat_eq (y := 0)).symm
  rw [Fields.ofWord_eq_extract]
  constructor
  · intro h
    refine ⟨h.assigned, hzero.mpr h.reserved, fun n hn => ?_, fun n hn => ?_, ?_⟩
    · cases n with
      | d => exact hzero.mpr (h.unusedD hn)
      | a => exact hzero.mpr (h.unusedA hn)
      | b => exact hzero.mpr (h.unusedB hn)
      | c => exact hzero.mpr (h.unusedC hn)
      | m => exact hzero.mpr (h.unusedM hn)
      | f => exact hzero.mpr (h.unusedF hn)
      | g =>
        by_contra hg
        have hbit : (w.extractLsb' 26 1).toNat = 1 := by
          have hlt := (w.extractLsb' 26 1).isLt
          dsimp only [Fields.get] at hg
          omega
        exact hg (hzero.mpr (h.unusedG fun hop => hn ⟨hop, hbit⟩))
    · cases n with
      | d => exact h.pointD hn
      | a => exact h.pointA hn
      | b => exact h.pointB hn
      | c | m | f | g => exact hn.elim
    · exact ⟨fun e => h.redw (BitVec.eq_of_toNat_eq e),
        fun e hdc => h.sqrt (BitVec.eq_of_toNat_eq e) (BitVec.eq_of_toNat_eq hdc),
        fun e => h.pmuladd (BitVec.eq_of_toNat_eq e), fun e => h.sign (BitVec.eq_of_toNat_eq e),
        fun e => h.verify (BitVec.eq_of_toNat_eq e), fun e => h.recover (BitVec.eq_of_toNat_eq e)⟩
  · rintro ⟨ha, hr, hu, hp, hredw, hsqrt, hpmuladd, hsign, hverify, hrecover⟩
    exact {
      assigned := ha
      reserved := hzero.mp hr
      unusedD := fun hn => hzero.mp (hu .d hn)
      unusedA := fun hn => hzero.mp (hu .a hn)
      unusedB := fun hn => hzero.mp (hu .b hn)
      unusedC := fun hn => hzero.mp (hu .c hn)
      unusedM := fun hn => hzero.mp (hu .m hn)
      unusedF := fun hn => hzero.mp (hu .f hn)
      unusedG := fun hn => hzero.mp (hu .g (mt And.left hn))
      pointD := hp .d
      pointA := hp .a
      pointB := hp .b
      redw := fun e => hredw (congrArg BitVec.toNat e)
      sqrt := fun e hdc => hsqrt (congrArg BitVec.toNat e) (congrArg BitVec.toNat hdc)
      pmuladd := fun e => hpmuladd (congrArg BitVec.toNat e)
      sign := fun e => hsign (congrArg BitVec.toNat e)
      verify := fun e => hverify (congrArg BitVec.toNat e)
      recover := fun e => hrecover (congrArg BitVec.toNat e) }

/-! The end of an illegal word. -/

namespace Machine

/-- A turn of the engine that is next is what the step is about (R48, R112). -/
theorem State.EngineNext.nextTurn {s : State} {rest : List Input} (h : s.EngineNext rest) :
    s.nextTurn = State.engineTurn { s with inputs := rest } := by
  obtain ⟨-, -, hi | ⟨hi, rfl⟩⟩ := h
  · rw [State.nextTurn, hi]
  · have hs : { s with inputs := [] } = s := by rw [← hi]
    rw [State.nextTurn, hi, hs]

/-- The engine ends the latched word with `ILLEGAL_COMMAND` when it decodes to no command (R59, R109). -/
theorem step_of_illegal {s : State} {rest : List Input} (h : s.EngineNext rest) (hd : ∀ i, decode s.cmdLast ≠ .ok i) :
    step s = .next (State.complete { s with inputs := rest } .illegalCommand (illegalAttempts s.cmdLast)) := by
  refine step_of_settled (h.nextTurn.trans ?_)
  rw [State.engineTurn, if_pos (by simp [h.presetn, h.busy])]
  split
  · exact absurd ‹_› (hd _)
  · rfl

/-- `ATTEMPTS` after an illegal word (R31, R113). -/
theorem complete_illegal_attempts (s : State) (w : CmdWord) :
    (s.complete .illegalCommand (illegalAttempts w)).attempts =
      if w.extractLsb' 0 8 = 0x30#8 ∨ w.extractLsb' 0 8 = 0x33#8 then 0#16 else s.attempts := by
  have hop : (opcodeField w = 0x30 ∨ opcodeField w = 0x33) ↔
      (w.extractLsb' 0 8 = 0x30#8 ∨ w.extractLsb' 0 8 = 0x33#8) := by
    rw [← BitVec.toNat_inj, ← BitVec.toNat_inj, ← bitsOf_eq_extract]
    rfl
  simp only [illegalAttempts, ← hop]
  split <;> rfl

theorem endsIllegal_complete {s : State} {rest : List Input} :
    EndsIllegal rest s (State.complete { s with inputs := rest } .illegalCommand (illegalAttempts s.cmdLast)) where
  completed := completed_complete _ _ _
  frame := (Frame.refl [] [] _).complete _ _
  buffer := ⟨fun _ => rfl, rfl⟩
  drbg := ⟨rfl, rfl, rfl⟩
  ports := ⟨rfl, rfl⟩
  attempts := complete_illegal_attempts _ _

end Machine

/-- Settles O3: the decoder accepts the fields that are legal, and the engine ends a word it does not accept. -/
theorem legalWordsRunAndNoOthersDo : Obligations.LegalWordsRunAndNoOthersDo := by
  have hlegal (w : CmdWord) : (∃ i, decode w = .ok i) ↔ LegalWord w :=
    (Fields.exists_decode_iff (Fields.ofWord_inRange w)).trans (legalWord_iff w).symm
  refine ⟨hlegal, fun s rest h hw => ?_⟩
  have hd : ∀ i, decode s.cmdLast ≠ .ok i := fun i hi => hw ((hlegal _).mp ⟨i, hi⟩)
  exact ⟨_, step_of_illegal h hd, endsIllegal_complete⟩

end Sys2Proof
end

section
/-! The pseudo-instructions (spec/30_encoding.md R63): the square, the doubling, and the negation. -/

namespace Sys2Proof.Machine

theorem pos_of_not_bad {m : Nat} (h : ¬BadModulus m) : 0 < m := lt_of_lt_of_le (by decide) (three_le_of_not_bad h)

/-- A modular command whose result is the residue of `x` leaves that residue in its destination (R66). -/
theorem completesOk_residue {i : Instr} {s : State} {d : Reg} {m : ModSel} {x : Int}
    (hi : exec i s = s.modular d m fun q => .ok (reduce q x)) (h : ¬BadModulus (s.curve.modulus m))
    {result : State → Prop} (hr : ∀ t : State, ((t.reg d).toNat : Int) = x % s.curve.modulus m → result t) :
    CompletesOk i s [d] [] result := by
  refine completesOk_setReg (hi.trans (State.modular_ok h rfl)) fun t ht => hr t ?_
  have hpos := pos_of_not_bad h
  rw [ht, word_toNat ((reduce_lt hpos x).trans (s.curve.modulus_lt m)), reduce_cast hpos]

/-- Fermat division is the quotient of R79, R84 when the divisor is not 0. -/
theorem divide_eq_ok {m : Nat} (hpos : 0 < m) (hlt : m < 2 ^ 256) {a b : Int} (hb : b % m ≠ 0) :
    ∃ l : Nat, divide m a b = .ok l ∧ (l : Int) = fieldQuotient m a b := by
  have hcast := reduce_cast hpos b
  refine ⟨_, by rw [divide, if_neg (by omega)], ?_⟩
  rw [reduce_cast hpos, powMod_eq hpos _ (by omega), fieldQuotient, ← hcast]
  push_cast
  rw [Int.mul_emod, Int.emod_emod, ← Int.mul_emod]

/-- The point adder doubles a point whose ordinate is not its own negative (R86). -/
theorem paddF_self {c : Curve} (hpos : 0 < c.pNat) {x y : Word} (hy : 2 * (y.toNat : Int) % c.pNat ≠ 0)
    {l : Nat} (hl : divide c.pNat (3 * (x.toNat : Int) ^ 2 + c.a.toNat) (2 * (y.toNat : Int)) = .ok l) :
    paddF c (.affine x y) (.affine x y) = .ok (chordPoint c.pNat l x.toNat y.toNat x.toNat) := by
  have hne : y.toNat ≠ reduce c.pNat ((c.pNat : Int) - y.toNat) := by
    intro h
    have hmod : (y.toNat : Int) = ((c.pNat : Int) - y.toNat) % c.pNat := by rw [← reduce_cast hpos, ← h]
    apply hy
    rw [two_mul]
    nth_rw 1 [hmod]
    rw [Int.emod_add_emod, Int.sub_add_cancel, Int.emod_self]
  rw [paddF, if_neg fun h => hne h.2, if_pos ⟨rfl, rfl⟩, hl]
  rfl

/-- PADD of a point with itself takes the tangent's slope (R86, R95). -/
theorem completesOk_padd_self {s : State} {a : PtReg} {x y : Word} (ha : s.point a = .affine x y)
    (h : ¬BadModulus s.curve.p.toNat) (hy : (2 * (y.toNat : Int)) % s.curve.p.toNat ≠ 0) (d : PtReg) :
    CompletesOk (.padd d a a) s [] [d] fun t => ∃ l x3 y3 : Nat, t.point d = .affine (word x3) (word y3) ∧
      (l : Int) = fieldQuotient s.curve.p.toNat (3 * (x.toNat : Int) ^ 2 + s.curve.a.toNat) (2 * (y.toNat : Int)) ∧
      (x3 : Int) = ((l : Int) ^ 2 - 2 * x.toNat) % s.curve.p.toNat ∧
      (y3 : Int) = ((l : Int) * ((x.toNat : Int) - x3) - y.toNat) % s.curve.p.toNat := by
  have hpos : 0 < s.curve.pNat := pos_of_not_bad h
  obtain ⟨l, hl, hquot⟩ := divide_eq_ok hpos s.curve.p.isLt (a := 3 * (x.toNat : Int) ^ 2 + s.curve.a.toNat) hy
  have hexec : exec (.padd d a a) s =
      .next ((s.setPoint d (chordPoint s.curve.pNat l x.toNat y.toNat x.toNat)).complete .ok none) := by
    rw [exec, execPadd, State.requireModulus_ok (m := .p) h, ha, ok_bind, paddF_self hpos hy hl]
    rfl
  refine completesOk_setPoint hexec fun t ht => ⟨l, _, _, ht, hquot, ?_, reduce_cast hpos _⟩
  rw [reduce_cast hpos, two_mul, sub_sub]

/-- Settles O5: each pseudo-instruction is a MUL, a PADD or a SUB with its operands repeated or 0. -/
theorem pseudoInstructionsMeanTheirExpansions : Obligations.PseudoInstructionsMeanTheirExpansions := by
  refine ⟨fun d a m s => ⟨rfl, fun h => ?_⟩, fun d a s => ⟨rfl, fun x y ha h hy _ => ?_⟩,
    fun d a z m s => ⟨rfl, fun h hz => ?_⟩⟩
  · refine completesOk_residue rfl h fun t ht => ?_
    rw [pow_two]
    exact_mod_cast ht
  · exact completesOk_padd_self ha h hy d
  · refine completesOk_residue rfl h fun t ht => ?_
    have hzero : s.regNat z = 0 := congrArg BitVec.toNat hz
    rw [ht, hzero, Nat.cast_zero, zero_sub]

end Sys2Proof.Machine
end

section
/-! `W256`: eight writes of the words of a 256-bit value (spec/30_encoding.md R64, spec/20_memory.md R43). -/

namespace Sys2Proof.Machine

/-! The value that the words written so far leave. -/

theorem getLsbD_wordAt (x : Word) (k : Fin 8) {i : Nat} (hi : i / 32 = k.val) :
    (wordAt x k).getLsbD (i % 32) = x.getLsbD i := by
  have hlt : i % 32 < 32 := Nat.mod_lt _ (by decide)
  rw [wordAt, BitVec.getLsbD_extractLsb', ← hi, Nat.div_add_mod]
  simp [hlt]

/-- Bit `i` after the words `ks` of `x` have replaced those of `y`. -/
theorem getLsbD_foldl_setWordAt (x : Word) (ks : List (Fin 8)) (y : Word) {i : Nat} (hi : i < 256) :
    (ks.foldl (fun y k => setWordAt y k (wordAt x k)) y).getLsbD i =
      if ∃ k ∈ ks, i / 32 = k.val then x.getLsbD i else y.getLsbD i := by
  induction ks generalizing y with
  | nil => simp
  | cons k ks ih =>
    rw [List.foldl_cons, ih, getLsbD_setWordAt y k _ hi]
    by_cases hk : i / 32 = k.val
    · simp [hk, getLsbD_wordAt x k hk]
    · simp [hk]

/-- All eight words are the value. -/
theorem foldl_setWordAt_finRange (x y : Word) :
    (List.finRange 8).foldl (fun y k => setWordAt y k (wordAt x k)) y = x := by
  refine BitVec.eq_of_getLsbD_eq fun i hi => ?_
  rw [getLsbD_foldl_setWordAt x _ y hi, if_pos ⟨⟨i / 32, by omega⟩, List.mem_finRange _, rfl⟩]

/-! The run over the writes. -/

theorem run_succ_of_step {s t : State} (h : step s = .next t) (n : Nat) : core.run (n + 1) s = core.run n t := by
  have hcore : core.step s = .next t := h
  simp only [Host.Core.run, hcore]

/-- `put y r rest` is the state with the wide value `y`, the answer `r` and the events `rest`. When a write of each word at
`off` replaces that word, the writes of the words `k :: ks` of `x` replace these words. -/
theorem run_writeWords {put : Word → Option Response → List Input → State} {off : Nat}
    (hput : ∀ y r rest (k : Fin 8) v,
      step (put y r (hostWrite (off + 4 * k.val) v :: rest)) = .next (put (setWordAt y k v) takenAnswer rest))
    (x : Word) (rest : List Input) (k : Fin 8) (ks : List (Fin 8)) (y : Word) (r : Option Response) :
    core.run (k :: ks).length (put y r ((k :: ks).map (fun k => hostWrite (off + 4 * k.val) (wordAt x k)) ++ rest)) =
      .next (put ((k :: ks).foldl (fun y k => setWordAt y k (wordAt x k)) y) takenAnswer rest) := by
  induction ks generalizing k y r with
  | nil => exact run_succ_of_step (hput y r rest k (wordAt x k)) 0
  | cons j ks ih => exact (run_succ_of_step (hput y r _ k (wordAt x k)) _).trans (ih j _ _)

/-- The same for all eight words. -/
theorem run_hostWrite256 {put : Word → Option Response → List Input → State} {off : Nat}
    (hput : ∀ y r rest (k : Fin 8) v,
      step (put y r (hostWrite (off + 4 * k.val) v :: rest)) = .next (put (setWordAt y k v) takenAnswer rest))
    (x y : Word) (r : Option Response) (rest : List Input) :
    core.run 8 (put y r (hostWrite256 off x ++ rest)) = .next (put x takenAnswer rest) := by
  have hrun := run_writeWords hput x rest 0 (List.finRange 8).tail y r
  have hall : (0 : Fin 8) :: (List.finRange 8).tail = List.finRange 8 := by decide
  rwa [hall, foldl_setWordAt_finRange] at hrun

/-! The registers that `W256` writes. -/

theorem State.setReg_setReg (s : State) (r : Reg) (v w : Word) : (s.setReg r v).setReg r w = s.setReg r w := by
  simp [State.setReg]

theorem State.setReg_reg (s : State) (r : Reg) : s.setReg r (s.reg r) = s := by
  simp [State.setReg, State.reg, Vector.get_eq_getElem]

theorem Curve.get_set (c : Curve) (f : CurveField) (v : Word) : (c.set f v).get f = v := by cases f <;> rfl

theorem Curve.set_set (c : Curve) (f : CurveField) (v w : Word) : (c.set f v).set f w = c.set f w := by cases f <;> rfl

theorem Curve.set_get (c : Curve) (f : CurveField) : c.set f (c.get f) = c := by cases f <;> rfl

section
variable {s : State} (hp : s.presetn = true) (hidle : s.status.busy = false)
include hp hidle

theorem step_writeReg_of_idle (r : Reg) (y : Word) (a : Option Response) (rest : List Input) (k : Fin 8) (v : BusWord) :
    step { s.setReg r y with response := a, inputs := hostWrite (0x100 + 0x20 * r.val + 4 * k.val) v :: rest } =
      .next { s.setReg r (setWordAt y k v) with response := takenAnswer, inputs := rest } := by
  have hreg : (s.setReg r y).setReg r (setWordAt ((s.setReg r y).reg r) k v) = s.setReg r (setWordAt y k v) := by
    rw [State.reg_setReg_same, State.setReg_setReg]
  refine (step_hostWrite_of_idle (s := { s.setReg r y with response := a, inputs := hostWrite _ v :: rest }) rfl hp hidle
    (placeAt_reg r k) (by omega) (by omega)).trans ?_
  rw [← hreg]
  rfl

theorem step_writeCurve_of_idle {off : Nat} {f : CurveField}
    (hf : (off, f) ∈ [(0x300, CurveField.p), (0x320, .a), (0x340, .b), (0x360, .gx), (0x380, .gy), (0x3A0, .n)]) (y : Word)
    (a : Option Response) (rest : List Input) (k : Fin 8) (v : BusWord) :
    step { s with curve := s.curve.set f y, response := a, inputs := hostWrite (off + 4 * k.val) v :: rest } =
      .next { s with curve := s.curve.set f (setWordAt y k v), response := takenAnswer, inputs := rest } := by
  obtain ⟨hplace, haligned, hlt⟩ := placeAt_curve k (off, f) hf
  have hcurve : (s.curve.set f y).set f (setWordAt ((s.curve.set f y).get f) k v) = s.curve.set f (setWordAt y k v) := by
    rw [Curve.get_set, Curve.set_set]
  refine (step_hostWrite_of_idle
    (s := { s with curve := s.curve.set f y, response := a, inputs := hostWrite _ v :: rest }) rfl hp hidle
    hplace haligned hlt).trans ?_
  rw [← hcurve]
  rfl

end

/-- Settles O24: each write replaces a word of the register, and the eight words are the value. -/
theorem hostWrite256StoresTheValue : Obligations.HostWrite256StoresTheValue := by
  intro s rest x hp hidle
  refine ⟨fun r hi => ?_, fun f hf hi => ?_⟩
  · have hrun := run_hostWrite256 (step_writeReg_of_idle hp hidle r) x (s.reg r) s.response rest
    rwa [← hi, State.setReg_reg] at hrun
  · have hrun := run_hostWrite256 (step_writeCurve_of_idle hp hidle hf) x (s.curve.get f.2) s.response rest
    rwa [← hi, Curve.set_get] at hrun

end Sys2Proof.Machine
end

section
/-! What the modular commands share: their words, the ends of a command that writes operand registers, and the two ends
of a command of the shape `State.modular` (spec/30_encoding.md R59, R65, spec/41_modular.md, spec/60_exceptions.md R108). -/

namespace Sys2Proof.Machine

/-! Words. -/

/-- A word that is no well-formed command's encoding decodes to no command, so the engine ends it (R59, R60). -/
theorem refusesOtherWords (op : BitVec 8) : RefusesOtherWords op := by
  intro s rest h _ hw
  have hd : ∀ i, decode s.cmdLast ≠ .ok i := fun i hi => by
    obtain ⟨hwf, hencode⟩ := encodeDecodeRoundTrip s.cmdLast i hi
    exact Bool.false_ne_true ((hw i hencode).symm.trans hwf)
  exact ⟨_, step_of_illegal h hd, endsIllegal_complete⟩

/-- The word of R65 with the fields of a well-formed command is its word. -/
theorem encodedBy_commandWord {i : Instr} {op d a b c m f g : Nat} (hwf : i.wellFormed = true)
    (h : i.fields = ⟨op, d, a, b, c, m, f, g, 0⟩) : EncodedBy i (commandWord op d a b c m f g) := by
  have hrange := i.fields_inRange.1
  rw [h] at hrange
  exact encodedBy_of_encode (by rw [encode, h, commandWord_eq_toWord hrange]) hwf

/-! Commands that write operand registers. -/

/-- A command that completes with the writes of a register group. -/
theorem completesOk_setRegs {i : Instr} {s : State} {ds : List Reg} {ws : List (Reg × Word)}
    (h : exec i s = .next ((s.setRegs ws).complete .ok none)) (hw : ∀ w ∈ ws, w.1 ∈ ds) {result : State → Prop}
    (hr : ∀ t : State, (∀ r, t.reg r = (s.setRegs ws).reg r) → result t) : CompletesOk i s ds [] result := by
  have hframe := ((Frame.refl ds [] s).setRegs hw).complete .ok none
  have hkept : (s.setRegs ws).attempts = s.attempts ∧ DrbgKept s (s.setRegs ws) ∧ PortsKept s (s.setRegs ws) ∧
      BufferKept s (s.setRegs ws) := by
    obtain ⟨regs, hregs⟩ := s.setRegs_eq ws
    rw [hregs]
    exact ⟨rfl, ⟨rfl, rfl, rfl⟩, ⟨rfl, rfl⟩, fun _ => rfl, rfl⟩
  obtain ⟨hattempts, ⟨hk, hv, hattempt⟩, ⟨hhmac, hrng⟩, hbuffer⟩ := hkept
  exact ⟨_, h, ⟨completed_complete _ _ _, hframe, hattempts, ⟨hk, hv, hattempt⟩, ⟨hhmac, hrng⟩⟩,
    hbuffer.complete .ok none, hr _ fun _ => rfl⟩

section
variable {i : Instr} {s : State} {d : Reg} {m : ModSel} {f : Nat → Except ResultCode Nat}
  (hi : exec i s = s.modular d m f)
include hi

theorem failsWith_modular_bad (h : BadModulus (s.curve.modulus m)) : FailsWith i s .badModulus :=
  failsWith_of_exec (by decide) (hi.trans (State.modular_bad h))

theorem failsWith_modular_error (h : ¬BadModulus (s.curve.modulus m)) {e : ResultCode} (he : e ≠ .ok)
    (hf : f (s.curve.modulus m) = .error e) : FailsWith i s e :=
  failsWith_of_exec he (hi.trans (State.modular_error h hf))

/-- A result below the modulus fits its destination (R67). -/
theorem completesOk_modular (h : ¬BadModulus (s.curve.modulus m)) {v : Nat} (hf : f (s.curve.modulus m) = .ok v)
    (hlt : v < s.curve.modulus m) {result : State → Prop} (hr : ∀ t : State, (t.reg d).toNat = v → result t) :
    CompletesOk i s [d] [] result :=
  completesOk_setReg (hi.trans (State.modular_ok h hf)) fun t ht =>
    hr t (by rw [ht, word_toNat (hlt.trans (s.curve.modulus_lt m))])

end

/-! The modular commands with one result, each with its unit. -/

section
variable (d a b : Reg) (m : ModSel) (s : State)

theorem exec_add_eq_modular :
    exec (.add d a b m) s = s.modular d m fun q => .ok (reduce q ((s.regNat a : Int) + s.regNat b)) := rfl

theorem exec_sub_eq_modular :
    exec (.sub d a b m) s = s.modular d m fun q => .ok (reduce q ((s.regNat a : Int) - s.regNat b)) := rfl

theorem exec_mul_eq_modular :
    exec (.mul d a b m) s = s.modular d m fun q => .ok (reduce q ((s.regNat a : Int) * s.regNat b)) := rfl

theorem exec_mmul_eq_modular :
    exec (.mmul d a b m) s = s.modular d m fun q => .ok (montgomery q (s.regNat a) (s.regNat b)) := rfl

theorem exec_red_eq_modular : exec (.red d a m) s = s.modular d m fun q => .ok (reduce q (s.regNat a)) := rfl

theorem exec_pow_eq_modular :
    exec (.pow d a b m) s = s.modular d m fun q => .ok (powMod q (reduce q (s.regNat a)) (s.regNat b)) := rfl

theorem exec_inv_eq_modular : exec (.inv d a m) s = s.modular d m fun q => inverse q (s.regNat a) := rfl

theorem exec_div_eq_modular : exec (.div d a b m) s = s.modular d m fun q => divide q (s.regNat a) (s.regNat b) := rfl

end

/-- A legal REDW has the shape of the other modular commands, with the value of its group (R76). -/
theorem exec_redw_of_legal {a : Reg} (ha : a.val ≤ 14) (d : Reg) (m : ModSel) (s : State) :
    exec (.redw d a m) s = s.modular d m fun q => .ok (reduce q ((s.regNat (a + 1) : Int) * 2 ^ 256 + s.regNat a)) := by
  have hup : regUp a 1 = a + 1 := Fin.ext (by simp [Fin.val_add])
  have hlegal : requireLegal (.redw d a m) = .ok () := require_eq_ok.mpr (decide_eq_true ha)
  simp only [exec, execRedw, hlegal, hup]
  rfl

end Sys2Proof.Machine
end

section
/-! NOP, MOV and the modular commands whose unit always has a result: ADD, SUB, RED, REDW, POW
(spec/41_modular.md R69-R72, R75-R77). -/

namespace Sys2Proof.Machine

/-- Settles O34: NOP completes with no write, MOV with the one of its source. -/
theorem nopAndMovComplete : Obligations.NopAndMovComplete := by
  refine ⟨refusesOtherWords _, refusesOtherWords _, encodedBy_commandWord rfl rfl, fun d a s =>
    ⟨encodedBy_commandWord rfl rfl, ?_, ?_⟩⟩
  · exact completesOk_setRegs (ws := []) rfl (by simp) fun _ _ => trivial
  · exact completesOk_setReg rfl fun _ ht => ht

/-- Settles O35: both commands write the residue of an integer, of a negative difference too. -/
theorem addAndSubReduceExactly : Obligations.AddAndSubReduceExactly := by
  refine ⟨refusesOtherWords _, refusesOtherWords _, fun d a b m s =>
    ⟨encodedBy_commandWord rfl rfl, encodedBy_commandWord rfl rfl,
      fun h => ⟨failsWith_modular_bad (exec_add_eq_modular ..) h, failsWith_modular_bad (exec_sub_eq_modular ..) h⟩,
      fun h => ⟨?_, ?_⟩⟩⟩
  · exact completesOk_residue (exec_add_eq_modular ..) h fun t ht => by exact_mod_cast ht
  · exact completesOk_residue (exec_sub_eq_modular ..) h fun t ht => ht

/-- Settles O37: RED writes the residue of a register, a legal REDW that of its group. -/
theorem redAndRedwReduce : Obligations.RedAndRedwReduce := by
  refine ⟨refusesOtherWords _, refusesOtherWords _, fun d a m s =>
    ⟨encodedBy_commandWord rfl rfl, fun ha => encodedBy_commandWord (decide_eq_true ha) rfl,
      fun h => ⟨failsWith_modular_bad (exec_red_eq_modular ..) h,
        fun ha => failsWith_modular_bad (exec_redw_of_legal ha d m s) h⟩,
      fun h => ⟨?_, fun ha => ?_⟩⟩⟩
  · exact completesOk_residue (exec_red_eq_modular ..) h fun t ht => by exact_mod_cast ht
  · exact completesOk_residue (exec_redw_of_legal ha d m s) h fun t ht => by exact_mod_cast ht

/-- Settles O38: repeated squaring computes the power of the reduced base. -/
theorem powRaisesToThePower : Obligations.PowRaisesToThePower := by
  refine ⟨refusesOtherWords _, fun d a b m s =>
    ⟨encodedBy_commandWord rfl rfl, failsWith_modular_bad (exec_pow_eq_modular ..), fun h => ?_⟩⟩
  have hpos := pos_of_not_bad h
  refine completesOk_modular (exec_pow_eq_modular ..) h rfl (powMod_lt hpos _ _) fun t ht => ?_
  rw [ht, powMod_eq hpos _ (s.reg b).isLt, reduce_natCast]

end Sys2Proof.Machine
end

section
/-! Inverses: INV and DIV, and the inverse of `2^256` with the Montgomery product of MMUL
(spec/41_modular.md R73, R74, R78, R79). -/

namespace Sys2Proof.Machine

theorem one_lt_of_not_bad {m : Nat} (h : ¬BadModulus m) : 1 < m := lt_of_lt_of_le (by decide) (three_le_of_not_bad h)

theorem gcd_mod_eq_gcd (a m : Nat) : Nat.gcd (a % m) m = Nat.gcd a m := by rw [Nat.gcd_comm a m, Nat.gcd_rec m a]

/-- A modulus that passes the check is odd, so it has no factor in common with a power of 2 (R74, R108). -/
theorem coprime_two_pow_of_not_bad {m : Nat} (h : ¬BadModulus m) (k : Nat) : Nat.Coprime (2 ^ k) m := by
  have hodd : Odd m := Nat.odd_iff.mpr (by unfold BadModulus at h; omega)
  exact (Nat.coprime_two_left.mpr hodd).pow_left k

/-- `Rinv` is the inverse of `2^256` (R74). -/
theorem radixInverse_spec {m : Nat} (h : ¬BadModulus m) (hlt : m < 2 ^ 256) :
    radixInverse m < m ∧ 2 ^ 256 * radixInverse m % m = 1 := by
  have hcop : Nat.gcd (2 ^ 256 % m) m = 1 := by
    rw [gcd_mod_eq_gcd]
    exact coprime_two_pow_of_not_bad h 256
  obtain ⟨x, hx, hspec⟩ := inverse_of_coprime (one_lt_of_not_bad h) hlt.le hcop
  rwa [radixInverse, hx]

/-- Settles O36: MUL writes the residue of the product, MMUL multiplies in the inverse of `2^256` too. -/
theorem mulAndMmulReduceExactly : Obligations.MulAndMmulReduceExactly := by
  refine ⟨refusesOtherWords _, refusesOtherWords _, fun d a b m s =>
    ⟨encodedBy_commandWord rfl rfl, encodedBy_commandWord rfl rfl,
      fun h => ⟨failsWith_modular_bad (exec_mul_eq_modular ..) h, failsWith_modular_bad (exec_mmul_eq_modular ..) h⟩,
      fun h => ⟨?_, ?_⟩⟩⟩
  · exact completesOk_residue (exec_mul_eq_modular ..) h fun t ht => by exact_mod_cast ht
  · obtain ⟨hlt, hmul⟩ := radixInverse_spec h (s.curve.modulus_lt m)
    exact completesOk_modular (exec_mmul_eq_modular ..) h rfl (Nat.mod_lt _ (pos_of_not_bad h)) fun t ht =>
      ⟨_, hlt, hmul, ht⟩

/-- Fermat division of natural numbers (R79). -/
theorem divide_natCast {m : Nat} (hpos : 0 < m) (hlt : m < 2 ^ 256) (a b : Nat) :
    divide m a b = if b % m = 0 then .error .noInverse else .ok (a * (b % m) ^ (m - 2) % m) := by
  rw [divide, reduce_natCast, powMod_eq hpos _ (by omega), ← Nat.cast_mul, reduce_natCast, Nat.mul_mod_mod]

/-- Settles O39: the Euclid loop finds the inverse exactly when the greatest common divisor is 1, and the quotient is
Fermat's. -/
theorem invAndDivComputeOrReportNoInverse : Obligations.InvAndDivComputeOrReportNoInverse := by
  refine ⟨refusesOtherWords _, refusesOtherWords _, fun d a b m s => ?_⟩
  intro q
  have hq : q < 2 ^ 256 := s.curve.modulus_lt m
  refine ⟨encodedBy_commandWord rfl rfl, encodedBy_commandWord rfl rfl,
    fun h => ⟨failsWith_modular_bad (exec_inv_eq_modular ..) h, failsWith_modular_bad (exec_div_eq_modular ..) h⟩,
    fun h => ?_⟩
  have hpos := pos_of_not_bad h
  have hdivide := divide_natCast hpos hq (s.reg a).toNat (s.reg b).toNat
  rw [← gcd_mod_eq_gcd]
  refine ⟨fun hgcd => ?_, fun hgcd => ?_, fun hb => ?_, fun hb => ?_⟩
  · exact failsWith_modular_error (exec_inv_eq_modular ..) h (by decide) (inverse_of_not_coprime hpos hq.le hgcd)
  · obtain ⟨x, hx, hlt, hmul⟩ := inverse_of_coprime (one_lt_of_not_bad h) hq.le hgcd
    exact completesOk_modular (exec_inv_eq_modular ..) h hx hlt fun t ht => by rw [ht]; exact ⟨hlt, hmul⟩
  · rw [if_pos hb] at hdivide
    exact failsWith_modular_error (exec_div_eq_modular ..) h (by decide) hdivide
  · rw [if_neg hb] at hdivide
    exact completesOk_modular (exec_div_eq_modular ..) h hdivide (Nat.mod_lt _ hpos) fun t ht => ht

end Sys2Proof.Machine
end

section
/-! SQRT: both roots, and the two errors of the unit (spec/41_modular.md R80). -/

namespace Sys2Proof.Machine

/-- The square root unit on a natural number (R80). -/
theorem squareRoots_natCast {m : Nat} (hpos : 0 < m) (hlt : m < 2 ^ 256) (v : Nat) :
    squareRoots m v = if m % 4 ≠ 3 then .error .unsupportedModulus
      else if (v % m) ^ ((m - 1) / 2) % m ≠ 1 then .error .notAQuadraticResidue
      else .ok ((v % m) ^ ((m + 1) / 4) % m, m - (v % m) ^ ((m + 1) / 4) % m) := by
  rw [squareRoots, reduce_natCast, powMod_eq hpos _ (by omega), powMod_eq hpos _ (by omega), Nat.mod_mod]

/-- A legal SQRT checks its modulus and writes what the unit gives. -/
theorem exec_sqrt_of_legal {d c : Reg} (hdc : d ≠ c) (a : Reg) (m : ModSel) (s : State) :
    exec (.sqrt d c a m) s = s.finish (s.requireModulus m >>= fun _ => squareRoots (s.curve.modulus m) (s.regNat a) >>=
      fun roots => .ok (s.setRegs [(d, word roots.1), (c, word roots.2)])) := by
  have hlegal : requireLegal (.sqrt d c a m) = .ok () := require_eq_ok.mpr (decide_eq_true hdc)
  simp only [exec, execSqrt, hlegal]
  rfl

section
variable {d c a : Reg} {m : ModSel} {s : State} (hdc : d ≠ c) (h : ¬BadModulus (s.curve.modulus m))
include hdc h

theorem failsWith_sqrt {e : ResultCode} (he : e ≠ .ok) (hroots : squareRoots (s.curve.modulus m) (s.regNat a) = .error e) :
    FailsWith (.sqrt d c a m) s e :=
  failsWith_of_exec he (by rw [exec_sqrt_of_legal hdc, State.requireModulus_ok h, hroots]; rfl)

theorem completesOk_sqrt {x y : Nat} (hx : x < 2 ^ 256) (hy : y < 2 ^ 256)
    (hroots : squareRoots (s.curve.modulus m) (s.regNat a) = .ok (x, y)) :
    CompletesOk (.sqrt d c a m) s [d, c] [] fun t => (t.reg d).toNat = x ∧ (t.reg c).toNat = y := by
  refine completesOk_setRegs (ws := [(d, word x), (c, word y)])
    (by rw [exec_sqrt_of_legal hdc, State.requireModulus_ok h, hroots]; rfl) (by simp) fun t ht => ?_
  have hd : t.reg d = word x := by
    rw [ht, State.setRegs, State.setRegs, State.setRegs, State.reg_setReg_other _ _ hdc.symm, State.reg_setReg_same]
  have hc : t.reg c = word y := by rw [ht, State.setRegs, State.setRegs, State.setRegs, State.reg_setReg_same]
  rw [hd, hc]
  exact ⟨word_toNat hx, word_toNat hy⟩

end

/-- Settles O40: the checks of the unit in their order, and the two roots to the two registers. -/
theorem sqrtWritesBothRoots : Obligations.SqrtWritesBothRoots := by
  refine ⟨refusesOtherWords _, fun d c a m s hdc => ?_⟩
  intro q v
  have hq : q < 2 ^ 256 := s.curve.modulus_lt m
  have hroots (h : ¬BadModulus q) := squareRoots_natCast (pos_of_not_bad h) hq (s.reg a).toNat
  refine ⟨encodedBy_commandWord (decide_eq_true hdc) rfl, fun h => ?_, fun h hmod => ?_, fun h hmod heuler => ?_,
    fun h hmod heuler => ?_⟩
  · exact failsWith_of_exec (by decide) (by rw [exec_sqrt_of_legal hdc, State.requireModulus_bad h]; rfl)
  · exact failsWith_sqrt hdc h (by decide) ((hroots h).trans (if_pos hmod))
  · exact failsWith_sqrt hdc h (by decide) (((hroots h).trans (if_neg (not_not.mpr hmod))).trans (if_pos heuler))
  · exact completesOk_sqrt hdc h ((Nat.mod_lt _ (pos_of_not_bad h)).trans hq) ((Nat.sub_le _ _).trans_lt hq)
      (((hroots h).trans (if_neg (not_not.mpr hmod))).trans (if_neg (not_not.mpr heuler)))

end Sys2Proof.Machine
end

section
/-! RAND: one draw on the RNG port (spec/41_modular.md R81, spec/60_exceptions.md R122). -/

namespace Sys2Proof.Machine

/-- The integer of an RNG response is the big-endian value of its lanes (R122). -/
theorem rngInt_eq_rngValue (data : BitVec 512) : rngInt data = rngValue data := by
  have hlane (i : Nat) : BitVec.ofNat 8 (data.toNat / 2 ^ (8 * i)) = data.extractLsb' (8 * i) 8 := by
    rw [BitVec.extractLsb', Nat.shiftRight_eq_div_pow]
  rw [rngInt, laneBytes, intOf_map, rngValue]
  simp only [hlane]

theorem State.rngReq_iff {s : State} : s.rngReq = true ↔ ∃ live, s.rngPort = .requested live := by
  unfold State.rngReq
  cases s.rngPort <;> simp

section
variable {d : Reg} {m : ModSel} {s : State}

theorem exec_rand_of_bad (h : BadModulus (s.curve.modulus m)) :
    exec (.rand d m) s = .next (s.complete .badModulus none) := by
  simp only [exec, execRand, State.requireModulus_bad h]
  rfl

variable (h : ¬BadModulus (s.curve.modulus m))
include h

theorem exec_rand_of_idle (hp : s.rngPort = .idle) : exec (.rand d m) s = .next { s with rngPort := .requested true } := by
  simp only [exec, execRand, State.requireModulus_ok h, hp]

theorem exec_rand_of_requested {live : Bool} (hp : s.rngPort = .requested live) : exec (.rand d m) s = .next s := by
  simp only [exec, execRand, State.requireModulus_ok h, hp]

theorem exec_rand_of_answered {data : BitVec 512} (hp : s.rngPort = .answered data) :
    exec (.rand d m) s = .next ((State.setReg { s with rngPort := .idle } d
      (word (rngValue data % s.curve.modulus m))).complete .ok none) := by
  simp only [exec, execRand, State.requireModulus_ok h, hp, reduce_natCast, rngInt_eq_rngValue]

end

/-- Settles O41: each state of the port has its turn of RAND, and the answer of the generator is an event of its own. -/
theorem randReducesOneDraw : Obligations.RandReducesOneDraw := by
  refine ⟨refusesOtherWords _, fun s rest data _ hport hinputs => ?_, fun d m s =>
    ⟨encodedBy_commandWord rfl rfl, fun h => failsWith_of_exec (by decide) (exec_rand_of_bad h), fun h =>
      ⟨fun hp => ⟨_, exec_rand_of_idle h hp, rfl, rfl⟩, fun hreq => ?_, fun data hp => ?_⟩⟩⟩
  · refine step_of_settled ?_
    rw [State.nextTurn, hinputs]
    simp only [State.receive, hport, RngPort.ack]
  · obtain ⟨live, hp⟩ := State.rngReq_iff.mp hreq
    exact exec_rand_of_requested h hp
  · have hlt : rngValue data % s.curve.modulus m < s.curve.modulus m := Nat.mod_lt _ (pos_of_not_bad h)
    have hframe := ((Frame.refl [d] [] { s with rngPort := .idle }).setReg (List.mem_singleton.mpr rfl)
      (word (rngValue data % s.curve.modulus m))).complete .ok none
    refine ⟨_, exec_rand_of_answered h hp, ⟨completed_complete _ _ _, hframe, rfl, ⟨rfl, rfl, rfl⟩, ⟨rfl, rfl⟩⟩,
      ⟨fun _ => rfl, rfl⟩, ?_⟩
    rw [State.reg_complete, State.reg_setReg_same, word_toNat (hlt.trans (s.curve.modulus_lt m))]

end Sys2Proof.Machine
end

section
/-! The visible results of the modular commands lie below the modulus (spec/41_modular.md R67). -/

namespace Sys2Proof.Machine

/-! The units. -/

theorem inverse_lt {m : Nat} (hpos : 0 < m) (a : Nat) : Gives (· < m) (inverse m a) :=
  .ite (fun _ => .ok (reduce_lt hpos _)) fun _ => .error _

theorem divide_lt {m : Nat} (hpos : 0 < m) (a b : Int) : Gives (· < m) (divide m a b) :=
  .ite (fun _ => .error _) fun _ => .ok (reduce_lt hpos _)

/-- The first root is not 0 when the Euler test passes: its square would be a residue 0, whose power is not 1 (R80). -/
theorem sqrt_ne_zero_of_euler {m v : Nat} (hm : 1 < m) (hmod : m % 4 = 3) (heuler : v ^ ((m - 1) / 2) % m = 1) :
    v ^ ((m + 1) / 4) % m ≠ 0 := by
  intro hzero
  have hdvd : m ∣ v ^ ((m - 1) / 2 * ((m + 1) / 4)) := by
    rw [mul_comm, pow_mul]
    exact (Nat.dvd_of_mod_eq_zero hzero).pow (by omega)
  have hone : v ^ ((m - 1) / 2 * ((m + 1) / 4)) ≡ 1 [MOD m] := by
    have h : v ^ ((m - 1) / 2) ≡ 1 [MOD m] := heuler.trans (Nat.mod_eq_of_lt hm).symm
    simpa [pow_mul] using h.pow ((m + 1) / 4)
  have hzero' : 1 ≡ 0 [MOD m] := hone.symm.trans (Nat.modEq_zero_iff_dvd.mpr hdvd)
  exact one_ne_zero (hzero'.eq_of_lt_of_lt hm (by omega))

theorem squareRoots_lt {m : Nat} (h : ¬BadModulus m) (hlt : m < 2 ^ 256) (v : Nat) :
    Gives (fun roots => roots.1 < m ∧ roots.2 < m) (squareRoots m v) := by
  have hpos := pos_of_not_bad h
  rw [squareRoots_natCast hpos hlt]
  refine .ite (fun _ => .error _) fun hmod => .ite (fun _ => .error _) fun heuler => .ok ⟨Nat.mod_lt _ hpos, ?_⟩
  exact Nat.sub_lt hpos (Nat.pos_of_ne_zero
    (sqrt_ne_zero_of_euler (one_lt_of_not_bad h) (not_not.mp hmod) (not_not.mp heuler)))

/-! The commands. -/

/-- The registers `ds` hold values below the modulus `m` selects. -/
def State.Canonical (s : State) (m : ModSel) (ds : List Reg) (t : State) : Prop :=
  ∀ d ∈ ds, (t.reg d).toNat < s.curve.modulus m

section
variable {s t : State} {d c a : Reg} {m : ModSel}

theorem State.Canonical.setReg {v : Nat} (hv : v < s.curve.modulus m) : s.Canonical m [d] (t.setReg d (word v)) := by
  intro r hr
  cases List.mem_singleton.mp hr
  rwa [State.reg_setReg_same, word_toNat (hv.trans (s.curve.modulus_lt m))]

theorem State.Canonical.setRegs {v w : Nat} (hv : v < s.curve.modulus m) (hw : w < s.curve.modulus m) :
    s.Canonical m [d, c] (s.setRegs [(d, word v), (c, word w)]) := by
  intro r hr
  have hv' := word_toNat (hv.trans (s.curve.modulus_lt m))
  have hw' := word_toNat (hw.trans (s.curve.modulus_lt m))
  rw [State.setRegs, State.setRegs, State.setRegs, State.reg_setReg]
  split
  · rwa [hw']
  · rename_i hne
    obtain rfl | rfl : r = d ∨ r = c := by simpa using hr
    · rwa [State.reg_setReg_same, hv']
    · exact absurd rfl hne

/-- A computation that completes with `OK` has given the registers written (R113, R114). -/
theorem canonical_of_finish {ds : List Reg} {x : Except ResultCode State} (hx : Reaches (s.Canonical m ds) x)
    (h : s.finish x = .next t) (hok : t.errcode = .ok) : s.Canonical m ds t := by
  obtain ⟨hclean, hcanonical⟩ := hx
  cases x with
  | ok u =>
    cases h
    exact hcanonical u rfl
  | error e =>
    cases h
    exact absurd hok (hclean e rfl).1

theorem State.not_bad_of_requireModulus (h : s.requireModulus m = .ok ()) : ¬BadModulus (s.curve.modulus m) :=
  (modulusValid_eq_not_bad _).mp (require_eq_ok.mp h)

/-- The shape of the modular commands keeps a result below the modulus as it is. -/
theorem canonical_of_modular {i : Instr} {f : Nat → Except ResultCode Nat} (hi : exec i s = s.modular d m f)
    (hclean : Clean (f (s.curve.modulus m)))
    (hf : 0 < s.curve.modulus m → Gives (· < s.curve.modulus m) (f (s.curve.modulus m)))
    (h : exec i s = .next t) (hok : t.errcode = .ok) : s.Canonical m [d] t :=
  canonical_of_finish (.bind (s.requireModulus_clean m) fun _ hm => .bind hclean fun v hv =>
    .pure (.setReg (hf (pos_of_not_bad (State.not_bad_of_requireModulus hm)) v hv))) (hi.symm.trans h) hok

theorem canonical_of_redw (h : exec (.redw d a m) s = .next t) (hok : t.errcode = .ok) : s.Canonical m [d] t :=
  canonical_of_finish (.bind (requireLegal_clean _) fun _ _ => .bind (s.requireModulus_clean m) fun _ hm =>
    .pure (.setReg (reduce_lt (pos_of_not_bad (State.not_bad_of_requireModulus hm)) _))) h hok

theorem canonical_of_sqrt (h : exec (.sqrt d c a m) s = .next t) (hok : t.errcode = .ok) : s.Canonical m [d, c] t := by
  refine canonical_of_finish (.bind (requireLegal_clean _) fun _ _ => .bind (s.requireModulus_clean m) fun _ hm =>
    .bind (squareRoots_clean _ _) fun roots hroots => .pure ?_) h hok
  obtain ⟨hv, hw⟩ := squareRoots_lt (State.not_bad_of_requireModulus hm) (s.curve.modulus_lt m) _ roots hroots
  exact .setRegs hv hw

/-- RAND completes only with an error or with the residue of the draw (R81). -/
theorem canonical_of_rand (hbusy : s.status.busy = true) (h : exec (.rand d m) s = .next t) (hdone : t.status.busy = false)
    (hok : t.errcode = .ok) : s.Canonical m [d] t := by
  by_cases hbad : BadModulus (s.curve.modulus m)
  · cases (exec_rand_of_bad hbad).symm.trans h
    cases hok
  · cases hport : s.rngPort with
    | idle =>
      cases (exec_rand_of_idle hbad hport).symm.trans h
      cases hbusy.symm.trans hdone
    | requested live =>
      cases (exec_rand_of_requested hbad hport).symm.trans h
      cases hbusy.symm.trans hdone
    | answered data =>
      cases (exec_rand_of_answered hbad hport).symm.trans h
      exact State.Canonical.setReg (Nat.mod_lt _ (pos_of_not_bad hbad))

end

/-- Settles O12: each modular command writes what its unit gives, which lies below the modulus. -/
theorem modularResultsAreCanonical : Obligations.ModularResultsAreCanonical := by
  intro i ds m s t hi hbusy h hdone hok
  suffices hcanonical : s.Canonical m ds t from hcanonical
  cases i <;> cases hi
  case add => exact canonical_of_modular (exec_add_eq_modular ..) (.ok _) (fun hpos => .ok (reduce_lt hpos _)) h hok
  case sub => exact canonical_of_modular (exec_sub_eq_modular ..) (.ok _) (fun hpos => .ok (reduce_lt hpos _)) h hok
  case mul => exact canonical_of_modular (exec_mul_eq_modular ..) (.ok _) (fun hpos => .ok (reduce_lt hpos _)) h hok
  case mmul => exact canonical_of_modular (exec_mmul_eq_modular ..) (.ok _) (fun hpos => .ok (Nat.mod_lt _ hpos)) h hok
  case red => exact canonical_of_modular (exec_red_eq_modular ..) (.ok _) (fun hpos => .ok (reduce_lt hpos _)) h hok
  case redw => exact canonical_of_redw h hok
  case pow => exact canonical_of_modular (exec_pow_eq_modular ..) (.ok _) (fun hpos => .ok (powMod_lt hpos _ _)) h hok
  case inv => exact canonical_of_modular (exec_inv_eq_modular ..) (inverse_clean _ _) (fun hpos => inverse_lt hpos _) h hok
  case div => exact canonical_of_modular (exec_div_eq_modular ..) (divide_clean _ _ _) (fun hpos => divide_lt hpos _ _) h hok
  case sqrt => exact canonical_of_sqrt h hok
  case rand => exact canonical_of_rand hbusy h hdone hok

end Sys2Proof.Machine
end

section
/-! REDC and the Barrett method with their constants (spec/41_modular.md R82, R83). -/

namespace Sys2Proof.Machine

/-! REDC. -/

/-- `m' = -m^-1 mod 2^256` (R82). -/
theorem mul_mPrime_modEq {m : Nat} (h : ¬BadModulus m) :
    m * (reductionConstants m).mPrime + 1 ≡ 0 [MOD 2 ^ 256] := by
  have hcop : Nat.gcd (m % 2 ^ 256) (2 ^ 256) = 1 := by
    rw [gcd_mod_eq_gcd]
    exact (coprime_two_pow_of_not_bad h 256).symm
  obtain ⟨x, hx, -, hmul⟩ := inverse_of_coprime (by decide) le_rfl hcop
  have hprime : (reductionConstants m).mPrime = reduce (2 ^ 256) (-(x : Int)) := by rw [reductionConstants, hx]
  have hone : ((m : Int) * x) ≡ 1 [ZMOD (2 ^ 256 : Nat)] := by
    rw [← Nat.cast_mul]
    exact Int.natCast_modEq_iff.mpr (hmul : _ ≡ 1 [MOD 2 ^ 256])
  rw [← Int.natCast_modEq_iff, hprime]
  push_cast
  rw [reduce_cast (by decide)]
  have hneg : (-(x : Int)) % (2 ^ 256 : Nat) ≡ -x [ZMOD (2 ^ 256 : Nat)] := Int.mod_modEq _ _
  calc (m : Int) * ((-(x : Int)) % (2 ^ 256 : Nat)) + 1
      ≡ m * -x + 1 [ZMOD (2 ^ 256 : Nat)] := (hneg.mul_left _).add_right 1
    _ = -(m * x) + 1 := by ring
    _ ≡ -1 + 1 [ZMOD (2 ^ 256 : Nat)] := hone.neg.add_right 1
    _ = 0 := by ring

/-- The division in the estimate of REDC is exact (R82). -/
theorem mul_redcEstimate {m : Nat} (h : ¬BadModulus m) (a b : Nat) :
    2 ^ 256 * redcEstimate m a b = a * b + a * b * (reductionConstants m).mPrime % 2 ^ 256 * m := by
  refine Nat.mul_div_cancel' ((Nat.modEq_zero_iff_dvd).mp ?_)
  calc a * b + a * b * (reductionConstants m).mPrime % 2 ^ 256 * m
      ≡ a * b + a * b * (reductionConstants m).mPrime * m [MOD 2 ^ 256] :=
        ((Nat.mod_modEq _ _).mul_right m).add_left _
    _ = a * b * (m * (reductionConstants m).mPrime + 1) := by ring
    _ ≡ a * b * 0 [MOD 2 ^ 256] := (mul_mPrime_modEq h).mul_left _

/-- The estimate exceeds the modulus by less than `2^256` (R82). -/
theorem redcEstimate_lt {m a b : Nat} (h : ¬BadModulus m) (ha : a < 2 ^ 256) (hb : b < 2 ^ 256) :
    redcEstimate m a b < 2 ^ 256 + m := by
  have hu : a * b * (reductionConstants m).mPrime % 2 ^ 256 < 2 ^ 256 := Nat.mod_lt _ (by decide)
  refine Nat.lt_of_mul_lt_mul_left (a := 2 ^ 256) ?_
  rw [mul_redcEstimate h, mul_add]
  exact Nat.add_lt_add (Nat.mul_lt_mul'' ha hb) (Nat.mul_lt_mul_of_pos_right hu (pos_of_not_bad h))

/-- REDC is the product with the inverse of `2^256` (R82). -/
theorem redc_eq {m rinv : Nat} (h : ¬BadModulus m) (hrinv : 2 ^ 256 * rinv ≡ 1 [MOD m]) (a b : Nat) :
    redc m a b = a * b * rinv % m := by
  change redcEstimate m a b ≡ a * b * rinv [MOD m]
  calc redcEstimate m a b = redcEstimate m a b * 1 := (mul_one _).symm
    _ ≡ redcEstimate m a b * (2 ^ 256 * rinv) [MOD m] := hrinv.symm.mul_left _
    _ = 2 ^ 256 * redcEstimate m a b * rinv := by ring
    _ = a * b * rinv + a * b * (reductionConstants m).mPrime % 2 ^ 256 * rinv * m := by rw [mul_redcEstimate h]; ring
    _ ≡ a * b * rinv [MOD m] := Nat.add_mul_mod_self_right _ _ _

/-- REDC with `R² mod m` takes the factor `2^-256` of a first REDC off again (R82). -/
theorem redc_redc {m rinv : Nat} (h : ¬BadModulus m) (hrinv : 2 ^ 256 * rinv ≡ 1 [MOD m]) (a b : Nat) :
    redc m (redc m a b) (reductionConstants m).rSquared = a * b % m := by
  rw [redc_eq h hrinv, redc_eq h hrinv]
  change a * b * rinv % m * (2 ^ 512 % m) * rinv ≡ a * b [MOD m]
  calc a * b * rinv % m * (2 ^ 512 % m) * rinv
      ≡ a * b * rinv * 2 ^ 512 * rinv [MOD m] := ((Nat.mod_modEq _ m).mul (Nat.mod_modEq _ m)).mul_right rinv
    _ = a * b * ((2 ^ 256 * rinv) * (2 ^ 256 * rinv)) := by rw [pow_add 2 256 256]; generalize 2 ^ 256 = r; ring
    _ ≡ a * b * (1 * 1) [MOD m] := (hrinv.mul hrinv).mul_left _
    _ = a * b := by ring

/-! The Barrett method. -/

section
variable {P Q : Nat} (m x : Nat)

/-- The quotient of the Barrett method, with `P` and `Q` for `2^255` and `2^257`, is not above the exact one (R83). -/
theorem barrettQuotient_mul_le (hQ : 0 < Q) : x / P * (P * Q / m) / Q * m ≤ x := by
  refine le_of_mul_le_mul_left ?_ hQ
  calc Q * (x / P * (P * Q / m) / Q * m)
      = x / P * (P * Q / m) / Q * Q * m := by ring
    _ ≤ x / P * (P * Q / m) * m := Nat.mul_le_mul_right m (Nat.div_mul_le_self _ Q)
    _ = x / P * (P * Q / m * m) := by ring
    _ ≤ x / P * (P * Q) := Nat.mul_le_mul_left _ (Nat.div_mul_le_self _ m)
    _ = Q * (x / P * P) := by ring
    _ ≤ Q * x := Nat.mul_le_mul_left Q (Nat.div_mul_le_self x P)

/-- It is below the exact one by less than 3: each of the three divisions rounds down by at most one modulus (R83). -/
theorem lt_barrettQuotient_mul_add (hP : 0 < P) (hm : P ≤ m) (hx : x < P * Q) :
    x < x / P * (P * Q / m) / Q * m + 3 * m := by
  have hpos : 0 < m := hP.trans_le hm
  have hhigh : x / P < Q := Nat.div_lt_of_lt_mul hx
  have hxlow : x ≤ x / P * P + P := (Nat.lt_div_mul_add hP).le
  have hmu : P * Q ≤ P * Q / m * m + m := (Nat.lt_div_mul_add hpos).le
  have hq : x / P * (P * Q / m) < x / P * (P * Q / m) / Q * Q + Q := Nat.lt_div_mul_add (Nat.zero_lt_of_lt hhigh)
  refine Nat.lt_of_mul_lt_mul_left (a := Q) ?_
  calc Q * x ≤ Q * (x / P * P + P) := Nat.mul_le_mul_left Q hxlow
    _ = x / P * (P * Q) + Q * P := by ring
    _ ≤ x / P * (P * Q / m * m + m) + Q * m := Nat.add_le_add (Nat.mul_le_mul_left _ hmu) (Nat.mul_le_mul_left Q hm)
    _ = x / P * (P * Q / m) * m + x / P * m + Q * m := by ring
    _ < (x / P * (P * Q / m) / Q * Q + Q) * m + Q * m + Q * m :=
        Nat.add_lt_add_right (Nat.add_lt_add (Nat.mul_lt_mul_of_pos_right hq hpos)
          (Nat.mul_lt_mul_of_pos_right hhigh hpos)) _
    _ = Q * (x / P * (P * Q / m) / Q * m + 3 * m) := by ring

end

/-- Settles O57: the estimates are the residues up to multiples of the modulus, and the constants are computed. -/
theorem redcAndBarrettGiveTheResidue : Obligations.RedcAndBarrettGiveTheResidue := by
  have hsplit : 2 ^ 512 = 2 ^ 255 * 2 ^ 257 := by rw [← pow_add]
  have hQ : 0 < 2 ^ 257 := by positivity
  refine ⟨fun m a b h hm ha hb => ?_, fun m x hlow hm hx => ⟨?_, ?_⟩, by decide +kernel⟩
  · have hestimate := redcEstimate_lt h ha hb
    obtain ⟨hlt, hmul⟩ := radixInverse_spec h hm
    have hrinv : 2 ^ 256 * radixInverse m ≡ 1 [MOD m] := hmul.trans (Nat.mod_eq_of_lt (one_lt_of_not_bad h)).symm
    exact ⟨hestimate, fun hlow => by omega, ⟨_, hlt, hmul, redc_eq h hrinv a b⟩, redc_redc h hrinv a b⟩
  · rw [barrettEstimate, reductionConstants, hsplit]
    exact Nat.sub_lt_left_of_lt_add (barrettQuotient_mul_le m x hQ)
      (lt_barrettQuotient_mul_add m x (Nat.two_pow_pos 255) hlow (hsplit ▸ hx))
  · rw [barrett, barrettEstimate, reductionConstants, hsplit, mul_comm _ m]
    exact Nat.sub_mul_mod ((mul_comm _ _).trans_le (barrettQuotient_mul_le m x hQ))

end Sys2Proof.Machine
end

section
/-! What the point group commands share: the end of a command that writes one point register with the result of its checks
and its unit; and the moves, PGEN and PSET (spec/42_point_group.md R85, R89-R94). -/

namespace Sys2Proof.Machine

/-! Commands that write a point register. -/

/-- The shape of the point group commands: the checks and the unit give the point, which is then written. -/
def State.writesPoint (s : State) (d : PtReg) (x : Except ResultCode Point) : Host.Outcome State Fault Refusal :=
  s.finish (x >>= fun Q => .ok (s.setPoint d Q))

section
variable {i : Instr} {s : State} {d : PtReg} {x : Except ResultCode Point} (hi : exec i s = s.writesPoint d x)
include hi

theorem failsWith_writesPoint {e : ResultCode} (hx : x = .error e) (he : e ≠ .ok) : FailsWith i s e :=
  failsWith_of_exec he (by rw [hi, hx]; rfl)

theorem completesOk_writesPoint {Q : Point} (hx : x = .ok Q) {result : State → Prop}
    (hr : ∀ t : State, t.point d = Q → result t) : CompletesOk i s [] [d] result :=
  completesOk_setPoint (by rw [hi, hx]; rfl) hr

end

section
variable {i : Instr} {s : State} {d : PtReg} {x : Except ResultCode Point}
  (hi : exec i s = s.writesPoint d (s.requireModulus .p >>= fun _ => x))
include hi

/-- The modulus check comes first (R108). -/
theorem failsWith_writesPoint_bad (h : BadModulus s.curve.p.toNat) : FailsWith i s .badModulus :=
  failsWith_writesPoint hi (by rw [State.requireModulus_bad (m := .p) h]; rfl) (by decide)

theorem exec_writesPoint_of_valid (h : ¬BadModulus s.curve.p.toNat) : exec i s = s.writesPoint d x := by
  rw [hi, State.requireModulus_ok (m := .p) h, ok_bind]

end

/-! The commands of this shape, each with its checks and its unit. -/

section
variable (d a b : PtReg) (r q : Reg) (odd : Bool) (s : State)

theorem exec_pgen_eq_writesPoint : exec (.pgen d) s = s.writesPoint d (do
    s.requireModulus .p
    require (s.curve.onCurve s.curve.gx.toNat s.curve.gy.toNat) .pointNotOnCurve
    pure s.curve.g) := by
  simp only [exec, execPgen, State.writesPoint, bind_assoc, pure_bind]; rfl

theorem exec_pset_eq_writesPoint : exec (.pset d r q) s = s.writesPoint d (do
    s.requireModulus .p
    require (s.curve.onCurve (s.regNat r) (s.regNat q)) .pointNotOnCurve
    pure (.affine (s.reg r) (s.reg q))) := by
  simp only [exec, execPset, State.writesPoint, bind_assoc, pure_bind]; rfl

theorem exec_padd_eq_writesPoint : exec (.padd d a b) s = s.writesPoint d (do
    s.requireModulus .p
    paddF s.curve (s.point a) (s.point b)) := by
  simp only [exec, execPadd, State.writesPoint, bind_assoc]; rfl

theorem exec_pmul_eq_writesPoint : exec (.pmul d a r) s = s.writesPoint d (do
    s.requireModuli
    require (decide (s.regNat r < s.curve.nNat)) .scalarOutOfRange
    pmulF s.curve (s.point a) (s.regNat r)) := by
  simp only [exec, execPmul, State.writesPoint, bind_assoc]; rfl

theorem exec_pmuladd_eq_writesPoint : exec (.pmuladd d a b r) s = s.writesPoint d (do
    requireLegal (.pmuladd d a b r)
    s.requireModuli
    require (decide (s.regNat r < s.curve.nNat)) .scalarOutOfRange
    require (decide (s.regNat (r + 1) < s.curve.nNat)) .scalarOutOfRange
    let q1 ← pmulF s.curve (s.point a) (s.regNat r)
    let q2 ← pmulF s.curve (s.point b) (s.regNat (r + 1))
    paddF s.curve q1 q2) := by
  simp only [exec, execPmuladd, State.writesPoint, bind_assoc]; rfl

theorem exec_pfromx_eq_writesPoint : exec (.pfromx d r odd) s = s.writesPoint d (do
    s.requireModulus .p
    fromxF s.curve (s.regNat r) odd) := by
  simp only [exec, execPfromx, State.writesPoint, bind_assoc]; rfl

theorem exec_decode_eq_writesPoint : exec (.decode d) s = s.writesPoint d (do
    s.requireModulus .p
    decodePoint s.curve s.buf s.bufLen.toNat) := by
  simp only [exec, execDecode, State.writesPoint, bind_assoc]; rfl

end

/-- Settles O42: the moves write what they read, and `INF` has no coordinate to read. -/
theorem pointMovesCopyOrReportInfinity : Obligations.PointMovesCopyOrReportInfinity := by
  refine ⟨refusesOtherWords _, refusesOtherWords _, refusesOtherWords _, refusesOtherWords _, fun d a s =>
    ⟨encodedBy_commandWord rfl rfl, encodedBy_commandWord rfl rfl, ?_, ?_⟩, fun d a s =>
    ⟨encodedBy_commandWord rfl rfl, encodedBy_commandWord rfl rfl, fun ha => ⟨?_, ?_⟩, fun x y ha => ⟨?_, ?_⟩⟩⟩
  · exact completesOk_setPoint rfl fun _ ht => ht
  · exact completesOk_setPoint rfl fun _ ht => ht
  · exact failsWith_of_exec (by decide) (by rw [exec, execPgetx, ha]; rfl)
  · exact failsWith_of_exec (by decide) (by rw [exec, execPgety, ha]; rfl)
  · exact completesOk_setReg (by rw [exec, execPgetx, ha]; rfl) fun _ ht => ht
  · exact completesOk_setReg (by rw [exec, execPgety, ha]; rfl) fun _ ht => ht

/-- The model's check is `ONCURVE` (R85). -/
theorem Curve.onCurve_iff_OnCurve (c : Curve) (hp : 0 < c.pNat) (x y : Nat) : c.onCurve x y = true ↔ OnCurve c x y := by
  refine ⟨fun h => ?_, Curve.onCurve_of_OnCurve hp⟩
  simp only [Curve.onCurve, Bool.and_eq_true, decide_eq_true_eq] at h
  obtain ⟨⟨hx, hy⟩, heq⟩ := h
  refine ⟨hx, hy, ?_⟩
  rw [← Int.natCast_eq_zero, reduce_cast hp] at heq
  exact heq

section
variable {i : Instr} {s : State} {d : PtReg} {x y : Word}
  (hi : exec i s = s.writesPoint d (do
    s.requireModulus .p
    require (s.curve.onCurve x.toNat y.toNat) .pointNotOnCurve
    pure (.affine x y)))
include hi

/-- A command that writes a pair to a point register ends with its error exactly when the pair is not on the curve. -/
theorem pairCommand_checks_the_curve : (BadModulus s.curve.p.toNat → FailsWith i s .badModulus) ∧
    (¬BadModulus s.curve.p.toNat → (OnCurve s.curve x.toNat y.toNat →
        CompletesOk i s [] [d] fun t => t.point d = .affine x y) ∧
      (¬OnCurve s.curve x.toNat y.toNat → FailsWith i s .pointNotOnCurve)) := by
  refine ⟨failsWith_writesPoint_bad hi, fun h => ?_⟩
  have hon := s.curve.onCurve_iff_OnCurve (pos_of_not_bad h) x.toNat y.toNat
  have hexec := exec_writesPoint_of_valid hi h
  refine ⟨fun hc => ?_, fun hc => ?_⟩
  · exact completesOk_writesPoint hexec (by rw [hon.mpr hc]; rfl) fun _ ht => ht
  · exact failsWith_writesPoint hexec (by rw [Bool.eq_false_iff.mpr (mt hon.mp hc)]; rfl) (by decide)

end

/-- Settles O43: PGEN writes the pair of the generator, PSET that of two registers. -/
theorem pgenAndPsetCheckTheCurve : Obligations.PgenAndPsetCheckTheCurve := by
  refine ⟨refusesOtherWords _, refusesOtherWords _, fun d a b s =>
    ⟨encodedBy_commandWord rfl rfl, encodedBy_commandWord rfl rfl, ?_⟩⟩
  obtain ⟨hgBad, hg⟩ := pairCommand_checks_the_curve (exec_pgen_eq_writesPoint d s)
  obtain ⟨hsetBad, hset⟩ := pairCommand_checks_the_curve (exec_pset_eq_writesPoint d a b s)
  refine ⟨fun h => ⟨hgBad h, hsetBad h⟩, fun h => ?_⟩
  exact ⟨(hg h).1, (hg h).2, (hset h).1, (hset h).2⟩

end Sys2Proof.Machine
end

section
/-! PADD: every branch of the point adder in its order (spec/42_point_group.md R84, R86, R95). -/

namespace Sys2Proof.Machine

/-- The numerator of the slope: of the tangent when the operands are equal, of the secant otherwise (R86). -/
def slopeNumerator (c : Curve) (x1 y1 x2 y2 : Word) : Int :=
  if x1 = x2 ∧ y1 = y2 then 3 * (x1.toNat : Int) ^ 2 + c.a.toNat else (y2.toNat : Int) - y1.toNat

/-- The divisor of the slope (R86). -/
def slopeDivisor (x1 y1 x2 y2 : Word) : Int :=
  if x1 = x2 ∧ y1 = y2 then 2 * (y1.toNat : Int) else (x2.toNat : Int) - x1.toNat

theorem paddF_inf_right (c : Curve) (q : Point) : paddF c q .inf = .ok q := by cases q <;> rfl

section
variable {c : Curve} {x1 y1 x2 y2 : Word}

/-- The adder on two affine points: `INF` for opposite points, else the point on the line of the slope. -/
theorem paddF_affine : paddF c (.affine x1 y1) (.affine x2 y2) =
    if x1 = x2 ∧ y1.toNat = reduce c.pNat ((c.pNat : Int) - y2.toNat) then .ok .inf
    else divide c.pNat (slopeNumerator c x1 y1 x2 y2) (slopeDivisor x1 y1 x2 y2) >>= fun l =>
      .ok (chordPoint c.pNat l x1.toNat y1.toNat x2.toNat) := by
  rw [paddF, slopeNumerator, slopeDivisor]
  by_cases h : x1 = x2 ∧ y1 = y2
  · simp only [if_pos h]; rfl
  · simp only [if_neg h]; rfl

variable (hpos : 0 < c.pNat)
include hpos

theorem paddF_opposite (h : x1 = x2 ∧ (y1.toNat : Int) = ((c.pNat : Int) - y2.toNat) % c.pNat) :
    paddF c (.affine x1 y1) (.affine x2 y2) = .ok .inf := by
  rw [← reduce_cast hpos, Nat.cast_inj] at h
  rw [paddF_affine, if_pos h]

variable (h : ¬(x1 = x2 ∧ (y1.toNat : Int) = ((c.pNat : Int) - y2.toNat) % c.pNat))
include h

theorem paddF_no_slope (hv : slopeDivisor x1 y1 x2 y2 % c.pNat = 0) :
    paddF c (.affine x1 y1) (.affine x2 y2) = .error .noInverse := by
  rw [← reduce_cast hpos, Nat.cast_inj] at h
  rw [← reduce_cast hpos, Int.natCast_eq_zero] at hv
  rw [paddF_affine, if_neg h, divide, if_pos hv, error_bind]

theorem paddF_slope (hv : slopeDivisor x1 y1 x2 y2 % c.pNat ≠ 0) :
    ∃ l : Nat, divide c.pNat (slopeNumerator c x1 y1 x2 y2) (slopeDivisor x1 y1 x2 y2) = .ok l ∧
      (l : Int) = fieldQuotient c.pNat (slopeNumerator c x1 y1 x2 y2) (slopeDivisor x1 y1 x2 y2) ∧
      paddF c (.affine x1 y1) (.affine x2 y2) = .ok (chordPoint c.pNat l x1.toNat y1.toNat x2.toNat) := by
  obtain ⟨l, hl, hquot⟩ := divide_eq_ok hpos c.p.isLt (a := slopeNumerator c x1 y1 x2 y2) hv
  rw [← reduce_cast hpos, Nat.cast_inj] at h
  exact ⟨l, hl, hquot, by rw [paddF_affine, if_neg h, hl, ok_bind]⟩

end

/-- The coordinates of the third point on the line of slope `l`, mirrored (R86). -/
theorem chordPoint_coordinates {c : Curve} (hpos : 0 < c.pNat) (l x1 y1 x2 : Nat) :
    ∃ x3 y3 : Word, chordPoint c.pNat l x1 y1 x2 = .affine x3 y3 ∧
      (x3.toNat : Int) = ((l : Int) ^ 2 - x1 - x2) % c.pNat ∧
      (y3.toNat : Int) = ((l : Int) * ((x1 : Int) - x3.toNat) - y1) % c.pNat := by
  have hfits (x : Int) : (word (reduce c.pNat x)).toNat = reduce c.pNat x :=
    word_toNat ((reduce_lt hpos x).trans c.p.isLt)
  refine ⟨_, _, rfl, ?_, ?_⟩
  · rw [hfits, reduce_cast hpos]
  · rw [hfits, hfits, reduce_cast hpos]

/-- Settles O44: the branches of the adder, one by one. -/
theorem paddFollowsTheBranchesOfR86 : Obligations.PaddFollowsTheBranchesOfR86 := by
  refine ⟨refusesOtherWords _, fun d a b s => ?_⟩
  intro p
  refine ⟨encodedBy_commandWord rfl rfl, failsWith_writesPoint_bad (exec_padd_eq_writesPoint d a b s), fun h => ?_⟩
  have hpos : 0 < s.curve.pNat := pos_of_not_bad h
  have hexec := exec_writesPoint_of_valid (exec_padd_eq_writesPoint d a b s) h
  refine ⟨fun ha => ?_, fun hb => ?_, fun x1 y1 x2 y2 ha hb => ?_⟩
  · exact completesOk_writesPoint hexec (by rw [ha, paddF]) fun _ ht => ht
  · exact completesOk_writesPoint hexec (by rw [hb, paddF_inf_right]) fun _ ht => ht
  · intro opposite u v
    rw [ha, hb] at hexec
    refine ⟨fun ho => ?_, fun ho hv => ?_, fun ho hv => ?_⟩
    · exact completesOk_writesPoint hexec (paddF_opposite hpos ho) fun _ ht => ht
    · exact failsWith_writesPoint hexec (paddF_no_slope hpos ho hv) (by decide)
    · obtain ⟨l, -, hquot, hsum⟩ := paddF_slope hpos ho hv
      obtain ⟨x3, y3, hpoint, hx3, hy3⟩ := chordPoint_coordinates hpos l x1.toNat y1.toNat x2.toNat
      rw [hquot] at hx3 hy3
      exact completesOk_writesPoint hexec hsum fun t ht => ⟨x3, y3, ht.trans hpoint, hx3, hy3⟩

end Sys2Proof.Machine
end

section
/-! PMUL and PMULADD: the model's loop is the ladder over the bits of the scalar, and the two commands with their checks
(spec/42_point_group.md R87, R96, R97). -/

namespace Sys2Proof.Machine

/-! The ladder. -/

/-- The loop over the low `n` bits goes on where the ladder over the others stopped. -/
theorem ladder_bind_pmulLoop (c : Curve) (q : Point) (k j n : Nat) (h : j + n = 256) :
    (ladder c q k j >>= pmulLoop c q k n) = ladder c q k 256 := by
  induction n generalizing j with
  | zero =>
    subst h
    exact bind_pure _
  | succ n ih =>
    have hbit : k.testBit n = decide (k / 2 ^ (255 - j) % 2 = 1) := by
      rw [Nat.testBit_eq_decide_div_mod_eq, show 255 - j = n by omega]
    rw [← ih (j + 1) (by omega), ladder, bind_assoc]
    refine congrArg _ (funext fun acc => ?_)
    simp only [pmulLoop, hbit, decide_eq_true_eq, bind_assoc]
    refine congrArg _ (funext fun doubled => ?_)
    split <;> rfl

/-- The scalar multiplier is the ladder over all 256 bits (R87). -/
theorem pmulF_eq_ladder (c : Curve) (q : Point) (k : Nat) : pmulF c q k = ladder c q k 256 :=
  ladder_bind_pmulLoop c q k 0 256 rfl

theorem ladder_inf (c : Curve) (k j : Nat) : ladder c .inf k j = .ok .inf := by
  induction j with
  | zero => rfl
  | succ j ih =>
    rw [ladder, ih, ok_bind, paddF, ok_bind]
    split <;> rfl

theorem ladder_zero (c : Curve) (q : Point) (j : Nat) : ladder c q 0 j = .ok .inf := by
  induction j with
  | zero => rfl
  | succ j ih => simp [ladder, ih, paddF]

/-! The checks of the commands with a scalar. -/

section
variable {i : Instr} {s : State} {d : PtReg} {x : Except ResultCode Point}
  (hi : exec i s = s.writesPoint d (s.requireModuli >>= fun _ => x))
include hi

/-- The check of both moduli comes first (R108). -/
theorem failsWith_writesPoint_moduli (h : BadModulus s.curve.p.toNat ∨ BadModulus s.curve.n.toNat) :
    FailsWith i s .badModulus :=
  failsWith_writesPoint hi (by rw [State.requireModuli_bad h]; rfl) (by decide)

theorem exec_writesPoint_of_moduli (hp : ¬BadModulus s.curve.p.toNat) (hn : ¬BadModulus s.curve.n.toNat) :
    exec i s = s.writesPoint d x := by
  rw [hi, State.requireModuli_ok hp hn, ok_bind]

end

theorem requireScalar_ok {k n : Nat} (h : k < n) : require (decide (k < n)) .scalarOutOfRange = .ok () :=
  require_eq_ok.mpr (decide_eq_true h)

theorem requireScalar_error {k n : Nat} (h : n ≤ k) :
    require (decide (k < n)) .scalarOutOfRange = .error .scalarOutOfRange := by
  rw [decide_eq_false (not_lt.mpr h), require_false]

/-- A point command ends with the error of its computation, or writes its result. -/
theorem writesPoint_ends {i : Instr} {s : State} {d : PtReg} {x : Except ResultCode Point}
    (hi : exec i s = s.writesPoint d x) (hx : Clean x) :
    (∀ e, x = .error e → FailsWith i s e) ∧ ∀ Q, x = .ok Q → CompletesOk i s [] [d] fun t => t.point d = Q :=
  ⟨fun e he => failsWith_writesPoint hi he (hx e he).1, fun _ hQ => completesOk_writesPoint hi hQ fun _ ht => ht⟩

theorem ladder_clean (c : Curve) (q : Point) (k : Nat) : Clean (ladder c q k 256) := by
  rw [← pmulF_eq_ladder]
  exact pmulF_clean c q k

theorem exec_pmul_of_valid {s : State} {b : Reg} (hp : ¬BadModulus s.curve.p.toNat) (hn : ¬BadModulus s.curve.n.toNat)
    (hk : (s.reg b).toNat < s.curve.n.toNat) (d a : PtReg) :
    exec (.pmul d a b) s = s.writesPoint d (ladder s.curve (s.point a) (s.reg b).toNat 256) := by
  rw [exec_writesPoint_of_moduli (exec_pmul_eq_writesPoint d a b s) hp hn, requireScalar_ok hk, ok_bind, pmulF_eq_ladder]

/-- A legal PMULADD with valid moduli, before the checks of its scalars (R97). -/
theorem exec_pmuladd_of_legal {c : Reg} (hc : c.val ≤ 14) (d a b : PtReg) (s : State) :
    exec (.pmuladd d a b c) s = s.writesPoint d (do
      s.requireModuli
      require (decide (s.regNat c < s.curve.nNat)) .scalarOutOfRange
      require (decide (s.regNat (c + 1) < s.curve.nNat)) .scalarOutOfRange
      let q1 ← ladder s.curve (s.point a) (s.regNat c) 256
      let q2 ← ladder s.curve (s.point b) (s.regNat (c + 1)) 256
      paddF s.curve q1 q2) := by
  have hlegal : requireLegal (.pmuladd d a b c) = .ok () := require_eq_ok.mpr (decide_eq_true hc)
  rw [exec_pmuladd_eq_writesPoint, hlegal, ok_bind, pmulF_eq_ladder]
  simp only [pmulF_eq_ladder]

/-- Settles O45: the loop is the ladder, and each command checks its scalars before it runs its ladders. -/
theorem pmulAndPmuladdFollowTheLadder : Obligations.PmulAndPmuladdFollowTheLadder := by
  refine ⟨refusesOtherWords _, refusesOtherWords _, pmulF_eq_ladder, fun d a b s =>
    ⟨encodedBy_commandWord rfl rfl, failsWith_writesPoint_moduli (exec_pmul_eq_writesPoint d a b s),
      fun hp hn => ⟨fun hk => ?_, fun hk => ?_⟩⟩, fun d a b c s hc =>
    ⟨encodedBy_commandWord (decide_eq_true hc) rfl, failsWith_writesPoint_moduli (exec_pmuladd_of_legal hc d a b s),
      fun hp hn => ⟨fun hrange => ?_, fun h1 h2 result hresult => ?_⟩⟩⟩
  · have hexec := exec_writesPoint_of_moduli (exec_pmul_eq_writesPoint d a b s) hp hn
    exact failsWith_writesPoint hexec (by rw [requireScalar_error hk, error_bind]) (by decide)
  · have hexec := exec_pmul_of_valid hp hn hk d a
    obtain ⟨hfails, hcompletes⟩ := writesPoint_ends hexec (ladder_clean _ _ _)
    refine ⟨hfails, hcompletes, fun hzero => hcompletes .inf ?_⟩
    obtain ha | hb := hzero
    · rw [ha, ladder_inf]
    · rw [hb]
      exact ladder_zero _ _ _
  · have hexec := exec_writesPoint_of_moduli (exec_pmuladd_of_legal hc d a b s) hp hn
    refine failsWith_writesPoint hexec ?_ (by decide)
    by_cases h1 : s.curve.n.toNat ≤ (s.reg c).toNat
    · rw [requireScalar_error h1, error_bind]
    · rw [requireScalar_ok (not_le.mp h1), ok_bind, requireScalar_error (hrange.resolve_left h1), error_bind]
  · have hexec := exec_writesPoint_of_moduli (exec_pmuladd_of_legal hc d a b s) hp hn
    rw [requireScalar_ok h1, ok_bind, requireScalar_ok h2, ok_bind, ← hresult] at hexec
    refine writesPoint_ends hexec ?_
    rw [hresult]
    exact .bind (ladder_clean _ _ _) fun _ _ => .bind (ladder_clean _ _ _) fun _ _ => paddF_clean _ _ _

end Sys2Proof.Machine
end

section
/-! PFROMX: the decompressor's errors in their order, and the root with the parity asked for
(spec/42_point_group.md R88, R98). -/

namespace Sys2Proof.Machine

theorem reduce_pow_cast {m : Nat} (hpos : 0 < m) (v : Int) (e : Nat) :
    ((reduce m v ^ e % m : Nat) : Int) = (v % (m : Int)) ^ e % (m : Int) := by
  rw [Int.natCast_mod, Int.natCast_pow, reduce_cast hpos]

/-- The square root unit on an integer is the one on its residue (R80). -/
theorem squareRoots_reduce {m : Nat} (hpos : 0 < m) (v : Int) : squareRoots m (reduce m v) = squareRoots m v := by
  rw [squareRoots, squareRoots, reduce_natCast, Nat.mod_eq_of_lt (reduce_lt hpos v)]

theorem squareRoots_int {m : Nat} (hpos : 0 < m) (hlt : m < 2 ^ 256) (v : Int) :
    squareRoots m v = if m % 4 ≠ 3 then .error .unsupportedModulus
      else if (v % (m : Int)) ^ ((m - 1) / 2) % (m : Int) ≠ 1 then .error .notAQuadraticResidue
      else .ok (reduce m v ^ ((m + 1) / 4) % m, m - reduce m v ^ ((m + 1) / 4) % m) := by
  rw [← squareRoots_reduce hpos, squareRoots_natCast hpos hlt, Nat.mod_eq_of_lt (reduce_lt hpos v), ← reduce_pow_cast hpos]
  norm_cast

theorem word_of_toNat (x : Word) : word x.toNat = x := by
  rw [word, BitVec.ofNat_toNat, BitVec.setWidth_eq]

/-- One of `r` and `p - r`, by the parity asked for (R88). -/
def rootOfParity (p r : Nat) (odd : Bool) : Nat := if r % 2 = bit odd then r else p - r

/-- Of two roots that add up to an odd number, the one picked has the parity asked for (R88). -/
theorem rootOfParity_odd {p r : Nat} (hp : p % 2 = 1) (hr : r ≤ p) (odd : Bool) :
    rootOfParity p r odd % 2 = 1 ↔ odd = true := by
  unfold rootOfParity
  cases odd
  · simp only [bit, Bool.false_eq_true, if_false, iff_false]
    split <;> omega
  · simp only [bit, if_true, iff_true]
    split <;> omega

theorem rootOfParity_cases (p r : Nat) (odd : Bool) : rootOfParity p r odd = r ∨ rootOfParity p r odd = p - r := by
  unfold rootOfParity
  split
  · exact .inl rfl
  · exact .inr rfl

/-- The point the decompressor gives when its checks pass (R88). -/
def Curve.decompressed (c : Curve) (x : Nat) (odd : Bool) : Point :=
  .affine (word x) (word (rootOfParity c.p.toNat (reduce c.p.toNat (curveRhs c x) ^ ((c.p.toNat + 1) / 4) % c.p.toNat) odd))

section
variable {c : Curve} {x : Nat}

/-- The decompressor: its checks in their order, then the point (R88). -/
theorem fromxF_eq (hpos : 0 < c.p.toNat) (odd : Bool) :
    fromxF c x odd = if c.p.toNat ≤ x then .error .pointNotOnCurve
      else if c.p.toNat % 4 ≠ 3 then .error .unsupportedModulus
      else if (curveRhs c x % (c.p.toNat : Int)) ^ ((c.p.toNat - 1) / 2) % (c.p.toNat : Int) ≠ 1 then
        .error .notAQuadraticResidue
      else .ok (c.decompressed x odd) := by
  have hroots := squareRoots_int hpos c.p.isLt (curveRhs c x)
  by_cases hx : c.p.toNat ≤ x
  · rw [fromxF, decide_eq_false (not_lt.mpr hx), if_pos hx]
    rfl
  · rw [fromxF, decide_eq_true (not_le.mp hx), require_true, ok_bind, if_neg hx]
    refine (congrArg (· >>= _) hroots).trans ?_
    split
    · rfl
    · split
      · rfl
      · rfl

theorem fromxF_error (hpos : 0 < c.p.toNat) {e : ResultCode} (he : decompressionError c x = some e) (odd : Bool) :
    fromxF c x odd = .error e := by
  rw [fromxF_eq hpos]
  unfold decompressionError at he
  split_ifs at he ⊢ <;> cases he <;> rfl

theorem decompressionError_ne_ok {e : ResultCode} (he : decompressionError c x = some e) : e ≠ .ok := by
  unfold decompressionError at he
  split_ifs at he <;> cases he <;> decide

theorem fromxF_of_no_error (h : ¬BadModulus c.p.toNat) (he : decompressionError c x = none) (odd : Bool) :
    ∃ y : Word, fromxF c x odd = .ok (.affine (word x) y) ∧ y.toNat < c.p.toNat ∧ PickedRoot c x odd y.toNat := by
  have hpos := pos_of_not_bad h
  have hodd : c.p.toNat % 2 = 1 := by unfold BadModulus at h; omega
  have hunit := squareRoots_int hpos c.p.isLt (curveRhs c x)
  have hfromx := fromxF_eq (x := x) hpos odd
  unfold decompressionError at he
  split_ifs at he hunit hfromx
  have hcast := reduce_pow_cast hpos (curveRhs c x) ((c.p.toNat + 1) / 4)
  unfold Curve.decompressed at hfromx
  obtain ⟨hr, hr'⟩ := squareRoots_lt h c.p.isLt _ _ ((squareRoots_reduce hpos _).trans hunit)
  generalize reduce c.p.toNat (curveRhs c x) ^ ((c.p.toNat + 1) / 4) % c.p.toNat = r at hfromx hcast hr hr'
  have hcases := rootOfParity_cases c.p.toNat r odd
  have hlt : rootOfParity c.p.toNat r odd < c.p.toNat := by
    obtain hy | hy := hcases
    · exact hy.trans_lt hr
    · exact hy.trans_lt hr'
  refine ⟨_, hfromx, ?_⟩
  rw [word_toNat (hlt.trans c.p.isLt)]
  exact ⟨hlt, r, hcast, hcases, rootOfParity_odd hodd hr.le odd⟩

end

/-- Settles O46: the decompressor reports its errors in their order, and picks the root by its parity. -/
theorem pfromxPicksTheRootByParity : Obligations.PfromxPicksTheRootByParity := by
  refine ⟨refusesOtherWords _, fun d a odd s => ⟨encodedBy_commandWord rfl ?_,
    failsWith_writesPoint_bad (exec_pfromx_eq_writesPoint d a odd s), fun h => ⟨fun e he => ?_, fun he => ?_⟩⟩⟩
  · cases odd <;> rfl
  · exact failsWith_writesPoint (exec_writesPoint_of_valid (exec_pfromx_eq_writesPoint d a odd s) h)
      (fromxF_error (pos_of_not_bad h) he odd) (decompressionError_ne_ok he)
  · obtain ⟨y, hfromx, hlt, hroot⟩ := fromxF_of_no_error h he odd
    refine completesOk_writesPoint (exec_writesPoint_of_valid (exec_pfromx_eq_writesPoint d a odd s) h) hfromx fun t ht =>
      ⟨y, ht.trans ?_, hlt, hroot⟩
    exact congrArg (Point.affine · y) (word_of_toNat _)

end Sys2Proof.Machine
end

section
/-! ENCODE: the bytes of both forms (spec/42_point_group.md R99). -/

namespace Sys2Proof.Machine

theorem getElem_bytes32 (x : Word) {i : Nat} (h : i < (bytes32 x).length) :
    (bytes32 x)[i] = x.extractLsb' (248 - 8 * i) 8 := by
  simp [bytes32]

/-! The bytes of the two forms. -/

section
variable (x y : Word) (compressed : Bool)

theorem encodePoint_compressed_length : (encodePoint x y true).length = 33 := by simp [encodePoint]

theorem encodePoint_decompressed_length : (encodePoint x y false).length = 65 := by simp [encodePoint]

theorem encodePoint_lead :
    (encodePoint x y compressed)[0]? = some (if compressed then BitVec.ofNat 8 (2 + y.toNat % 2) else 0x04#8) := by
  cases compressed <;> rfl

theorem encodePoint_x {i : Nat} (hi : i < 32) :
    (encodePoint x y compressed)[1 + i]? = some (x.extractLsb' (248 - 8 * i) 8) := by
  have hbyte : (bytes32 x)[i]? = some (x.extractLsb' (248 - 8 * i) 8) := by
    rw [List.getElem?_eq_getElem (by simpa using hi), getElem_bytes32]
  rw [Nat.add_comm]
  cases compressed
  · exact (List.getElem?_append_left (by simpa using hi)).trans hbyte
  · exact hbyte

theorem encodePoint_y {i : Nat} (hi : i < 32) :
    (encodePoint x y false)[33 + i]? = some (y.extractLsb' (248 - 8 * i) 8) := by
  have hbyte : (bytes32 y)[i]? = some (y.extractLsb' (248 - 8 * i) 8) := by
    rw [List.getElem?_eq_getElem (by simpa using hi), getElem_bytes32]
  rw [show 33 + i = 32 + i + 1 by omega]
  refine (List.getElem?_append_right (by simp)).trans ?_
  rwa [bytes32_length, Nat.add_sub_cancel_left]

end

/-! The state ENCODE reaches. -/

/-- The state of ENCODE of an affine point before the completion step (R99). -/
def State.encoded (s : State) (x y : Word) (compressed : Bool) : State :=
  { s with
    buf := s.buf.writeAll 0 (encodePoint x y compressed)
    bufLen := BitVec.ofNat 8 (encodePoint x y compressed).length }

theorem exec_encode_of_affine {s : State} {a : PtReg} {x y : Word} (ha : s.point a = .affine x y) (compressed : Bool) :
    exec (.encode a compressed) s = .next ((s.encoded x y compressed).complete .ok none) := by
  rw [exec, execEncode, ha]
  rfl

theorem ends_encoded (s : State) (x y : Word) (compressed : Bool) :
    Ends .ok [] [] s ((s.encoded x y compressed).complete .ok none) where
  completed := completed_complete _ _ _
  frame := ⟨fun _ _ => rfl, fun _ _ => rfl, rfl, rfl, rfl, rfl, rfl, rfl, rfl, rfl⟩
  attempts := rfl
  drbg := ⟨rfl, rfl, rfl⟩
  ports := ⟨rfl, rfl⟩

section
variable {s : State} (hbuf : s.buf.wf = true) (x y : Word) (compressed : Bool)
include hbuf

theorem read_encoded {j : Nat} {v : Byte} (h : (encodePoint x y compressed)[j]? = some v) :
    (s.encoded x y compressed).buf.read j = v := by
  obtain ⟨hj, hv⟩ := List.getElem?_eq_some_iff.mp h
  rw [State.encoded, Memory.read_writeAll (Memory.pairwise_of_wf hbuf), dif_pos (by omega)]
  exact hv

theorem read_encoded_above {j : Nat} (h : (encodePoint x y compressed).length ≤ j) :
    (s.encoded x y compressed).buf.read j = s.buf.read j := by
  rw [State.encoded, Memory.read_writeAll (Memory.pairwise_of_wf hbuf), dif_neg (by omega)]

end

/-- Settles O47: ENCODE writes the string of its form from `BUF[0]` up, and the bytes are those of the string. -/
theorem encodeWritesTheListedBytes : Obligations.EncodeWritesTheListedBytes := by
  refine ⟨refusesOtherWords _, fun a compressed s => ⟨encodedBy_commandWord rfl ?_, fun ha => ?_, fun x y ha hbuf =>
    ⟨_, exec_encode_of_affine ha compressed, ends_encoded s x y compressed, ?_⟩⟩⟩
  · cases compressed <;> rfl
  · exact failsWith_of_exec (by decide) (by rw [exec, execEncode, ha]; rfl)
  simp only [State.complete_buf, State.complete_bufLen]
  refine ⟨fun i hi => read_encoded hbuf x y compressed (encodePoint_x x y compressed hi), ?_, ?_⟩
  · rintro rfl
    have hlength := encodePoint_compressed_length x y
    refine ⟨?_, congrArg (BitVec.ofNat 8) hlength, fun j hj => read_encoded_above hbuf x y true (hlength.trans_le hj)⟩
    rw [read_encoded hbuf x y true (encodePoint_lead x y true), if_pos rfl, BitVec.toNat_ofNat]
    omega
  · rintro rfl
    have hlength := encodePoint_decompressed_length x y
    exact ⟨read_encoded hbuf x y false (encodePoint_lead x y false), congrArg (BitVec.ofNat 8) hlength,
      fun i hi => read_encoded hbuf x y false (encodePoint_y x y hi),
      fun j hj => read_encoded_above hbuf x y false (hlength.trans_le hj)⟩

end Sys2Proof.Machine
end

section
/-! DECODE: the two forms with their checks, and the point that ENCODE wrote (spec/42_point_group.md R99, R100). -/

namespace Sys2Proof.Machine

theorem intOf_slice (m : Memory) (i count : Nat) : intOf (m.slice i count) = bigEndian count fun j => m.read (i + j) :=
  intOf_map count _

/-! The decoder as the claims write it. -/

/-- The lead bytes of the compressed form name the parity by their lowest bit (R100). -/
theorem leadByte_parity {b : Byte} (h : b = 0x02#8 ∨ b = 0x03#8) : (b.toNat % 2 == 1) = decide (b = 0x03#8) := by
  obtain rfl | rfl := h <;> rfl

section
variable {c : Curve} {buf : Memory} {len : Nat}

theorem decodePoint_compressed (hform : len = 33 ∧ (buf.read 0 = 0x02#8 ∨ buf.read 0 = 0x03#8)) :
    decodePoint c buf len = fromxF c (bigEndian 32 fun i => buf.read (1 + i)) (decide (buf.read 0 = 0x03#8)) := by
  rw [decodePoint, if_pos hform, intOf_slice, leadByte_parity hform.2]

theorem decodePoint_decompressed (hform : len = 65 ∧ buf.read 0 = 0x04#8) :
    decodePoint c buf len = (do
      require (c.onCurve (bigEndian 32 fun i => buf.read (1 + i)) (bigEndian 32 fun i => buf.read (33 + i))) .pointNotOnCurve
      .ok (.affine (word (bigEndian 32 fun i => buf.read (1 + i))) (word (bigEndian 32 fun i => buf.read (33 + i))))) := by
  rw [decodePoint, if_neg (by omega), if_pos hform, intOf_slice, intOf_slice]
  rfl

theorem decodePoint_error (hpos : 0 < c.p.toNat) {e : ResultCode} (he : decodeError c buf.read len = some e) :
    decodePoint c buf len = .error e ∧ e ≠ .ok := by
  unfold decodeError at he
  split at he
  · rw [decodePoint_compressed ‹_›]
    exact ⟨fromxF_error hpos he _, decompressionError_ne_ok he⟩
  · split at he
    · rw [decodePoint_decompressed ‹_›]
      split at he
      · cases he
      · rename_i hoff
        cases he
        rw [Bool.eq_false_iff.mpr (mt (c.onCurve_iff_OnCurve hpos _ _).mp hoff)]
        exact ⟨rfl, by decide⟩
    · cases he
      rw [decodePoint, if_neg ‹_›, if_neg ‹_›]
      exact ⟨rfl, by decide⟩

theorem decodePoint_of_no_error (h : ¬BadModulus c.p.toNat) (he : decodeError c buf.read len = none) :
    ∃ Q, decodePoint c buf len = .ok Q ∧ DecodesTo c buf.read len Q := by
  unfold decodeError at he
  split at he
  · rename_i hform
    obtain ⟨y, hfromx, -, hroot⟩ := fromxF_of_no_error h he (decide (buf.read 0 = 0x03#8))
    refine ⟨_, (decodePoint_compressed hform).trans hfromx, .inl ⟨hform.1, hform.2, _, hroot, ?_⟩⟩
    rw [word_of_toNat y]
  · split at he
    · rename_i hform
      split at he
      · rename_i hon
        refine ⟨_, ?_, .inr ⟨hform.1, hform.2, rfl⟩⟩
        rw [decodePoint_decompressed hform, (c.onCurve_iff_OnCurve (pos_of_not_bad h) _ _).mpr hon]
        rfl
      · cases he
    · cases he

end

/-- Settles O48: the decoder's errors are those of the two forms, and without one it gives the point encoded. -/
theorem decodeReadsTheTwoForms : Obligations.DecodeReadsTheTwoForms := by
  refine ⟨refusesOtherWords _, fun d s => ⟨encodedBy_commandWord rfl rfl,
    failsWith_writesPoint_bad (exec_decode_eq_writesPoint d s), fun h => ?_⟩⟩
  have hexec := exec_writesPoint_of_valid (exec_decode_eq_writesPoint d s) h
  refine ⟨fun e he => ?_, fun he => ?_⟩
  · obtain ⟨hdecode, hcode⟩ := decodePoint_error (pos_of_not_bad h) he
    exact failsWith_writesPoint hexec hdecode hcode
  · obtain ⟨Q, hdecode, hQ⟩ := decodePoint_of_no_error h he
    exact completesOk_writesPoint hexec hdecode fun t ht => ht ▸ hQ

end Sys2Proof.Machine
end

section
/-! DECODE after ENCODE gives the point back: the compressed form keeps the parity of `y`, which tells the two roots apart
(spec/42_point_group.md R99, R100). -/

namespace Sys2Proof.Machine

/-- A value whose bytes are those of `x` is `x` (R12). -/
theorem bigEndian_of_bytes (x : Word) {f : Nat → Byte} (h : ∀ i, i < 32 → f i = x.extractLsb' (248 - 8 * i) 8) :
    bigEndian 32 f = x.toNat := by
  rw [← intOf_bytes32, bytes32, intOf_map]
  exact Finset.sum_congr rfl fun i hi => by rw [h i (Finset.mem_range.mp hi)]

/-! The root that the decompressor picks for a point of the curve. -/

section
variable {c : Curve} {x y : Nat} (hon : OnCurve c x y)
include hon

theorem rhs_eq_square_of_OnCurve : ((curveRhs c x : Int) : ZMod c.p.toNat) = (y : ZMod c.p.toNat) ^ 2 := by
  obtain ⟨-, -, heq⟩ := hon
  have hzero : (((y : Int) ^ 2 - curveRhs c x : Int) : ZMod c.p.toNat) = 0 :=
    (ZMod.intCast_zmod_eq_zero_iff_dvd _ _).mpr (Int.dvd_of_emod_eq_zero heq)
  push_cast at hzero
  exact (sub_eq_zero.mp hzero).symm

variable (hy : y ≠ 0)
include hy

theorem cast_ne_zero_of_OnCurve : (y : ZMod c.p.toNat) ≠ 0 := by
  rw [Ne, ZMod.natCast_eq_zero_iff]
  exact fun hdvd => hy (Nat.eq_zero_of_dvd_of_lt hdvd hon.2.1)

variable (hprime : Nat.Prime c.p.toNat) (hmod : c.p.toNat % 4 = 3)
include hprime hmod

/-- The Euler test passes on a square that is not 0 (R80). -/
theorem decompressionError_of_OnCurve : decompressionError c x = none := by
  have : Fact (Nat.Prime c.p.toNat) := ⟨hprime⟩
  have hpower : (((curveRhs c x % (c.p.toNat : Int)) ^ ((c.p.toNat - 1) / 2) : Int) : ZMod c.p.toNat) = (1 : Int) := by
    rw [Int.cast_pow, ZMod.intCast_mod, rhs_eq_square_of_OnCurve hon, ← pow_mul,
      show 2 * ((c.p.toNat - 1) / 2) = c.p.toNat - 1 by omega,
      ZMod.pow_card_sub_one_eq_one (cast_ne_zero_of_OnCurve hon hy), Int.cast_one]
  have heuler := (ZMod.intCast_eq_intCast_iff' _ _ _).mp hpower
  rw [Int.emod_eq_of_lt (a := 1) (by decide) (by exact_mod_cast hprime.one_lt)] at heuler
  rw [decompressionError, if_neg (not_le.mpr hon.1), if_neg (not_not.mpr hmod), if_neg (not_not.mpr heuler)]

/-- The picked root squares to `y²`, whichever of the two it is (R80, R88). -/
theorem pickedRoot_square {odd : Bool} {z : Nat} (hz : PickedRoot c x odd z) :
    z ≤ c.p.toNat ∧ (z : ZMod c.p.toNat) ^ 2 = (y : ZMod c.p.toNat) ^ 2 := by
  have : Fact (Nat.Prime c.p.toNat) := ⟨hprime⟩
  obtain ⟨r, hr, hcases, -⟩ := hz
  have hrp : r < c.p.toNat := by
    have : (r : Int) < c.p.toNat := hr ▸ Int.emod_lt_of_pos _ (by exact_mod_cast hprime.pos)
    exact_mod_cast this
  have hsquare : (r : ZMod c.p.toNat) ^ 2 = (y : ZMod c.p.toNat) ^ 2 := by
    have hcast : (r : ZMod c.p.toNat) = (y : ZMod c.p.toNat) ^ (2 * ((c.p.toNat + 1) / 4)) := by
      rw [← Int.cast_natCast, hr, ZMod.intCast_mod, Int.cast_pow, ZMod.intCast_mod, rhs_eq_square_of_OnCurve hon,
        pow_mul]
    rw [hcast, ← pow_mul, show 2 * ((c.p.toNat + 1) / 4) * 2 = c.p.toNat - 1 + 2 by omega, pow_add,
      ZMod.pow_card_sub_one_eq_one (cast_ne_zero_of_OnCurve hon hy), one_mul]
  obtain rfl | rfl := hcases
  · exact ⟨hrp.le, hsquare⟩
  · exact ⟨Nat.sub_le _ _, by rw [Nat.cast_sub hrp.le, ZMod.natCast_self, zero_sub, neg_sq, hsquare]⟩

/-- The root with the parity of `y` is `y`: the other one, `p - y`, has the other parity (R88). -/
theorem pickedRoot_eq {odd : Bool} (hparity : y % 2 = 1 ↔ odd = true) {z : Nat}
    (hz : PickedRoot c x odd z) : z = y := by
  have : Fact (Nat.Prime c.p.toNat) := ⟨hprime⟩
  obtain ⟨hle, hsquare⟩ := pickedRoot_square hon hy hprime hmod hz
  obtain ⟨r, -, -, hodd⟩ := hz
  have hlt := hon.2.1
  obtain heq | heq := sq_eq_sq_iff_eq_or_eq_neg.mp hsquare
  · have hmodEq : z % c.p.toNat = y % c.p.toNat := (ZMod.natCast_eq_natCast_iff' _ _ _).mp heq
    rw [Nat.mod_eq_of_lt hlt] at hmodEq
    obtain hz | hz := hle.lt_or_eq
    · rwa [Nat.mod_eq_of_lt hz] at hmodEq
    · rw [hz, Nat.mod_self] at hmodEq
      exact absurd hmodEq.symm hy
  · have hdvd : c.p.toNat ∣ z + y := by
      rw [← ZMod.natCast_eq_zero_iff, Nat.cast_add, heq, neg_add_cancel]
    have hsum : z + y = c.p.toNat := Nat.eq_of_dvd_of_lt_two_mul (by omega) hdvd (by omega)
    have hsame : z % 2 = 1 ↔ y % 2 = 1 := hodd.trans hparity.symm
    omega

end

/-! The two commands in turn. -/

/-- The bytes of an encoding of the pair, in the form given, as `BUF` and `BUF_LEN` hold it (R99). -/
structure HoldsEncoding (byte : Nat → Byte) (len : Nat) (x y : Word) (compressed : Bool) : Prop where
  xBytes : (bigEndian 32 fun i => byte (1 + i)) = x.toNat
  whenCompressed : compressed = true → len = 33 ∧ (byte 0).toNat = 2 + y.toNat % 2
  whenDecompressed : compressed = false → len = 65 ∧ byte 0 = 0x04#8 ∧ (bigEndian 32 fun i => byte (33 + i)) = y.toNat

theorem exec_encode_holdsEncoding {a : PtReg} {s : State} {x y : Word} (ha : s.point a = .affine x y)
    (hbuf : s.buf.wf = true) (compressed : Bool) : ∃ t, exec (.encode a compressed) s = .next t ∧ Ends .ok [] [] s t ∧
      HoldsEncoding t.buf.read t.bufLen.toNat x y compressed := by
  obtain ⟨-, hencode⟩ := encodeWritesTheListedBytes
  obtain ⟨-, -, hwrites⟩ := hencode a compressed s
  obtain ⟨t, hexec, hends, hx, hc, hd⟩ := hwrites x y ha hbuf
  refine ⟨t, hexec, hends, bigEndian_of_bytes x hx, fun h => ?_, fun h => ?_⟩
  · obtain ⟨hlead, hlen, -⟩ := hc h
    exact ⟨congrArg BitVec.toNat hlen, hlead⟩
  · obtain ⟨hlead, hlen, hy, -⟩ := hd h
    exact ⟨congrArg BitVec.toNat hlen, hlead, bigEndian_of_bytes y hy⟩

section
variable {c : Curve} {byte : Nat → Byte} {len : Nat} {x y : Word}

theorem decodes_decompressed (h : HoldsEncoding byte len x y false) (hon : OnCurve c x.toNat y.toNat) :
    decodeError c byte len = none ∧ ∀ Q, DecodesTo c byte len Q → Q = .affine x y := by
  obtain ⟨hlen, hlead, hy⟩ := h.whenDecompressed rfl
  refine ⟨?_, ?_⟩
  · rw [decodeError, if_neg (by omega), if_pos ⟨hlen, hlead⟩, h.xBytes, hy, if_pos hon]
  · rintro Q (⟨hlen', -⟩ | ⟨-, -, hQ⟩)
    · omega
    · rw [hQ, h.xBytes, hy, word_of_toNat, word_of_toNat]

theorem decodes_compressed (h : HoldsEncoding byte len x y true) (hon : OnCurve c x.toNat y.toNat)
    (hy : y.toNat ≠ 0) (hprime : Nat.Prime c.p.toNat) (hmod : c.p.toNat % 4 = 3) :
    decodeError c byte len = none ∧ ∀ Q, DecodesTo c byte len Q → Q = .affine x y := by
  obtain ⟨hlen, hlead⟩ := h.whenCompressed rfl
  have hform : len = 33 ∧ (byte 0 = 0x02#8 ∨ byte 0 = 0x03#8) := by
    refine ⟨hlen, ?_⟩
    rw [← BitVec.toNat_inj, ← BitVec.toNat_inj, BitVec.toNat_ofNat, BitVec.toNat_ofNat]
    omega
  have hparity : y.toNat % 2 = 1 ↔ decide (byte 0 = 0x03#8) = true := by
    rw [decide_eq_true_iff, ← BitVec.toNat_inj, BitVec.toNat_ofNat]
    omega
  refine ⟨?_, ?_⟩
  · rw [decodeError, if_pos hform, h.xBytes]
    exact decompressionError_of_OnCurve hon hy hprime hmod
  · rintro Q (⟨-, -, z, hz, hQ⟩ | ⟨hlen', -⟩)
    · rw [h.xBytes] at hz hQ
      rw [hQ, pickedRoot_eq hon hy hprime hmod hparity hz, word_of_toNat, word_of_toNat]
    · omega

end

/-- Settles O49: the bytes ENCODE wrote have no decoding error, and only the point itself decodes from them. -/
theorem decodeAfterEncodeReturnsThePoint : Obligations.DecodeAfterEncodeReturnsThePoint := by
  intro a d compressed s x y ha hbuf h hon hcompressed
  obtain ⟨t, hencode, hends, hbytes⟩ := exec_encode_holdsEncoding ha hbuf compressed
  have hcurve := hends.frame.curve
  have hdecodes : decodeError s.curve t.buf.read t.bufLen.toNat = none ∧
      ∀ Q, DecodesTo s.curve t.buf.read t.bufLen.toNat Q → Q = .affine x y := by
    cases compressed
    · exact decodes_decompressed hbytes hon
    · obtain ⟨hprime, hmod, hy⟩ := hcompressed rfl
      exact decodes_compressed hbytes hon (fun h0 => hy (BitVec.eq_of_toNat_eq h0)) hprime hmod
  obtain ⟨hnone, hpoint⟩ := hdecodes
  obtain ⟨-, hdecode⟩ := decodeReadsTheTwoForms
  obtain ⟨-, -, hvalid⟩ := hdecode d t
  rw [hcurve] at hvalid
  obtain ⟨u, hexec, hends', -, hQ⟩ := (hvalid h).2 hnone
  exact ⟨t, u, hencode, hexec, hends.completed, hends'.completed, hpoint _ hQ⟩

end Sys2Proof.Machine
end

section
/-! PADD and PMUL in the elliptic-curve group of Mathlib: the adder is the group's addition and the ladder its scalar
multiple, over a prime field (spec/42_point_group.md R84, R86, R87, R95, R96). -/

namespace Sys2Proof.Machine

/-! Coordinates below `p` and the field. -/

theorem cast_eq_cast_iff {p m n : Nat} (hm : m < p) (hn : n < p) : (m : ZMod p) = n ↔ m = n := by
  rw [ZMod.natCast_eq_natCast_iff', Nat.mod_eq_of_lt hm, Nat.mod_eq_of_lt hn]

/-- The adder's comparison with `p - y2` is negation in the field (R86). -/
theorem eq_neg_iff {p m n : Nat} (hm : m < p) : (m : ZMod p) = -n ↔ (m : Int) = ((p : Int) - n) % p := by
  have hcast : ((m : Int) : ZMod p) = (((p : Int) - n : Int) : ZMod p) ↔ (m : ZMod p) = -n := by simp
  rw [← hcast, ZMod.intCast_eq_intCast_iff', Int.emod_eq_of_lt (by omega) (by exact_mod_cast hm)]

theorem residue_cast {p n : Nat} {v : Int} (hp : 0 < p) (h : (n : Int) = v % p) : n < p ∧ (n : ZMod p) = v := by
  have hlt : (n : Int) < p := h ▸ Int.emod_lt_of_pos v (by exact_mod_cast hp)
  exact ⟨by exact_mod_cast hlt, by rw [← Int.cast_natCast, h, ZMod.intCast_mod]⟩

section
variable {c : Curve} [Fact (Nat.Prime c.p.toNat)]

theorem negY_fieldCurve (x y : ZMod c.p.toNat) : (fieldCurve c).toAffine.negY x y = -y := by
  simp [WeierstrassCurve.Affine.negY, fieldCurve]

theorem represents_affine {x y : Word} {X Y : ZMod c.p.toNat} {hXY : (fieldCurve c).toAffine.Nonsingular X Y}
    (hx : x.toNat < c.p.toNat) (hy : y.toNat < c.p.toNat) (hX : (x.toNat : ZMod c.p.toNat) = X)
    (hY : (y.toNat : ZMod c.p.toNat) = Y) : Represents c (.affine x y) (.some X Y hXY) := by
  subst hX hY
  exact ⟨hx, hy, hXY, rfl⟩

/-! The adder on two affine points. -/

section
variable {x1 y1 x2 y2 : Word}
  (h1 : (fieldCurve c).toAffine.Nonsingular (x1.toNat : ZMod c.p.toNat) (y1.toNat : ZMod c.p.toNat))
  (h2 : (fieldCurve c).toAffine.Nonsingular (x2.toNat : ZMod c.p.toNat) (y2.toNat : ZMod c.p.toNat))

/-- The mirrored third point on the line of the group law's slope stands for the sum (R86). -/
theorem chordPoint_represents {l : Nat}
    (hopp : ¬((x1.toNat : ZMod c.p.toNat) = x2.toNat ∧ (y1.toNat : ZMod c.p.toNat) = -y2.toNat))
    (hl : (l : ZMod c.p.toNat) = (fieldCurve c).toAffine.slope x1.toNat x2.toNat y1.toNat y2.toNat) :
    Represents c (chordPoint c.pNat l x1.toNat y1.toNat x2.toNat) (.some _ _ h1 + .some _ _ h2) := by
  have hpos : 0 < c.pNat := (Fact.out : Nat.Prime c.p.toNat).pos
  obtain ⟨x3, y3, hpoint, hx3, hy3⟩ := chordPoint_coordinates hpos l x1.toNat y1.toNat x2.toNat
  obtain ⟨hx3lt, hX3⟩ := residue_cast hpos hx3
  obtain ⟨hy3lt, hY3⟩ := residue_cast hpos hy3
  have hX : (x3.toNat : ZMod c.p.toNat) = (fieldCurve c).toAffine.addX x1.toNat x2.toNat l := by
    rw [hX3]
    push_cast
    simp [WeierstrassCurve.Affine.addX, fieldCurve]
  have hY : (y3.toNat : ZMod c.p.toNat) = (fieldCurve c).toAffine.addY x1.toNat x2.toNat y1.toNat l := by
    rw [hY3, WeierstrassCurve.Affine.addY, negY_fieldCurve, WeierstrassCurve.Affine.negAddY, ← hX]
    push_cast
    ring
  rw [hl] at hX hY
  rw [hpoint, WeierstrassCurve.Affine.Point.add_some fun h => hopp ⟨h.1, h.2.trans (negY_fieldCurve _ _)⟩]
  exact represents_affine hx3lt hy3lt hX hY

/-- The slope of the tangent: the quotient of the adder, whose divisor `2·y` is not 0 in the field (R86). -/
theorem slope_tangent {x y : ZMod c.p.toNat} (hy : y ≠ -y) :
    2 * y ≠ 0 ∧ (fieldCurve c).toAffine.slope x x y y * (2 * y) = 3 * x ^ 2 + c.a.toNat := by
  have hdouble : y + y ≠ 0 := by rwa [Ne, add_eq_zero_iff_eq_neg]
  have hneg : y ≠ (fieldCurve c).toAffine.negY x y := by rwa [negY_fieldCurve]
  rw [two_mul, WeierstrassCurve.Affine.slope_of_Y_ne rfl hneg, negY_fieldCurve, sub_neg_eq_add, div_mul_cancel₀ _ hdouble]
  exact ⟨hdouble, by simp [fieldCurve]⟩

/-- The slope of the secant: the quotient of the adder, with both differences negated (R86). -/
theorem slope_secant {X1 X2 Y1 Y2 : ZMod c.p.toNat} (hX : X1 ≠ X2) :
    X2 - X1 ≠ 0 ∧ (fieldCurve c).toAffine.slope X1 X2 Y1 Y2 * (X2 - X1) = Y2 - Y1 := by
  have hdiff := sub_ne_zero.mpr hX.symm
  rw [WeierstrassCurve.Affine.slope_of_X_ne hX, ← neg_sub Y2, ← neg_sub X2, neg_div_neg_eq, div_mul_cancel₀ _ hdiff]
  exact ⟨hdiff, rfl⟩

variable (hx1 : x1.toNat < c.p.toNat) (hy1 : y1.toNat < c.p.toNat) (hx2 : x2.toNat < c.p.toNat) (hy2 : y2.toNat < c.p.toNat)
include h1 h2 hx1 hy1 hx2 hy2

/-- The slope of the group law is the quotient of the adder: operands with one abscissa that are not opposite are equal. -/
theorem slope_mul_slopeDivisor
    (hopp : ¬((x1.toNat : ZMod c.p.toNat) = x2.toNat ∧ (y1.toNat : ZMod c.p.toNat) = -y2.toNat)) :
    ((slopeDivisor x1 y1 x2 y2 : Int) : ZMod c.p.toNat) ≠ 0 ∧
      (fieldCurve c).toAffine.slope (x1.toNat : ZMod c.p.toNat) x2.toNat y1.toNat y2.toNat *
        (slopeDivisor x1 y1 x2 y2 : Int) = (slopeNumerator c x1 y1 x2 y2 : Int) := by
  unfold slopeDivisor slopeNumerator
  by_cases hx : x1 = x2
  · subst hx
    have hneg : (y1.toNat : ZMod c.p.toNat) ≠ -y2.toNat := fun hy => hopp ⟨rfl, hy⟩
    have hy : y1 = y2 := BitVec.eq_of_toNat_eq <| (cast_eq_cast_iff hy1 hy2).mp <|
      WeierstrassCurve.Affine.Y_eq_of_Y_ne h1.left h2.left rfl
        ((negY_fieldCurve (c := c) x1.toNat y2.toNat).symm ▸ hneg)
    subst hy
    rw [if_pos ⟨rfl, rfl⟩, if_pos ⟨rfl, rfl⟩]
    push_cast
    exact slope_tangent hneg
  · have hX : (x1.toNat : ZMod c.p.toNat) ≠ x2.toNat := fun h =>
      hx (BitVec.eq_of_toNat_eq ((cast_eq_cast_iff hx1 hx2).mp h))
    rw [if_neg fun h => hx h.1, if_neg fun h => hx h.1]
    push_cast
    exact slope_secant hX

theorem paddF_affine_represents : ∃ Q, paddF c (.affine x1 y1) (.affine x2 y2) = .ok Q ∧
    Represents c Q (.some _ _ h1 + .some _ _ h2) := by
  have hprime : Nat.Prime c.p.toNat := Fact.out
  by_cases hopp : (x1.toNat : ZMod c.p.toNat) = x2.toNat ∧ (y1.toNat : ZMod c.p.toNat) = -y2.toNat
  · obtain ⟨hX, hY⟩ := hopp
    refine ⟨.inf, paddF_opposite hprime.pos
      ⟨BitVec.eq_of_toNat_eq ((cast_eq_cast_iff hx1 hx2).mp hX), (eq_neg_iff hy1).mp hY⟩, ?_⟩
    exact WeierstrassCurve.Affine.Point.add_of_Y_eq hX (hY.trans (negY_fieldCurve _ _).symm)
  · obtain ⟨hdivisor, hslope⟩ := slope_mul_slopeDivisor h1 h2 hx1 hy1 hx2 hy2 hopp
    have hv : slopeDivisor x1 y1 x2 y2 % c.pNat ≠ 0 := fun h =>
      hdivisor ((ZMod.intCast_zmod_eq_zero_iff_dvd _ _).mpr (Int.dvd_of_emod_eq_zero h))
    have hne : ¬(x1 = x2 ∧ (y1.toNat : Int) = ((c.pNat : Int) - y2.toNat) % c.pNat) := fun h =>
      hopp ⟨by rw [h.1], (eq_neg_iff hy1).mpr h.2⟩
    obtain ⟨l, hl, -, hsum⟩ := paddF_slope hprime.pos hne hv
    obtain ⟨hmul, -⟩ := divide_mul hprime c.p.isLt hl
    exact ⟨_, hsum, chordPoint_represents h1 h2 hopp (mul_right_cancel₀ hdivisor (hmul.trans hslope.symm))⟩

end

/-! The adder and the ladder. -/

/-- The adder on operands that stand for points gives what stands for their sum (R86). -/
theorem paddF_represents {q1 q2 : Point} {g h : (fieldCurve c).toAffine.Point} (h1 : Represents c q1 g)
    (h2 : Represents c q2 h) : ∃ Q, paddF c q1 q2 = .ok Q ∧ Represents c Q (g + h) := by
  match q1, q2 with
  | .inf, q2 =>
    have hg : g = 0 := h1
    exact ⟨q2, by rw [paddF], by rwa [hg, zero_add]⟩
  | .affine x y, .inf =>
    have hh : h = 0 := h2
    exact ⟨.affine x y, by rw [paddF], by rwa [hh, add_zero]⟩
  | .affine x1 y1, .affine x2 y2 =>
    obtain ⟨hx1, hy1, hns1, rfl⟩ := h1
    obtain ⟨hx2, hy2, hns2, rfl⟩ := h2
    exact paddF_affine_represents hns1 hns2 hx1 hy1 hx2 hy2

/-- After `j` bits the accumulator stands for the multiple by the scalar's upper `j` bits (R87). -/
theorem ladder_represents {q : Point} {g : (fieldCurve c).toAffine.Point} (hq : Represents c q g) {k : Nat}
    (hk : k < 2 ^ 256) {j : Nat} (hj : j ≤ 256) :
    ∃ Q, ladder c q k j = .ok Q ∧ Represents c Q ((k / 2 ^ (256 - j)) • g) := by
  induction j with
  | zero => exact ⟨.inf, rfl, by rw [Nat.div_eq_of_lt hk, zero_nsmul]; rfl⟩
  | succ j ih =>
    obtain ⟨acc, hacc, hrep⟩ := ih (by omega)
    have hhalf : k / 2 ^ (256 - j) = k / 2 ^ (255 - j) / 2 := by
      rw [Nat.div_div_eq_div_mul, ← pow_succ, show 255 - j + 1 = 256 - j by omega]
    rw [hhalf] at hrep
    rw [show 256 - (j + 1) = 255 - j by omega]
    obtain ⟨doubled, hdoubled, hrep2⟩ := paddF_represents hrep hrep
    rw [ladder, hacc, ok_bind, hdoubled, ok_bind]
    rw [← add_nsmul] at hrep2
    generalize k / 2 ^ (255 - j) = m at hrep2 ⊢
    split
    · obtain ⟨Q, hQ, hrep3⟩ := paddF_represents hrep2 hq
      rw [← succ_nsmul, show m / 2 + m / 2 + 1 = m by omega] at hrep3
      exact ⟨Q, hQ, hrep3⟩
    · rw [show m / 2 + m / 2 = m by omega] at hrep2
      exact ⟨doubled, rfl, hrep2⟩

end

/-- Settles O58: the adder is the addition of the group. -/
theorem paddIsGroupAddition : Obligations.PaddIsGroupAddition := by
  intro d a b s _ g h hp ha hb
  obtain ⟨Q, hsum, hQ⟩ := paddF_represents ha hb
  exact completesOk_writesPoint (exec_writesPoint_of_valid (exec_padd_eq_writesPoint d a b s) hp) hsum
    fun t ht => ht ▸ hQ

/-- Settles O59: the ladder over all bits stands for the multiple by the scalar. -/
theorem pmulIsScalarMultiplication : Obligations.PmulIsScalarMultiplication := by
  intro d a b s _ g hp hn hk ha
  obtain ⟨Q, hladder, hQ⟩ := ladder_represents ha (s.reg b).isLt le_rfl
  rw [Nat.sub_self, pow_zero, Nat.div_one] at hQ
  exact completesOk_writesPoint (exec_pmul_of_valid hp hn hk d a) hladder fun t ht => ht ▸ hQ

end Sys2Proof.Machine
end

section
/-! What NONCE and SIGN share at a candidate: the response used, and what each verdict on the candidate does
(spec/43_ecdsa.md R102-R104, spec/60_exceptions.md R121, R122); and NONCE. -/

namespace Sys2Proof.Machine

/-! The responses as integers. -/

/-- The bytes on the lanes of a response, as a big-endian integer (R121, R122). -/
theorem intOf_laneBytes (count : Nat) {width : Nat} (data : BitVec width) :
    intOf (laneBytes count data.toNat) = bigEndian count fun i => data.extractLsb' (8 * i) 8 := by
  have hlane (i : Nat) : BitVec.ofNat 8 (data.toNat / 2 ^ (8 * i)) = data.extractLsb' (8 * i) 8 := by
    rw [BitVec.extractLsb', Nat.shiftRight_eq_div_pow]
  rw [laneBytes, intOf_map]
  simp only [hlane]

/-- A response of the HMAC unit is the word of its big-endian value (R121). -/
theorem hmacWord_eq_word (data : BitVec 256) : hmacWord data = word (hmacValue data) := by
  rw [hmacWord, intOf_laneBytes, hmacValue]

theorem bigEndian_lt (n : Nat) (f : Nat → Byte) : bigEndian n f < 256 ^ n := by
  induction n generalizing f with
  | zero => simp [bigEndian]
  | succ n ih =>
    have hlead := (f 0).isLt
    have hrest := ih fun i => f (i + 1)
    rw [bigEndian_succ, pow_succ]
    nlinarith

theorem hmacValue_lt (data : BitVec 256) : hmacValue data < 2 ^ 256 :=
  (bigEndian_lt 32 _).trans_eq (by norm_num)

theorem hmacWord_toNat (data : BitVec 256) : (hmacWord data).toNat = hmacValue data := by
  rw [hmacWord_eq_word, word_toNat (hmacValue_lt data)]

/-- The model's initial `V` is the string of R102. -/
theorem drbgV0_eq_initialV : drbgV0 = initialV := by decide +kernel

/-! The state in which the response has been used. -/

/-- The candidate `k` has been taken from the port of the mode; in deterministic mode it is also the new `V` (R102). -/
def State.usedResponse (s : State) (det : Bool) (k : Nat) : State :=
  if det then { s with hmacPort := .idle, drbgV := word k } else { s with rngPort := .idle }

section
variable (s : State) (det : Bool) (k : Nat)

theorem State.usedResponse_det : s.usedResponse true k = { s with hmacPort := .idle, drbgV := word k } := rfl

theorem State.usedResponse_rnd : s.usedResponse false k = { s with rngPort := .idle } := rfl

@[simp] theorem State.usedResponse_attempt : (s.usedResponse det k).attempt = s.attempt := by cases det <;> rfl

theorem State.usedResponse_frame (ds : List Reg) : Frame ds [] s (s.usedResponse det k) := by
  cases det <;> exact (SameButProgress.progress s _ _ _ _ _ _).frame

theorem State.usedResponse_bufferKept : BufferKept s (s.usedResponse det k) := by
  cases det <;> exact ⟨fun _ => rfl, rfl⟩

theorem State.usedResponse_responseUsed : ResponseUsed det s (s.usedResponse det k) := by
  cases det <;> exact ⟨rfl, rfl⟩

end

/-! The verdicts. -/

/-- The ports of a completed state are those before the register writes. -/
theorem ResponseUsed.complete_setRegs {det : Bool} {s u : State} (h : ResponseUsed det s u) (ws : List (Reg × Word))
    (code : ResultCode) (n : Option Nat) : ResponseUsed det s ((u.setRegs ws).complete code n) := by
  obtain ⟨regs, hregs⟩ := u.setRegs_eq ws
  rw [hregs]
  exact ⟨h.hmacPort, h.rngPort⟩

section
variable {i : Instr} {s : State} {det : Bool} {k : Nat} {v : Verdict}
  (hexec : exec i s = .next ((s.usedResponse det k).judge det v))
include hexec

/-- An accepted candidate completes the command with its writes (R103, R104). -/
theorem completes_of_accepted {ws : List (Reg × Word)} (hv : v = .ok (some ws)) {ds : List Reg} (hw : ∀ w ∈ ws, w.1 ∈ ds)
    (hcount : s.attempt ≤ 1000) :
    ∃ t, exec i s = .next t ∧ Completed .ok t ∧ Frame ds [] s t ∧ BufferKept s t ∧
      (∀ r, t.reg r = ((s.usedResponse det k).setRegs ws).reg r) ∧ t.attempts.toNat = s.attempt ∧ ResponseUsed det s t := by
  rw [hv, State.judge] at hexec
  refine ⟨_, hexec, completed_complete _ _ _, ((s.usedResponse_frame det k ds).setRegs hw).complete _ _,
    ((s.usedResponse_bufferKept det k).setRegs ws).complete _ _, fun _ => rfl, ?_,
    (s.usedResponse_responseUsed det k).complete_setRegs ws _ _⟩
  rw [State.complete_attempts_some, State.usedResponse_attempt, BitVec.toNat_ofNat]
  omega

theorem failsAtCandidate_of_error {e : ResultCode} (hv : v = .error e) (he : e ≠ .ok) (hcount : s.attempt ≤ 1000) :
    FailsAtCandidate det i s e s.attempt := by
  subst hv
  refine failsAtCandidate_of_exec he (by omega) (s.usedResponse_frame det k []) (s.usedResponse_bufferKept det k)
    (s.usedResponse_responseUsed det k) (hexec.trans ?_)
  rw [State.judge, State.usedResponse_attempt]
  rfl

variable (hv : v = .ok none)
include hv

/-- The last attempt that is rejected ends the command with `RETRY_LIMIT` (R103, R104). -/
theorem failsAtCandidate_of_limit (hcount : s.attempt = 1000) : FailsAtCandidate det i s .retryLimit 1000 := by
  subst hv
  refine failsAtCandidate_of_exec (by decide) (by decide) (s.usedResponse_frame det k []) (s.usedResponse_bufferKept det k)
    (s.usedResponse_responseUsed det k) (hexec.trans ?_)
  rw [State.judge, State.nextCandidate, State.usedResponse_attempt, hcount]
  rfl

/-- A rejected attempt below the limit is followed by the next one, which begins with `DRBG_REJECT` or a draw (R102). -/
theorem retries_of_rejected (hfirst : 1 ≤ s.attempt) (hcount : s.attempt < 1000) : exec i s = .next
    { s.usedResponse det k with attempt := s.attempt + 1, stage := if det then .drbg .rejectK else .random } := by
  have hlimit : ¬Config.maxAttempts ≤ s.attempt := not_le.mpr hcount
  have hagain : s.attempt ≠ 0 := by omega
  rw [hexec, hv, State.judge, State.nextCandidate, State.usedResponse_attempt, if_neg hlimit, if_neg hagain]

end

/-! NONCE. -/

section
variable {d a b : Reg} {s : State}

theorem inOpenRange_iff (x n : Nat) : inOpenRange x n = true ↔ 0 < x ∧ x < n := by simp [inOpenRange]

theorem exec_nonce_of_bad (h : BadModulus s.curve.n.toNat) :
    exec (.nonce d a b) s = .next (s.complete .badModulus (some 0)) := by
  simp only [exec, execNonce, State.requireModulus_bad (m := .n) h]
  rfl

variable (h : ¬BadModulus s.curve.n.toNat)
include h

theorem exec_nonce_at_start (hs : s.stage = .start) : exec (.nonce d a b) s = .next s.beginDrbg := by
  simp only [exec, execNonce, State.requireModulus_ok (m := .n) h, hs]

theorem exec_nonce_at_drbg {k : DrbgStep} (hs : s.stage = .drbg k) :
    exec (.nonce d a b) s = .next (s.drbgTurn (s.reg a) (s.reg b) k (nonceTest d s.curve.nNat)) := by
  simp only [exec, execNonce, State.requireModulus_ok (m := .n) h, hs]

end

/-- With the response of `DRBG_NEXT` the engine judges the candidate (R102). -/
theorem State.drbgTurn_next {s : State} {data : BitVec 256} (hp : s.hmacPort = .answered data) (d e : Word)
    (test : Nat → Verdict) :
    s.drbgTurn d e .next test = (s.usedResponse true (hmacValue data)).judge true (test (hmacValue data)) := by
  rw [State.drbgTurn, hp]
  simp only [State.absorb, hmacWord_toNat]
  rw [hmacWord_eq_word, State.usedResponse, if_pos rfl]

/-- Settles O50: NONCE begins the generator unconditionally, and its verdict on a candidate is the range check. -/
theorem nonceJudgesItsCandidates : Obligations.NonceJudgesItsCandidates := by
  refine ⟨refusesOtherWords _, fun d a b s => ⟨encodedBy_commandWord rfl rfl,
    fun h => failsCounting_of_exec (by decide) (by decide) (exec_nonce_of_bad h), fun h =>
    ⟨fun hs => ?_, fun data hs hp hfirst hcount => ?_⟩⟩⟩
  · rw [exec_nonce_at_start h hs, State.beginDrbg, drbgV0_eq_initialV]
  have hexec : exec (.nonce d a b) s = .next ((s.usedResponse true (hmacValue data)).judge true
      (nonceTest d s.curve.nNat (hmacValue data))) := by
    rw [exec_nonce_at_drbg h hs, State.drbgTurn_next hp]
  have hrange := inOpenRange_iff (hmacValue data) s.curve.nNat
  have hreject (hout : ¬(0 < hmacValue data ∧ hmacValue data < s.curve.nNat)) :
      nonceTest d s.curve.nNat (hmacValue data) = .ok none := by
    rw [nonceTest, if_neg (mt hrange.mp hout)]
  refine ⟨fun hin => ?_, fun hout hlt => ?_, fun hout hlast => ?_⟩
  · have hv : nonceTest d s.curve.nNat (hmacValue data) = .ok (some [(d, word (hmacValue data))]) := by
      rw [nonceTest, if_pos (hrange.mpr hin)]
    obtain ⟨t, ht, hcompleted, hframe, hbuffer, hregs, hattempts, hports⟩ :=
      completes_of_accepted hexec hv (ds := [d]) (by simp) hcount
    refine ⟨t, ht, hcompleted, hframe, hbuffer, ?_, hattempts, hports.hmacPort, hports.rngPort⟩
    rw [hregs, State.setRegs, State.setRegs, State.reg_setReg_same, word_toNat (hmacValue_lt data)]
  · refine ⟨word (hmacValue data), word_toNat (hmacValue_lt data), ?_⟩
    rw [retries_of_rejected hexec (hreject hout) hfirst hlt, if_pos rfl, State.usedResponse_det]
  · exact failsAtCandidate_of_limit hexec (hreject hout) hlast

end Sys2Proof.Machine
end

section
/-! SIGN in its two forms and two modes: its checks, its first turn, and the candidate it stands at
(spec/43_ecdsa.md R104, spec/30_encoding.md R57, R58). -/

namespace Sys2Proof.Machine

/-! Both forms as one command. -/

/-- The chain id of SIGN: `R[C]`, or none for the form without one (R104). -/
def State.chainId (s : State) : Instr → Option Nat
  | .signCid _ _ _ c _ => some (s.regNat c)
  | _ => none

section
variable {i : Instr} {d a b : Reg} {det : Bool} {offset : State → Nat} {s : State} (hf : SignForm i d a b det offset)
include hf

theorem SignForm.offset_eq : offset s = recoveryOffset (s.chainId i) := by
  obtain ⟨rfl, rfl⟩ | ⟨c, rfl, rfl⟩ := hf <;> rfl

theorem SignForm.wellFormed_iff : i.wellFormed = true ↔ d.val ≤ 13 := by
  obtain ⟨rfl, -⟩ | ⟨c, rfl, -⟩ := hf <;> exact decide_eq_true_iff

/-- SIGN ends with the error of its checks (R104, R108). -/
theorem SignForm.exec_of_checks_error {e : ResultCode}
    (h : (do requireLegal i; s.requireModuli : Except ResultCode Unit) = .error e) :
    exec i s = .next (s.complete e (some 0)) := by
  obtain ⟨rfl, -⟩ | ⟨c, rfl, -⟩ := hf
  · simp only [exec, execSign, h]; rfl
  · simp only [exec, execSignCid, h]; rfl

/-- With its checks passed SIGN takes a turn at its stage (R104). -/
theorem SignForm.exec_of_checks_ok (h : (do requireLegal i; s.requireModuli : Except ResultCode Unit) = .ok ()) :
    exec i s = .next (s.signTurn d (s.reg a) (s.reg b) (s.chainId i) det) := by
  obtain ⟨rfl, -⟩ | ⟨c, rfl, -⟩ := hf
  · simp only [exec, execSign, h]; rfl
  · simp only [exec, execSignCid, h]; rfl

variable (hd : d.val ≤ 13)
include hd

theorem SignForm.exec_of_bad (h : BadModulus s.curve.p.toNat ∨ BadModulus s.curve.n.toNat) :
    exec i s = .next (s.complete .badModulus (some 0)) :=
  hf.exec_of_checks_error (by rw [requireLegal, hf.wellFormed_iff.mpr hd, require_true, ok_bind, State.requireModuli_bad h])

variable (hp : ¬BadModulus s.curve.p.toNat) (hn : ¬BadModulus s.curve.n.toNat)
include hp hn

theorem SignForm.exec_of_valid : exec i s = .next (s.signTurn d (s.reg a) (s.reg b) (s.chainId i) det) :=
  hf.exec_of_checks_ok (by rw [requireLegal, hf.wellFormed_iff.mpr hd, require_true, ok_bind, State.requireModuli_ok hp hn])

/-! The first turn. -/

variable (hs : s.stage = .start)
include hs

theorem SignForm.exec_of_bad_key (hkey : ¬(0 < (s.reg a).toNat ∧ (s.reg a).toNat < s.curve.n.toNat)) :
    exec i s = .next (s.complete .invalidPrivateKey (some 0)) := by
  rw [hf.exec_of_valid hd hp hn, State.signTurn, hs]
  simp only
  rw [if_neg (mt (inOpenRange_iff _ _).mp hkey), State.fail_eq_complete]

theorem SignForm.exec_at_start (hkey : 0 < (s.reg a).toNat ∧ (s.reg a).toNat < s.curve.n.toNat) :
    exec i s = .next (if det then s.beginDrbg else s.beginRandom) := by
  rw [hf.exec_of_valid hd hp hn, State.signTurn, hs]
  simp only
  rw [if_pos ((inOpenRange_iff _ _).mpr hkey)]

end

/-- The first draw is the first attempt (R104). -/
theorem State.beginRandom_eq (s : State) : s.beginRandom = { s with attempt := 1, stage := .random } := rfl

/-- Settles O51: both forms check the moduli, then the key, and begin the mode of their flag. -/
theorem signChecksItsKeyThenBegins : Obligations.SignChecksItsKeyThenBegins := by
  refine ⟨refusesOtherWords _, fun d a b c det hd => ?_, fun i d a b det offset s hf hd =>
    ⟨fun h => failsCounting_of_exec (by decide) (by decide) (hf.exec_of_bad hd h), fun hp hn hs =>
    ⟨fun hkey => failsCounting_of_exec (by decide) (by decide) (hf.exec_of_bad_key hd hp hn hs hkey), fun hkey => ?_⟩⟩⟩
  · have hwf := decide_eq_true hd
    cases det <;> exact ⟨encodedBy_commandWord hwf rfl, encodedBy_commandWord hwf rfl⟩
  · rw [hf.exec_at_start hd hp hn hs hkey, State.beginDrbg, drbgV0_eq_initialV, State.beginRandom_eq]

/-! The candidate SIGN stands at. -/

/-- With the response of a draw the engine judges the candidate (R122). -/
theorem State.randomTurn_answered {s : State} {data : BitVec 512} (hp : s.rngPort = .answered data)
    (test : BitVec 512 → Verdict) (k : Nat) : s.randomTurn test = (s.usedResponse false k).judge false (test data) := by
  rw [State.randomTurn, hp, State.usedResponse_rnd]

/-- A draw is judged as the candidate it reduces to; only 0 is outside `(0, n)` (R104). -/
theorem signTestRnd_eq_signTestDet {c : Curve} (hn : 0 < c.nNat) (rd : Reg) (d e : Nat) (chainId : Option Nat)
    (data : BitVec 512) : signTestRnd c rd d e chainId data = signTestDet c rd d e chainId (rngValue data % c.nNat) := by
  rw [signTestRnd, signTestDet, rngInt_eq_rngValue]
  by_cases hzero : rngValue data % c.nNat = 0
  · rw [if_pos hzero, if_neg (by simp [inOpenRange, hzero])]
  · rw [if_neg hzero, if_pos ((inOpenRange_iff _ _).mpr ⟨Nat.pos_of_ne_zero hzero, Nat.mod_lt _ hn⟩)]

/-- The verdict of SIGN on the candidate `k`, in both modes (R104). -/
def State.signVerdict (s : State) (i : Instr) (d a b : Reg) (k : Nat) : Verdict :=
  signTestDet s.curve d (s.regNat a) (s.regNat b) (s.chainId i) k

/-- A turn of SIGN at an arrived candidate uses the response and judges the candidate (R104). -/
theorem SignForm.exec_at_candidate {i : Instr} {d a b : Reg} {det : Bool} {offset : State → Nat} {s : State} {k : Nat}
    (hf : SignForm i d a b det offset) (hd : d.val ≤ 13) (hp : ¬BadModulus s.curve.p.toNat)
    (hn : ¬BadModulus s.curve.n.toNat) (hk : CandidateArrived s det k) :
    exec i s = .next ((s.usedResponse det k).judge det (s.signVerdict i d a b k)) := by
  rw [hf.exec_of_valid hd hp hn, State.signTurn, State.signVerdict]
  obtain ⟨rfl, hs, data, hport, hk⟩ | ⟨rfl, hs, data, hport, hk⟩ := hk
  · simp only [hs, if_true]
    rw [State.drbgTurn_next hport, hk]
  · simp only [hs, Bool.false_eq_true, if_false]
    rw [State.randomTurn_answered hport _ k, signTestRnd_eq_signTestDet (pos_of_not_bad hn), hk]

end Sys2Proof.Machine
end

section
/-! What SIGN computes from one candidate, and its ends at a candidate (spec/43_ecdsa.md R104). -/

namespace Sys2Proof.Machine

/-! The inverse, from what it satisfies. -/

/-- The unit finds the inverse that a relation names, since there is only one below the modulus (R78). -/
theorem inverse_eq_ok {m a x : Nat} (hm : 1 < m) (hlt : m < 2 ^ 256) (hx : x < m) (h : a * x % m = 1) :
    inverse m a = .ok x := by
  have hone : a * x ≡ 1 [MOD m] := h.trans (Nat.mod_eq_of_lt hm).symm
  have hgcd : Nat.gcd a m = 1 := by
    have hdvd : Nat.gcd a m ∣ 1 :=
      (hone.dvd_iff (Nat.gcd_dvd_right a m)).mp ((Nat.gcd_dvd_left a m).mul_right x)
    exact Nat.dvd_one.mp hdvd
  obtain ⟨y, hy, hylt, hay⟩ := inverse_of_coprime hm hlt.le ((gcd_mod_eq_gcd a m).trans hgcd)
  have hsame : a * y ≡ a * x [MOD m] := hay.trans h.symm
  rw [hy, (Nat.ModEq.cancel_left_of_coprime (by rwa [Nat.gcd_comm]) hsame).eq_of_lt_of_lt hylt hx]

theorem inverse_eq_error {m a : Nat} (hm : 0 < m) (hlt : m < 2 ^ 256) (h : Nat.gcd a m ≠ 1) :
    inverse m a = .error .noInverse :=
  inverse_of_not_coprime hm hlt.le (by rwa [gcd_mod_eq_gcd])

/-! The computation, branch by branch. -/

theorem lowS_eq (n s v : Nat) :
    lowS n s v = (if n / 2 < s then n - s else s, v ^^^ if n / 2 < s then 1 else 0) := by
  unfold lowS
  split <;> simp

section
variable {c : Curve} {d e k : Nat} {chainId : Option Nat}

theorem signCandidate_of_error {err : ResultCode} (hk : pmulF c c.g k = .error err) :
    signCandidate c d e k chainId = .error err := by
  rw [signCandidate, hk, error_bind]

theorem signCandidate_of_inf (hk : pmulF c c.g k = .ok .inf) : signCandidate c d e k chainId = .ok none := by
  rw [signCandidate, hk, ok_bind]
  rfl

variable {x y : Word} (hk : pmulF c c.g k = .ok (.affine x y))
include hk

theorem signCandidate_of_zero_r (hr : x.toNat % c.nNat = 0) : signCandidate c d e k chainId = .ok none := by
  rw [signCandidate, hk, ok_bind]
  simp only
  rw [if_pos hr]
  rfl

variable (hr : x.toNat % c.nNat ≠ 0)
include hr

theorem signCandidate_of_no_inverse {err : ResultCode} (hinv : inverse c.nNat k = .error err) :
    signCandidate c d e k chainId = .error err := by
  rw [signCandidate, hk, ok_bind]
  simp only
  rw [if_neg hr, hinv, error_bind]

variable {kinv : Nat} (hinv : inverse c.nNat k = .ok kinv)
include hinv

theorem signCandidate_of_zero_s (hs : kinv * (e + d * (x.toNat % c.nNat)) % c.nNat = 0) :
    signCandidate c d e k chainId = .ok none := by
  rw [signCandidate, hk, ok_bind]
  simp only
  rw [if_neg hr, hinv, ok_bind, if_pos hs]
  rfl

/-- The last check is the range of the recovery id (R104). -/
theorem signCandidate_of_signature (hs : kinv * (e + d * (x.toNat % c.nNat)) % c.nNat ≠ 0) {low : Nat × Nat}
    (hlow : low = lowS c.nNat (kinv * (e + d * (x.toNat % c.nNat)) % c.nNat)
      (y.toNat % 2 + if x.toNat ≠ x.toNat % c.nNat then 2 else 0)) :
    signCandidate c d e k chainId = (do
      require (decide (low.2 + recoveryOffset chainId < 2 ^ 256)) .chainidRange
      .ok (some (x.toNat % c.nNat, low.1, low.2 + recoveryOffset chainId))) := by
  subst hlow
  rw [signCandidate, hk, ok_bind]
  simp only
  rw [if_neg hr, hinv, ok_bind, if_neg hs]
  rfl

end

/-! The relation the claims use. -/

section
variable {c : Curve} {d e k : Nat} {chainId : Option Nat} (hn : ¬BadModulus c.n.toNat)
include hn

/-- A signature in the relation is the one the unit computes, up to the range of its recovery id (R104). -/
theorem signCandidate_of_signsWith {r σ v : Nat} (h : SignsWith c d e k (recoveryOffset chainId) r σ v) :
    signCandidate c d e k chainId = (do
      require (decide (v < 2 ^ 256)) .chainidRange
      .ok (some (r, σ, v))) := by
  obtain ⟨x, y, kinv, s0, hk, rfl, hr, hlt, hinv, rfl, hs, rfl, rfl⟩ := h
  rw [signCandidate_of_signature hk hr (inverse_eq_ok (one_lt_of_not_bad hn) c.n.isLt hlt hinv) hs rfl, lowS_eq]

/-- The parts of a signature in the relation fit their registers and `r`, `s` lie below `n`. -/
theorem signsWith_lt {offset r σ v : Nat} (h : SignsWith c d e k offset r σ v) : r < c.n.toNat ∧ σ < c.n.toNat := by
  obtain ⟨x, y, kinv, s0, -, rfl, -, -, -, rfl, -, rfl, -⟩ := h
  have hpos := pos_of_not_bad hn
  have hs := Nat.mod_lt (kinv * (e + d * (x.toNat % c.n.toNat))) hpos
  exact ⟨Nat.mod_lt _ hpos, by split <;> omega⟩

variable (rd : Reg)

/-- The verdict on a candidate the rule rejects (R104). -/
theorem signTestDet_of_rejected (h : Rejected c d e k) : signTestDet c rd d e chainId k = .ok none := by
  unfold signTestDet
  split
  · rename_i hopen
    have hcandidate : signCandidate c d e k chainId = .ok none := by
      obtain hout | hinf | ⟨x, y, hk, hzero⟩ := h
      · exact absurd ((inOpenRange_iff _ _).mp hopen) hout
      · exact signCandidate_of_inf hinf
      · by_cases hr : x.toNat % c.n.toNat = 0
        · exact signCandidate_of_zero_r hk hr
        · obtain ⟨kinv, hlt, hinv, hs⟩ := hzero.resolve_left hr
          exact signCandidate_of_zero_s hk hr (inverse_eq_ok (one_lt_of_not_bad hn) c.n.isLt hlt hinv) hs
    rw [hcandidate, signWrites]
  · rfl

end

/-- A candidate in `(0, n)` is judged by the computation (R104). -/
theorem signTestDet_of_open {c : Curve} {k : Nat} (hpos : 0 < k) (hlt : k < c.n.toNat) (rd : Reg) (d e : Nat)
    (chainId : Option Nat) : signTestDet c rd d e chainId k = signWrites rd (signCandidate c d e k chainId) := by
  rw [signTestDet, if_pos ((inOpenRange_iff _ _).mpr ⟨hpos, hlt⟩)]

/-! The ends of SIGN at a candidate. -/

/-- The registers of a result group after its writes (R17, R104). -/
theorem State.reg_setRegs_group {d : Reg} (hd : d.val ≤ 13) (s : State) (x y z : Word) :
    (s.setRegs [(d, x), (regUp d 1, y), (regUp d 2, z)]).reg d = x ∧
      (s.setRegs [(d, x), (regUp d 1, y), (regUp d 2, z)]).reg (regUp d 1) = y ∧
      (s.setRegs [(d, x), (regUp d 1, y), (regUp d 2, z)]).reg (regUp d 2) = z := by
  have h1 := regUp_val_of_le (r := d) (k := 1) (by omega)
  have h2 := regUp_val_of_le (r := d) (k := 2) (by omega)
  have h10 : regUp d 1 ≠ d := fun h => by rw [h] at h1; omega
  have h20 : regUp d 2 ≠ d := fun h => by rw [h] at h2; omega
  have h21 : regUp d 2 ≠ regUp d 1 := fun h => by rw [h] at h2; omega
  simp only [State.setRegs, State.reg_setReg_same]
  rw [State.reg_setReg_other _ _ h20, State.reg_setReg_other _ _ h10, State.reg_setReg_other _ _ h21]
  exact ⟨State.reg_setReg_same _ _ _, State.reg_setReg_same _ _ _, trivial⟩

/-- Settles O52: the verdict on the candidate is its signature, and the accepted writes reach the result group. -/
theorem signWritesTheSignatureOfItsCandidate : Obligations.SignWritesTheSignatureOfItsCandidate := by
  intro i d a b det offset s k r σ v hf hd hp hn hcount harrived hpos hlt hsigns hv
  obtain ⟨hr, hσ⟩ := signsWith_lt hn hsigns
  rw [hf.offset_eq] at hsigns
  have hverdict : s.signVerdict i d a b k = .ok (some [(d, word r), (regUp d 1, word σ), (regUp d 2, word v)]) := by
    rw [State.signVerdict, signTestDet_of_open hpos hlt, signCandidate_of_signsWith hn hsigns, decide_eq_true hv,
      require_true, ok_bind, signWrites]
  obtain ⟨t, hexec, hcompleted, hframe, hbuffer, hregs, hattempts, hports⟩ :=
    completes_of_accepted (hf.exec_at_candidate hd hp hn harrived) hverdict (ds := [d, regUp d 1, regUp d 2]) (by simp) hcount
  obtain ⟨h0, h1, h2⟩ := State.reg_setRegs_group hd (s.usedResponse det k) (word r) (word σ) (word v)
  refine ⟨t, hexec, hcompleted, hframe, hbuffer, ?_, ?_, ?_, hattempts, hports⟩
  · rw [hregs, h0, word_toNat (hr.trans s.curve.n.isLt)]
  · rw [hregs, h1, word_toNat (hσ.trans s.curve.n.isLt)]
  · rw [hregs, h2, word_toNat hv]

/-- Settles O53: each rejection and each error is a verdict, and the verdict decides how the turn ends. -/
theorem signRetriesOrReportsItsErrors : Obligations.SignRetriesOrReportsItsErrors := by
  intro i d a b det offset s k hf hd hp hn hfirst hcount harrived
  have hexec := hf.exec_at_candidate hd hp hn harrived
  have hfails {e : ResultCode} (hpos : 0 < k) (hlt : k < s.curve.n.toNat) (he : e ≠ .ok)
      (hcandidate : signCandidate s.curve (s.regNat a) (s.regNat b) k (s.chainId i) = .error e) :
      FailsAtCandidate det i s e s.attempt := by
    refine failsAtCandidate_of_error hexec ?_ he hcount
    rw [State.signVerdict, signTestDet_of_open hpos hlt, hcandidate, signWrites]
  refine ⟨fun hrejected => ?_, fun hpos hlt => ⟨fun e he => ?_, fun x y hk hr hgcd => ?_, fun r σ v hsigns hv => ?_⟩⟩
  · have hverdict : s.signVerdict i d a b k = .ok none := signTestDet_of_rejected hn d hrejected
    refine ⟨fun hlt => ?_, failsAtCandidate_of_limit hexec hverdict⟩
    have hretry := retries_of_rejected hexec hverdict hfirst hlt
    obtain ⟨rfl, -, data, -, hk⟩ | ⟨rfl, -⟩ := harrived
    · refine ⟨word k, word_toNat (hk ▸ hmacValue_lt data), ?_⟩
      rw [hretry, if_pos rfl, State.usedResponse_det]
    · rw [if_neg Bool.false_ne_true, hretry, if_neg Bool.false_ne_true, State.usedResponse_rnd]
  · exact hfails hpos hlt (pmulF_clean _ _ _ e he).1 (signCandidate_of_error he)
  · exact hfails hpos hlt (by decide)
      (signCandidate_of_no_inverse hk hr (inverse_eq_error (pos_of_not_bad hn) s.curve.n.isLt hgcd))
  · rw [hf.offset_eq] at hsigns
    refine hfails hpos hlt (by decide) ?_
    rw [signCandidate_of_signsWith hn hsigns, decide_eq_false (not_lt.mpr hv), require_false, error_bind]

end Sys2Proof.Machine
end

section
/-! Every completed signature: which turns of SIGN complete with `OK`, and the bounds of what they write
(spec/43_ecdsa.md R104, corner cases). -/

namespace Sys2Proof.Machine

/-! Turns that complete with `OK`. -/

/-- The command has completed with `OK` (R113). -/
structure State.Succeeded (t : State) : Prop where
  idle : t.status.busy = false
  ok : t.errcode = .ok

/-- The state `t` is the completion of an accepted verdict of `test`, which wrote the registers it names (R103, R104). -/
def AcceptedBy {α : Type} (test : α → Verdict) (t : State) : Prop :=
  ∃ k ws u n, test k = .ok (some ws) ∧ t = (State.setRegs u ws).complete .ok n

section
variable {s : State} (hb : s.status.busy = true)
include hb

theorem State.not_succeeded_of_busy : ¬s.Succeeded := fun h => by
  rw [h.idle] at hb
  cases hb

theorem State.nextCandidate_not_succeeded (det : Bool) : ¬(s.nextCandidate det).Succeeded := by
  unfold State.nextCandidate
  split
  · exact fun h => by cases h.ok
  · exact State.not_succeeded_of_busy hb

theorem State.judge_succeeded {α : Type} {test : α → Verdict} {k : α} (hclean : Clean (test k)) {det : Bool}
    (h : (s.judge det (test k)).Succeeded) : AcceptedBy test (s.judge det (test k)) := by
  match hv : test k with
  | .error e =>
    rw [hv] at h
    exact absurd h.ok (hclean e hv).1
  | .ok none =>
    rw [hv] at h
    exact absurd h (State.nextCandidate_not_succeeded hb det)
  | .ok (some ws) => exact ⟨k, ws, s, some s.attempt, hv, rfl⟩

theorem State.drbgTurn_succeeded {test : Nat → Verdict} (hclean : ∀ k, Clean (test k)) {d e : Word} {step : DrbgStep}
    (h : (s.drbgTurn d e step test).Succeeded) : AcceptedBy test (s.drbgTurn d e step test) := by
  rw [State.drbgTurn] at h ⊢
  cases hport : s.hmacPort with
  | idle | presented | outstanding =>
    rw [hport] at h
    exact absurd h (State.not_succeeded_of_busy (by exact hb))
  | answered data =>
    rw [hport] at h
    cases step with
    | next => exact State.judge_succeeded (s := { s with hmacPort := .idle, drbgV := hmacWord data }) hb (hclean _) h
    | initV1 => exact absurd h (State.nextCandidate_not_succeeded (by exact hb) _)
    | initK0 | initV0 | initK1 | rejectK | rejectV => exact absurd h (State.not_succeeded_of_busy (by exact hb))

theorem State.randomTurn_succeeded {test : BitVec 512 → Verdict} (hclean : ∀ x, Clean (test x))
    (h : (s.randomTurn test).Succeeded) : AcceptedBy test (s.randomTurn test) := by
  rw [State.randomTurn] at h ⊢
  cases hport : s.rngPort with
  | idle | requested =>
    rw [hport] at h
    exact absurd h (State.not_succeeded_of_busy (by exact hb))
  | answered data =>
    rw [hport] at h
    exact State.judge_succeeded (s := { s with rngPort := .idle }) hb (hclean data) h

end

/-! The verdicts of SIGN. -/

theorem signTestDet_clean (c : Curve) (rd : Reg) (d e : Nat) (chainId : Option Nat) (k : Nat) :
    Clean (signTestDet c rd d e chainId k) := by
  intro err herr
  have hwithin := signTestDet_within c rd d e chainId k
  rw [herr] at hwithin
  exact hwithin

/-- A turn of SIGN that completes with `OK` has accepted the verdict on a candidate (R104). -/
theorem State.signTurn_succeeded {s : State} (hb : s.status.busy = true) (hn : 0 < s.curve.nNat) {rd : Reg} {d e : Word}
    {chainId : Option Nat} {det : Bool} (h : (s.signTurn rd d e chainId det).Succeeded) :
    AcceptedBy (signTestDet s.curve rd d.toNat e.toNat chainId) (s.signTurn rd d e chainId det) := by
  unfold State.signTurn at h ⊢
  split at h
  · split at h
    · refine absurd h ?_
      cases det with
      | true => exact State.not_succeeded_of_busy (s := s.beginDrbg) hb
      | false => exact State.nextCandidate_not_succeeded (s := { s with attempt := 0 }) hb false
    · cases h.ok
  · cases det with
    | true => exact State.drbgTurn_succeeded hb (signTestDet_clean s.curve rd _ _ chainId) h
    | false => exact absurd h (State.not_succeeded_of_busy hb)
  · cases det with
    | true => exact absurd h (State.not_succeeded_of_busy hb)
    | false =>
      have htest (x : BitVec 512) := signTestRnd_eq_signTestDet hn rd d.toNat e.toNat chainId x
      obtain ⟨data, ws, u, n, hv, ht⟩ := State.randomTurn_succeeded hb
        (fun x => htest x ▸ signTestDet_clean s.curve rd _ _ chainId _) h
      exact ⟨_, ws, u, n, (htest data).symm.trans hv, ht⟩

/-! The bounds. -/

/-- A signature with its recovery-id offset, as the corner cases of R104 bound it. -/
structure LowS (n offset r σ v : Nat) : Prop where
  rPos : 0 < r
  rLt : r < n
  σPos : 0 < σ
  σLe : σ ≤ n / 2
  vGe : offset ≤ v
  vLe : v ≤ offset + 3
  vLt : v < 2 ^ 256

/-- The two raw recovery bits, one of them flipped or not, are at most 3 (R104). -/
theorem recoveryBits_le (y : Nat) (second flip : Prop) [Decidable second] [Decidable flip] :
    (y % 2 + if second then 2 else 0) ^^^ (if flip then 1 else 0) ≤ 3 := by
  have hraw : (y % 2 + if second then 2 else 0) < 2 ^ 2 := by split <;> omega
  have hflip : (if flip then 1 else 0) < 2 ^ 2 := by split <;> omega
  exact Nat.le_of_lt_succ (Nat.xor_lt_two_pow hraw hflip)

theorem signCandidate_lowS {c : Curve} (hn : 0 < c.nNat) (d e k : Nat) (chainId : Option Nat) :
    Gives (fun o => ∀ r σ v, o = some (r, σ, v) → LowS c.nNat (recoveryOffset chainId) r σ v)
      (signCandidate c d e k chainId) := by
  refine .after fun Q => ?_
  cases Q with
  | inf => exact .ok fun r σ v h => by cases h
  | affine x y =>
    refine .ite (fun _ => .ok fun r σ v h => by cases h) fun hr => .after fun kinv => .ite
      (fun _ => .ok fun r σ v h => by cases h) fun hs => .bind .require fun _ hv => .ok ?_
    rintro r σ v ⟨⟩
    have hslt := Nat.mod_lt (kinv * (e + d * (x.toNat % c.nNat))) hn
    rw [decide_eq_true_iff] at hv
    rw [lowS_eq] at hv ⊢
    have hbits := recoveryBits_le y.toNat (x.toNat ≠ x.toNat % c.nNat)
      (c.nNat / 2 < kinv * (e + d * (x.toNat % c.nNat)) % c.nNat)
    generalize kinv * (e + d * (x.toNat % c.nNat)) % c.nNat = s0 at hslt hs hbits hv ⊢
    refine ⟨Nat.pos_of_ne_zero hr, Nat.mod_lt _ hn, ?_, ?_, Nat.le_add_left _ _, by omega, hv⟩
    · simp only
      split <;> omega
    · simp only
      split <;> omega

/-- The writes of an accepted candidate are those of a low-s signature (R104). -/
theorem lowS_of_signTestDet {c : Curve} (hn : 0 < c.nNat) {rd : Reg} {d e k : Nat} {chainId : Option Nat}
    {ws : List (Reg × Word)} (h : signTestDet c rd d e chainId k = .ok (some ws)) :
    ∃ r σ v, ws = [(rd, word r), (regUp rd 1, word σ), (regUp rd 2, word v)] ∧
      LowS c.nNat (recoveryOffset chainId) r σ v := by
  unfold signTestDet at h
  split at h
  · match hcandidate : signCandidate c d e k chainId with
    | .error err => rw [hcandidate] at h; cases h
    | .ok none => rw [hcandidate] at h; cases h
    | .ok (some (r, σ, v)) =>
      rw [hcandidate] at h
      cases h
      exact ⟨r, σ, v, rfl, signCandidate_lowS hn d e k chainId _ hcandidate r σ v rfl⟩
  · cases h

/-- SIGN completes with `OK` only past its checks (R104, R108). -/
theorem SignForm.checks_of_succeeded {i : Instr} {d a b : Reg} {det : Bool} {offset : State → Nat} {s t : State}
    (hf : SignForm i d a b det offset) (hexec : exec i s = .next t) (h : t.Succeeded) :
    d.val ≤ 13 ∧ ¬BadModulus s.curve.n.toNat ∧ t = s.signTurn d (s.reg a) (s.reg b) (s.chainId i) det := by
  cases hchecks : (do requireLegal i; s.requireModuli : Except ResultCode Unit) with
  | error e =>
    cases (hf.exec_of_checks_error hchecks).symm.trans hexec
    exact absurd h.ok ((Clean.bind (requireLegal_clean _) fun _ _ => s.requireModuli_clean) e hchecks).1
  | ok u =>
    cases (hf.exec_of_checks_ok hchecks).symm.trans hexec
    obtain ⟨_, hlegal, hmoduli⟩ := bind_eq_ok.mp hchecks
    obtain ⟨-, hn⟩ := State.requireModuli_eq_ok.mp hmoduli
    exact ⟨hf.wellFormed_iff.mp (require_eq_ok.mp hlegal), (modulusValid_eq_not_bad _).mp hn, rfl⟩

/-- Settles O54: the completion is that of an accepted candidate, whose signature the computation bounds. -/
theorem signaturesAreLowS : Obligations.SignaturesAreLowS := by
  intro i d a b det offset s t hf hb hexec hidle hok
  have hsucceeded : t.Succeeded := ⟨hidle, hok⟩
  obtain ⟨hd, hn, rfl⟩ := hf.checks_of_succeeded hexec hsucceeded
  have hpos := pos_of_not_bad hn
  obtain ⟨k, ws, u, n, hv, ht⟩ := State.signTurn_succeeded hb hpos hsucceeded
  obtain ⟨r, σ, v, rfl, hlow⟩ := lowS_of_signTestDet hpos hv
  obtain ⟨h0, h1, h2⟩ := State.reg_setRegs_group hd u (word r) (word σ) (word v)
  have hnlt := s.curve.n.isLt
  have hσlt := (hlow.σLe.trans (Nat.div_le_self _ _)).trans_lt hnlt
  rw [ht, State.reg_complete, State.reg_complete, State.reg_complete, h0, h1, h2, hf.offset_eq,
    word_toNat (hlow.rLt.trans hnlt), word_toNat hσlt, word_toNat hlow.vLt]
  exact ⟨hlow.rPos, hlow.rLt, hlow.σPos, hlow.σLe, hlow.vGe, hlow.vLe⟩

end Sys2Proof.Machine
end

section
/-! The HMAC transactions of the generator: one transaction around any request, and the run over those of `DRBG_INIT` and the
first `DRBG_NEXT` (spec/43_ecdsa.md R102, spec/60_exceptions.md R121). -/

namespace Sys2Proof.Machine

/-! Runs and events. -/

theorem run_one (s : State) : core.run 1 s = step s := by
  have hcore : core.step s = step s := rfl
  simp only [Host.Core.run, hcore]
  split <;> simp [*]

theorem run_add {m : Nat} {s t : State} (h : core.run m s = .next t) (n : Nat) : core.run (m + n) s = core.run n t := by
  induction m generalizing s with
  | zero =>
    cases h
    rw [Nat.zero_add]
  | succ m ih =>
    have hcore : core.step s = step s := rfl
    rw [Nat.add_right_comm]
    simp only [Host.Core.run, hcore] at h ⊢
    split at h
    · exact ih h
    · cases h
    · cases h

section
variable {s : State} {rest : List Input}

theorem step_hmacReady (h : s.inputs = .hmacReady :: rest) :
    step s = .next { s with hmacPort := s.hmacPort.ready, inputs := rest } :=
  step_of_settled (by rw [State.nextTurn, h]; rfl)

theorem step_hmacResponse {data : BitVec 256} (h : s.inputs = .hmacResponse data :: rest) :
    step s = .next { s with hmacPort := s.hmacPort.respond data, inputs := rest } :=
  step_of_settled (by rw [State.nextTurn, h]; rfl)

/-- A turn of the engine runs the latched command (R112). -/
theorem step_of_engineNext {i : Instr} (h : s.EngineNext rest) (hd : decode s.cmdLast = .ok i) :
    step s = exec i { s with inputs := rest } := by
  refine step_of_run (h.nextTurn.trans ?_)
  rw [State.engineTurn, if_pos (by simp [h.presetn, h.busy]), hd]

end

/-! A command at an HMAC transaction. -/

/-- `i` with the operands `d` in `R[a]` and `e` in `R[b]` is a running command of the HMAC-DRBG, and its port is free. -/
structure State.ReadyForDrbg (s : State) (i : Instr) (a b : Reg) : Prop where
  presetn : s.presetn = true
  decodes : decode s.cmdLast = .ok i
  operands : drbgOperands i = some (a, b)
  runs : s.RunsDrbg
  idle : s.hmacPort = .idle

/-- Where the generator stands: its transaction, its `K` and `V`, and the attempt (R102). -/
structure Generator where
  step : DrbgStep
  key : Word
  v : Word
  attempt : Nat

/-- The request of the transaction (R102). -/
def Generator.request (g : Generator) (d e : Word) : HmacRequest := drbgRequest g.key g.v d e g.step

/-- The command stands where the generator does, and these events are to come. -/
def State.atDrbg (s : State) (g : Generator) (inputs : List Input) : State :=
  { s with stage := .drbg g.step, drbgK := g.key, drbgV := g.v, attempt := g.attempt, inputs := inputs }

theorem SignForm.exec_at_drbg {i : Instr} {d a b : Reg} {offset : State → Nat} {s : State} {k : DrbgStep}
    (hf : SignForm i d a b true offset) (hd : decode s.cmdLast = .ok i) (hruns : s.RunsDrbg) (hk : s.stage = .drbg k) :
    exec i s = .next (s.drbgTurn (s.reg a) (s.reg b) k (s.signVerdict i d a b)) := by
  have hmoduli : s.requireModuli = .ok () := State.RunsCandidates.requireModuli (det := true) hruns
    fun d' a' b' hn => hf.ne_nonce (Except.ok.inj (hd.symm.trans hn))
  rw [hf.exec_of_checks_ok (by rw [requireLegal, wellFormed_of_decode hd, require_true, ok_bind, hmoduli]), State.signTurn]
  simp only [hk, if_true]
  rfl

/-- A turn of each command of the HMAC-DRBG at a transaction is the same turn, up to its test of candidates (R102). -/
theorem exec_at_drbg {i : Instr} {a b : Reg} {s : State} {k : DrbgStep} (hops : drbgOperands i = some (a, b))
    (hd : decode s.cmdLast = .ok i) (hruns : s.RunsDrbg) (hk : s.stage = .drbg k) :
    ∃ test, exec i s = .next (s.drbgTurn (s.reg a) (s.reg b) k test) := by
  obtain ⟨-, hn, ⟨d, a', b', hi⟩ | ⟨-, ⟨d, a', b', hi⟩ | ⟨d, a', b', c, hi⟩⟩⟩ := id hruns
  all_goals
    cases hd.symm.trans hi
    cases hops
  · exact ⟨_, exec_nonce_at_drbg ((modulusValid_eq_not_bad _).mp hn) hk⟩
  · exact ⟨_, SignForm.exec_at_drbg (.inl ⟨rfl, rfl⟩) hd hruns hk⟩
  · exact ⟨_, SignForm.exec_at_drbg (.inr ⟨c, rfl, rfl⟩) hd hruns hk⟩

/-! One transaction. -/

section
variable {s : State} {i : Instr} {a b : Reg} (h : s.ReadyForDrbg i a b) (hmac : Word → List Byte → Word)
  (g : Generator) (rest : List Input) (req : HmacRequest)
include h

/-- The turn at a response: it is absorbed, as the value of the unit's function on the request (R102, R121). -/
theorem State.ReadyForDrbg.exec_answered :
    ∃ test, exec i { s.atDrbg g rest with hmacPort := .answered (req.answer hmac) } =
      .next ((s.atDrbg g rest).absorb g.step (hmac req.key req.msg) test) := by
  obtain ⟨test, hexec⟩ := exec_at_drbg (s := { s.atDrbg g rest with hmacPort := .answered (req.answer hmac) })
    h.operands h.decodes h.runs rfl
  refine ⟨test, ?_⟩
  rw [hexec, State.drbgTurn]
  simp only [hmacWord_answer]
  rw [State.atDrbg, ← h.idle]

variable {req} (hreq : g.request (s.reg a) (s.reg b) = req)
include hreq

/-- The first turn presents the request of R102. -/
theorem State.ReadyForDrbg.step_sends :
    step (s.atDrbg g (hmacTransaction hmac req ++ rest)) = .next { s.atDrbg g
      (.hmacReady :: .hmacResponse (req.answer hmac) :: .turn :: rest) with hmacPort := .presented req true } := by
  have hnext : (s.atDrbg g (hmacTransaction hmac req ++ rest)).EngineNext
      (.hmacReady :: .hmacResponse (req.answer hmac) :: .turn :: rest) := ⟨h.presetn, h.runs.1, .inl rfl⟩
  obtain ⟨test, hexec⟩ := exec_at_drbg (s := s.atDrbg g (.hmacReady :: .hmacResponse (req.answer hmac) :: .turn :: rest))
    h.operands h.decodes h.runs rfl
  refine (step_of_engineNext hnext h.decodes).trans (hexec.trans ?_)
  rw [State.drbgTurn, show (s.atDrbg g _).hmacPort = .idle from h.idle, ← hreq]
  rfl

/-- The four steps of a transaction lead to the turn at its response (R121, entry 18). -/
theorem State.ReadyForDrbg.run_transaction : core.run 4 (s.atDrbg g (hmacTransaction hmac req ++ rest)) =
    exec i { s.atDrbg g rest with hmacPort := .answered (req.answer hmac) } := by
  have hready := step_hmacReady (s := { s.atDrbg g (.hmacReady :: .hmacResponse (req.answer hmac) :: .turn :: rest) with
    hmacPort := .presented req true }) rfl
  have hresponse := step_hmacResponse (s := { s.atDrbg g (.hmacResponse (req.answer hmac) :: .turn :: rest) with
    hmacPort := .outstanding req true }) rfl
  have huse := step_of_engineNext (s := { s.atDrbg g (.turn :: rest) with hmacPort := .answered (req.answer hmac) })
    (rest := rest) ⟨h.presetn, h.runs.1, .inl rfl⟩ h.decodes
  rw [run_succ_of_step (h.step_sends hmac g rest hreq), run_succ_of_step hready]
  exact (run_succ_of_step hresponse 1).trans ((run_one _).trans huse)

end

/-- What a response makes of the generator before its candidate, with the first attempt after `DRBG_INIT` (R102). -/
def Generator.absorb (g : Generator) (h : Word) : Generator :=
  match g.step with
  | .initK0 => { g with step := .initV0, key := h }
  | .initV0 => { g with step := .initK1, v := h }
  | .initK1 => { g with step := .initV1, key := h }
  | .initV1 => { g with step := .next, v := h, attempt := 1 }
  | .rejectK => { g with step := .rejectV, key := h }
  | .rejectV => { g with step := .next, v := h }
  | .next => g

/-- The command goes on with its generator until a candidate is there (R102). -/
theorem State.absorb_atDrbg (s : State) {g : Generator} (rest : List Input) (h : Word) (test : Nat → Verdict)
    (hk : g.step ≠ .next) (hfirst : g.step = .initV1 → g.attempt = 0) :
    (s.atDrbg g rest).absorb g.step h test = s.atDrbg (g.absorb h) rest := by
  obtain ⟨k, key, v, n⟩ := g
  cases k with
  | initK0 | initV0 | initK1 | rejectK | rejectV => rfl
  | initV1 =>
    cases hfirst rfl
    rfl
  | next => exact absurd rfl hk

/-- What a candidate's verdict leaves of the generator: `K` and `V` (R102). -/
theorem State.judge_drbg (s : State) (det : Bool) (verdict : Verdict) :
    (s.judge det verdict).drbgK = s.drbgK ∧ (s.judge det verdict).drbgV = s.drbgV := by
  match verdict with
  | .error e => exact ⟨rfl, rfl⟩
  | .ok none =>
    rw [State.judge, State.nextCandidate]
    split <;> exact ⟨rfl, rfl⟩
  | .ok (some ws) =>
    obtain ⟨regs, hregs⟩ := s.setRegs_eq ws
    rw [State.judge, hregs]
    exact ⟨rfl, rfl⟩

/-- Settles O32: four steps lead to the turn that absorbs the answer, and what it does depends on the transaction alone. -/
theorem hmacTransactionsUpdateTheDrbg : Obligations.HmacTransactionsUpdateTheDrbg := by
  intro hmac s rest i a b hp hd hops hruns hidle seed k msg hmem hk hfirst hinputs answer
  have h : s.ReadyForDrbg i a b := ⟨hp, hd, hops, hruns, hidle⟩
  have hs : s = s.atDrbg ⟨k, s.drbgK, s.drbgV, s.attempt⟩ (hmacTransaction hmac { key := s.drbgK, msg := msg } ++ rest) := by
    rw [State.atDrbg, ← hk, ← hinputs]
  have hreq : Generator.request ⟨k, s.drbgK, s.drbgV, s.attempt⟩ (s.reg a) (s.reg b) = { key := s.drbgK, msg := msg } := by
    simp only [List.mem_cons, Prod.mk.injEq, List.not_mem_nil, or_false] at hmem
    obtain ⟨rfl, rfl⟩ | ⟨rfl, rfl⟩ | ⟨rfl, rfl⟩ | ⟨rfl, rfl⟩ | ⟨rfl, rfl⟩ | ⟨rfl, rfl⟩ | ⟨rfl, rfl⟩ := hmem <;>
      simp [Generator.request, drbgRequest, seed]
  have hsends := h.step_sends hmac ⟨k, s.drbgK, s.drbgV, s.attempt⟩ rest hreq
  have hrun := h.run_transaction hmac ⟨k, s.drbgK, s.drbgV, s.attempt⟩ rest hreq
  obtain ⟨test, habsorb⟩ := h.exec_answered hmac ⟨k, s.drbgK, s.drbgV, s.attempt⟩ rest { key := s.drbgK, msg := msg }
  rw [← hs] at hsends hrun
  refine ⟨⟨_, hsends, rfl⟩, _, hrun.trans habsorb, ?_⟩
  by_cases hnext : k = .next
  · subst hnext
    have hat : s.atDrbg ⟨.next, s.drbgK, s.drbgV, s.attempt⟩ rest = { s with inputs := rest } := by rw [State.atDrbg, ← hk]
    rw [hat] at habsorb ⊢
    obtain ⟨hkey, hv⟩ := State.judge_drbg { s with inputs := rest, drbgV := hmac s.drbgK msg } true (test (hmac s.drbgK msg).toNat)
    refine ⟨hkey, hv, ?_, habsorb⟩
    rw [← hmacWord_toNat, hmacWord_answer]
  · rw [State.absorb_atDrbg s rest _ test hnext hfirst]
    cases k with
    | next => exact absurd rfl hnext
    | initK0 | initV0 | initK1 | initV1 | rejectK | rejectV => rfl

end Sys2Proof.Machine
end

section
/-! The whole deterministic run of NONCE and SIGN whose first candidate is accepted (spec/43_ecdsa.md R102-R104). -/

namespace Sys2Proof.Machine

/-! The transactions of `DRBG_INIT` and the first `DRBG_NEXT`, on the generator alone. -/

section
variable (hmac : Word → List Byte → Word) (d e : Word)

/-- The generator before the transaction `j` of a command (R102). -/
def firstGenerator : Nat → Generator
  | 0 => { step := .initK0, key := 0#256, v := initialV, attempt := 0 }
  | j + 1 =>
    let g := firstGenerator j
    g.absorb (hmac (g.request d e).key (g.request d e).msg)

theorem firstGenerator_step :
    (firstGenerator hmac d e 0).step = .initK0 ∧ (firstGenerator hmac d e 1).step = .initV0 ∧
      (firstGenerator hmac d e 2).step = .initK1 ∧ (firstGenerator hmac d e 3).step = .initV1 ∧
      (firstGenerator hmac d e 3).attempt = 0 := ⟨rfl, rfl, rfl, rfl, rfl⟩

/-- A seed message as the request of its transaction writes it (R102). -/
theorem seedMessage_eq (v : Word) (x : Byte) : bytes32 v ++ x :: (bytes32 d ++ bytes32 e) = seedMessage v x d e := by
  simp [seedMessage]

/-- The requests of the generator are those of R102, in their order. -/
theorem firstRequests_eq : firstRequests hmac d e =
    (List.range 5).map fun j => (firstGenerator hmac d e j).request d e := by
  simp only [List.range, List.range.loop, List.map, firstGenerator, Generator.absorb, Generator.request, drbgRequest,
    seedMessage_eq, firstRequests]

/-- The generator at the first candidate: its next answer is the candidate (R102). -/
theorem hmacValue_firstAnswer : hmacValue (((firstGenerator hmac d e 4).request d e).answer hmac) =
    (firstCandidate hmac d e).toNat := by
  rw [← hmacWord_toNat, hmacWord_answer]
  simp only [firstGenerator, Generator.absorb, Generator.request, drbgRequest, seedMessage_eq, firstCandidate]

end

/-! The run over them. -/

section
variable {s : State} {i : Instr} {a b : Reg} (h : s.ReadyForDrbg i a b) (hmac : Word → List Byte → Word) (rest : List Input)

/-- The events of the transactions from `j` on, and those after them. -/
def eventsFrom (reqs : List HmacRequest) (j : Nat) : List Input :=
  (reqs.drop j).flatMap (hmacTransaction hmac) ++ rest

theorem eventsFrom_of_getElem {reqs : List HmacRequest} {j : Nat} {req : HmacRequest} (hj : reqs[j]? = some req) :
    eventsFrom hmac rest reqs j = hmacTransaction hmac req ++ eventsFrom hmac rest reqs (j + 1) := by
  obtain ⟨hlt, hreq⟩ := List.getElem?_eq_some_iff.mp hj
  rw [eventsFrom, List.drop_eq_getElem_cons hlt, hreq, List.flatMap_cons, List.append_assoc, eventsFrom]

/-- The state before the transaction `j` of the command, with the events of the transactions that are to come. -/
def State.atFirstGenerator (s : State) (a b : Reg) (j : Nat) : State :=
  s.atDrbg (firstGenerator hmac (s.reg a) (s.reg b) j)
    (eventsFrom hmac rest (firstRequests hmac (s.reg a) (s.reg b)) j)

theorem State.atFirstGenerator_eq (s : State) (a b : Reg) {j : Nat} (hj : j < 5) :
    s.atFirstGenerator hmac rest a b j = s.atDrbg (firstGenerator hmac (s.reg a) (s.reg b) j)
      (hmacTransaction hmac ((firstGenerator hmac (s.reg a) (s.reg b) j).request (s.reg a) (s.reg b)) ++
        eventsFrom hmac rest (firstRequests hmac (s.reg a) (s.reg b)) (j + 1)) := by
  rw [State.atFirstGenerator, eventsFrom_of_getElem]
  rw [firstRequests_eq, List.getElem?_map, List.getElem?_range hj, Option.map_some]

/-- The state in which the first candidate has arrived and is not yet judged (R102). -/
def State.atFirstCandidate (s : State) (a b : Reg) : State :=
  { s.atDrbg (firstGenerator hmac (s.reg a) (s.reg b) 4) rest with
    hmacPort := .answered (((firstGenerator hmac (s.reg a) (s.reg b) 4).request (s.reg a) (s.reg b)).answer hmac) }

theorem State.atFirstCandidate_attempt : (s.atFirstCandidate hmac rest a b).attempt = 1 := rfl

include h

/-- The first four transactions take the generator from one to the next. -/
theorem State.ReadyForDrbg.run_firstGenerator {j : Nat} (hj : j < 4) :
    core.run 4 (s.atFirstGenerator hmac rest a b j) = .next (s.atFirstGenerator hmac rest a b (j + 1)) := by
  obtain ⟨test, habsorb⟩ := h.exec_answered hmac (firstGenerator hmac (s.reg a) (s.reg b) j)
    (eventsFrom hmac rest (firstRequests hmac (s.reg a) (s.reg b)) (j + 1)) _
  rw [State.atFirstGenerator_eq hmac rest s a b (by omega), h.run_transaction hmac _ _ rfl, habsorb]
  obtain ⟨h0, h1, h2, h3, hzero⟩ := firstGenerator_step hmac (s.reg a) (s.reg b)
  rw [State.absorb_atDrbg s _ _ _ ?_ ?_]
  · rfl
  · interval_cases j <;> simp [h0, h1, h2, h3]
  · interval_cases j <;> simp [h0, h1, h2, hzero]

theorem State.ReadyForDrbg.run_firstGenerators {j : Nat} (hj : j ≤ 4) :
    core.run (4 * j) (s.atFirstGenerator hmac rest a b 0) = .next (s.atFirstGenerator hmac rest a b j) := by
  induction j with
  | zero => rfl
  | succ j ih => exact (run_add (ih (by omega)) 4).trans (h.run_firstGenerator hmac rest (by omega))

/-- The five requests are presented in their order, each after the first step of its transaction (R102). -/
theorem State.ReadyForDrbg.presents_firstRequests {j : Nat} (hj : j < 5) :
    ∃ u : State, core.run (4 * j + 1) (s.atFirstGenerator hmac rest a b 0) = .next u ∧
      u.hmacPort.presentedRequest = (firstRequests hmac (s.reg a) (s.reg b))[j]? := by
  have hsends := h.step_sends hmac (firstGenerator hmac (s.reg a) (s.reg b) j)
    (eventsFrom hmac rest (firstRequests hmac (s.reg a) (s.reg b)) (j + 1)) rfl
  rw [← State.atFirstGenerator_eq hmac rest s a b hj] at hsends
  refine ⟨_, (run_add (h.run_firstGenerators hmac rest (by omega)) 1).trans ((run_one _).trans hsends), ?_⟩
  rw [firstRequests_eq, List.getElem?_map, List.getElem?_range hj, Option.map_some]
  rfl

/-- Twenty steps lead to the turn that judges the first candidate (entry 18). -/
theorem State.ReadyForDrbg.run_firstCandidate :
    core.run 20 (s.atFirstGenerator hmac rest a b 0) = exec i (s.atFirstCandidate hmac rest a b) := by
  refine (run_add (h.run_firstGenerators hmac rest le_rfl) 4).trans ?_
  rw [State.atFirstGenerator_eq hmac rest s a b (by omega), h.run_transaction hmac _ _ rfl]
  rfl

end

/-! From the issue to the completion. -/

section
variable {s : State} {i : Instr} {a b : Reg} {hmac : Word → List Byte → Word} {rest : List Input}

/-- A command that begins `DRBG_INIT` at its first step presents the requests of R102 and comes to judge its candidate. -/
theorem run_of_beginDrbg (h : s.ReadyForDrbg i a b)
    (hinputs : s.inputs = .turn :: ((firstRequests hmac (s.reg a) (s.reg b)).flatMap (hmacTransaction hmac) ++ rest))
    (hbegin : ∀ events, exec i { s with inputs := events } = .next (State.beginDrbg { s with inputs := events })) :
    s.PresentsFirstRequests hmac (s.reg a) (s.reg b) ∧
      core.run 21 s = exec i (s.atFirstCandidate hmac rest a b) := by
  have hstep : step s = .next (s.atFirstGenerator hmac rest a b 0) := by
    rw [step_of_engineNext ⟨h.presetn, h.runs.1, .inl hinputs⟩ h.decodes, hbegin, State.beginDrbg, drbgV0_eq_initialV]
    rfl
  refine ⟨fun j hj => ?_, (run_succ_of_step hstep 20).trans (h.run_firstCandidate hmac rest)⟩
  obtain ⟨u, hrun, hrequest⟩ := h.presents_firstRequests hmac rest hj
  exact ⟨u, (run_succ_of_step hstep (4 * j + 1)).trans hrun, hrequest⟩

/-- What a completion at the first candidate leaves unchanged, seen from the issue. -/
theorem completion_of_firstCandidate {ds : List Reg} {t : State} (hidle : s.hmacPort = .idle)
    (hframe : Frame ds [] (s.atFirstCandidate hmac rest a b) t) (hbuffer : BufferKept (s.atFirstCandidate hmac rest a b) t)
    (hattempts : t.attempts.toNat = 1) (hhmac : t.hmacPort = .idle) (hrng : t.rngPort = s.rngPort) :
    Frame ds [] { s with inputs := rest } t ∧ BufferKept s t ∧ PortsKept s t ∧ t.attempts = 1#16 := by
  obtain ⟨hregs, hpoints, hcurve, hie, hcmd, hdropped, hviol, hpresetn, hresponse, hinputs⟩ := hframe
  exact ⟨⟨hregs, hpoints, hcurve, hie, hcmd, hdropped, hviol, hpresetn, hresponse, hinputs⟩, ⟨hbuffer.bytes, hbuffer.len⟩,
    ⟨hhmac.trans hidle.symm, hrng⟩, BitVec.eq_of_toNat_eq hattempts⟩

end

theorem SignForm.drbgOperands {i : Instr} {d a b : Reg} {offset : State → Nat} (hf : SignForm i d a b true offset) :
    drbgOperands i = some (a, b) := by
  obtain ⟨rfl, -⟩ | ⟨c, rfl, -⟩ := hf <;> rfl

/-- The offset reads an operand register only (R104). -/
theorem SignForm.offset_congr {i : Instr} {d a b : Reg} {det : Bool} {offset : State → Nat}
    (hf : SignForm i d a b det offset) {s t : State} (hregs : ∀ r, t.reg r = s.reg r) : offset t = offset s := by
  obtain ⟨-, rfl⟩ | ⟨c, -, rfl⟩ := hf
  · rfl
  · simp only [hregs]

/-- Settles O33: the run begins the generator, goes through its five transactions, and judges the candidate. -/
theorem deterministicRunsYieldTheirResults : Obligations.DeterministicRunsYieldTheirResults := by
  intro hmac s rest a b d hp hb hstart hidle hn hinputs hpos hlt
  have hvalid := (modulusValid_eq_not_bad _).mpr hn
  have hvalue := hmacValue_firstAnswer hmac (s.reg a) (s.reg b)
  have hfirst := s.atFirstCandidate_attempt (a := a) (b := b) hmac rest
  refine ⟨fun hd => ?_, fun i offset r σ v hf hd hpbad hkeypos hkeylt hsigns hv => ?_⟩
  · have h : s.ReadyForDrbg (.nonce d a b) a b := ⟨hp, hd, rfl, ⟨hb, hvalid, .inl ⟨d, a, b, hd⟩⟩, hidle⟩
    obtain ⟨hpresents, hrun⟩ := run_of_beginDrbg h hinputs fun events => exec_nonce_at_start hn hstart
    obtain ⟨-, hnonce⟩ := nonceJudgesItsCandidates
    obtain ⟨-, -, hjudges⟩ := hnonce d a b (s.atFirstCandidate hmac rest a b)
    obtain ⟨haccepts, -⟩ := (hjudges hn).2 _ rfl rfl hfirst.ge (hfirst.le.trans (by decide))
    rw [hvalue] at haccepts
    obtain ⟨t, hexec, hcompleted, hframe, hbuffer, hreg, hattempts, hhmac, hrng⟩ := haccepts ⟨hpos, hlt⟩
    obtain ⟨hframe', hbuffer', hports, hcount⟩ := completion_of_firstCandidate hidle hframe hbuffer hattempts hhmac hrng
    exact ⟨hpresents, t, hrun.trans hexec, hcompleted, hframe', hbuffer', hports, hcount, BitVec.eq_of_toNat_eq hreg⟩
  · have hdle : d.val ≤ 13 := hf.wellFormed_iff.mp (wellFormed_of_decode hd)
    have hruns : s.RunsDrbg := hf.runsCandidates hb hd (State.requireModuli_ok hpbad hn)
    have h : s.ReadyForDrbg i a b := ⟨hp, hd, hf.drbgOperands, hruns, hidle⟩
    obtain ⟨hpresents, hrun⟩ := run_of_beginDrbg h hinputs fun events =>
      hf.exec_at_start (s := { s with inputs := events }) hdle hpbad hn hstart ⟨hkeypos, hkeylt⟩
    have hoffset := hf.offset_congr (s := s) (t := s.atFirstCandidate hmac rest a b) fun _ => rfl
    rw [← hoffset] at hsigns
    obtain ⟨t, hexec, hcompleted, hframe, hbuffer, hr, hσ, hv', hattempts, hports⟩ :=
      signWritesTheSignatureOfItsCandidate i d a b true offset (s.atFirstCandidate hmac rest a b) _ r σ v hf hdle hpbad hn
        (hfirst.le.trans (by decide)) (.inl ⟨rfl, rfl, _, rfl, hvalue.symm⟩) hpos hlt hsigns hv
    obtain ⟨hframe', hbuffer', hports', hcount⟩ :=
      completion_of_firstCandidate hidle hframe hbuffer hattempts hports.hmacPort hports.rngPort
    exact ⟨hpresents, t, hrun.trans hexec, hcompleted, hframe', hbuffer', hports', hcount, hr, hσ, hv'⟩

end Sys2Proof.Machine
end

section
/-! VERIFY: the range check, the public key, and the verdict on `u1·G + u2·Qa` (spec/43_ecdsa.md R105). -/

namespace Sys2Proof.Machine

/-! The public key. -/

/-- Of the two roots, which add up to an odd number, only one has the parity asked for (R88). -/
theorem pickedRoot_unique {c : Curve} (h : ¬BadModulus c.p.toNat) {x : Nat} {odd : Bool} {y z : Nat}
    (hy : PickedRoot c x odd y) (hz : PickedRoot c x odd z) : y = z := by
  have hpos := pos_of_not_bad h
  have hmod : c.p.toNat % 2 = 1 := by unfold BadModulus at h; omega
  obtain ⟨r, hr, hyr, hyodd⟩ := hy
  obtain ⟨r', hr', hzr, hzodd⟩ := hz
  have hsame : r = r' := by exact_mod_cast hr.trans hr'.symm
  have hlt := (residue_cast hpos hr).1
  have hparity : y % 2 = 1 ↔ z % 2 = 1 := hyodd.trans hzodd.symm
  omega

theorem decodesTo_unique {c : Curve} (h : ¬BadModulus c.p.toNat) {byte : Nat → Byte} {len : Nat} {P Q : Point}
    (hP : DecodesTo c byte len P) (hQ : DecodesTo c byte len Q) : P = Q := by
  obtain ⟨hlen, -, y, hy, rfl⟩ | ⟨hlen, -, rfl⟩ := hP <;> obtain ⟨hlen', -, z, hz, rfl⟩ | ⟨hlen', -, rfl⟩ := hQ
  · rw [pickedRoot_unique h hy hz]
  · omega
  · omega
  · rfl

section
variable {c : Curve} {buf : Memory} {len : Nat} (h : ¬BadModulus c.p.toNat)
include h

/-- Every error of the decoder becomes `InvalidPublicKey` (R105). -/
theorem publicKey_of_error (he : decodeError c buf.read len ≠ none) : publicKey c buf len = .error .invalidPublicKey := by
  obtain ⟨e, he⟩ := Option.ne_none_iff_exists'.mp he
  rw [publicKey, (decodePoint_error (pos_of_not_bad h) he).1]

theorem publicKey_of_decodesTo (he : decodeError c buf.read len = none) {Q : Point} (hQ : DecodesTo c buf.read len Q) :
    publicKey c buf len = .ok Q := by
  obtain ⟨P, hdecode, hP⟩ := decodePoint_of_no_error h he
  rw [publicKey, hdecode, decodesTo_unique h hP hQ]

end

/-! Commands that write an operand register. -/

/-- The shape of VERIFY: its checks and its units give the value, which is then written. -/
def State.writesReg (s : State) (d : Reg) (x : Except ResultCode Word) : Host.Outcome State Fault Refusal :=
  s.finish (x >>= fun v => .ok (s.setReg d v))

section
variable {i : Instr} {s : State} {d : Reg} {x : Except ResultCode Word} (hi : exec i s = s.writesReg d x)
include hi

theorem failsWith_writesReg {e : ResultCode} (hx : x = .error e) (he : e ≠ .ok) : FailsWith i s e :=
  failsWith_of_exec he (by rw [hi, hx]; rfl)

theorem completesOk_writesReg {v : Word} (hx : x = .ok v) : CompletesOk i s [d] [] fun t => t.reg d = v :=
  completesOk_setReg (by rw [hi, hx]; rfl) fun _ ht => ht

end

/-! The check of a signature's range, which VERIFY and RECOVER share. -/

section
variable {r σ n : Nat}

theorem requireRange_ok (hr : 0 < r ∧ r < n) (hσ : 0 < σ ∧ σ < n) :
    require (inOpenRange r n && inOpenRange σ n) .signatureOutOfRange = .ok () :=
  require_eq_ok.mpr (by simp [inOpenRange, hr, hσ])

theorem requireRange_error (h : ¬(0 < r ∧ r < n ∧ 0 < σ ∧ σ < n)) :
    require (inOpenRange r n && inOpenRange σ n) .signatureOutOfRange = .error .signatureOutOfRange := by
  have hrange : (inOpenRange r n && inOpenRange σ n) = false := by
    rw [Bool.eq_false_iff, Ne, Bool.and_eq_true, inOpenRange_iff, inOpenRange_iff]
    tauto
  rw [hrange, require_false]

end

theorem regUp_eq_add (r : Reg) {k : Nat} (hk : k < 16) : regUp r k = r + Fin.ofNat 16 k :=
  Fin.ext (by simp [Fin.val_add, Nat.mod_eq_of_lt hk])

/-! VERIFY. -/

/-- `u1·G + u2·Q` with `u1 = e·w mod n` and `u2 = r·w mod n` (R105). -/
def Curve.verifySum (c : Curve) (e r w : Nat) (Q : Point) : Except ResultCode Point := do
  let x1 ← pmulF c c.g (e * w % c.n.toNat)
  let x2 ← pmulF c Q (r * w % c.n.toNat)
  paddF c x1 x2

theorem Curve.verifySum_clean (c : Curve) (e r w : Nat) (Q : Point) : Clean (c.verifySum e r w Q) :=
  .bind (pmulF_clean _ _ _) fun _ _ => .bind (pmulF_clean _ _ _) fun _ _ => paddF_clean _ _ _

section
variable {a : Reg} (ha : a.val ≤ 14) (d b : Reg) {s : State}
include ha

theorem exec_verify_of_legal : exec (.verify d a b) s = s.writesReg d (do
    s.requireModuli
    require (inOpenRange (s.regNat a) s.curve.n.toNat && inOpenRange (s.regNat (a + 1)) s.curve.n.toNat) .signatureOutOfRange
    let Q ← publicKey s.curve s.buf s.bufLen.toNat
    let w ← inverse s.curve.n.toNat (s.regNat (a + 1))
    let x ← s.curve.verifySum (s.regNat b) (s.regNat a) w Q
    .ok (verdictWord s.curve.n.toNat (s.regNat a) x)) := by
  have hlegal : requireLegal (.verify d a b) = .ok () := require_eq_ok.mpr (decide_eq_true ha)
  have hup : regUp a 1 = a + 1 := regUp_eq_add a (by decide)
  simp only [exec, execVerify, State.writesReg, Curve.verifySum, bind_assoc, hlegal, ok_bind, hup]
  rfl

theorem failsWith_verify_moduli (h : BadModulus s.curve.p.toNat ∨ BadModulus s.curve.n.toNat) :
    FailsWith (.verify d a b) s .badModulus :=
  failsWith_writesReg (exec_verify_of_legal ha d b) (by rw [State.requireModuli_bad h]; rfl) (by decide)

variable (hp : ¬BadModulus s.curve.p.toNat) (hn : ¬BadModulus s.curve.n.toNat)
include hp hn

theorem failsWith_verify_range (h : ¬(0 < s.regNat a ∧ s.regNat a < s.curve.n.toNat ∧ 0 < s.regNat (a + 1) ∧
    s.regNat (a + 1) < s.curve.n.toNat)) : FailsWith (.verify d a b) s .signatureOutOfRange :=
  failsWith_writesReg (exec_verify_of_legal ha d b)
    (by rw [State.requireModuli_ok hp hn, ok_bind, requireRange_error h, error_bind]) (by decide)

variable (hr : 0 < s.regNat a ∧ s.regNat a < s.curve.n.toNat)
  (hσ : 0 < s.regNat (a + 1) ∧ s.regNat (a + 1) < s.curve.n.toNat)
include hr hσ

/-- Past the checks of moduli and range (R105). -/
theorem exec_verify_of_range : exec (.verify d a b) s = s.writesReg d (do
    let Q ← publicKey s.curve s.buf s.bufLen.toNat
    let w ← inverse s.curve.n.toNat (s.regNat (a + 1))
    let x ← s.curve.verifySum (s.regNat b) (s.regNat a) w Q
    .ok (verdictWord s.curve.n.toNat (s.regNat a) x)) := by
  rw [exec_verify_of_legal ha, State.requireModuli_ok hp hn, ok_bind, requireRange_ok hr hσ, ok_bind]

/-- With the key and the inverse the verdict is that on the sum (R105). -/
theorem exec_verify_of_key {w : Nat} {Q : Point} (hQ : publicKey s.curve s.buf s.bufLen.toNat = .ok Q)
    (hw : w < s.curve.n.toNat) (hinv : s.regNat (a + 1) * w % s.curve.n.toNat = 1) :
    exec (.verify d a b) s = s.writesReg d (s.curve.verifySum (s.regNat b) (s.regNat a) w Q >>= fun x =>
      .ok (verdictWord s.curve.n.toNat (s.regNat a) x)) := by
  rw [exec_verify_of_range ha d b hp hn hr hσ, hQ, ok_bind,
    inverse_eq_ok (one_lt_of_not_bad hn) s.curve.n.isLt hw hinv, ok_bind]

end

/-- Settles O55: the checks in their order, then the verdict on the sum of the two multiples. -/
theorem verifyComparesWithR : Obligations.VerifyComparesWithR := by
  refine ⟨refusesOtherWords _, fun d a b s ha => ?_⟩
  intro c n r σ e
  refine ⟨encodedBy_commandWord (decide_eq_true ha) rfl, failsWith_verify_moduli ha d b, fun hp hn =>
    ⟨failsWith_verify_range ha d b hp hn, fun hr hrn hσ hσn => ?_⟩⟩
  have hexec := exec_verify_of_range ha d b hp hn ⟨hr, hrn⟩ ⟨hσ, hσn⟩
  refine ⟨fun he => ?_, fun he => ⟨fun hgcd => ?_, fun w Q result hw hinv hQ hresult => ?_⟩⟩
  · exact failsWith_writesReg hexec (by rw [publicKey_of_error hp he, error_bind]) (by decide)
  · obtain ⟨P, -, hP⟩ := decodePoint_of_no_error hp he
    refine failsWith_writesReg hexec ?_ (by decide)
    rw [publicKey_of_decodesTo hp he hP, ok_bind, inverse_eq_error (pos_of_not_bad hn) s.curve.n.isLt hgcd, error_bind]
  · have hsum : s.curve.verifySum e r w Q = result := hresult.symm
    have hverdict := exec_verify_of_key ha d b hp hn ⟨hr, hrn⟩ ⟨hσ, hσn⟩ (publicKey_of_decodesTo hp he hQ) hw hinv
    rw [hsum] at hverdict
    refine ⟨fun err herr => ?_, fun hinf => ?_, fun x y hxy => ?_⟩
    · exact failsWith_writesReg hverdict (by rw [herr, error_bind]) (Curve.verifySum_clean _ _ _ _ _ err (hsum.trans herr)).1
    · exact completesOk_writesReg hverdict (by rw [hinf, ok_bind, verdictWord])
    · exact completesOk_writesReg hverdict (by rw [hxy, ok_bind, verdictWord])

end Sys2Proof.Machine
end

section
/-! RECOVER: the checks in their order, and the point of the recovered key (spec/43_ecdsa.md R106). -/

namespace Sys2Proof.Machine

/-! The computation. -/

/-- The abscissa that the recovery id selects: `r`, or `r + n` when its second bit is set (R106). -/
def recoveryAbscissa (r n v : Nat) : Nat := if (v - 27) / 2 % 2 = 1 then r + n else r

/-- `(s·r⁻¹)·R + (-e·r⁻¹)·G` for the decompressed point `R` (R106). -/
def Curve.recoverSum (c : Curve) (e σ rinv : Nat) (R : Point) : Except ResultCode Point := do
  let q1 ← pmulF c R (σ * rinv % c.n.toNat)
  let q2 ← pmulF c c.g ((-(e * rinv : Int)) % c.n.toNat).toNat
  paddF c q1 q2

theorem Curve.recoverSum_clean (c : Curve) (e σ rinv : Nat) (R : Point) : Clean (c.recoverSum e σ rinv R) :=
  .bind (pmulF_clean _ _ _) fun _ _ => .bind (pmulF_clean _ _ _) fun _ _ => paddF_clean _ _ _

/-- The decompressor gives the point with the root that the claims name (R88). -/
theorem fromxF_of_pickedRoot {c : Curve} {x y : Nat} (h : ¬BadModulus c.p.toNat) (he : decompressionError c x = none)
    {odd : Bool} (hy : PickedRoot c x odd y) : fromxF c x odd = .ok (.affine (word x) (word y)) := by
  obtain ⟨z, hfromx, -, hz⟩ := fromxF_of_no_error h he odd
  rw [hfromx, pickedRoot_unique h hy hz, word_of_toNat]

/-- The computation past the recovery id's checks, with the last check, on the sum (R106). -/
def Curve.recoverPoint (c : Curve) (e r σ v : Nat) : Except ResultCode Point := do
  let R ← fromxF c (recoveryAbscissa r c.n.toNat v) (decide ((v - 27) % 2 = 1))
  let rinv ← inverse c.n.toNat r
  let Q ← c.recoverSum e σ rinv R
  require (decide (Q ≠ .inf)) .pointAtInfinity
  .ok Q

/-! The checks. -/

section
variable {a : Reg} (ha : a.val ≤ 13) (d : PtReg) (b : Reg) {s : State}
include ha

theorem exec_recover_of_legal : exec (.recover d a b) s = s.writesPoint d (do
    s.requireModuli
    require (inOpenRange (s.regNat a) s.curve.n.toNat && inOpenRange (s.regNat (a + 1)) s.curve.n.toNat) .signatureOutOfRange
    require (decide (27 ≤ s.regNat (a + 2))) .invalidRecoveryId
    require (!(decide ((s.regNat (a + 2) - 27) / 2 % 2 = 1) && decide (s.curve.p.toNat ≤ s.regNat a + s.curve.n.toNat)))
      .unrecoverableKey
    s.curve.recoverPoint (s.regNat b) (s.regNat a) (s.regNat (a + 1)) (s.regNat (a + 2))) := by
  have hlegal : requireLegal (.recover d a b) = .ok () := require_eq_ok.mpr (decide_eq_true ha)
  have hup1 : regUp a 1 = a + 1 := regUp_eq_add a (by decide)
  have hup2 : regUp a 2 = a + 2 := regUp_eq_add a (by decide)
  have hodd : (s.regNat (a + 2) - 27).testBit 0 = decide ((s.regNat (a + 2) - 27) % 2 = 1) := Nat.testBit_zero _
  have hsecond : (s.regNat (a + 2) - 27).testBit 1 = decide ((s.regNat (a + 2) - 27) / 2 % 2 = 1) := by
    rw [Nat.testBit_eq_decide_div_mod_eq, pow_one]
  simp only [exec, execRecover, State.writesPoint, Curve.recoverPoint, Curve.recoverSum, recoveryAbscissa, bind_assoc, hlegal,
    ok_bind, hup1, hup2, hodd, hsecond, decide_eq_true_eq, reduce, Nat.cast_mul]
  rfl

theorem failsWith_recover_moduli (h : BadModulus s.curve.p.toNat ∨ BadModulus s.curve.n.toNat) :
    FailsWith (.recover d a b) s .badModulus :=
  failsWith_writesPoint (exec_recover_of_legal ha d b) (by rw [State.requireModuli_bad h]; rfl) (by decide)

variable (hp : ¬BadModulus s.curve.p.toNat) (hn : ¬BadModulus s.curve.n.toNat)
include hp hn

theorem failsWith_recover_range (h : ¬(0 < s.regNat a ∧ s.regNat a < s.curve.n.toNat ∧ 0 < s.regNat (a + 1) ∧
    s.regNat (a + 1) < s.curve.n.toNat)) : FailsWith (.recover d a b) s .signatureOutOfRange :=
  failsWith_writesPoint (exec_recover_of_legal ha d b)
    (by rw [State.requireModuli_ok hp hn, ok_bind, requireRange_error h, error_bind]) (by decide)

variable (hr : 0 < s.regNat a ∧ s.regNat a < s.curve.n.toNat)
  (hσ : 0 < s.regNat (a + 1) ∧ s.regNat (a + 1) < s.curve.n.toNat)
include hr hσ

theorem failsWith_recover_id (hv : s.regNat (a + 2) < 27) : FailsWith (.recover d a b) s .invalidRecoveryId := by
  refine failsWith_writesPoint (exec_recover_of_legal ha d b) ?_ (by decide)
  rw [State.requireModuli_ok hp hn, ok_bind, requireRange_ok hr hσ, ok_bind, decide_eq_false (not_le.mpr hv), require_false,
    error_bind]

variable (hv : 27 ≤ s.regNat (a + 2))
include hv

theorem failsWith_recover_unrecoverable (hsecond : (s.regNat (a + 2) - 27) / 2 % 2 = 1)
    (hbound : s.curve.p.toNat ≤ s.regNat a + s.curve.n.toNat) : FailsWith (.recover d a b) s .unrecoverableKey := by
  refine failsWith_writesPoint (exec_recover_of_legal ha d b) ?_ (by decide)
  rw [State.requireModuli_ok hp hn, ok_bind, requireRange_ok hr hσ, ok_bind, decide_eq_true hv, require_true, ok_bind,
    decide_eq_true hsecond, decide_eq_true hbound]
  rfl

/-- Past the checks the command writes the recovered point (R106). -/
theorem exec_recover_of_valid
    (hbound : ¬((s.regNat (a + 2) - 27) / 2 % 2 = 1 ∧ s.curve.p.toNat ≤ s.regNat a + s.curve.n.toNat)) :
    exec (.recover d a b) s = s.writesPoint d
      (s.curve.recoverPoint (s.regNat b) (s.regNat a) (s.regNat (a + 1)) (s.regNat (a + 2))) := by
  rw [exec_recover_of_legal ha, State.requireModuli_ok hp hn, ok_bind, requireRange_ok hr hσ, ok_bind, decide_eq_true hv,
    require_true, ok_bind, ← Bool.decide_and, decide_eq_false hbound, Bool.not_false, require_true, ok_bind]

end

section
variable {c : Curve} {e r σ v : Nat} (hp : ¬BadModulus c.p.toNat)
include hp

theorem Curve.recoverPoint_of_error {err : ResultCode}
    (he : decompressionError c (recoveryAbscissa r c.n.toNat v) = some err) : c.recoverPoint e r σ v = .error err := by
  rw [Curve.recoverPoint, fromxF_error (pos_of_not_bad hp) he, error_bind]

variable (hn : ¬BadModulus c.n.toNat) (he : decompressionError c (recoveryAbscissa r c.n.toNat v) = none)
include hn he

theorem Curve.recoverPoint_of_no_inverse (hgcd : Nat.gcd r c.n.toNat ≠ 1) : c.recoverPoint e r σ v = .error .noInverse := by
  obtain ⟨z, hfromx, -⟩ := fromxF_of_no_error hp he (decide ((v - 27) % 2 = 1))
  rw [Curve.recoverPoint, hfromx, ok_bind, inverse_eq_error (pos_of_not_bad hn) c.n.isLt hgcd, error_bind]

/-- From a root and an inverse in the relations of the claims: the sum, up to the check on `INF` (R106). -/
theorem Curve.recoverPoint_of_inverse {y rinv : Nat}
    (hy : PickedRoot c (recoveryAbscissa r c.n.toNat v) (decide ((v - 27) % 2 = 1)) y) (hlt : rinv < c.n.toNat)
    (hinv : r * rinv % c.n.toNat = 1) : c.recoverPoint e r σ v = (do
      let Q ← c.recoverSum e σ rinv (.affine (word (recoveryAbscissa r c.n.toNat v)) (word y))
      require (decide (Q ≠ .inf)) .pointAtInfinity
      .ok Q) := by
  rw [Curve.recoverPoint, fromxF_of_pickedRoot hp he hy, ok_bind, inverse_eq_ok (one_lt_of_not_bad hn) c.n.isLt hlt hinv, ok_bind]

end

/-- Settles O56: the checks in their order, then the computation of the point. -/
theorem recoverComputesThePoint : Obligations.RecoverComputesThePoint := by
  refine ⟨refusesOtherWords _, fun d a b s ha => ?_⟩
  intro c n r σ v e x
  refine ⟨encodedBy_commandWord (decide_eq_true ha) rfl, failsWith_recover_moduli ha d b, fun hp hn =>
    ⟨failsWith_recover_range ha d b hp hn, fun hr hrn hσ hσn =>
    ⟨failsWith_recover_id ha d b hp hn ⟨hr, hrn⟩ ⟨hσ, hσn⟩, fun hv =>
    ⟨failsWith_recover_unrecoverable ha d b hp hn ⟨hr, hrn⟩ ⟨hσ, hσn⟩ hv, fun hbound => ?_⟩⟩⟩⟩
  have hexec := exec_recover_of_valid ha d b hp hn ⟨hr, hrn⟩ ⟨hσ, hσn⟩ hv hbound
  refine ⟨fun err he => ?_, fun he => ⟨fun hgcd => ?_, fun y rinv result hy hlt hinv hresult => ?_⟩⟩
  · exact failsWith_writesPoint hexec (Curve.recoverPoint_of_error hp he) (decompressionError_ne_ok he)
  · exact failsWith_writesPoint hexec (Curve.recoverPoint_of_no_inverse hp hn he hgcd) (by decide)
  · have hsum : c.recoverSum e σ rinv (.affine (word x) (word y)) = result := hresult.symm
    have hpoint := Curve.recoverPoint_of_inverse (e := e) (σ := σ) hp hn he hy hlt hinv
    rw [show recoveryAbscissa r n v = x from rfl, hsum] at hpoint
    refine ⟨fun err herr => ?_, fun hinf => ?_, fun Q hQ hok => ?_⟩
    · exact failsWith_writesPoint hexec (by rw [hpoint, herr, error_bind])
        (Curve.recoverSum_clean _ _ _ _ _ err (hsum.trans herr)).1
    · exact failsWith_writesPoint hexec (by rw [hpoint, hinf]; rfl) (by decide)
    · exact completesOk_writesPoint hexec (by rw [hpoint, hok, ok_bind, decide_eq_true hQ, require_true, ok_bind])
        fun _ ht => ht

end Sys2Proof.Machine
end

section
/-! A signature that SIGN computes verifies: the sum of VERIFY is the candidate's point or its opposite, which have one
abscissa (spec/43_ecdsa.md R104, R105). -/

namespace Sys2Proof.Machine

/-! Scalars modulo the order. -/

/-- With `n·g = 0` a multiple of `g` depends only on the scalar modulo `n`. -/
theorem nsmul_congr {G : Type} [AddGroup G] {g : G} {n i j : Nat} (hg : n • g = 0) (h : i ≡ j [MOD n]) : i • g = j • g :=
  nsmul_eq_nsmul_iff_modEq.mpr (h.of_dvd (addOrderOf_dvd_of_nsmul_eq_zero hg))

/-- The multiple of `G` that VERIFY computes for the key `d·G` (R105). -/
theorem verifyScalar_cast (n e r w d : Nat) :
    ((e * w % n + r * w % n * d : Nat) : ZMod n) = (e + d * r) * w := by
  push_cast [ZMod.natCast_mod]
  ring

/-- The multiple is `k` or `-k`, as low-s normalization has kept or negated `s` (R104, R105). -/
theorem verifyScalar_eq {n d e k kinv r s0 σ w : Nat} (hn : 0 < n) (hkinv : k * kinv % n = 1)
    (hs0 : s0 = kinv * (e + d * r) % n) (hσ : σ = if n / 2 < s0 then n - s0 else s0) (hw : σ * w % n = 1) :
    e * w % n + r * w % n * d ≡ k [MOD n] ∨ e * w % n + r * w % n * d + k ≡ 0 [MOD n] := by
  have hcast {x : Nat} (h : x % n = 1) : (x : ZMod n) = 1 := by
    rw [← ZMod.natCast_mod, h, Nat.cast_one]
  have hk : (k : ZMod n) * kinv = 1 := by exact_mod_cast hcast hkinv
  have hσw : (σ : ZMod n) * w = 1 := by exact_mod_cast hcast hw
  have hs : (s0 : ZMod n) = kinv * (e + d * r) := by
    rw [hs0, ZMod.natCast_mod]
    push_cast
    ring
  rw [← ZMod.natCast_eq_natCast_iff, ← ZMod.natCast_eq_natCast_iff, Nat.cast_add _ k, verifyScalar_cast, Nat.cast_zero]
  split at hσ
  · have hlt : s0 ≤ n := hs0 ▸ (Nat.mod_lt _ hn).le
    have hneg : (σ : ZMod n) = -s0 := by rw [hσ, Nat.cast_sub hlt, ZMod.natCast_self, zero_sub]
    rw [hneg, hs] at hσw
    exact .inr (by linear_combination (-(k : ZMod n)) * hσw - (e + d * r) * w * hk)
  · rw [hσ, hs] at hσw
    exact .inl (by linear_combination (k : ZMod n) * hσw - (e + d * r) * w * hk)

/-! Points of the group. -/

section
variable {c : Curve} [Fact (Nat.Prime c.p.toNat)]

theorem pmulF_represents {q : Point} {g : (fieldCurve c).toAffine.Point} (hq : Represents c q g) {k : Nat} (hk : k < 2 ^ 256) :
    ∃ P, pmulF c q k = .ok P ∧ Represents c P (k • g) := by
  obtain ⟨P, hP, hrep⟩ := ladder_represents hq hk le_rfl
  rw [Nat.sub_self, pow_zero, Nat.div_one] at hrep
  exact ⟨P, (pmulF_eq_ladder c q k).trans hP, hrep⟩

/-- Affine contents that stand for one point, or for opposite ones, have the same abscissa. -/
theorem represents_abscissa {x y : Word} {q : Point} {g h : (fieldCurve c).toAffine.Point}
    (hg : Represents c (.affine x y) g) (hh : h = g ∨ h = -g) (hq : Represents c q h) : ∃ z, q = .affine x z := by
  obtain ⟨hx, -, hns, rfl⟩ := hg
  have hsome : ∃ Y hY, h = .some (x.toNat : ZMod c.p.toNat) Y hY := by
    obtain rfl | rfl := hh
    · exact ⟨_, hns, rfl⟩
    · exact ⟨_, _, WeierstrassCurve.Affine.Point.neg_some hns⟩
  obtain ⟨Y, hY, rfl⟩ := hsome
  match q with
  | .inf =>
    have hzero : WeierstrassCurve.Affine.Point.some (x.toNat : ZMod c.p.toNat) Y hY = 0 := hq
    exact absurd hzero (WeierstrassCurve.Affine.Point.some_ne_zero hY)
  | .affine x' z =>
    obtain ⟨hx', -, _, heq⟩ := hq
    obtain ⟨hX, -⟩ := WeierstrassCurve.Affine.Point.some.inj heq
    exact ⟨z, by rw [BitVec.eq_of_toNat_eq ((cast_eq_cast_iff hx hx').mp hX)]⟩

/-- The sum of VERIFY stands for the multiple of `G` by its two scalars (R105). -/
theorem verifySum_represents {g : (fieldCurve c).toAffine.Point} (hg : Represents c c.g g) {Q : Point} {d : Nat}
    (hQ : Represents c Q (d • g)) (hn : 0 < c.n.toNat) (e r w : Nat) :
    ∃ P, c.verifySum e r w Q = .ok P ∧ Represents c P ((e * w % c.n.toNat + r * w % c.n.toNat * d) • g) := by
  have hscalar (x : Nat) : x % c.n.toNat < 2 ^ 256 := (Nat.mod_lt x hn).trans c.n.isLt
  obtain ⟨P1, hP1, hrep1⟩ := pmulF_represents hg (hscalar (e * w))
  obtain ⟨P2, hP2, hrep2⟩ := pmulF_represents hQ (hscalar (r * w))
  obtain ⟨P, hP, hrep⟩ := paddF_represents hrep1 hrep2
  rw [← mul_nsmul', ← add_nsmul] at hrep
  exact ⟨P, by rw [Curve.verifySum, hP1, ok_bind, hP2, ok_bind, hP], hrep⟩

end

/-- The low `s` of a signature lies in `(0, n)`, as VERIFY asks (R104, R105). -/
theorem lowS_inOpenRange {n s0 σ : Nat} (hs0 : s0 ≠ 0) (hlt : s0 < n) (hσ : σ = if n / 2 < s0 then n - s0 else s0) :
    0 < σ ∧ σ < n := by
  split at hσ <;> omega

/-- Settles O60: VERIFY's sum is the candidate's point or its opposite, and either has the abscissa that gave `r`. -/
theorem signaturesVerify : Obligations.SignaturesVerify := by
  intro rd a b s _ g d k offset v Q hprime hp hn hg hng ha hQ he hdecodes hsigns hk
  obtain ⟨x, y, kinv, s0, hkG, hr, hr0, -, hkinv, hs0, hs0ne, hσ, -⟩ := hsigns
  have hpos : 0 < s.curve.n.toNat := hprime.pos
  have hrRange : 0 < s.regNat a ∧ s.regNat a < s.curve.n.toNat := ⟨Nat.pos_of_ne_zero hr0, hr.trans_lt (Nat.mod_lt _ hpos)⟩
  have hσRange : 0 < s.regNat (a + 1) ∧ s.regNat (a + 1) < s.curve.n.toNat :=
    lowS_inOpenRange hs0ne (hs0 ▸ Nat.mod_lt _ hpos) hσ
  have hcoprime : Nat.gcd (s.regNat (a + 1)) s.curve.n.toNat = 1 :=
    (Nat.coprime_of_lt_prime hσRange.1.ne' hσRange.2 hprime).symm
  obtain ⟨w, -, hw, hinv⟩ := inverse_of_coprime (one_lt_of_not_bad hn) s.curve.n.isLt.le ((gcd_mod_eq_gcd _ _).trans hcoprime)
  obtain ⟨P, hkP, hcandidate⟩ := pmulF_represents hg (hk.trans s.curve.n.isLt)
  cases hkP.symm.trans hkG
  obtain ⟨S, hsum, hS⟩ := verifySum_represents hg hQ hpos (s.regNat b) (s.regNat a) w
  have hscalar : (s.regNat b * w % s.curve.n.toNat + s.regNat a * w % s.curve.n.toNat * d) • g = k • g ∨
      (s.regNat b * w % s.curve.n.toNat + s.regNat a * w % s.curve.n.toNat * d) • g = -(k • g) := by
    refine (verifyScalar_eq hpos hkinv hs0 hσ hinv).imp (nsmul_congr hng) fun h => ?_
    have hzero := nsmul_congr hng h
    rw [add_nsmul, zero_nsmul] at hzero
    exact eq_neg_of_add_eq_zero_left hzero
  obtain ⟨z, rfl⟩ := represents_abscissa hcandidate hscalar hS
  have hexec := exec_verify_of_key ha rd b hp hn hrRange hσRange (publicKey_of_decodesTo hp he hdecodes) hw hinv
  exact completesOk_writesReg hexec (by rw [hsum, ok_bind, verdictWord, if_pos hr.symm])

end Sys2Proof.Machine
end

section
/-! How a turn of the engine ends: an illegal word, a command without port traffic, and any command that fails
(spec/60_exceptions.md R110-R114). -/

namespace Sys2Proof.Machine

/-! Turns of a command. -/

/-- The command has ended with an error and written nothing but the status registers (R114). -/
structure EndedBare (s t : State) : Prop where
  error : t.errcode ≠ .ok
  completed : Completed t.errcode t
  frame : Frame [] [] s t
  buffer : BufferKept s t

/-- How a turn of the command `i` leaves the block: a port command goes on, or the command has ended with an error or with
`OK` (R112-R114). -/
inductive TurnEnds (i : Instr) (s t : State) : Prop where
  | goesOn (hp : usesPort i = true) (same : SameButProgress s t)
  | failed (h : EndedBare s t)
  | succeeded (h : Completed .ok t)

theorem endedBare_complete {s t : State} (h : SameButProgress s t) {e : ResultCode} (he : e ≠ .ok) (n : Option Nat) :
    EndedBare s (t.complete e n) :=
  ⟨he, completed_complete t e n, h.frame.complete e n, h.bufferKept.complete e n⟩

theorem Turned.ends {i : Instr} {s t : State} (h : Turned i s t) : TurnEnds i s t := by
  cases h with
  | fails e he _ => exact .failed (endedBare_complete (.refl s) he.1 none)
  | regs ws _ _ => exact .succeeded (completed_complete _ _ _)
  | point d Q _ _ => exact .succeeded (completed_complete _ _ _)
  | bytes a compressed _ x y => exact .succeeded (completed_complete _ _ _)
  | port _ hp hturn =>
    cases hturn with
    | goesOn _ same => exact .goesOn hp same
    | fails u same e he n => exact .failed (endedBare_complete same he.1 n)
    | completes u _ ws _ n => exact .succeeded (completed_complete _ _ _)

/-- A command without port traffic ends at its turn (R112). -/
theorem Turned.completed {i : Instr} {s t : State} (h : Turned i s t) (hi : usesPort i = false) :
    ∃ code, Completed code t := by
  cases h.ends with
  | goesOn hp _ => cases hi.symm.trans hp
  | failed h => exact ⟨_, h.completed⟩
  | succeeded h => exact ⟨_, h⟩

/-- Settles O8, from what exec can do with any command. -/
theorem portlessCommandsAlwaysComplete : Obligations.PortlessCommandsAlwaysComplete := by
  intro i s
  obtain ⟨t, ht, hturned⟩ := exec_turned i s
  refine ⟨⟨t, ht⟩, fun hi => ?_⟩
  obtain ⟨code, hcode⟩ := hturned.completed hi
  obtain ⟨-, hdrbg, hports⟩ := hturned.portless hi
  exact ⟨t, code, ht, hcode, hports, hdrbg⟩

/-! Turns of the engine. -/

/-- Settles O6: the turn is what the step is about, and `withFetchWord` puts it in front of the events to come. -/
theorem stepRunsTheLatchedCommand : Obligations.StepRunsTheLatchedCommand := by
  refine ⟨fun s rest i => step_of_engineNext, fun s hidle hi => step_of_settled ?_, fun s nbits w i hd => ?_⟩
  · rw [State.nextTurn, hi]
    simp only [State.engineTurn, hidle, Bool.and_false, Bool.false_eq_true, if_false]
  · exact step_of_engineNext (s := s.withFetchWord nbits w) (rest := s.inputs) ⟨rfl, rfl, .inl rfl⟩ hd

section
variable {s t : State} {rest : List Input}

/-- The two turns of a busy engine: the word is of no command and ends, or its command runs (R109, R112). -/
theorem State.EngineNext.step_cases (h : s.EngineNext rest) :
    step s = .next (State.complete { s with inputs := rest } .illegalCommand (illegalAttempts s.cmdLast)) ∨
      ∃ i, decode s.cmdLast = .ok i ∧ step s = exec i { s with inputs := rest } := by
  cases hd : decode s.cmdLast with
  | ok i => exact .inr ⟨i, rfl, step_of_engineNext h hd⟩
  | error x => exact .inl (step_of_illegal h fun i hi => by cases hd.symm.trans hi)

/-- A turn of the engine that leaves the block idle has ended the command (R113, R114). -/
theorem State.EngineNext.ended (h : s.EngineNext rest) (hstep : step s = .next t) (hidle : t.status.busy = false) :
    EndedBare { s with inputs := rest } t ∨ Completed .ok t := by
  obtain hill | ⟨i, -, hrun⟩ := h.step_cases
  · cases hill.symm.trans hstep
    exact .inl (endedBare_complete (.refl _) (by decide) _)
  · cases (turned_of_exec (hrun.symm.trans hstep)).ends with
    | goesOn _ same => cases hidle.symm.trans ((congrArg Status.busy same.status).trans h.busy)
    | failed h => exact .inl h
    | succeeded h => exact .inr h

/-- An accepted word that needs no port is ended by the engine's turn, legal or not (R112). -/
theorem State.EngineNext.step_ends (h : s.EngineNext rest) : ∃ t, step s = .next t ∧
    ((∃ code, Completed code t) ∨ ∃ i, decode s.cmdLast = .ok i ∧ usesPort i = true) := by
  obtain hill | ⟨i, hd, hrun⟩ := h.step_cases
  · exact ⟨_, hill, .inl ⟨_, completed_complete _ _ _⟩⟩
  · obtain ⟨t, ht, hturned⟩ := exec_turned i { s with inputs := rest }
    refine ⟨t, hrun.trans ht, ?_⟩
    cases hi : usesPort i with
    | false => exact .inl (hturned.completed hi)
    | true => exact .inr ⟨i, hd, hi⟩

end

/-- The commands that count attempts are those whose opcode field is SIGN or NONCE (R31, R58). -/
theorem opcode_of_countsAttempts {w : CmdWord} {i : Instr} (hd : decode w = .ok i) (hi : countsAttempts i = true) :
    w.extractLsb' 0 8 = 0x30#8 ∨ w.extractLsb' 0 8 = 0x33#8 := by
  have hop : (w.extractLsb' 0 8).toNat = i.fields.op := by
    rw [← (encodeDecodeRoundTrip w i hd).2, ← bitsOf_eq_extract]
    exact congrArg Fields.op (Fields.ofWord_encode i)
  rw [← BitVec.toNat_inj, ← BitVec.toNat_inj, hop]
  cases i with
  | sign d a b det => exact .inl rfl
  | signCid d a b c det => exact .inl rfl
  | nonce d a b => exact .inr rfl
  | _ => cases hi

/-- Settles O9: a turn that ends with an error has written nothing, and `ATTEMPTS` belongs to SIGN and NONCE. -/
theorem failedCommandsWriteNothing : Obligations.FailedCommandsWriteNothing := by
  intro s t rest h hstep hidle herror
  obtain hbare | hok := h.ended hstep hidle
  case inr => exact absurd hok.errcode herror
  refine ⟨hbare.completed, hbare.frame, ⟨hbare.buffer.bytes, hbare.buffer.len⟩, fun hsign hnonce => ?_⟩
  have hop : ¬(s.cmdLast.extractLsb' 0 8 = 0x30#8 ∨ s.cmdLast.extractLsb' 0 8 = 0x33#8) := not_or.mpr ⟨hsign, hnonce⟩
  obtain hill | ⟨i, hd, hrun⟩ := h.step_cases
  · cases hill.symm.trans hstep
    rw [complete_illegal_attempts, if_neg hop]
  · have hcounts : countsAttempts i = false := Bool.eq_false_iff.mpr fun hi => hop (opcode_of_countsAttempts hd hi)
    exact (exec_keeps_attempts (hrun.symm.trans hstep) hcounts).1

/-! The write of `CMD` that starts it. -/

/-- A write of `CMD` on an idle block issues the word (R110). -/
theorem step_issue {s : State} {rest : List Input} {w : CmdWord} (hp : s.presetn = true) (hidle : s.status.busy = false)
    (hi : s.inputs = hostWrite 0x014 w :: rest) :
    step s = .next ((State.issue { s with inputs := rest } w).respond accepted) :=
  step_hostWrite_of_idle (place := .cmd) hi hp hidle rfl rfl (by decide)

/-- Settles O7: the word is issued, or dropped while a command runs, and the engine's turn ends it. -/
theorem acceptedWriteOfCmdIssues : Obligations.AcceptedWriteOfCmdIssues := by
  intro s rest w hp hi
  refine ⟨fun hidle => ⟨_, step_issue hp hidle hi, rfl, ?_, fun after h => h.step_ends⟩,
    fun hbusy => step_write_dropped hi hp hbusy (by decide) (by decide)⟩
  simp [State.irq]

end Sys2Proof.Machine
end

section
/-! The modulus check (spec/60_exceptions.md R108): it comes first, and nothing else ends a command with `BAD_MODULUS`. -/

namespace Sys2Proof.Machine

/-! A bad modulus. -/

theorem exists_bad_p_or_n {c : Curve} (h : ∃ m ∈ [ModSel.p, .n], BadModulus (c.modulus m)) :
    BadModulus c.p.toNat ∨ BadModulus c.n.toNat := by simpa using h

theorem exists_bad_singleton {c : Curve} {m : ModSel} (h : ∃ m' ∈ [m], BadModulus (c.modulus m')) :
    BadModulus (c.modulus m) := by simpa using h

/-- SQRT looks at its registers, then at its modulus (R59, R108). -/
theorem failsWith_sqrt_bad {d c a : Reg} {m : ModSel} {s : State} (hdc : d ≠ c) (h : BadModulus (s.curve.modulus m)) :
    FailsWith (.sqrt d c a m) s .badModulus :=
  failsWith_of_exec (by decide) (by
    have hlegal : requireLegal (.sqrt d c a m) = .ok () := require_eq_ok.mpr (decide_eq_true hdc)
    simp only [exec, execSqrt, hlegal, State.requireModulus_bad h]
    rfl)

/-- A command that checks a bad modulus ends with `BAD_MODULUS` (R108). -/
theorem failsWith_badModulus {i : Instr} {s : State} (hcounts : countsAttempts i = false) (hwf : i.wellFormed = true)
    (h : ∃ m ∈ checkedModuli i, BadModulus (s.curve.modulus m)) : FailsWith i s .badModulus := by
  cases i with
  | add d a b m => exact failsWith_modular_bad (exec_add_eq_modular d a b m s) (exists_bad_singleton h)
  | sub d a b m => exact failsWith_modular_bad (exec_sub_eq_modular d a b m s) (exists_bad_singleton h)
  | mul d a b m => exact failsWith_modular_bad (exec_mul_eq_modular d a b m s) (exists_bad_singleton h)
  | mmul d a b m => exact failsWith_modular_bad (exec_mmul_eq_modular d a b m s) (exists_bad_singleton h)
  | red d a m => exact failsWith_modular_bad (exec_red_eq_modular d a m s) (exists_bad_singleton h)
  | redw d a m => exact failsWith_modular_bad (exec_redw_of_legal (of_decide_eq_true hwf) d m s) (exists_bad_singleton h)
  | pow d a b m => exact failsWith_modular_bad (exec_pow_eq_modular d a b m s) (exists_bad_singleton h)
  | inv d a m => exact failsWith_modular_bad (exec_inv_eq_modular d a m s) (exists_bad_singleton h)
  | div d a b m => exact failsWith_modular_bad (exec_div_eq_modular d a b m s) (exists_bad_singleton h)
  | sqrt d c a m => exact failsWith_sqrt_bad (of_decide_eq_true hwf) (exists_bad_singleton h)
  | rand d m => exact failsWith_of_exec (by decide) (exec_rand_of_bad (exists_bad_singleton h))
  | pgen d => exact failsWith_writesPoint_bad (exec_pgen_eq_writesPoint d s) (exists_bad_singleton h)
  | pset d a b => exact failsWith_writesPoint_bad (exec_pset_eq_writesPoint d a b s) (exists_bad_singleton h)
  | padd d a b => exact failsWith_writesPoint_bad (exec_padd_eq_writesPoint d a b s) (exists_bad_singleton h)
  | pmul d a b => exact failsWith_writesPoint_moduli (exec_pmul_eq_writesPoint d a b s) (exists_bad_p_or_n h)
  | pmuladd d a b c =>
    exact failsWith_writesPoint_moduli (exec_pmuladd_of_legal (of_decide_eq_true hwf) d a b s) (exists_bad_p_or_n h)
  | pfromx d a odd => exact failsWith_writesPoint_bad (exec_pfromx_eq_writesPoint d a odd s) (exists_bad_singleton h)
  | decode d => exact failsWith_writesPoint_bad (exec_decode_eq_writesPoint d s) (exists_bad_singleton h)
  | verify d a b => exact failsWith_verify_moduli (of_decide_eq_true hwf) d b (exists_bad_p_or_n h)
  | recover d a b => exact failsWith_recover_moduli (of_decide_eq_true hwf) d b (exists_bad_p_or_n h)
  | nop | mov | pinf | pmov | pgetx | pgety | encode =>
    obtain ⟨m, hm, -⟩ := h
    cases hm
  | sign | signCid | nonce => cases hcounts

/-- The same for SIGN and NONCE, which also set `ATTEMPTS` to 0 (R31, R108). -/
theorem failsCounting_badModulus {i : Instr} {s : State} (hcounts : countsAttempts i = true) (hwf : i.wellFormed = true)
    (h : ∃ m ∈ checkedModuli i, BadModulus (s.curve.modulus m)) : FailsCounting i s .badModulus 0 := by
  refine failsCounting_of_exec (by decide) (by decide) ?_
  cases i with
  | sign d a b det => exact SignForm.exec_of_bad (.inl ⟨rfl, rfl⟩) (of_decide_eq_true hwf) (exists_bad_p_or_n h)
  | signCid d a b c det => exact SignForm.exec_of_bad (.inr ⟨c, rfl, rfl⟩) (of_decide_eq_true hwf) (exists_bad_p_or_n h)
  | nonce d a b => exact exec_nonce_of_bad (exists_bad_singleton h)
  | _ => cases hcounts

/-! Computations that do not end with `BAD_MODULUS`. -/

/-- The computation does not raise `BAD_MODULUS`. -/
def Spares {α : Type} (x : Except ResultCode α) : Prop := x ≠ .error .badModulus

section
variable {α β : Type}

theorem Spares.ok (a : α) : Spares (.ok a) := nofun

theorem Spares.error {e : ResultCode} (he : e ≠ .badModulus) : Spares (.error e : Except ResultCode α) := by
  rintro ⟨⟩
  exact he rfl

theorem Spares.bind {x : Except ResultCode α} {f : α → Except ResultCode β} (h : Spares x) (k : ∀ a, Spares (f a)) :
    Spares (x >>= f) := by
  cases x with
  | ok a => exact k a
  | error e => exact .error fun he => h (by rw [he])

theorem Spares.ite {c : Prop} [Decidable c] {x y : Except ResultCode α} (h : Spares x) (k : Spares y) :
    Spares (if c then x else y) := by
  split <;> assumption

end

theorem require_spares {c : Bool} {e : ResultCode} (he : e ≠ .badModulus) : Spares (require c e) := .ite (.ok _) (.error he)

theorem requireLegal_spares (i : Instr) : Spares (requireLegal i) := require_spares (by decide)

/-- The checks themselves pass when the moduli are good. -/
theorem State.requireModulus_spares {s : State} {m : ModSel} (h : ∀ m' ∈ [m], ¬BadModulus (s.curve.modulus m')) :
    Spares (s.requireModulus m) := by
  rw [State.requireModulus_ok (h m (List.mem_singleton.mpr rfl))]
  exact .ok _

theorem State.requireModuli_spares {s : State} (h : ∀ m ∈ [ModSel.p, .n], ¬BadModulus (s.curve.modulus m)) :
    Spares s.requireModuli := by
  rw [State.requireModuli_ok (h .p (by simp)) (h .n (by simp))]
  exact .ok _

/-! The units. -/

theorem inverse_spares (m a : Nat) : Spares (inverse m a) := .ite (.ok _) (.error (by decide))

theorem divide_spares (m : Nat) (a b : Int) : Spares (divide m a b) := .ite (.error (by decide)) (.ok _)

theorem squareRoots_spares (m : Nat) (v : Int) : Spares (squareRoots m v) :=
  .ite (.error (by decide)) (.ite (.error (by decide)) (.ok _))

theorem paddF_spares (c : Curve) (q1 q2 : Point) : Spares (paddF c q1 q2) := by
  match q1, q2 with
  | .inf, _ => exact .ok _
  | .affine _ _, .inf => exact .ok _
  | .affine x1 y1, .affine x2 y2 =>
    rw [paddF_affine]
    exact .ite (.ok _) (.bind (divide_spares _ _ _) fun _ => .ok _)

theorem ladder_spares (c : Curve) (q : Point) (k j : Nat) : Spares (ladder c q k j) := by
  induction j with
  | zero => exact .ok _
  | succ j ih => exact .bind ih fun _ => .bind (paddF_spares _ _ _) fun _ => .ite (paddF_spares _ _ _) (.ok _)

theorem pmulF_spares (c : Curve) (q : Point) (k : Nat) : Spares (pmulF c q k) := by
  rw [pmulF_eq_ladder]
  exact ladder_spares c q k 256

theorem fromxF_spares (c : Curve) (x : Nat) (odd : Bool) : Spares (fromxF c x odd) :=
  .bind (require_spares (by decide)) fun _ => .bind (squareRoots_spares _ _) fun _ => .ok _

theorem decodePoint_spares (c : Curve) (buf : Memory) (len : Nat) : Spares (decodePoint c buf len) :=
  .ite (fromxF_spares _ _ _) (.ite (.bind (require_spares (by decide)) fun _ => .ok _) (.error (by decide)))

theorem publicKey_spares (c : Curve) (buf : Memory) (len : Nat) : Spares (publicKey c buf len) := by
  unfold publicKey
  split
  · exact .ok _
  · exact .error (by decide)

theorem signCandidate_spares (c : Curve) (d e k : Nat) (chainId : Option Nat) : Spares (signCandidate c d e k chainId) := by
  refine .bind (pmulF_spares _ _ _) fun q => ?_
  cases q with
  | inf => exact .ok _
  | affine x y =>
    exact .ite (.ok _) (.bind (inverse_spares _ _) fun _ => .ite (.ok _) (.bind (require_spares (by decide)) fun _ => .ok _))

theorem signWrites_spares {d : Reg} {x : Except ResultCode (Option (Nat × Nat × Nat))} (h : Spares x) :
    Spares (signWrites d x) := by
  match x with
  | .error e => exact .error fun he => h (by rw [he])
  | .ok none => exact .ok _
  | .ok (some (_, _, _)) => exact .ok _

theorem signTestDet_spares (c : Curve) (rd : Reg) (d e : Nat) (chainId : Option Nat) (k : Nat) :
    Spares (signTestDet c rd d e chainId k) :=
  .ite (signWrites_spares (signCandidate_spares _ _ _ _ _)) (.ok _)

theorem signTestRnd_spares (c : Curve) (rd : Reg) (d e : Nat) (chainId : Option Nat) (data : BitVec 512) :
    Spares (signTestRnd c rd d e chainId data) :=
  .ite (.ok _) (signWrites_spares (signCandidate_spares _ _ _ _ _))

/-! The turns of the candidate loop. -/

section
variable {s : State} (hs : s.errcode ≠ .badModulus)
include hs

theorem State.nextCandidate_spares (det : Bool) : (s.nextCandidate det).errcode ≠ .badModulus := by
  unfold State.nextCandidate
  split
  · nofun
  · exact hs

theorem State.judge_spares (det : Bool) {v : Verdict} (hv : Spares v) : (s.judge det v).errcode ≠ .badModulus := by
  match v with
  | .error e => exact fun he => hv (congrArg _ he)
  | .ok none => exact State.nextCandidate_spares hs det
  | .ok (some ws) => nofun

theorem State.absorb_spares (k : DrbgStep) (h : Word) {test : Nat → Verdict} (ht : ∀ n, Spares (test n)) :
    (s.absorb k h test).errcode ≠ .badModulus := by
  cases k with
  | initV1 => exact State.nextCandidate_spares (s := { s with drbgV := h }) hs true
  | next => exact State.judge_spares (s := { s with drbgV := h }) hs true (ht _)
  | initK0 | initV0 | initK1 | rejectK | rejectV => exact hs

theorem State.drbgTurn_spares (d e : Word) (k : DrbgStep) {test : Nat → Verdict} (ht : ∀ n, Spares (test n)) :
    (s.drbgTurn d e k test).errcode ≠ .badModulus := by
  unfold State.drbgTurn
  split
  · exact hs
  · exact hs
  · exact hs
  · exact State.absorb_spares (s := { s with hmacPort := .idle }) hs k _ ht

theorem State.randomTurn_spares {test : BitVec 512 → Verdict} (ht : ∀ x, Spares (test x)) :
    (s.randomTurn test).errcode ≠ .badModulus := by
  unfold State.randomTurn
  split
  · exact hs
  · exact hs
  · exact State.judge_spares (s := { s with rngPort := .idle }) hs false (ht _)

theorem State.signTurn_spares (rd : Reg) (d e : Word) (chainId : Option Nat) (det : Bool) :
    (s.signTurn rd d e chainId det).errcode ≠ .badModulus := by
  unfold State.signTurn
  split
  · split
    · cases det with
      | true => exact hs
      | false => exact State.nextCandidate_spares (s := { s with attempt := 0 }) hs false
    · nofun
  · cases det with
    | true => exact State.drbgTurn_spares hs d e _ (signTestDet_spares _ _ _ _ _)
    | false => exact hs
  · cases det with
    | true => exact hs
    | false => exact State.randomTurn_spares hs (signTestRnd_spares _ _ _ _ _)

end

/-! The commands. -/

section
variable {s t : State}

theorem spares_of_finish {x : Except ResultCode State} (hx : Spares x) (h : s.finish x = .next t) :
    t.errcode ≠ .badModulus := by
  cases x with
  | ok u =>
    cases h
    nofun
  | error e =>
    cases h
    exact fun he => hx (congrArg _ he)

theorem spares_of_modular {i : Instr} {d : Reg} {m : ModSel} {f : Nat → Except ResultCode Nat}
    (hi : exec i s = s.modular d m f) (hm : ∀ m' ∈ [m], ¬BadModulus (s.curve.modulus m')) (hf : Spares (f (s.curve.modulus m)))
    (h : exec i s = .next t) : t.errcode ≠ .badModulus :=
  spares_of_finish (.bind (State.requireModulus_spares hm) fun _ => .bind hf fun _ => .ok _) (hi.symm.trans h)

theorem spares_of_writesPoint {i : Instr} {d : PtReg} {x : Except ResultCode Point} (hi : exec i s = s.writesPoint d x)
    (hx : Spares x) (h : exec i s = .next t) : t.errcode ≠ .badModulus :=
  spares_of_finish (.bind hx fun _ => .ok _) (hi.symm.trans h)

variable (hs : s.errcode ≠ .badModulus)
include hs

theorem exec_rand_spares {d : Reg} {m : ModSel} (hm : ¬BadModulus (s.curve.modulus m))
    (h : exec (.rand d m) s = .next t) : t.errcode ≠ .badModulus := by
  cases hport : s.rngPort with
  | idle =>
    cases (exec_rand_of_idle hm hport).symm.trans h
    exact hs
  | requested live =>
    cases (exec_rand_of_requested hm hport).symm.trans h
    exact hs
  | answered data =>
    cases (exec_rand_of_answered hm hport).symm.trans h
    nofun

theorem exec_nonce_spares {d a b : Reg} (hn : ¬BadModulus s.curve.n.toNat) (h : exec (.nonce d a b) s = .next t) :
    t.errcode ≠ .badModulus := by
  cases hstage : s.stage with
  | start =>
    cases (exec_nonce_at_start hn hstage).symm.trans h
    exact hs
  | drbg k =>
    cases (exec_nonce_at_drbg hn hstage).symm.trans h
    exact State.drbgTurn_spares hs _ _ k fun _ => .ok _
  | random =>
    simp only [exec, execNonce, State.requireModulus_ok (m := .n) hn, hstage] at h
    cases h
    exact hs

theorem SignForm.exec_spares {i : Instr} {d a b : Reg} {det : Bool} {offset : State → Nat} (hf : SignForm i d a b det offset)
    (hd : d.val ≤ 13) (hm : ∀ m ∈ [ModSel.p, .n], ¬BadModulus (s.curve.modulus m)) (h : exec i s = .next t) :
    t.errcode ≠ .badModulus := by
  cases (hf.exec_of_valid hd (hm .p (by simp)) (hm .n (by simp))).symm.trans h
  exact State.signTurn_spares hs _ _ _ _ _

/-- With good moduli no command ends with `BAD_MODULUS` (R108). -/
theorem exec_spares {i : Instr} (hwf : i.wellFormed = true) (hm : ∀ m ∈ checkedModuli i, ¬BadModulus (s.curve.modulus m))
    (h : exec i s = .next t) : t.errcode ≠ .badModulus := by
  cases i with
  | nop => exact spares_of_finish (s := s) (.ok _) h
  | mov => exact spares_of_finish (s := s) (.ok _) h
  | add d a b m => exact spares_of_modular (exec_add_eq_modular d a b m s) hm (.ok _) h
  | sub d a b m => exact spares_of_modular (exec_sub_eq_modular d a b m s) hm (.ok _) h
  | mul d a b m => exact spares_of_modular (exec_mul_eq_modular d a b m s) hm (.ok _) h
  | mmul d a b m => exact spares_of_modular (exec_mmul_eq_modular d a b m s) hm (.ok _) h
  | red d a m => exact spares_of_modular (exec_red_eq_modular d a m s) hm (.ok _) h
  | redw d a m => exact spares_of_modular (exec_redw_of_legal (of_decide_eq_true hwf) d m s) hm (.ok _) h
  | pow d a b m => exact spares_of_modular (exec_pow_eq_modular d a b m s) hm (.ok _) h
  | inv d a m => exact spares_of_modular (exec_inv_eq_modular d a m s) hm (inverse_spares _ _) h
  | div d a b m => exact spares_of_modular (exec_div_eq_modular d a b m s) hm (divide_spares _ _ _) h
  | sqrt d c a m =>
    exact spares_of_finish (.bind (requireLegal_spares _) fun _ => .bind (State.requireModulus_spares hm) fun _ =>
      .bind (squareRoots_spares _ _) fun _ => .ok _) h
  | rand d m => exact exec_rand_spares hs (hm m (List.mem_singleton.mpr rfl)) h
  | pinf => exact spares_of_finish (s := s) (.ok _) h
  | pgen d =>
    exact spares_of_writesPoint (exec_pgen_eq_writesPoint d s) (.bind (State.requireModulus_spares hm) fun _ =>
      .bind (require_spares (by decide)) fun _ => .ok _) h
  | pset d a b =>
    exact spares_of_writesPoint (exec_pset_eq_writesPoint d a b s) (.bind (State.requireModulus_spares hm) fun _ =>
      .bind (require_spares (by decide)) fun _ => .ok _) h
  | pmov => exact spares_of_finish (s := s) (.ok _) h
  | pgetx d a =>
    simp only [exec, execPgetx] at h
    split at h
    · exact spares_of_finish (.error (by decide)) h
    · exact spares_of_finish (.ok _) h
  | pgety d a =>
    simp only [exec, execPgety] at h
    split at h
    · exact spares_of_finish (.error (by decide)) h
    · exact spares_of_finish (.ok _) h
  | padd d a b =>
    exact spares_of_writesPoint (exec_padd_eq_writesPoint d a b s)
      (.bind (State.requireModulus_spares hm) fun _ => paddF_spares _ _ _) h
  | pmul d a b =>
    exact spares_of_writesPoint (exec_pmul_eq_writesPoint d a b s) (.bind (State.requireModuli_spares hm) fun _ =>
      .bind (require_spares (by decide)) fun _ => pmulF_spares _ _ _) h
  | pmuladd d a b c =>
    exact spares_of_writesPoint (exec_pmuladd_eq_writesPoint d a b c s) (.bind (requireLegal_spares _) fun _ =>
      .bind (State.requireModuli_spares hm) fun _ => .bind (require_spares (by decide)) fun _ =>
      .bind (require_spares (by decide)) fun _ => .bind (pmulF_spares _ _ _) fun _ => .bind (pmulF_spares _ _ _) fun _ =>
      paddF_spares _ _ _) h
  | pfromx d a odd =>
    exact spares_of_writesPoint (exec_pfromx_eq_writesPoint d a odd s)
      (.bind (State.requireModulus_spares hm) fun _ => fromxF_spares _ _ _) h
  | encode a compressed =>
    simp only [exec, execEncode] at h
    split at h
    · exact spares_of_finish (.error (by decide)) h
    · exact spares_of_finish (.ok _) h
  | decode d =>
    exact spares_of_writesPoint (exec_decode_eq_writesPoint d s)
      (.bind (State.requireModulus_spares hm) fun _ => decodePoint_spares _ _ _) h
  | sign d a b det => exact SignForm.exec_spares hs (.inl ⟨rfl, rfl⟩) (of_decide_eq_true hwf) hm h
  | signCid d a b c det => exact SignForm.exec_spares hs (.inr ⟨c, rfl, rfl⟩) (of_decide_eq_true hwf) hm h
  | verify d a b =>
    exact spares_of_finish (.bind (requireLegal_spares _) fun _ => .bind (State.requireModuli_spares hm) fun _ =>
      .bind (require_spares (by decide)) fun _ => .bind (publicKey_spares _ _ _) fun _ => .bind (inverse_spares _ _) fun _ =>
      .bind (pmulF_spares _ _ _) fun _ => .bind (pmulF_spares _ _ _) fun _ => .bind (paddF_spares _ _ _) fun _ => .ok _) h
  | recover d a b =>
    exact spares_of_finish (.bind (requireLegal_spares _) fun _ => .bind (State.requireModuli_spares hm) fun _ =>
      .bind (require_spares (by decide)) fun _ => .bind (require_spares (by decide)) fun _ =>
      .bind (require_spares (by decide)) fun _ => .bind (fromxF_spares _ _ _) fun _ => .bind (inverse_spares _ _) fun _ =>
      .bind (pmulF_spares _ _ _) fun _ => .bind (pmulF_spares _ _ _) fun _ => .bind (paddF_spares _ _ _) fun _ =>
      .bind (require_spares (by decide)) fun _ => .ok _) h
  | nonce d a b => exact exec_nonce_spares hs (hm .n (List.mem_singleton.mpr rfl)) h

end

/-- Settles O11: a bad modulus ends the command first, and with good moduli no check and no unit raises `BAD_MODULUS`. -/
theorem badModulusComesFirst : Obligations.BadModulusComesFirst := by
  intro i s hwf
  refine ⟨fun h => ?_, fun hm hs t ht => exec_spares (by simp [hs]) hwf hm ht⟩
  split
  · exact failsCounting_badModulus ‹_› hwf h
  · exact failsWith_badModulus (Bool.eq_false_iff.mpr ‹_›) hwf h

end Sys2Proof.Machine
end

section
/-! Writes of `CTRL` and the interrupt: the abort with the requests it leaves behind, and what raises, masks and clears `irq`
(spec/60_exceptions.md R117-R122). -/

namespace Sys2Proof.Machine

/-! Requests that have outlived their command. -/

@[simp] theorem HmacPort.orphan_presentedRequest (p : HmacPort) : p.orphan.presentedRequest = p.presentedRequest := by
  cases p <;> rfl

@[simp] theorem State.abort_rngReq (s : State) : s.abort.rngReq = s.rngReq := by
  unfold State.rngReq
  rw [State.abort_rngPort]
  cases s.rngPort <;> rfl

/-- Whatever an abort leaves on the HMAC port, the handshake and the response free the port (R121). -/
theorem HmacPort.respond_ready_orphan (data : BitVec 256) (p : HmacPort) : (p.orphan.ready).respond data = .idle := by
  cases p <;> rfl

theorem RngPort.ack_orphan (data : BitVec 512) (p : RngPort) : p.orphan.ack data = .idle := by
  cases p <;> rfl

theorem step_rngAck {s : State} {rest : List Input} {data : BitVec 512} (h : s.inputs = .rngAck data :: rest) :
    step s = .next { s with rngPort := s.rngPort.ack data, inputs := rest } :=
  step_of_settled (by rw [State.nextTurn, h]; rfl)

/-! Writes of `CTRL`. -/

section
variable {s : State} {rest : List Input} {v : BusWord}

theorem step_ctrl (hp : s.presetn = true) (hi : s.inputs = hostWrite 0x008 v :: rest) :
    step s = .next (State.writePlace { s with inputs := rest } v .ctrl) :=
  step_write hi hp (by decide) (.inr (by decide))

/-- An idle block has nothing to abort and takes `IE` (R120). -/
theorem State.writePlace_ctrl_of_idle (hreset : v.getLsbD 2 = false) (hidle : s.status.busy = false) :
    s.writePlace v .ctrl = { s with ie := v.getLsbD 0, response := takenAnswer } := by
  simp only [State.writePlace, State.writeCtrl, hreset, hidle, Bool.and_false, Bool.false_eq_true, if_false]
  rfl

variable (habort : v.getLsbD 1 = true) (hreset : v.getLsbD 2 = false)
include habort hreset

/-- A running command is aborted (R120). -/
theorem State.writePlace_ctrl_of_busy (hbusy : s.status.busy = true) :
    s.writePlace v .ctrl = State.abort { s with ie := v.getLsbD 0, response := takenAnswer } := by
  simp only [State.writePlace, State.writeCtrl, habort, hreset, hbusy, Bool.and_true, Bool.false_eq_true, if_false, if_true]
  rfl

theorem step_abort (hp : s.presetn = true) (hbusy : s.status.busy = true) (hi : s.inputs = hostWrite 0x008 v :: rest) :
    step s = .next (State.abort { s with ie := v.getLsbD 0, response := takenAnswer, inputs := rest }) :=
  (step_ctrl hp hi).trans (congrArg _
    (State.writePlace_ctrl_of_busy (s := { s with inputs := rest }) habort hreset hbusy))

end

/-- The abort is an error completion of a command whose ports are orphaned (R114, R120). -/
theorem endedBare_abort (s : State) : EndedBare s s.abort :=
  endedBare_complete (.progress s s.stage s.drbgK s.drbgV s.attempt s.hmacPort.orphan s.rngPort.orphan)
    (e := .aborted) (by decide) none

/-- Settles O13: the abort completes the command and orphans its requests, and the events on the ports discard the responses. -/
theorem abortEndsTheRunningCommand : Obligations.AbortEndsTheRunningCommand := by
  refine ⟨fun s rest _ => ⟨fun req hport hi => ?_, fun req data hport hi => ?_, fun data hport hi => ?_⟩,
    fun s rest v hp hi habort hreset => ⟨fun hidle => ?_, fun hbusy => ?_⟩⟩
  · rw [step_hmacReady hi, hport, HmacPort.ready]
  · rw [step_hmacResponse hi, hport, HmacPort.respond]
  · rw [step_rngAck hi, hport, RngPort.ack]
  · exact (step_ctrl hp hi).trans (congrArg _
      (State.writePlace_ctrl_of_idle (s := { s with inputs := rest }) hreset hidle))
  · have hbare := endedBare_abort { s with ie := v.getLsbD 0, response := takenAnswer, inputs := rest }
    refine ⟨_, step_abort habort hreset hp hbusy hi, hbare.completed, hbare.frame, ⟨hbare.buffer.bytes, hbare.buffer.len⟩, rfl,
      HmacPort.orphan_presentedRequest _, State.abort_rngReq _, HmacPort.orphan_isLive _, RngPort.orphan_isLive _,
      fun req live hport => ?_, fun req live hport => ?_, fun live hport => ?_, fun hport => ?_, fun hport => ?_,
      fun h g => ⟨?_, ?_⟩⟩
    · simp only [State.abort_hmacPort, hport, HmacPort.orphan]
    · simp only [State.abort_hmacPort, hport, HmacPort.orphan]
    · simp only [State.abort_rngPort, hport, RngPort.orphan]
    · obtain hport | ⟨data, hport⟩ := hport <;> simp only [State.abort_hmacPort, hport, HmacPort.orphan]
    · obtain hport | ⟨data, hport⟩ := hport <;> simp only [State.abort_rngPort, hport, RngPort.orphan]
    · simp only [State.receive, State.abort_hmacPort, HmacPort.respond_ready_orphan]
    · simp only [State.receive, State.abort_rngPort, RngPort.ack_orphan]

/-! The interrupt. -/

theorem State.irq_eq {s : State} (hp : s.presetn = true) : s.irq = (s.ie && s.status.done) := by
  rw [State.irq, hp, Bool.true_and]

/-- A completed command raises `irq` when it is enabled (R118). -/
theorem Completed.irq {code : ResultCode} {t : State} (h : Completed code t) (hp : t.presetn = true) : t.irq = t.ie := by
  rw [State.irq_eq hp, h.done, Bool.and_true]

/-- A turn of the engine leaves the level of `PRESETn` (R131). -/
theorem State.EngineNext.step_presetn {s t : State} {rest : List Input} (h : s.EngineNext rest) (hstep : step s = .next t) :
    t.presetn = true := by
  obtain hill | ⟨i, -, hrun⟩ := h.step_cases
  · cases hill.symm.trans hstep
    exact h.presetn
  · exact (turned_of_exec (hrun.symm.trans hstep)).frame.presetn.trans h.presetn

/-- Settles O14: each event is followed to `PRESETn`, `IE` and `DONE`, of which `irq` is made. -/
theorem interruptFollowsEnableAndDone : Obligations.InterruptFollowsEnableAndDone := by
  refine ⟨fun s hp => State.irq_eq hp, fun s line => ?_, fun s t rest h hstep hidle => ?_, fun s rest v hp hi hclear => ?_,
    fun s rest w hp hidle hi => ?_, fun s rest v hp hi habort hreset => ?_, fun s rest v hp hbusy hi habort hreset => ?_, rfl⟩
  · rw [State.irqOnLine, Bool.and_eq_true, beq_iff_eq]
  · have hpresetn := h.step_presetn hstep
    exact (h.ended hstep hidle).elim (·.completed.irq hpresetn) (·.irq hpresetn)
  · obtain ⟨-, hstatus, -⟩ := controlRegistersReadAndWrite s rest hp
    refine ⟨_, hstatus v hi, ?_, rfl⟩
    simp [State.irq, hclear]
  · refine ⟨_, step_issue hp hidle hi, ?_⟩
    simp [State.irq]
  · obtain ⟨-, -, hctrl, -⟩ := controlRegistersReadAndWrite s rest hp
    exact ⟨_, hctrl v habort hreset hi, rfl, State.irq_eq hp⟩
  · exact ⟨_, step_abort habort hreset hp hbusy hi, (endedBare_abort _).completed.irq hp⟩

end Sys2Proof.Machine
end

section
/-! A running command: what a transfer can do to it, that nothing changes its inputs and outputs, and that it waits for a
silent port (spec/20_memory.md R47, spec/60_exceptions.md R111, R113, R123). -/

namespace Sys2Proof.Machine

/-! The words of the map that a running command leaves to the host. -/

theorem controlPlace_writable {k : Nat} (h : (controlPlace k).writable = true) :
    k = 2 ∧ controlPlace k = .ctrl ∨ controlPlace k = .status ∨ controlPlace k = .cmd ∨ controlPlace k = .bufLen := by
  match k, h with
  | 2, _ => exact .inl ⟨rfl, rfl⟩
  | 3, _ => exact .inr (.inl rfl)
  | 5, _ => exact .inr (.inr (.inl rfl))
  | 6, _ => exact .inr (.inr (.inr rfl))
  | 0, h | 1, h | 4, h | 7, h | 8, h | 9, h => cases h
  | n + 10, h => cases h

/-- Outside the data region the host writes `CTRL`, `STATUS`, `CMD` and `BUF_LEN` alone (R37, R47). -/
theorem placeAt_writable {addr : Offset} (hregion : inDataRegion addr.toNat = false)
    (h : (placeAt addr.toNat).writable = true) :
    addr.toNat / 4 = 2 ∧ placeAt addr.toNat = .ctrl ∨ placeAt addr.toNat = .status ∨ placeAt addr.toNat = .cmd ∨
      placeAt addr.toNat = .bufLen := by
  have hout : addr.toNat < 0x100 ∨ 0x680 ≤ addr.toNat := by
    have hnot := mt (inDataRegion_iff addr.toNat).mpr (Bool.eq_false_iff.mp hregion)
    omega
  rcases hout with hlow | hhigh
  · have hplace : placeAt addr.toNat = controlPlace (addr.toNat / 4) := by rw [placeAt, if_pos hlow]
    rw [hplace] at h ⊢
    exact controlPlace_writable h
  · rw [placeAt_reserved (.inr (.inr ⟨hhigh, addr.isLt⟩))] at h
    cases h

/-- What a transfer can do while a command runs: it is ignored in reset, answered, refused and flagged, or it writes `CTRL`
or `STATUS` (R38, R40, R42, R47). -/
inductive ServedBusy (s : State) (tr : Transfer) : State → Prop where
  | ignored : ServedBusy s tr s
  | answered (r : Response) : ServedBusy s tr (s.respond r)
  | dropped : ServedBusy s tr s.dropCommand
  | violates : ServedBusy s tr s.accessViolation
  | ctrl (v : BusWord) (htr : tr = .write 0x008#12 0b1111#4 v) : ServedBusy s tr (s.writePlace v .ctrl)
  | status (v : BusWord) : ServedBusy s tr (s.writePlace v .status)

theorem State.serveRead_of_busy (s : State) (addr : Offset) : ServedBusy s (.read addr) (s.serveRead addr) := by
  unfold State.serveRead
  split
  · exact .answered _
  · split
    · exact .violates
    · exact .answered _

section
variable {s : State} (hbusy : s.status.busy = true)
include hbusy

theorem State.serveWrite_of_busy (addr : Offset) (strb : BitVec 4) (v : BusWord) :
    ServedBusy s (.write addr strb v) (s.serveWrite addr strb v) := by
  unfold State.serveWrite
  split
  · exact .answered _
  rename_i hmalformed
  simp only [not_or, not_not] at hmalformed
  obtain ⟨haligned, hstrb⟩ := hmalformed
  split
  · exact .dropped
  rename_i hcmd
  split
  · exact .violates
  rename_i hdata
  simp only [hbusy, Bool.true_and, Bool.or_eq_true, decide_eq_true_eq, not_or, Bool.not_eq_true] at hcmd hdata
  obtain ⟨hregion, hlen⟩ := hdata
  cases hw : (placeAt addr.toNat).writable with
  | false => exact State.writePlace_of_not_writable hw s v ▸ .answered _
  | true =>
    obtain ⟨hindex, hplace⟩ | hplace | hplace | hplace := placeAt_writable hregion hw
    · have haddr : addr = 0x008#12 := BitVec.eq_of_toNat_eq (show addr.toNat = 8 by omega)
      rw [hplace]
      exact .ctrl v (by rw [haddr, hstrb])
    · exact hplace ▸ .status v
    · exact absurd hplace hcmd
    · exact absurd hplace hlen

theorem State.serve_of_busy (tr : Transfer) : ServedBusy s tr (s.serve tr) := by
  unfold State.serve
  split
  · cases tr with
    | read addr => exact s.serveRead_of_busy addr
    | write addr strb v => exact State.serveWrite_of_busy hbusy addr strb v
  · exact .ignored

end

/-! The inputs and outputs of a running command. -/

/-- The registers that a command reads, and those that its completion writes, are unchanged (R111, R113). -/
structure KeepsInOut (s t : State) : Prop where
  regs : t.regs = s.regs
  points : t.points = s.points
  curve : t.curve = s.curve
  buf : t.buf = s.buf
  bufLen : t.bufLen = s.bufLen
  cmdLast : t.cmdLast = s.cmdLast
  attempts : t.attempts = s.attempts
  errcode : t.errcode = s.errcode

/-- The fields that are neither may change. -/
theorem KeepsInOut.others (s : State) (ie : Bool) (status : Status) (h : HmacPort) (r : RngPort) (p : Bool)
    (a : Option Response) (rest : List Input) : KeepsInOut s { s with
      ie := ie, status := status, hmacPort := h, rngPort := r, presetn := p, response := a, inputs := rest } :=
  ⟨rfl, rfl, rfl, rfl, rfl, rfl, rfl, rfl⟩

theorem SameButProgress.keepsInOut {s t : State} (h : SameButProgress s t) : KeepsInOut s t :=
  ⟨h.regs, h.points, h.curve, h.buf, h.bufLen, h.cmdLast, h.attempts, h.errcode⟩

/-- A write of `CTRL` sets `IE` or leaves the block idle (R120, R132). -/
theorem State.writePlace_ctrl_cases (s : State) (v : BusWord) :
    s.writePlace v .ctrl = { s with ie := v.getLsbD 0, response := takenAnswer } ∨
      (s.writePlace v .ctrl).status.busy = false := by
  simp only [State.writePlace, State.writeCtrl]
  split
  · exact .inr rfl
  · split
    · exact .inr rfl
    · exact .inl rfl

section
variable {s t : State} (hbusy' : t.status.busy = true)
include hbusy'

theorem ServedBusy.keepsInOut {tr : Transfer} (h : ServedBusy s tr t) : KeepsInOut s t := by
  cases h with
  | ignored | answered | dropped | violates | status => exact .others s _ _ _ _ _ _ _
  | ctrl v _ =>
    obtain hie | hidle := s.writePlace_ctrl_cases v
    · rw [hie]
      exact .others s _ _ _ _ _ _ _
    · cases hidle.symm.trans hbusy'

variable (hbusy : s.status.busy = true)
include hbusy

theorem State.receive_keepsInOut {e : Input} (h : s.receive e = t) : KeepsInOut s t := by
  subst h
  cases e with
  | bus tr => exact (State.serve_of_busy hbusy tr).keepsInOut hbusy'
  | hmacReady | hmacResponse | rngAck | turn => exact .others s _ _ _ _ _ _ _
  | resetPin level =>
    cases level with
    | true => exact .others s _ _ _ _ _ _ _
    | false => cases hbusy'

theorem Stepped.keepsInOut (h : Stepped s t) : KeepsInOut s t := by
  cases h with
  | received e => exact State.receive_keepsInOut hbusy' hbusy rfl
  | illegal => cases hbusy'
  | ran i _ _ _ _ he =>
    cases (turned_of_exec he).ends with
    | goesOn _ same => exact same.keepsInOut
    | failed h => cases h.completed.busy.symm.trans hbusy'
    | succeeded h => cases h.busy.symm.trans hbusy'

end

/-- Settles O26: transfers are kept from the data of a running command, and its own turns write only when they end it. -/
theorem runningCommandKeepsInputsAndOutputs : Obligations.RunningCommandKeepsInputsAndOutputs := by
  intro s t hbusy hstep hbusy'
  obtain ⟨rest, hstepped⟩ := stepped_of_step hstep
  obtain ⟨hregs, hpoints, hcurve, hbuf, hlen, hcmd, hattempts, hcode⟩ :=
    Stepped.keepsInOut (s := { s with inputs := rest }) hbusy' hbusy hstepped
  exact ⟨hregs, hpoints, hcurve, hbuf, hlen, hcmd, hattempts, hcode⟩

/-! A silent port. -/

/-- The running command has a request out that its unit has not answered (R123). -/
def State.AwaitsPort (s : State) : Prop :=
  (s.RunsRand ∨ s.RunsRandomSign ∧ s.stage = .random) ∧ s.rngReq = true ∨
    (s.RunsDrbg ∧ ∃ k req live, s.stage = .drbg k ∧
      (s.hmacPort = .presented req live ∨ s.hmacPort = .outstanding req live))

theorem State.RunsRandomSign.signForm {s : State} (h : s.RunsRandomSign) :
    ∃ i d a b offset, SignForm i d a b false offset ∧ decode s.cmdLast = .ok i := by
  obtain ⟨-, -, -, ⟨d, a, b, hd⟩ | ⟨d, a, b, c, hd⟩⟩ := h
  · exact ⟨_, d, a, b, _, .inl ⟨rfl, rfl⟩, hd⟩
  · exact ⟨_, d, a, b, _, .inr ⟨c, rfl, rfl⟩, hd⟩

/-- A decoded command is legal, so its check passes (R59). -/
theorem requireLegal_of_decode {w : CmdWord} {i : Instr} (hd : decode w = .ok i) : requireLegal i = .ok () :=
  require_eq_ok.mpr (wellFormed_of_decode hd)

theorem exec_of_randomSign_waiting {s : State} (h : s.RunsRandomSign) (hstage : s.stage = .random) {live : Bool}
    (hport : s.rngPort = .requested live) : ∃ i, decode s.cmdLast = .ok i ∧ exec i s = .next s := by
  obtain ⟨i, d, a, b, offset, hf, hd⟩ := h.signForm
  have hmoduli : s.requireModuli = .ok () := State.RunsCandidates.requireModuli (det := false) h
    fun d' a' b' hn => hf.ne_nonce (Except.ok.inj (hd.symm.trans hn))
  refine ⟨i, hd, (hf.exec_of_checks_ok (by rw [requireLegal_of_decode hd, ok_bind, hmoduli])).trans ?_⟩
  simp only [State.signTurn, hstage, State.randomTurn, hport, Bool.false_eq_true, if_false]

/-- The turn of a command that waits for its port leaves the block as it is (R123). -/
theorem State.AwaitsPort.exec_waits {s : State} (h : s.AwaitsPort) : ∃ i, decode s.cmdLast = .ok i ∧ exec i s = .next s := by
  obtain ⟨hruns, hreq⟩ | ⟨hruns, k, req, live, hstage, hport⟩ := h
  · obtain ⟨live, hport⟩ := State.rngReq_iff.mp hreq
    obtain ⟨-, d, m, hd, hm⟩ | ⟨hruns, hstage⟩ := hruns
    · exact ⟨_, hd, exec_rand_of_requested ((modulusValid_eq_not_bad _).mp hm) hport⟩
    · exact exec_of_randomSign_waiting hruns hstage hport
  · obtain ⟨i, hd, hops, -⟩ := hruns.command
    obtain ⟨⟨a, b⟩, hops⟩ := Option.isSome_iff_exists.mp hops
    obtain ⟨test, hexec⟩ := exec_at_drbg hops hd hruns hstage
    refine ⟨i, hd, hexec.trans ?_⟩
    obtain hport | hport := hport <;> rw [State.drbgTurn, hport]

theorem State.AwaitsPort.step_waits {s : State} {rest : List Input} (h : s.AwaitsPort) (hnext : s.EngineNext rest) :
    step s = .next { s with inputs := rest } := by
  have hwaits : State.AwaitsPort { s with inputs := rest } := h
  obtain ⟨i, hd, hexec⟩ := hwaits.exec_waits
  exact (step_of_engineNext hnext hd).trans hexec

/-- A running command goes on where it stands. -/
structure StaysBusy (s t : State) : Prop where
  busy : t.status.busy = true
  stage : t.stage = s.stage
  hmacPort : t.hmacPort = s.hmacPort
  rngPort : t.rngPort = s.rngPort

/-- No transfer ends a running command or touches a port but a write of `CTRL` that asks for an abort or a reset (R123). -/
theorem ServedBusy.staysBusy {s t : State} {tr : Transfer} (hbusy : s.status.busy = true) (h : ServedBusy s tr t)
    (hctrl : ∀ v, tr = .write 0x008#12 0b1111#4 v → v.getLsbD 1 = false ∧ v.getLsbD 2 = false) : StaysBusy s t := by
  cases h with
  | ignored | answered | dropped | violates | status => exact ⟨hbusy, rfl, rfl, rfl⟩
  | ctrl v htr =>
    obtain ⟨habort, hreset⟩ := hctrl v htr
    rw [State.writePlace_ctrl_ie s habort hreset]
    exact ⟨hbusy, rfl, rfl, rfl⟩

/-- A write of `CTRL` with bit 1 or bit 2 set leaves the block idle (R120, R132). -/
theorem State.writePlace_ctrl_ends {s : State} {v : BusWord} (h : v.getLsbD 1 = true ∨ v.getLsbD 2 = true) :
    (s.writePlace v .ctrl).status.busy = false := by
  cases hreset : v.getLsbD 2 with
  | true =>
    simp only [State.writePlace, State.writeCtrl, hreset, if_true]
    rfl
  | false =>
    have habort := h.resolve_right (Bool.eq_false_iff.mp hreset)
    cases hbusy : s.status.busy with
    | true => exact State.writePlace_ctrl_of_busy habort hreset hbusy ▸ rfl
    | false => exact State.writePlace_ctrl_of_idle hreset hbusy ▸ hbusy

/-- Settles O31: the turns wait, the transfers are those of a busy block, and the abort and the resets end it. -/
theorem silentPortKeepsTheCommandBusy : Obligations.SilentPortKeepsTheCommandBusy := by
  intro s rest hp hbusy hawaits
  have h : s.AwaitsPort := hawaits
  refine ⟨fun hi => ?_, fun hi => h.step_waits ⟨hp, hbusy, .inl hi⟩, fun tr hi hctrl => ?_, fun v hi hv => ?_, fun hi => ?_⟩
  · rw [h.step_waits ⟨hp, hbusy, .inr ⟨hi, rfl⟩⟩, ← hi]
  · obtain ⟨hb, hstage, hhmac, hrng⟩ :=
      ServedBusy.staysBusy (s := { s with inputs := rest }) hbusy (State.serve_of_busy (by exact hbusy) tr) hctrl
    exact ⟨_, step_bus hi, hb, hstage, hhmac, hrng⟩
  · exact ⟨_, step_ctrl hp hi, State.writePlace_ctrl_ends hv⟩
  · exact ⟨State.setResetPin { s with inputs := rest } false, step_of_settled (by rw [State.nextTurn, hi]; rfl), rfl⟩

end Sys2Proof.Machine
end

section
/-! The requests on the ports: which commands send them, and what lies on the signals (spec/60_exceptions.md R121, R122). -/

namespace Sys2Proof.Machine

/-! What a step may put on the ports. -/

/-- Every request on a port of `t` was already there in `s`. -/
structure NoNewRequest (s t : State) : Prop where
  hmac : t.hmReqValid = true → s.hmReqValid = true
  rng : t.rngReq = true → s.rngReq = true

/-- The requests a step sends: none, one of the generator on the free HMAC port where `hmac` holds, or one on the free RNG port
where `rng` holds (R121, R122). -/
inductive Requests (hmac rng : Prop) (s : State) : State → Prop where
  | none {t : State} (h : NoNewRequest s t) : Requests hmac rng s t
  | hmac (h : hmac) (hp : s.hmacPort = .idle) (d e : Word) (k : DrbgStep) :
      Requests hmac rng s { s with hmacPort := .presented (drbgRequest s.drbgK s.drbgV d e k) true }
  | rng (h : rng) (hp : s.rngPort = .idle) : Requests hmac rng s { s with rngPort := .requested true }

theorem State.hmReqValid_congr {s t : State} (h : t.hmacPort = s.hmacPort) : t.hmReqValid = s.hmReqValid := by
  rw [State.hmReqValid, State.hmReqValid, h]

theorem State.rngReq_congr {s t : State} (h : t.rngPort = s.rngPort) : t.rngReq = s.rngReq := by
  rw [State.rngReq, State.rngReq, h]

theorem PortsKept.noNewRequest {s t : State} (h : PortsKept s t) : NoNewRequest s t :=
  ⟨fun ht => State.hmReqValid_congr h.hmacPort ▸ ht, fun ht => State.rngReq_congr h.rngPort ▸ ht⟩

/-- A port that has become idle carries no request. -/
theorem PortsKept.noNewRequest_of_hmac_idle {s t : State} (h : PortsKept { s with hmacPort := .idle } t) :
    NoNewRequest s t :=
  ⟨fun ht => absurd ((State.hmReqValid_congr h.hmacPort).symm.trans ht) nofun, fun ht => State.rngReq_congr h.rngPort ▸ ht⟩

theorem PortsKept.noNewRequest_of_rng_idle {s t : State} (h : PortsKept { s with rngPort := .idle } t) :
    NoNewRequest s t :=
  ⟨fun ht => State.hmReqValid_congr h.hmacPort ▸ ht, fun ht => absurd ((State.rngReq_congr h.rngPort).symm.trans ht) nofun⟩

/-! Turns of the port commands. -/

theorem State.nextCandidate_portsKept (s : State) (det : Bool) : PortsKept s (s.nextCandidate det) := by
  unfold State.nextCandidate
  split <;> exact ⟨rfl, rfl⟩

theorem State.judge_portsKept (s : State) (det : Bool) (v : Verdict) : PortsKept s (s.judge det v) := by
  match v with
  | .error e => exact ⟨rfl, rfl⟩
  | .ok none => exact s.nextCandidate_portsKept det
  | .ok (some ws) =>
    obtain ⟨regs, hregs⟩ := s.setRegs_eq ws
    rw [State.judge, hregs]
    exact ⟨rfl, rfl⟩

theorem State.absorb_portsKept (s : State) (k : DrbgStep) (h : Word) (test : Nat → Verdict) :
    PortsKept s (s.absorb k h test) := by
  cases k with
  | initV1 =>
    obtain ⟨hhmac, hrng⟩ := State.nextCandidate_portsKept { s with drbgV := h } true
    exact ⟨hhmac, hrng⟩
  | next =>
    obtain ⟨hhmac, hrng⟩ := State.judge_portsKept { s with drbgV := h } true (test h.toNat)
    exact ⟨hhmac, hrng⟩
  | initK0 | initV0 | initK1 | rejectK | rejectV => exact ⟨rfl, rfl⟩

section
variable {hmac rng : Prop} (s : State)

theorem State.drbgTurn_requests (h : hmac) (d e : Word) (k : DrbgStep) (test : Nat → Verdict) :
    Requests hmac rng s (s.drbgTurn d e k test) := by
  unfold State.drbgTurn
  split
  · exact .hmac h ‹_› d e k
  · exact .none ⟨id, id⟩
  · exact .none ⟨id, id⟩
  · exact .none (State.absorb_portsKept { s with hmacPort := .idle } k _ test).noNewRequest_of_hmac_idle

theorem State.randomTurn_requests (h : rng) (test : BitVec 512 → Verdict) :
    Requests hmac rng s (s.randomTurn test) := by
  unfold State.randomTurn
  split
  · exact .rng h ‹_›
  · exact .none ⟨id, id⟩
  · exact .none (State.judge_portsKept { s with rngPort := .idle } false _).noNewRequest_of_rng_idle

theorem State.signTurn_requests {det : Bool} (hdet : det = true → hmac) (hrnd : det = false → rng) (rd : Reg) (d e : Word)
    (chainId : Option Nat) : Requests hmac rng s (s.signTurn rd d e chainId det) := by
  unfold State.signTurn
  split
  · split
    · cases det with
      | true => exact .none ⟨id, id⟩
      | false =>
        obtain ⟨hhmac, hrng⟩ := State.nextCandidate_portsKept { s with attempt := 0 } false
        exact .none (PortsKept.noNewRequest ⟨hhmac, hrng⟩)
    · exact .none ⟨id, id⟩
  · cases det with
    | true => exact s.drbgTurn_requests (hdet rfl) d e _ _
    | false => exact .none ⟨id, id⟩
  · cases det with
    | true => exact .none ⟨id, id⟩
    | false => exact s.randomTurn_requests (hrnd rfl) _

end

/-! Turns of the latched command. -/

/-- The requests that the latched command may send (R121, R122). -/
abbrev State.Sends (s : State) : State → Prop := Requests s.RunsDrbg (s.RunsRand ∨ s.RunsRandomSign) s

section
variable {s t : State} (hb : s.status.busy = true)
include hb

theorem sends_of_sign {i : Instr} {d a b : Reg} {det : Bool} {offset : State → Nat} (hf : SignForm i d a b det offset)
    (hd : decode s.cmdLast = .ok i) (h : exec i s = .next t) : s.Sends t := by
  have hchecks : (do requireLegal i; s.requireModuli : Except ResultCode Unit) = s.requireModuli := by
    rw [requireLegal_of_decode hd, ok_bind]
  cases hm : s.requireModuli with
  | error e =>
    cases (hf.exec_of_checks_error (hchecks.trans hm)).symm.trans h
    exact .none ⟨id, id⟩
  | ok =>
    have hruns := hf.runsCandidates hb hd hm
    cases (hf.exec_of_checks_ok (hchecks.trans hm)).symm.trans h
    exact s.signTurn_requests (fun hdet => by subst hdet; exact hruns) (fun hrnd => by subst hrnd; exact .inr hruns) _ _ _ _

theorem sends_of_nonce {d a b : Reg} (hd : decode s.cmdLast = .ok (.nonce d a b)) (h : exec (.nonce d a b) s = .next t) :
    s.Sends t := by
  simp only [exec, execNonce] at h
  split at h
  · cases h
    exact .none ⟨id, id⟩
  · rename_i hm
    split at h <;> cases h
    · exact .none ⟨id, id⟩
    · exact s.drbgTurn_requests ⟨hb, require_eq_ok.mp hm, .inl ⟨d, a, b, hd⟩⟩ _ _ _ _
    · exact .none ⟨id, id⟩

theorem sends_of_rand {d : Reg} {m : ModSel} (hd : decode s.cmdLast = .ok (.rand d m)) (h : exec (.rand d m) s = .next t) :
    s.Sends t := by
  by_cases hbad : BadModulus (s.curve.modulus m)
  · cases (exec_rand_of_bad hbad).symm.trans h
    exact .none ⟨id, id⟩
  cases hport : s.rngPort with
  | idle =>
    cases (exec_rand_of_idle hbad hport).symm.trans h
    exact .rng (.inl ⟨hb, d, m, hd, (modulusValid_eq_not_bad _).mpr hbad⟩) hport
  | requested live =>
    cases (exec_rand_of_requested hbad hport).symm.trans h
    exact .none ⟨id, id⟩
  | answered data =>
    cases (exec_rand_of_answered hbad hport).symm.trans h
    exact .none (PortsKept.noNewRequest_of_rng_idle ⟨rfl, rfl⟩)

theorem sends_of_exec {i : Instr} (hd : decode s.cmdLast = .ok i) (h : exec i s = .next t) : s.Sends t := by
  cases i with
  | rand d m => exact sends_of_rand hb hd h
  | nonce d a b => exact sends_of_nonce hb hd h
  | sign d a b det => exact sends_of_sign hb (.inl ⟨rfl, rfl⟩) hd h
  | signCid d a b c det => exact sends_of_sign hb (.inr ⟨c, rfl, rfl⟩) hd h
  | _ =>
    obtain ⟨-, -, hports⟩ := (turned_of_exec h).portless rfl
    exact .none hports.noNewRequest

end

/-! Events. -/

/-- No transfer sends a request; an abort leaves those that are there, a reset none (R120, R131). -/
theorem State.writePlace_noNewRequest (s : State) (v : BusWord) (place : Place) : NoNewRequest s (s.writePlace v place) := by
  cases place with
  | ctrl =>
    simp only [State.writePlace, State.writeCtrl]
    split
    · exact ⟨nofun, nofun⟩
    · split
      · refine ⟨fun ht => ?_, fun ht => ?_⟩
        · rwa [State.hmReqValid, State.respond_hmacPort, State.abort_hmacPort, HmacPort.orphan_presentedRequest] at ht
        · exact (State.abort_rngReq _).symm.trans ht
      · exact ⟨id, id⟩
  | _ => exact ⟨id, id⟩

theorem Served.noNewRequest {s t : State} (h : Served s t) : NoNewRequest s t := by
  cases h with
  | written v place => exact s.writePlace_noNewRequest v place
  | ignored | answered | dropped | violates => exact ⟨id, id⟩

/-- The handshake takes the request from the signals (R121). -/
theorem HmacPort.ready_presentedRequest (p : HmacPort) : p.ready.presentedRequest = none := by cases p <;> rfl

theorem HmacPort.respond_presentedRequest (data : BitVec 256) (p : HmacPort) :
    (p.respond data).presentedRequest = p.presentedRequest := by
  cases p with
  | outstanding req live => cases live <;> rfl
  | idle | presented | answered => rfl

/-- `rng_ack` ends the request (R122). -/
theorem State.rngReq_ack (s : State) (data : BitVec 512) : State.rngReq { s with rngPort := s.rngPort.ack data } = false := by
  unfold State.rngReq
  cases s.rngPort with
  | requested live => cases live <;> rfl
  | idle | answered => rfl

/-- No event from outside makes the block send a request (R121, R122). -/
theorem State.receive_noNewRequest (s : State) (e : Input) : NoNewRequest s (s.receive e) := by
  cases e with
  | bus tr => exact (s.serve_served tr).noNewRequest
  | hmacReady =>
    refine ⟨fun ht => ?_, id⟩
    rw [State.receive, State.hmReqValid, HmacPort.ready_presentedRequest] at ht
    cases ht
  | hmacResponse data =>
    refine ⟨fun ht => ?_, id⟩
    rwa [State.receive, State.hmReqValid, HmacPort.respond_presentedRequest] at ht
  | rngAck data => exact ⟨id, fun ht => absurd ((s.rngReq_ack data).symm.trans ht) nofun⟩
  | resetPin level =>
    cases level with
    | true => exact ⟨id, id⟩
    | false => exact ⟨nofun, nofun⟩
  | turn => exact ⟨id, id⟩

theorem sends_of_step {s t : State} (h : step s = .next t) :
    ∃ rest, State.Sends { s with inputs := rest } t := by
  obtain ⟨rest, hstepped⟩ := stepped_of_step h
  refine ⟨rest, ?_⟩
  cases hstepped with
  | received e => exact .none (State.receive_noNewRequest _ e)
  | illegal => exact .none ⟨id, id⟩
  | ran i _ _ hb hd he => exact sends_of_exec hb hd he

/-! The signals. -/

/-- The messages of R102 have three lengths. -/
theorem drbgRequest_length (key v d e : Word) (k : DrbgStep) : (drbgRequest key v d e k).msg.length = 97 ∨
    (drbgRequest key v d e k).msg.length = 33 ∨ (drbgRequest key v d e k).msg.length = 32 := by
  cases k <;> simp [drbgRequest]

theorem lanes_lt_two_pow {l : List Byte} {k : Nat} (h : 8 * l.length ≤ k) : lanes l < 2 ^ k := by
  refine (lanes_lt l).trans_le ?_
  rw [show 256 = 2 ^ 8 from rfl, ← pow_mul]
  exact Nat.pow_le_pow_right (by decide) h

/-- Byte `i` of a string lies on its lane of a signal that is wide enough (R121). -/
theorem extractLsb'_lanes {l : List Byte} {width : Nat} (hfit : 8 * l.length ≤ width) {i : Nat} (hi : i < l.length) :
    (BitVec.ofNat width (lanes l)).extractLsb' (8 * i) 8 = l[i] := by
  rw [← lanes_get l i hi, BitVec.extractLsb', BitVec.toNat_ofNat, Nat.mod_eq_of_lt (lanes_lt_two_pow hfit),
    Nat.shiftRight_eq_div_pow]

/-- Above the string the signal is 0. -/
theorem getLsbD_lanes_above {l : List Byte} (width : Nat) {j : Nat} (hj : 8 * l.length ≤ j) :
    (BitVec.ofNat width (lanes l)).getLsbD j = false := by
  rw [BitVec.getLsbD_ofNat, Nat.testBit_lt_two_pow (lanes_lt_two_pow hj), Bool.and_false]

/-- Settles O30: a request that was not there has been sent by the turn of its command, and it lies on the lanes as a string. -/
theorem portsCarryTheRequestsOfTheirCommands : Obligations.PortsCarryTheRequestsOfTheirCommands := by
  refine ⟨fun s t hstep hs ht => ?_, fun s t hstep hs ht => ?_,
    fun req hlen => ⟨fun i hi => ?_, ?_, fun i hi => ?_, fun j hj => ?_⟩⟩
  · obtain ⟨rest, hsends⟩ := sends_of_step hstep
    cases hsends with
    | none h => cases hs.symm.trans (h.hmac ht)
    | hmac hruns hp d e k => exact ⟨hruns, hp, _, rfl, drbgRequest_length _ _ _ _ _⟩
    | rng _ _ => cases hs.symm.trans ht
  · obtain ⟨rest, hsends⟩ := sends_of_step hstep
    cases hsends with
    | none h => cases hs.symm.trans (h.rng ht)
    | hmac _ _ d e k => cases hs.symm.trans ht
    | rng hruns hp => exact ⟨hruns, hp⟩
  · rw [HmacRequest.keyLanes, extractLsb'_lanes (by simp) (by simpa using hi), getElem_bytes32]
  · rw [HmacRequest.lenLanes, BitVec.toNat_ofNat, Nat.mod_eq_of_lt (by omega)]
  · exact extractLsb'_lanes (by omega) hi
  · exact getLsbD_lanes_above 776 hj

end Sys2Proof.Machine
end

section
/-! Reset: the values of the reset state, and the two ways into it, the write of `CTRL` and the pin
(spec/70_reset_and_hazards.md R131-R133). -/

namespace Sys2Proof.Machine

/-! The reset state. -/

@[simp] theorem State.reset_reg (r : Reg) : State.reset.reg r = 0#256 := Vector.getElem_replicate r.isLt

@[simp] theorem State.reset_point (q : PtReg) : State.reset.point q = .inf := Vector.getElem_replicate q.isLt

/-- `PINF` has the bit of every point register set (R32). -/
theorem State.reset_controlRead_pinf : controlRead State.reset 0x020 = some 0xFF := by
  have hall : (∑ q : PtReg, 2 ^ q.val) = 0xFF := by decide
  simpa [controlRead] using hall

/-- Settles O16: the registers hold one value each, and the rest is read off the reset state. -/
theorem resetStateHasTheValuesOfR133 : Obligations.ResetStateHasTheValuesOfR133 := by
  have hpoint (q : PtReg) :
      State.reset.point q = .inf ∧ (State.reset.point q).x = 0#256 ∧ (State.reset.point q).y = 0#256 := by
    rw [State.reset_point]
    exact ⟨rfl, rfl, rfl⟩
  exact ⟨State.reset_reg, hpoint, by decide, rfl, rfl, rfl, rfl, rfl, fun _ => rfl, rfl, rfl, rfl, rfl, rfl, rfl, rfl, rfl,
    State.reset_controlRead_pinf, rfl, rfl, rfl, rfl, rfl⟩

/-- Settles O27: it is the case of `State.Inv.reset` with the pin released. -/
theorem resetStateMeetsInv : Obligations.ResetStateMeetsInv := State.Inv.reset true []

/-! The write of `CTRL` and the pin. -/

/-- The reset bit wins over the others, idle or busy (R132). -/
theorem State.writePlace_ctrl_reset {v : BusWord} (hreset : v.getLsbD 2 = true) (s : State) :
    s.writePlace v .ctrl = s.restart.respond accepted := by
  simp only [State.writePlace, State.writeCtrl, hreset, if_true]

/-- Settles O15: `CTRL` takes its write also while a command runs, and the reset bit decides what the write does. -/
theorem softResetRestoresTheResetState : Obligations.SoftResetRestoresTheResetState := by
  intro s rest v hp hi hreset
  rw [step_ctrl hp hi, State.writePlace_ctrl_reset hreset]
  rfl

theorem step_resetPin {s : State} {rest : List Input} {level : Bool} (h : s.inputs = .resetPin level :: rest) :
    step s = .next (State.setResetPin { s with inputs := rest } level) :=
  step_of_settled (by rw [State.nextTurn, h]; rfl)

theorem State.irq_of_heldInReset {s : State} (h : s.presetn = false) : s.irq = false := by
  simp [State.irq, h]

/-! Responses that no request is waiting for (R121, R122). -/

@[simp] theorem HmacPort.respond_idle (data : BitVec 256) : HmacPort.idle.respond data = .idle := rfl

@[simp] theorem RngPort.ack_idle (data : BitVec 512) : RngPort.idle.ack data = .idle := rfl

/-- Settles O17: the pin sets its level, transfers look at it first, and an idle port takes no response. -/
theorem resetPinHoldsTheBlockInReset : Obligations.ResetPinHoldsTheBlockInReset := by
  refine ⟨fun s rest hi => ?_, fun s rest tr hp hi => ⟨?_, ?_⟩, fun rest => ?_,
    fun s rest hhmac hrng => ⟨fun data hi => ?_, fun data hi => ?_⟩⟩
  · exact step_resetPin hi
  · exact step_bus_heldInReset hi hp
  · exact State.irq_of_heldInReset hp
  · exact (step_resetPin (rest := rest) rfl).trans rfl
  · rw [step_hmacResponse hi, hhmac, HmacPort.respond_idle]
  · rw [step_rngAck hi, hrng, RngPort.ack_idle]

end Sys2Proof.Machine
end
